-- ==== Sys2Proof/Word.lean ====
section
/-! DEFINITION. Word.lean: the fixed bit-vector widths of RIC (R7, R8, R16) and nothing else. -/

namespace Sys2Proof

/-- A 32-bit register value or command word (R7 `REG_W`, R8). -/
abbrev Word := BitVec 32

/-- One byte of data memory, one pixel channel, one GB7 byte (R71). -/
abbrev Byte := BitVec 8

/-- The bit pattern of an IEEE 754 binary64 datum, as CC_FIN and CC_FOUT hold it (R16, R48). -/
abbrev F64 := BitVec 64

/-- The size of the data address space in bytes (R7 `ADDR_W`, R70). -/
abbrev dataSpace : Nat := 4294967296

end Sys2Proof
end

