-- ==== Sys2Proof/Syntax.lean ====
section
/-! DEFINITION. Syntax.lean: the 33 commands of RIC, one constructor per row of spec/opcode_table.json (R2, R112).

The operands of a command are registers read at issue (R100), so a constructor carries only the OPT fields of
R109. `tgt` and `norm` of CONV3X3 keep their two bits: the value 11 of each is reserved, and WellFormed refuses it. -/

namespace Sys2Proof

/-- A RIC command with its OPT fields (R109, R112). -/
inductive Instr where
  /-- 0x00 NOP (R313). -/
  | nop
  /-- 0x10 GB7_DEC (R151). -/
  | gb7Dec
  /-- 0x11 GB7_DEC_PLANE (R152). -/
  | gb7DecPlane
  /-- 0x12 GB7_ENC (R153); FM forces the alpha mask. -/
  | gb7Enc (fm : Bool)
  /-- 0x13 GB7_ENC_INLINE (R154). -/
  | gb7EncInline (fm : Bool)
  /-- 0x14 GB7_RENDER (R156); D8 is the source depth, true for 8. -/
  | gb7Render (d8 : Bool)
  /-- 0x20 CC_SRGB_TO_LIN (R200). -/
  | ccSrgbToLin
  /-- 0x21 CC_LIN_TO_SRGB (R201). -/
  | ccLinToSrgb
  /-- 0x22 CC_LIN_TO_XYZ (R202). -/
  | ccLinToXyz
  /-- 0x23 CC_XYZ_TO_LIN (R203). -/
  | ccXyzToLin
  /-- 0x24 CC_RGB8_TO_XYZ (R204). -/
  | ccRgb8ToXyz
  /-- 0x25 CC_XYZ_TO_RGB8 (R205). -/
  | ccXyzToRgb8
  /-- 0x26 CC_XYZ_TO_LAB (R206). -/
  | ccXyzToLab
  /-- 0x27 CC_LAB_TO_XYZ (R207). -/
  | ccLabToXyz
  /-- 0x28 CC_LAB_TO_LCH (R208). -/
  | ccLabToLch
  /-- 0x29 CC_LCH_TO_LAB (R209). -/
  | ccLchToLab
  /-- 0x2A CC_LIN_TO_OKLAB (R210). -/
  | ccLinToOklab
  /-- 0x2B CC_OKLAB_TO_LIN (R211). -/
  | ccOklabToLin
  /-- 0x2C CC_RGB8_TO_OKLAB (R212). -/
  | ccRgb8ToOklab
  /-- 0x2D CC_OKLAB_TO_RGB8 (R213). -/
  | ccOklabToRgb8
  /-- 0x2E CC_OKLAB_TO_OKLCH (R214). -/
  | ccOklabToOklch
  /-- 0x2F CC_OKLCH_TO_OKLAB (R215). -/
  | ccOklchToOklab
  /-- 0x30 CC_GB7_TO_RGB8 (R216). -/
  | ccGb7ToRgb8
  /-- 0x31 CC_RGB8_TO_GB7 (R217). -/
  | ccRgb8ToGb7
  /-- 0x40 COMPOSITE (R239). -/
  | composite
  /-- 0x50 RS_RGBA_NEAREST (R255). -/
  | rsRgbaNearest
  /-- 0x51 RS_RGBA_BILINEAR (R256). -/
  | rsRgbaBilinear
  /-- 0x52 RS_GRAY_NEAREST (R257). -/
  | rsGrayNearest (d8 : Bool)
  /-- 0x53 RS_GRAY_BILINEAR (R258). -/
  | rsGrayBilinear (d8 : Bool)
  /-- 0x60 LUT_BUILD_RAMP (R273). -/
  | lutBuildRamp
  /-- 0x61 LUT_BUILD_FLAT (R274). -/
  | lutBuildFlat
  /-- 0x62 LUT_APPLY (R275): target alpha, and which of the four LUTs are present. -/
  | lutApply (ta hr hg hb ha : Bool)
  /-- 0x70 CONV3X3 (R295): TGT, NORM and APASS. -/
  | conv3x3 (tgt norm : BitVec 2) (apass : Bool)
  deriving DecidableEq, Repr

end Sys2Proof
end

