-- ==== Sys2Proof/WellFormed.lean ====
section
/-! DEFINITION. WellFormed.lean: which terms of Instr stand for a command word (R102, R109).

Every OPT field of one bit admits both of its values. Only CONV3X3 has reserved field values: TGT = 11 and NORM = 11. -/

namespace Sys2Proof

/-- TGT = 11 is reserved (R109). -/
def tgtDefined (tgt : BitVec 2) : Bool := tgt != 0b11#2

/-- NORM = 11 is reserved (R109). -/
def normDefined (norm : BitVec 2) : Bool := norm != 0b11#2

/-- The instruction holds no reserved field value (R102, R111). -/
def Instr.wellFormed : Instr → Bool
  | .conv3x3 tgt norm _ => tgtDefined tgt && normDefined norm
  | .nop | .gb7Dec | .gb7DecPlane | .gb7Enc _ | .gb7EncInline _ | .gb7Render _
  | .ccSrgbToLin | .ccLinToSrgb | .ccLinToXyz | .ccXyzToLin | .ccRgb8ToXyz | .ccXyzToRgb8
  | .ccXyzToLab | .ccLabToXyz | .ccLabToLch | .ccLchToLab | .ccLinToOklab | .ccOklabToLin
  | .ccRgb8ToOklab | .ccOklabToRgb8 | .ccOklabToOklch | .ccOklchToOklab | .ccGb7ToRgb8 | .ccRgb8ToGb7
  | .composite | .rsRgbaNearest | .rsRgbaBilinear | .rsGrayNearest _ | .rsGrayBilinear _
  | .lutBuildRamp | .lutBuildFlat | .lutApply _ _ _ _ _ => true

/-- One row of the opcode table: the word's fixed bits and which bits are fixed. -/
structure CommandRow where
  bits : Word
  mask : Word
  deriving DecidableEq, Repr

/-- The match and mask of every row of the opcode table, in its order (R112). -/
def commandRows : List CommandRow := [
   ⟨0x00000000#32, 0xFFFFFFFF#32⟩, ⟨0x00000010#32, 0xFFFFFFFF#32⟩, ⟨0x00000011#32, 0xFFFFFFFF#32⟩,
   ⟨0x00000012#32, 0xFFFFFEFF#32⟩, ⟨0x00000013#32, 0xFFFFFEFF#32⟩, ⟨0x00000014#32, 0xFFFFFEFF#32⟩,
   ⟨0x00000020#32, 0xFFFFFFFF#32⟩, ⟨0x00000021#32, 0xFFFFFFFF#32⟩, ⟨0x00000022#32, 0xFFFFFFFF#32⟩,
   ⟨0x00000023#32, 0xFFFFFFFF#32⟩, ⟨0x00000024#32, 0xFFFFFFFF#32⟩, ⟨0x00000025#32, 0xFFFFFFFF#32⟩,
   ⟨0x00000026#32, 0xFFFFFFFF#32⟩, ⟨0x00000027#32, 0xFFFFFFFF#32⟩, ⟨0x00000028#32, 0xFFFFFFFF#32⟩,
   ⟨0x00000029#32, 0xFFFFFFFF#32⟩, ⟨0x0000002A#32, 0xFFFFFFFF#32⟩, ⟨0x0000002B#32, 0xFFFFFFFF#32⟩,
   ⟨0x0000002C#32, 0xFFFFFFFF#32⟩, ⟨0x0000002D#32, 0xFFFFFFFF#32⟩, ⟨0x0000002E#32, 0xFFFFFFFF#32⟩,
   ⟨0x0000002F#32, 0xFFFFFFFF#32⟩, ⟨0x00000030#32, 0xFFFFFFFF#32⟩, ⟨0x00000031#32, 0xFFFFFFFF#32⟩,
   ⟨0x00000040#32, 0xFFFFFFFF#32⟩, ⟨0x00000050#32, 0xFFFFFFFF#32⟩, ⟨0x00000051#32, 0xFFFFFFFF#32⟩,
   ⟨0x00000052#32, 0xFFFFFEFF#32⟩, ⟨0x00000053#32, 0xFFFFFEFF#32⟩, ⟨0x00000060#32, 0xFFFFFFFF#32⟩,
   ⟨0x00000061#32, 0xFFFFFFFF#32⟩, ⟨0x00000062#32, 0xFFFFE0FF#32⟩, ⟨0x00000070#32, 0xFFFFE0FF#32⟩]

/-- The word matches the row's fixed bits. -/
def CommandRow.accepts (r : CommandRow) (w : Word) : Bool := w &&& r.mask == r.bits

/-- R111, on the word: some row's fixed bits match (so RES = 0, OP is in the table and every OPT bit that R109 does
not define is 0), and a CONV3X3 word holds no reserved field value. -/
def wordWellFormed (w : Word) : Bool :=
  commandRows.any (fun r => r.accepts w) &&
    (w.extractLsb' 0 8 != 0x70#8 || (tgtDefined (w.extractLsb' 8 2) && normDefined (w.extractLsb' 10 2)))

end Sys2Proof
end

