-- ==== Sys2Proof/Decode.lean ====
section
/-! DEFINITION. Decode.lean: the decoder of a CMD word and the encoder beside it (R100 to R103, R109, R111, R112, R116). -/

namespace Sys2Proof

/-- Why a word does not decode. Each of the four ends the command with BAD_CMD (R101 to R103, R337). -/
inductive DecodeError where
  /-- RES is not 0 (R103). -/
  | reservedBits
  /-- OP is not in the table (R101). -/
  | illegalOpcode
  /-- An OPT bit that R109 does not define for the command is 1 (R102). -/
  | undefinedOption
  /-- TGT or NORM holds its reserved value (R102, R109). -/
  | reservedField
  deriving DecidableEq, Repr

/-- `OP = CMD[7:0]` (R101). -/
def opField (w : Word) : Byte := w.extractLsb' 0 8

/-- `OPT = CMD[15:8]` (R102). -/
def optField (w : Word) : Byte := w.extractLsb' 8 8

/-- `RES = CMD[31:16]` (R103). -/
def resField (w : Word) : BitVec 16 := w.extractLsb' 16 16

/-- A command with no OPT field: OPT must be 0 (R109). -/
def withoutOption (i : Instr) (opt : Byte) : Except DecodeError Instr :=
  if opt = 0#8 then .ok i else .error .undefinedOption

/-- A command with the one OPT bit 0; bits 7:1 must be 0 (R109). -/
def withOptionBit (f : Bool → Instr) (opt : Byte) : Except DecodeError Instr :=
  if opt &&& 0xFE#8 = 0#8 then .ok (f (opt.getLsbD 0)) else .error .undefinedOption

/-- LUT_APPLY: TA, HR, HG, HB, HA in bits 0 to 4; bits 7:5 must be 0 (R109). -/
def decodeLutApply (opt : Byte) : Except DecodeError Instr :=
  if opt &&& 0xE0#8 = 0#8 then
    .ok (.lutApply (opt.getLsbD 0) (opt.getLsbD 1) (opt.getLsbD 2) (opt.getLsbD 3) (opt.getLsbD 4))
  else .error .undefinedOption

/-- CONV3X3: TGT in bits 1:0, NORM in bits 3:2, APASS in bit 4; bits 7:5 must be 0 (R109). -/
def decodeConv3x3 (opt : Byte) : Except DecodeError Instr :=
  if opt &&& 0xE0#8 = 0#8 then
    if tgtDefined (opt.extractLsb' 0 2) && normDefined (opt.extractLsb' 2 2) then
      .ok (.conv3x3 (opt.extractLsb' 0 2) (opt.extractLsb' 2 2) (opt.getLsbD 4))
    else .error .reservedField
  else .error .undefinedOption

/-- The opcode map of R112. -/
def decodeOp (op opt : Byte) : Except DecodeError Instr :=
  match op with
  | 0x00#8 => withoutOption .nop opt
  | 0x10#8 => withoutOption .gb7Dec opt
  | 0x11#8 => withoutOption .gb7DecPlane opt
  | 0x12#8 => withOptionBit .gb7Enc opt
  | 0x13#8 => withOptionBit .gb7EncInline opt
  | 0x14#8 => withOptionBit .gb7Render opt
  | 0x20#8 => withoutOption .ccSrgbToLin opt
  | 0x21#8 => withoutOption .ccLinToSrgb opt
  | 0x22#8 => withoutOption .ccLinToXyz opt
  | 0x23#8 => withoutOption .ccXyzToLin opt
  | 0x24#8 => withoutOption .ccRgb8ToXyz opt
  | 0x25#8 => withoutOption .ccXyzToRgb8 opt
  | 0x26#8 => withoutOption .ccXyzToLab opt
  | 0x27#8 => withoutOption .ccLabToXyz opt
  | 0x28#8 => withoutOption .ccLabToLch opt
  | 0x29#8 => withoutOption .ccLchToLab opt
  | 0x2A#8 => withoutOption .ccLinToOklab opt
  | 0x2B#8 => withoutOption .ccOklabToLin opt
  | 0x2C#8 => withoutOption .ccRgb8ToOklab opt
  | 0x2D#8 => withoutOption .ccOklabToRgb8 opt
  | 0x2E#8 => withoutOption .ccOklabToOklch opt
  | 0x2F#8 => withoutOption .ccOklchToOklab opt
  | 0x30#8 => withoutOption .ccGb7ToRgb8 opt
  | 0x31#8 => withoutOption .ccRgb8ToGb7 opt
  | 0x40#8 => withoutOption .composite opt
  | 0x50#8 => withoutOption .rsRgbaNearest opt
  | 0x51#8 => withoutOption .rsRgbaBilinear opt
  | 0x52#8 => withOptionBit .rsGrayNearest opt
  | 0x53#8 => withOptionBit .rsGrayBilinear opt
  | 0x60#8 => withoutOption .lutBuildRamp opt
  | 0x61#8 => withoutOption .lutBuildFlat opt
  | 0x62#8 => decodeLutApply opt
  | 0x70#8 => decodeConv3x3 opt
  | _ => .error .illegalOpcode

/-- Decode is total: a word is one command or BAD_CMD, and the decoder needs nothing but the word (R111, R114). -/
def decode (w : Word) : Except DecodeError Instr :=
  if resField w = 0#16 then decodeOp (opField w) (optField w) else .error .reservedBits

/-- A bit of the encoded word. -/
def optionBit (b : Bool) (position : Nat) : Word := if b then 1#32 <<< position else 0#32

/-- The command word `OP | (OPT << 8)` of an instruction (R116). -/
def encode : Instr → Word
  | .nop => 0x00000000#32
  | .gb7Dec => 0x00000010#32
  | .gb7DecPlane => 0x00000011#32
  | .gb7Enc fm => 0x00000012#32 ||| optionBit fm 8
  | .gb7EncInline fm => 0x00000013#32 ||| optionBit fm 8
  | .gb7Render d8 => 0x00000014#32 ||| optionBit d8 8
  | .ccSrgbToLin => 0x00000020#32
  | .ccLinToSrgb => 0x00000021#32
  | .ccLinToXyz => 0x00000022#32
  | .ccXyzToLin => 0x00000023#32
  | .ccRgb8ToXyz => 0x00000024#32
  | .ccXyzToRgb8 => 0x00000025#32
  | .ccXyzToLab => 0x00000026#32
  | .ccLabToXyz => 0x00000027#32
  | .ccLabToLch => 0x00000028#32
  | .ccLchToLab => 0x00000029#32
  | .ccLinToOklab => 0x0000002A#32
  | .ccOklabToLin => 0x0000002B#32
  | .ccRgb8ToOklab => 0x0000002C#32
  | .ccOklabToRgb8 => 0x0000002D#32
  | .ccOklabToOklch => 0x0000002E#32
  | .ccOklchToOklab => 0x0000002F#32
  | .ccGb7ToRgb8 => 0x00000030#32
  | .ccRgb8ToGb7 => 0x00000031#32
  | .composite => 0x00000040#32
  | .rsRgbaNearest => 0x00000050#32
  | .rsRgbaBilinear => 0x00000051#32
  | .rsGrayNearest d8 => 0x00000052#32 ||| optionBit d8 8
  | .rsGrayBilinear d8 => 0x00000053#32 ||| optionBit d8 8
  | .lutBuildRamp => 0x00000060#32
  | .lutBuildFlat => 0x00000061#32
  | .lutApply ta hr hg hb ha =>
      0x00000062#32 ||| optionBit ta 8 ||| optionBit hr 9 ||| optionBit hg 10 ||| optionBit hb 11 ||| optionBit ha 12
  | .conv3x3 tgt norm apass =>
      0x00000070#32 ||| (tgt.setWidth 32 <<< 8) ||| (norm.setWidth 32 <<< 10) ||| optionBit apass 12

/-- The command word of a row of the opcode table: a command is one 32-bit word (R100), so every bit above it
must be 0. -/
def tableCommandWord (nbits w : Nat) : Option Word :=
  if w % 2 ^ nbits < 2 ^ 32 then some (BitVec.ofNat 32 (w % 2 ^ nbits)) else none

/-- What the decoder reads from the bits `w` of a table row of `nbits` bits. -/
def decodeTableWord (nbits w : Nat) : Option Instr :=
  match tableCommandWord nbits w with
  | none => none
  | some word =>
    match decode word with
    | .ok i => some i
    | .error _ => none

end Sys2Proof
end

