-- ==== Sys2Proof/Config.lean ====
section
/-! DEFINITION. Config.lean: what the spec leaves to an implementation, as constants with no body.

* The configuration functions of R17 (OPEN parameters, decision D13).
* The "any value" draws of R89, R334, R335 and R372, and the bit pattern of a NaN result, which IEEE 754 and
  R16 leave open. A free value is one of these constants applied to a draw number that State counts, or to
  the operands of the operation.

The platform parameters that are plain data (`BASE` and `MemOK`, R7) are in `Machine.Platform`, a field of State
that no step changes, so that a statement about every state is a statement about every platform. -/

namespace Sys2Proof

/-- The four binary64 operations of R16. -/
inductive FloatOp where
  | add | sub | mul | div
  deriving DecidableEq, Repr

namespace Config

/-- `POW(x, y)` of R17: OPEN, only its dependence on the operands is known. -/
opaque pow : F64 → F64 → F64

/-- `CBRT(x)` of R17. -/
opaque cbrt : F64 → F64

/-- `HYPOT(x, y)` of R17. -/
opaque hypot : F64 → F64 → F64

/-- `ATAN2(y, x)` of R17, in radians. -/
opaque atan2 : F64 → F64 → F64

/-- `SIN(x)` of R17. -/
opaque sin : F64 → F64

/-- `COS(x)` of R17. -/
opaque cos : F64 → F64

/-- Free value: which NaN pattern an operation delivers when its result is a NaN (assumption 4). -/
opaque nanPattern : FloatOp → F64 → F64 → F64

/-- Free value: the byte drawn at a draw number for a data address (R89, R334, R372: "any value", drawn per byte). -/
opaque freeByte : Nat → Nat → Byte

/-- Free value: a word drawn at a draw number; the second argument tells apart several words of one draw (R89). -/
opaque freeWord : Nat → Nat → Word

/-- Free value: which of the failing addresses a data-phase BUS_ERROR reports at a draw number (R335). -/
opaque freeIndex : Nat → Nat

end Config
end Sys2Proof
end

