-- ==== Sys2Proof/Machine/Arith.lean ====
section
/-! DEFINITION. Machine/Arith.lean: the exact rational arithmetic of the pixel rules (R10 to R12) and the value of a
binary32 word (R15). -/

namespace Sys2Proof.Machine

/-- R11: `round(q) = floor(q + 1/2)`, ties toward plus infinity. -/
def roundHalfUp (q : ℚ) : Int := (q + 1 / 2).floor

/-- R12 on integers. -/
def clampInt (v lo hi : Int) : Int := min hi (max lo v)

/-- R12 on rationals. -/
def clampRat (q lo hi : ℚ) : ℚ := min hi (max lo q)

/-- R12: `u8(q) = clamp(round(q), 0, 255)`. -/
def u8 (q : ℚ) : Byte := BitVec.ofInt 8 (clampInt (roundHalfUp q) 0 255)

/-- R12: `u7(q) = clamp(round(q), 0, 127)`, as a byte with bit 7 clear. -/
def u7 (q : ℚ) : Byte := BitVec.ofInt 8 (clampInt (roundHalfUp q) 0 127)

/-- The numeric value of a byte in exact arithmetic (R10). -/
def byteRat (b : Byte) : ℚ := (b.toNat : ℚ)

/-- An IEEE 754 binary32 datum (R15); `-0` has value 0. -/
inductive Binary32 where
  | nan
  | infinity (negative : Bool)
  | finite (value : ℚ)
  deriving DecidableEq, Repr

/-- Sign bit 31 of a binary32 word. -/
def binary32Sign (w : Word) : Bool := w.getLsbD 31

/-- Exponent field 30:23. -/
def binary32Exponent (w : Word) : Nat := (w.extractLsb' 23 8).toNat

/-- Fraction field 22:0. -/
def binary32Fraction (w : Word) : Nat := (w.extractLsb' 0 23).toNat

/-- The magnitude of a finite binary32 word; subnormals keep their exact value (R15). -/
def binary32Magnitude (w : Word) : ℚ :=
  if binary32Exponent w = 0 then (binary32Fraction w : ℚ) / 2 ^ 149
  else (((2 ^ 23 + binary32Fraction w) * 2 ^ binary32Exponent w : Nat) : ℚ) / 2 ^ 150

/-- R15: the datum of a 32-bit word. -/
def binary32 (w : Word) : Binary32 :=
  if binary32Exponent w = 255 then
    if binary32Fraction w = 0 then .infinity (binary32Sign w) else .nan
  else .finite (if binary32Sign w then -binary32Magnitude w else binary32Magnitude w)

/-- The value of a finite binary32 word, 0 for the others (CONV3X3 raises BAD_NUM before it uses one, R294). -/
def binary32Value (w : Word) : ℚ :=
  match binary32 w with
  | .finite q => q
  | .nan => 0
  | .infinity _ => 0

/-- R294: exponent 0xFF, an infinity or a NaN. -/
def binary32NonFinite (w : Word) : Bool := binary32Exponent w == 255

end Sys2Proof.Machine
end

