-- ==== Sys2Proof/Machine/Float64.lean ====
section
/-! DEFINITION. Machine/Float64.lean: IEEE 754 binary64 as R16 uses it: the data a pattern stands for, rounding to
nearest with ties to even, the four operations and the comparisons. The exception flags are recorded nowhere (R16). -/

namespace Sys2Proof.Machine

/-- A binary64 datum (R16, R48). -/
inductive Binary64 where
  | nan
  | infinity (negative : Bool)
  | finite (negative : Bool) (magnitude : ℚ)
  deriving DecidableEq, Repr

/-- Sign bit 63 (R48). -/
def f64Sign (b : F64) : Bool := b.getLsbD 63

/-- Exponent bits 62:52 (R48). -/
def f64Exponent (b : F64) : Nat := (b.extractLsb' 52 11).toNat

/-- Fraction bits 51:0 (R48). -/
def f64Fraction (b : F64) : Nat := (b.extractLsb' 0 52).toNat

/-- The magnitude of a finite pattern. -/
def f64Magnitude (b : F64) : ℚ :=
  if f64Exponent b = 0 then (f64Fraction b : ℚ) / 2 ^ 1074
  else (((2 ^ 52 + f64Fraction b) * 2 ^ f64Exponent b : Nat) : ℚ) / 2 ^ 1075

/-- The datum of a 64-bit pattern (R48). -/
def binary64 (b : F64) : Binary64 :=
  if f64Exponent b = 2047 then
    if f64Fraction b = 0 then .infinity (f64Sign b) else .nan
  else .finite (f64Sign b) (f64Magnitude b)

/-- A magnitude with its sign. -/
def signedRat (negative : Bool) (q : ℚ) : ℚ := if negative then -q else q

/-- A pattern from its sign and its low 63 bits. -/
def f64Pattern (negative : Bool) (low : Nat) : F64 := BitVec.ofNat 64 (if negative then 2 ^ 63 + low else low)

/-- The low 63 bits of an infinity. -/
def f64InfinityLow : Nat := 2047 * 2 ^ 52

/-- An infinity. -/
def f64Infinity (negative : Bool) : F64 := f64Pattern negative f64InfinityLow

/-- The pattern is a NaN: exponent all ones and a fraction that is not 0. -/
def f64IsNaN (b : F64) : Bool := f64Exponent b == 2047 && f64Fraction b != 0

/-- The largest `e` with `2^e <= n/d`, for positive `n` and `d`. -/
def floorLog2 (n d : Nat) : Int :=
  let guess : Int := (n.log2 : Int) - (d.log2 : Int)
  if d * 2 ^ guess.toNat ≤ n * 2 ^ (-guess).toNat then guess else guess - 1

/-- `n/d` rounded to an integer, to nearest with ties to even. -/
def divRoundEven (n d : Nat) : Nat :=
  let quotient := n / d
  let remainder := n % d
  if 2 * remainder < d then quotient
  else if d < 2 * remainder then quotient + 1
  else if quotient % 2 = 0 then quotient else quotient + 1

/-- The low 63 bits of the binary64 nearest a positive rational `n/d`: the significand is taken in units of the last
place `2^unit`, no smaller than `2^-1074`, and a value that rounds to `2^1024` or more is an infinity. -/
def f64RoundLow (n d : Nat) : Nat :=
  let unit : Int := max (floorLog2 n d - 52) (-1074)
  let significand := divRoundEven (n * 2 ^ (-unit).toNat) (d * 2 ^ unit.toNat)
  min f64InfinityLow ((unit + 1074).toNat * 2 ^ 52 + significand)

/-- The binary64 nearest a rational, ties to even (`fl` of R16); a zero takes the sign given. -/
def f64Round (zeroNegative : Bool) (q : ℚ) : F64 :=
  if q = 0 then f64Pattern zeroNegative 0
  else f64Pattern (q < 0) (f64RoundLow q.num.natAbs q.den)

/-- `fl(q)` of R16: what a decimal literal of a binary64 rule stands for. -/
def fl (q : ℚ) : F64 := f64Round false q

/-- A NaN result. Which NaN pattern is a free value: any (assumption 4). -/
def nanResult (op : FloatOp) (a b : F64) : F64 :=
  if f64IsNaN (Config.nanPattern op a b) then Config.nanPattern op a b else 0x7FF8000000000000#64

/-- Binary64 `+` (R16). An exact zero sum is `-0` only when both operands are negative. -/
def fadd (a b : F64) : F64 :=
  match binary64 a, binary64 b with
  | .nan, _ => nanResult .add a b
  | _, .nan => nanResult .add a b
  | .infinity s, .infinity t => if s = t then f64Infinity s else nanResult .add a b
  | .infinity s, .finite _ _ => f64Infinity s
  | .finite _ _, .infinity t => f64Infinity t
  | .finite s x, .finite t y => f64Round (s && t) (signedRat s x + signedRat t y)

/-- Binary64 `-` (R16): the sum with the second operand's sign turned. -/
def fsub (a b : F64) : F64 :=
  match binary64 a, binary64 b with
  | .nan, _ => nanResult .sub a b
  | _, .nan => nanResult .sub a b
  | .infinity s, .infinity t => if s = !t then f64Infinity s else nanResult .sub a b
  | .infinity s, .finite _ _ => f64Infinity s
  | .finite _ _, .infinity t => f64Infinity (!t)
  | .finite s x, .finite t y => f64Round (s && !t) (signedRat s x - signedRat t y)

/-- Binary64 `×` (R16). -/
def fmul (a b : F64) : F64 :=
  match binary64 a, binary64 b with
  | .nan, _ => nanResult .mul a b
  | _, .nan => nanResult .mul a b
  | .infinity s, .infinity t => f64Infinity (s != t)
  | .infinity s, .finite t y => if y = 0 then nanResult .mul a b else f64Infinity (s != t)
  | .finite s x, .infinity t => if x = 0 then nanResult .mul a b else f64Infinity (s != t)
  | .finite s x, .finite t y => f64Round (s != t) (signedRat s x * signedRat t y)

/-- Binary64 `÷` (R16). -/
def fdiv (a b : F64) : F64 :=
  match binary64 a, binary64 b with
  | .nan, _ => nanResult .div a b
  | _, .nan => nanResult .div a b
  | .infinity _, .infinity _ => nanResult .div a b
  | .infinity s, .finite t _ => f64Infinity (s != t)
  | .finite s _, .infinity t => f64Pattern (s != t) 0
  | .finite s x, .finite t y =>
    if y = 0 then (if x = 0 then nanResult .div a b else f64Infinity (s != t))
    else f64Round (s != t) (signedRat s x / signedRat t y)

/-- Binary64 `<`: false when either operand is NaN; `-0` equals `+0` (R16). -/
def flt (a b : F64) : Bool :=
  match binary64 a, binary64 b with
  | .nan, _ => false
  | _, .nan => false
  | .infinity s, .infinity t => s && !t
  | .infinity s, .finite _ _ => s
  | .finite _ _, .infinity t => !t
  | .finite s x, .finite t y => decide (signedRat s x < signedRat t y)

/-- Binary64 `<=` (R16). -/
def fle (a b : F64) : Bool :=
  match binary64 a, binary64 b with
  | .nan, _ => false
  | _, .nan => false
  | .infinity s, .infinity t => s || !t
  | .infinity s, .finite _ _ => s
  | .finite _ _, .infinity t => !t
  | .finite s x, .finite t y => decide (signedRat s x ≤ signedRat t y)

/-- Binary64 `>` (R16). -/
def fgt (a b : F64) : Bool := flt b a

/-- Binary64 `>=` (R16). -/
def fge (a b : F64) : Bool := fle b a

end Sys2Proof.Machine
end

