-- ==== Sys2Proof/Machine/State.lean ====
section
/-! DEFINITION. Machine/State.lean: the state of RIC as plain data, its reset value, and the two ways a step stops.

The registers are those of R30, the engine phase is R56, data memory is R70 and R71. Four groups of fields are the
MODEL's own and are marked so: the platform parameters of R7 (which no step changes), the queue of what happens
around RIC next, the last value a host read returned, and the number of free values drawn so far. -/

namespace Sys2Proof.Machine

/-- Data memory (R70, R71): the bytes that differ from what an unlisted address reads as, addresses rising. -/
abbrev Memory := List Host.Cell

/-- The engine phase of R56. The latched word of `Busy(cmd)` is the CMD register, which no write changes while
BUSY is 1 (R42, R51), so it is not stored twice. -/
inductive Phase where
  /-- No command is in flight. -/
  | idle
  /-- The command that CMD encodes is in flight. `raced` is `none` while the host keeps R89. Once the host has
  written a byte of a region the command reads or writes, it holds data memory as it stood before the first such
  write, which on the command's regions is data memory at issue (R91). -/
  | busy (raced : Option Memory)
  deriving DecidableEq, Repr

/-- What the platform fixes for one RIC (R7, R373). The MODEL's own field of State: plain data that no step changes. -/
structure Platform where
  /-- `BASE`: the host-bus address of the register window (R70; OPEN, decision D4). -/
  base : Nat
  /-- `MemOK` (R72; OPEN, decision D6), by the ranges (first address, length) of bytes that do NOT respond. -/
  holes : List (Nat × Nat)
  deriving DecidableEq, Repr

/-- What can happen next around RIC: the transitions of R318 that the host or the platform makes, and the engine's. -/
inductive Event where
  /-- The engine goes on: a command in flight completes (R311, R312); an idle engine does nothing. -/
  | engine
  /-- A host write on the register bus: host-bus address, access width in bits, value (R52). -/
  | busWrite (address width : Nat) (value : Word)
  /-- A host read on the register bus: host-bus address, access width in bits (R52). -/
  | busRead (address width : Nat)
  /-- A host write of one data-memory byte, by the host's own means (R70, R87, R318). -/
  | memWrite (address : Nat) (value : Byte)
  /-- A host read of one data-memory byte (R70, R88, R89). -/
  | memRead (address : Nat)
  /-- The platform asserts RIC's hardware reset input (R370, R371). -/
  | resetAssert
  /-- The platform releases it (R371). -/
  | resetRelease
  deriving DecidableEq, Repr

/-- The whole state of RIC. -/
structure State where
  /-- CTRL.IE (R32, R33). -/
  ie : Bool
  /-- STATUS.DONE (R37). -/
  done : Bool
  /-- STATUS.ERR (R38). -/
  err : Bool
  /-- STATUS.OVR (R39). -/
  ovr : Bool
  /-- STATUS.ERRCODE (R40). -/
  errcode : Byte
  /-- ERRINFO (R41). -/
  errinfo : Word
  /-- CMD, the last latched command word (R42). -/
  cmd : Word
  /-- RESULT0 (R43). -/
  result0 : Word
  /-- RESULT1 (R43). -/
  result1 : Word
  /-- ARG0 to ARG7 (R44). -/
  args : Vector Word 8
  /-- K0 to K8, binary32 patterns (R45). -/
  kernel : Vector Word 9
  /-- CC_PIXIN (R46). -/
  pixin : Word
  /-- CC_PIXOUT (R47). -/
  pixout : Word
  /-- CC_FIN0 to CC_FIN2, each HI and LO half as one 64-bit pattern (R48). -/
  fin : Vector F64 3
  /-- CC_FOUT0 to CC_FOUT2 (R49). -/
  fout : Vector F64 3
  /-- The engine phase; STATUS.BUSY is 1 exactly when it is `busy` (R36, R56). -/
  phase : Phase
  /-- The hardware reset input is asserted (R371). -/
  inReset : Bool
  /-- Data memory (R70). -/
  mem : Memory
  /-- MODEL's own: the platform parameters (R7). -/
  platform : Platform
  /-- MODEL's own: what happens around RIC next, oldest first. -/
  events : List Event
  /-- MODEL's own: the value that the host's last read returned. -/
  readData : Word
  /-- MODEL's own: how many free values have been drawn. -/
  draws : Nat
  deriving DecidableEq, Repr

/-- Why a step stops with a fault. -/
inductive Fault where
  /-- Raised by the host's own access to a data address at or above 2^32, which does not exist (R70, R71). Safe. -/
  | noDataByte (address : Nat)
  deriving DecidableEq, Repr

/-- Why a step has no transition. -/
inductive Refusal where
  /-- Raised by exec for an instruction with no meaning yet (none is left). Safe. -/
  | notModelled (mnemonic : String)
  /-- Raised by a register-port access that is not 32 bits wide or not at a word-aligned offset: R52 and S11 of
  93_implementation_defined.md say that a model refuses it. Safe. -/
  | portAccess (address width : Nat)
  /-- Raised by a register-bus access outside the 0x100-byte window at BASE: it is no access to RIC (R30, R70). Safe. -/
  | outsideWindow (address : Nat)
  deriving DecidableEq, Repr

/-- The state after reset (R58, R371): every register at the value R30 gives, the engine idle, data memory with
nothing listed, no event waiting, and a platform on which every data byte responds (assumptions 1, 2, 7, 9). -/
def State.reset : State where
  ie := false
  done := false
  err := false
  ovr := false
  errcode := 0
  errinfo := 0
  cmd := 0
  result0 := 0
  result1 := 0
  args := Vector.replicate 8 0
  kernel := Vector.replicate 9 0
  pixin := 0
  pixout := 0
  fin := Vector.replicate 3 0
  fout := Vector.replicate 3 0
  phase := .idle
  inReset := false
  mem := []
  platform := { base := 0, holes := [] }
  events := []
  readData := 0
  draws := 0

end Sys2Proof.Machine
end

