-- ==== Sys2Proof/Machine/Errors.lean ====
section
/-! DEFINITION. Machine/Errors.lean: the command errors of R331 and their information words (R335). -/

namespace Sys2Proof.Machine

/-- The regions an ADDR_RANGE or OVERLAP error names (R335). -/
inductive RegionCode where
  | src
  | dst
  | table
  | lut (channel : Fin 4)
  | layer (index : Nat)
  deriving DecidableEq, Repr

/-- The errors a command can raise (R331), each with what its information word is made from (R335). -/
inductive CmdError where
  | badCmd (word : Word)
  | zeroArea
  | dimRange
  | addrRange (region : RegionCode)
  | overlap (region : RegionCode)
  | badNum (k : Nat)
  | badDesc (index : Nat)
  | dstSmall (needed : Nat)
  | busError (address : Nat)
  | gb7Magic
  | gb7Reserved (value : Nat)
  | gb7Trunc (needed : Nat)
  deriving DecidableEq, Repr

/-- The error codes of R331. -/
def CmdError.code : CmdError → Byte
  | .badCmd _ => 0x01#8
  | .zeroArea => 0x02#8
  | .dimRange => 0x03#8
  | .addrRange _ => 0x04#8
  | .overlap _ => 0x05#8
  | .badNum _ => 0x06#8
  | .badDesc _ => 0x07#8
  | .dstSmall _ => 0x08#8
  | .busError _ => 0x09#8
  | .gb7Magic => 0x10#8
  | .gb7Reserved _ => 0x11#8
  | .gb7Trunc _ => 0x12#8

/-- A byte count "saturated to 0xFFFFFFFF if it is larger" (R335). -/
def saturate32 (n : Nat) : Word := BitVec.ofNat 32 (min n 0xFFFFFFFF)

/-- The region codes of R335: the code in bits 7:0, and for LAYER the index in bits 31:8. What bits 31:8 hold for an
index of 2^24 or more, which does not fit them, is not stated: they are the free value (assumption 6). -/
def RegionCode.word (free : Word) : RegionCode → Word
  | .src => 0#32
  | .dst => 1#32
  | .table => 2#32
  | .lut c => BitVec.ofNat 32 (3 + c.val)
  | .layer i => if i < 2 ^ 24 then BitVec.ofNat 32 (7 + i * 256) else (free &&& 0xFFFFFF00#32) ||| 7#32

/-- The information word of an error (R335). -/
def CmdError.info (free : Word) : CmdError → Word
  | .badCmd w => w
  | .zeroArea => 0#32
  | .dimRange => 0#32
  | .addrRange r => r.word free
  | .overlap r => r.word free
  | .badNum k => BitVec.ofNat 32 k
  | .badDesc i => BitVec.ofNat 32 i
  | .dstSmall n => saturate32 n
  | .busError a => BitVec.ofNat 32 a
  | .gb7Magic => 0#32
  | .gb7Reserved v => BitVec.ofNat 32 v
  | .gb7Trunc n => saturate32 n

end Sys2Proof.Machine
end

