-- ==== Sys2Proof/Machine/Flags.lean ====
section
/-! DEFINITION. Machine/Flags.lean: STATUS, CTRL and the interrupt line, and every rule that sets or clears a flag
(R32 to R42, R310, R312, R332, R340). -/

namespace Sys2Proof.Machine

/-- STATUS.BUSY: a command is in flight (R36). -/
def State.busy (s : State) : Bool :=
  match s.phase with
  | .idle => false
  | .busy _ => true

/-- One bit of a register word. -/
def flagBit (b : Bool) (position : Nat) : Word := if b then 1#32 <<< position else 0#32

/-- The word a read of STATUS returns (R35): BUSY, DONE, ERR, OVR in bits 0 to 3, ERRCODE in bits 15:8, 0 elsewhere. -/
def State.statusWord (s : State) : Word :=
  flagBit s.busy 0 ||| flagBit s.done 1 ||| flagBit s.err 2 ||| flagBit s.ovr 3 ||| (s.errcode.setWidth 32 <<< 8)

/-- The word a read of CTRL returns (R32): IE in bit 0, SRST and the reserved bits read 0. -/
def State.ctrlWord (s : State) : Word := flagBit s.ie 0

/-- The interrupt output (R33, R57, R340). -/
def State.irq (s : State) : Bool := s.ie && (s.done || s.err)

/-- A write to STATUS: each of DONE, ERR and OVR whose bit is 1 in the written value is cleared, nothing else
changes (R35). -/
def State.clearStatus (v : Word) (s : State) : State :=
  { s with done := s.done && !v.getLsbD 1, err := s.err && !v.getLsbD 2, ovr := s.ovr && !v.getLsbD 3 }

/-- The IE part of a write to CTRL (R32). -/
def State.setIE (v : Word) (s : State) : State := { s with ie := v.getLsbD 0 }

/-- A CMD write while BUSY is 1 (R39, R42). -/
def State.setOverrun (s : State) : State := { s with ovr := true }

/-- Issue (R310): CMD latches the word, BUSY is 1, DONE, ERR, ERRCODE and ERRINFO are 0; OVR, the results and the
colour outputs stay. -/
def State.issue (w : Word) (s : State) : State :=
  { s with cmd := w, phase := .busy none, done := false, err := false, errcode := 0#8, errinfo := 0#32 }

end Sys2Proof.Machine
end

