-- ==== Sys2Proof/Machine/Ops.lean ====
section
/-! DEFINITION. Machine/Ops.lean: the operations every command shares: data memory, the platform's MemOK, regions and
their checks, the validation reads, ending a command with an error, ending it with success, and abandoning it. -/

namespace Sys2Proof.Machine

/-! ## Data memory -/

/-- What a data byte that nothing has written reads as (assumption 2; R371 leaves power-on contents to the platform). -/
def unlistedByte : Byte := 0#8

/-- The byte at an address (R71, R72). -/
def Memory.read : Memory → Nat → Byte
  | [], _ => unlistedByte
  | (k, b) :: rest, a => if k = a then b else Memory.read rest a

/-- The memory without any entry for an address. -/
def Memory.erase (m : Memory) (a : Nat) : Memory := m.filter (fun c => c.1 != a)

/-- An entry put before the first higher address. -/
def Memory.place (a : Nat) (b : Byte) : Memory → Memory
  | [] => [(a, b)]
  | c :: rest => if a < c.1 then (a, b) :: c :: rest else c :: Memory.place a b rest

/-- One byte written (R13 `MemWrite(a, 1, b)`), keeping the canonical form: a byte equal to what an unlisted address
reads as is not listed. -/
def Memory.write (m : Memory) (a : Nat) (b : Byte) : Memory :=
  if b = unlistedByte then m.erase a else Memory.place a b (m.erase a)

/-- The canonical form: addresses strictly rising, and no entry equal to what an unlisted address reads as. -/
abbrev Memory.wf (m : Memory) : Prop :=
  List.Pairwise (fun c d : Host.Cell => c.1 < d.1) m ∧ ∀ c ∈ m, c.2 ≠ unlistedByte

/-- Bytes `f k, f (k+1), ...` written at `base + k, base + k + 1, ...`, `count` of them. -/
def Memory.fillFrom (m : Memory) (base : Nat) (f : Nat → Byte) : (k count : Nat) → Memory
  | _, 0 => m
  | k, count + 1 => (Memory.fillFrom m base f (k + 1) count).write (base + k) (f k)

/-- The `count` bytes at `base` written with `f 0, f 1, ...`. -/
def Memory.fill (m : Memory) (base count : Nat) (f : Nat → Byte) : Memory := Memory.fillFrom m base f 0 count

/-- `MemOK(a)` (R72): no range of the platform's non-responding bytes holds the address. -/
def Platform.memOK (p : Platform) (a : Nat) : Bool := p.holes.all (fun h => decide (a < h.1) || decide (h.1 + h.2 ≤ a))

/-- The data byte responds to the engine. -/
def State.responds (s : State) (a : Nat) : Bool := s.platform.memOK a

/-- The memory a command computes from (R91): data memory, or, once the host has broken R89, data memory as it was
before the first write into the command's regions. -/
def State.sourceMem (s : State) : Memory :=
  match s.phase with
  | .idle => s.mem
  | .busy none => s.mem
  | .busy (some m) => m

/-- The host has written into the regions of the command in flight (R89). -/
def State.raced (s : State) : Bool :=
  match s.phase with
  | .idle => false
  | .busy none => false
  | .busy (some _) => true

/-- One data byte as the command in flight reads it (R13 `Mem8`), where the byte responds. -/
def State.byteAt (s : State) (a : Nat) : Byte := s.sourceMem.read a

/-! ## Regions (R18, R77, R78) -/

/-- `Region(a, n)` (R18). -/
structure Region where
  base : Nat
  len : Nat
  deriving DecidableEq, Repr

/-- An address lies in the region. -/
def Region.contains (r : Region) (a : Nat) : Bool := decide (r.base ≤ a) && decide (a < r.base + r.len)

/-- The region ends within the data address space (R18, R77). -/
def Region.inRange (r : Region) : Bool := decide (r.base + r.len ≤ dataSpace)

/-- Two regions share an address (R18); an empty region overlaps nothing. -/
def Region.overlaps (r t : Region) : Bool :=
  decide (0 < r.len) && decide (0 < t.len) && decide (r.base < t.base + t.len) && decide (t.base < r.base + r.len)

/-- The part of the region that is in the data address space (R71): a region that the range check refuses names no byte
past its end. -/
def Region.clip (r : Region) : Region := ⟨r.base, min r.len (dataSpace - r.base)⟩

/-- No address. -/
def Region.empty : Region := ⟨0, 0⟩

/-- `CheckRange` (R77). -/
def checkRange (r : Region) (code : RegionCode) : Except CmdError Unit :=
  if r.inRange then .ok () else .error (.addrRange code)

/-- `CheckOverlap` (R78): the destination against one source, named by the source's code. -/
def checkOverlap (source dest : Region) (code : RegionCode) : Except CmdError Unit :=
  if source.overlaps dest then .error (.overlap code) else .ok ()

/-- A check that raises `e` when it fails (R14). -/
def raiseIf (failed : Bool) (e : CmdError) : Except CmdError Unit := if failed then .error e else .ok ()

/-! ## Validation reads (R13, R333, R335) -/

/-- A validation-phase read of one byte: BUS_ERROR with its address where it does not respond. -/
def State.checkedByte (s : State) (a : Nat) : Except CmdError Byte :=
  if s.responds a then .ok (s.byteAt a) else .error (.busError a)

/-- A validation-phase `MemRead(a, n)`: little-endian, the first failing byte reported (R13, R335). -/
def State.checkedRead (s : State) : (a n : Nat) → Except CmdError Nat
  | _, 0 => .ok 0
  | a, n + 1 => do
    let low ← s.checkedByte a
    let rest ← s.checkedRead (a + 1) n
    .ok (low.toNat + 256 * rest)

/-- The reads of the first pixel or output sample, which the pseudocode makes after its last test and before its first
`MemWrite`: they belong to the validation phase (R333, R20), so the first of them, in pseudocode order, that does not
respond is an up-front BUS_ERROR (R335). -/
def State.checkedReads (s : State) (reads : List Nat) : Except CmdError Unit :=
  match reads.find? (fun a => !s.responds a) with
  | some a => .error (.busError a)
  | none => .ok ()

/-- The reads before the first `MemWrite` of a loop over `pixels` pixels: none where the loop is empty. -/
def beforeFirstWrite (pixels : Nat) (reads : List Nat) : List Nat := if pixels = 0 then [] else reads

/-! ## What a command does -/

/-- The data phase and the results of a command that passes validation: the bytes it writes, which are the region
`written` and hold `value k` at offset `k`; the data bytes it reads in its data phase; its result words; and the
colour outputs it names (R49, R312, R316). -/
structure Effect where
  written : Region
  value : Nat → Byte
  /-- The data bytes that no test depends on and that the values written come from. Those that the pseudocode reads
  before its first `MemWrite` stand here too: the validation phase has read them already (R333), so they respond. -/
  reads : List Nat
  result0 : Word
  result1 : Word
  pixout : Option Word
  fout : Option (Vector F64 3)

/-- A command as its rule gives it. `args` holds the checks on registers alone, `body` the rest of the validation
phase and the effect. `sources` and `dest` are the regions the command reads and writes (R77, R78, R89). -/
structure Command where
  sources : List Region
  dest : Region
  args : Except CmdError Unit
  body : Except CmdError Effect

/-- How the validation phase ends: the first error its pseudocode raises, or the effect (R14, R333, R336). -/
def Command.outcome (c : Command) : Except CmdError Effect := do
  c.args
  c.body

/-- The regions the host must not write while the command is in flight (R89): the destination and the sources that its
rule lists (R77, R78), also where the command will end in an error (assumption 8). -/
def Command.footprint (c : Command) : List Region := c.dest :: c.sources

/-- The data bytes of the destination, which the host must not read while the command is in flight (R56, R89), also where
the command will end in an error: R56 and S9 of 93_implementation_defined.md make no exception. -/
def Command.destination (c : Command) : Region := c.dest.clip

/-- A command with no memory access that only writes result and output registers. -/
def registerCommand (e : Effect) : Command :=
  { sources := [], dest := Region.empty, args := .ok (), body := .ok e }

/-- The effect that writes nothing but zero results (R316). -/
def Effect.none : Effect :=
  { written := Region.empty, value := fun _ => 0#8, reads := [], result0 := 0#32, result1 := 0#32,
    pixout := Option.none, fout := Option.none }

/-- A word that does not decode: BAD_CMD with the word, before anything else (R101 to R103, R337). -/
def badCommand (w : Word) : Command :=
  { sources := [], dest := Region.empty, args := .error (.badCmd w), body := .ok Effect.none }

/-- The data bytes a data phase accesses: what it reads and what it writes. A byte that the validation phase has read
responds, so that counting it here too leaves `State.failing` as it is. -/
def Effect.accesses (e : Effect) : List Nat := e.reads ++ (List.range e.written.len).map (e.written.base + ·)

/-- The accessed bytes that do not respond (R334, R335). -/
def State.failing (s : State) (e : Effect) : List Nat := e.accesses.filter (fun a => !s.responds a)

/-! ## Ending a command -/

/-- `raise CODE(info)` (R14, R312, R332): taking an error, the one exception RIC has. ERR is 1, DONE and BUSY are 0,
ERRCODE and ERRINFO hold the error, RESULT0 and RESULT1 are 0, and nothing else changes. There is no return from it:
RIC has no handler, no saved state and no mode (R330, R345). -/
def State.raise (e : CmdError) (s : State) : State :=
  { s with
    err := true, done := false, phase := .idle, errcode := e.code, errinfo := e.info (Config.freeWord s.draws 2),
    result0 := 0#32, result1 := 0#32 }

/-- Completion with success (R312): the data-phase writes, the results and the colour outputs the command names. -/
def State.succeed (e : Effect) (s : State) : State :=
  { s with
    done := true, err := false, phase := .idle, errcode := 0#8, errinfo := 0#32,
    result0 := e.result0, result1 := e.result1,
    pixout := e.pixout.getD s.pixout, fout := e.fout.getD s.fout,
    mem := s.mem.fill e.written.base e.written.len e.value }

/-- Memory in which every byte of a region is any value, drawn per byte (R89, R334, R372). -/
def Memory.scatter (m : Memory) (draw : Nat) (r : Region) : Memory :=
  m.fill r.base r.len (fun k => Config.freeByte draw (r.base + k))

/-- One of the failing addresses, drawn (R335). -/
def drawAddress (draw : Nat) (failing : List Nat) : Nat := failing.getD (Config.freeIndex draw % failing.length) 0

/-- A BUS_ERROR of the data phase (R334, R335). -/
def State.dataBusError (e : Effect) (failing : List Nat) (s : State) : State :=
  State.raise (.busError (drawAddress s.draws failing)) { s with mem := s.mem.scatter s.draws e.written }

/-- The command runs and completes, as it does when the host keeps R89 (R311, R312): with the error of its validation
phase, a BUS_ERROR of its data phase, or success (R333, R334). -/
def State.settle (c : Command) (s : State) : State :=
  match c.outcome with
  | .error e => s.raise e
  | .ok e =>
    match s.failing e with
    | [] => s.succeed e
    | a :: rest => s.dataBusError e (a :: rest)

/-- R89: after the host has written into the command's regions, every destination byte and both result words hold any
value at completion; the rest of the completion is as the memory at issue gives it (R91, assumption 8). -/
def State.spoil (c : Command) (before after : State) : State :=
  { after with
    mem := before.mem.scatter before.draws c.destination,
    result0 := Config.freeWord before.draws 0, result1 := Config.freeWord before.draws 1 }

/-- The one atomic completion step of a command (R311, R312). -/
def State.complete (c : Command) (s : State) : State :=
  let t := if s.raced then State.spoil c s (s.settle c) else s.settle c
  { t with draws := s.draws + 1 }

/-- The completion step as an outcome: a command always completes (R311, R312). -/
def completeStep (c : Command) (s : State) : Host.Outcome State Fault Refusal := .next (s.complete c)

/-! ## Reset (R58, R371, R372) -/

/-- Every register at its reset value and the engine idle (R58). Data memory and the MODEL's own fields stay (R371,
R373). -/
def State.resetRegisters (s : State) : State :=
  { s with
    ie := State.reset.ie, done := State.reset.done, err := State.reset.err, ovr := State.reset.ovr,
    errcode := State.reset.errcode, errinfo := State.reset.errinfo, cmd := State.reset.cmd,
    result0 := State.reset.result0, result1 := State.reset.result1, args := State.reset.args,
    kernel := State.reset.kernel, pixin := State.reset.pixin, pixout := State.reset.pixout,
    fin := State.reset.fin, fout := State.reset.fout, phase := State.reset.phase }

/-- The bytes that an abandoned command's rule would have written (R372); the whole destination once the host has
broken R89. -/
def State.abandoned (c : Command) (s : State) : Region :=
  if s.raced then c.destination
  else
    match c.outcome with
    | .ok e => e.written
    | .error _ => Region.empty

/-- The memory part of abandoning a command (R372): those bytes hold any value, and no other byte changes. -/
def State.abandon (c : Command) (s : State) : State :=
  { s with mem := s.mem.scatter s.draws (s.abandoned c), draws := s.draws + 1 }

end Sys2Proof.Machine
end

