-- ==== Sys2Proof/Machine/Operands.lean ====
section
/-! DEFINITION. Machine/Operands.lean: how a command reads its operands: argument registers (R104 to R106), kernel
weights (R107), colour operands (R108) and the pixels of a buffer in data memory (R79 to R81). -/

namespace Sys2Proof.Machine

/-- An address, size, length or count argument: the whole 32-bit value, unsigned (R104). -/
def State.arg (s : State) (k : Fin 8) : Nat := (s.args[k]).toNat

/-- A curve control point (R105, R270). -/
structure CurvePoint where
  input : Nat
  output : Nat
  deriving DecidableEq, Repr

/-- R105: `p.in = ARG[k][7:0]`, `p.out = ARG[k][15:8]`. -/
def curvePoint (w : Word) : CurvePoint :=
  { input := (w.extractLsb' 0 8).toNat, output := (w.extractLsb' 8 8).toNat }

/-- R106: `THRESH = ARG5[7:0]`. -/
def State.threshold (s : State) : Nat := ((s.args[5]).extractLsb' 0 8).toNat

/-- R107: kernel weight `k`, for a finite pattern. -/
def State.weight (s : State) (k : Fin 9) : ℚ := binary32Value s.kernel[k]

/-- R46: the R field of a pixel word. -/
def pixelRed (w : Word) : Byte := w.extractLsb' 0 8

/-- R46: the G field. -/
def pixelGreen (w : Word) : Byte := w.extractLsb' 8 8

/-- R46: the B field. -/
def pixelBlue (w : Word) : Byte := w.extractLsb' 16 8

/-- R79: the address of channel `c` of pixel `(x, y)` of a PixelBuffer. -/
def pixelAddress (base width x y c : Nat) : Nat := base + 4 * (y * width + x) + c

/-- R79: the address of pixel `(x, y)` of a GrayBuffer. -/
def grayAddress (base width x y : Nat) : Nat := base + y * width + x

/-- R79: `px(P, W, x, y, c)`. -/
def State.px (s : State) (base width x y c : Nat) : Byte := s.byteAt (pixelAddress base width x y c)

/-- R79: `gx(Q, W, x, y)`. -/
def State.gx (s : State) (base width x y : Nat) : Byte := s.byteAt (grayAddress base width x y)

/-- The four channel addresses of pixel `(x, y)`. -/
def pixelAddresses (base width x y : Nat) : List Nat :=
  [pixelAddress base width x y 0, pixelAddress base width x y 1, pixelAddress base width x y 2,
    pixelAddress base width x y 3]

/-- Every pixel position of a `width` by `height` buffer as `(x, y)`, in raster order (R79). -/
def rasterPositions (width height : Nat) : List (Nat × Nat) :=
  (List.range height).flatMap (fun y => (List.range width).map (fun x => (x, y)))

/-- R80: the region of a PixelBuffer. -/
def pixelRegion (base width height : Nat) : Region := ⟨base, 4 * width * height⟩

/-- R81: the region of a GrayBuffer. -/
def grayRegion (base width height : Nat) : Region := ⟨base, width * height⟩

/-- The column, row and channel of byte `k` of a PixelBuffer: `k = 4×(y×W + x) + c` (R79). -/
def pixelColumn (width k : Nat) : Nat := k / 4 % width

/-- See `pixelColumn`. -/
def pixelRow (width k : Nat) : Nat := k / 4 / width

/-- See `pixelColumn`. -/
def pixelChannel (k : Nat) : Nat := k % 4

/-- The column of byte `k` of a GrayBuffer: `k = y×W + x` (R79). -/
def grayColumn (width k : Nat) : Nat := k % width

/-- The row of byte `k` of a GrayBuffer. -/
def grayRow (width k : Nat) : Nat := k / width

/-- The effect of writing a PixelBuffer: channel `c` of pixel `(x, y)` becomes `f x y c`; the results are 0. -/
def writePixels (base width height : Nat) (f : Nat → Nat → Nat → Byte) (reads : List Nat) : Effect :=
  { Effect.none with
    written := pixelRegion base width height
    value := fun k => f (pixelColumn width k) (pixelRow width k) (pixelChannel k)
    reads := reads }

/-- The effect of writing a GrayBuffer: pixel `(x, y)` becomes `f x y`; the results are 0. -/
def writeGray (base width height : Nat) (f : Nat → Nat → Byte) (reads : List Nat) : Effect :=
  { Effect.none with
    written := grayRegion base width height
    value := fun k => f (grayColumn width k) (grayRow width k)
    reads := reads }

end Sys2Proof.Machine
end

