-- ==== Sys2Proof/Machine/Gb7.lean ====
section
/-! DEFINITION. Machine/Gb7.lean: the GB7 codec commands (R140 to R156). -/

namespace Sys2Proof.Machine

/-! ## Shared functions (R141 to R150, R155) -/

/-- MAGIC (R142). -/
def gb7Magic : List Byte := [0x47#8, 0x42#8, 0x37#8, 0x1D#8]

/-- R149: `gray7(R, G, B)`, always in 0..127. -/
def gray7 (r g b : Byte) : Byte :=
  u7 ((2126 * byteRat r + 7152 * byteRat g + 722 * byteRat b) / 10000 * 127 / 255)

/-- R150: the opacity bit of an alpha value, true for opaque. -/
def maskBit (threshold : Nat) (alpha : Byte) : Bool := decide (threshold ≤ alpha.toNat)

/-- R155: `gb7to8(v)`. -/
def gb7to8 (v : Byte) : Byte := u8 (byteRat v * 255 / 127)

/-- The 7-bit gray sample of a GrayBuffer byte (R81). -/
def graySample (b : Byte) : Byte := b &&& 0x7F#8

/-- A byte with an opacity flag in bit 7 (R81, R147). -/
def withOpacity (b : Byte) (opaqueFlag : Bool) : Byte := b ||| (if opaqueFlag then 0x80#8 else 0#8)

/-- The bytes of a row of the separate mask plane (R148): `ceil(W/8)`. -/
def maskRowBytes (width : Nat) : Nat := (width + 7) / 8

/-- R151: the bytes of MAGIC that the stream has, compared one by one as they are read. -/
def checkMagic (s : State) : (a : Nat) → List Byte → Except CmdError Unit
  | _, [] => .ok ()
  | a, m :: rest => do
    let b ← s.checkedByte a
    raiseIf (b != m) .gb7Magic
    checkMagic s (a + 1) rest

/-- A big-endian 16-bit header field (R141, R145), read byte by byte. -/
def checkedBigEndian16 (s : State) (a : Nat) : Except CmdError Nat := do
  let high ← s.checkedByte a
  let low ← s.checkedByte (a + 1)
  .ok (high.toNat * 256 + low.toNat)

/-- The header fields a decoder uses (R141). -/
structure Gb7Header where
  version : Byte
  flags : Byte
  width : Nat
  height : Nat
  deriving DecidableEq, Repr

/-- FLAGS bit 0 (R144). -/
def Gb7Header.hasMask (h : Gb7Header) : Bool := h.flags.getLsbD 0

/-- The decoders' common validation, up to and including the GB7_RESERVED check (R151, R152). -/
def readGb7Header (s : State) (stream length : Nat) : Except CmdError Gb7Header := do
  checkMagic s stream (gb7Magic.take length)
  raiseIf (decide (length < 12)) (.gb7Trunc 12)
  let version ← s.checkedByte (stream + 4)
  let flags ← s.checkedByte (stream + 5)
  let width ← checkedBigEndian16 s (stream + 6)
  let height ← checkedBigEndian16 s (stream + 8)
  let reserved ← checkedBigEndian16 s (stream + 10)
  raiseIf (reserved != 0) (.gb7Reserved reserved)
  .ok { version, flags, width, height }

/-- RESULT0 of the decoders: `W | (H << 16)` (R151). -/
def Gb7Header.result0 (h : Gb7Header) : Word := BitVec.ofNat 32 (h.width + h.height * 65536)

/-- RESULT1 of the decoders: depth, VERSION and FLAGS (R151). -/
def Gb7Header.result1 (h : Gb7Header) : Word :=
  BitVec.ofNat 32 ((if h.hasMask then 8 else 7) + h.version.toNat * 256 + h.flags.toNat * 65536)

/-! ## Decoders (R151, R152) -/

/-- The decoders' checks on registers alone (R151). -/
def gb7DecodeArgs (source dest : Region) : Except CmdError Unit := do
  checkRange source .src
  checkRange dest .dst
  checkOverlap source dest .src

/-- GB7_DEC (R151). The header and pixel 0 are read in the validation phase, the other pixels in the data phase (R333). -/
def cmdGb7Dec (s : State) : Command :=
  let stream := s.arg 0
  let length := s.arg 1
  let dest := s.arg 2
  let capacity := s.arg 3
  { sources := [⟨stream, length⟩]
    dest := ⟨dest, capacity⟩
    args := gb7DecodeArgs ⟨stream, length⟩ ⟨dest, capacity⟩
    body := do
      let h ← readGb7Header s stream length
      let need := 12 + h.width * h.height
      raiseIf (decide (length < need)) (.gb7Trunc need)
      raiseIf (decide (capacity < h.width * h.height)) (.dstSmall (h.width * h.height))
      s.checkedReads (beforeFirstWrite (h.width * h.height) [grayAddress (stream + 12) h.width 0 0])
      .ok { writeGray dest h.width h.height
              (fun x y =>
                let b := s.gx (stream + 12) h.width x y
                if h.hasMask then b else graySample b)
              ((rasterPositions h.width h.height).map (fun (x, y) => grayAddress (stream + 12) h.width x y)) with
            result0 := h.result0, result1 := h.result1 } }

/-- The address of the mask-plane byte of pixel `(x, y)` of a stream (R148). -/
def maskAddress (stream width height x y : Nat) : Nat :=
  stream + 12 + width * height + y * maskRowBytes width + x / 8

/-- The bytes that GB7_DEC_PLANE reads for pixel `(x, y)`: its gray byte, then its mask-plane byte where there is a plane
(R152). -/
def planePixelReads (stream : Nat) (h : Gb7Header) (x y : Nat) : List Nat :=
  grayAddress (stream + 12) h.width x y :: (if h.hasMask then [maskAddress stream h.width h.height x y] else [])

/-- The separate-plane opacity bit of pixel `(x, y)`: MSB first (R148). -/
def planeOpacity (s : State) (stream width height x y : Nat) : Bool :=
  (s.byteAt (maskAddress stream width height x y)).getLsbD (7 - x % 8)

/-- GB7_DEC_PLANE (R152). The header and the bytes of pixel 0 are read in the validation phase, the other pixel and mask
bytes in the data phase (R333). -/
def cmdGb7DecPlane (s : State) : Command :=
  let stream := s.arg 0
  let length := s.arg 1
  let dest := s.arg 2
  let capacity := s.arg 3
  { sources := [⟨stream, length⟩]
    dest := ⟨dest, capacity⟩
    args := gb7DecodeArgs ⟨stream, length⟩ ⟨dest, capacity⟩
    body := do
      let h ← readGb7Header s stream length
      let need := 12 + h.width * h.height + (if h.hasMask then h.height * maskRowBytes h.width else 0)
      raiseIf (decide (length < need)) (.gb7Trunc need)
      raiseIf (decide (capacity < h.width * h.height)) (.dstSmall (h.width * h.height))
      s.checkedReads (beforeFirstWrite (h.width * h.height) (planePixelReads stream h 0 0))
      .ok { writeGray dest h.width h.height
              (fun x y =>
                let g := graySample (s.gx (stream + 12) h.width x y)
                if h.hasMask then withOpacity g (planeOpacity s stream h.width h.height x y) else g)
              ((rasterPositions h.width h.height).flatMap (fun (x, y) => planePixelReads stream h x y)) with
            result0 := h.result0, result1 := h.result1 } }

/-! ## Encoders (R153, R154) -/

/-- The encoders' checks on registers alone (R153). -/
def gb7EncodeArgs (width height : Nat) (source dest : Region) : Except CmdError Unit := do
  raiseIf (decide (65535 < width) || decide (65535 < height)) .dimRange
  checkRange source .src
  checkRange dest .dst
  checkOverlap source dest .src

/-- The alpha scan of R153: the A bytes of `count` pixels from pixel `p` on, in raster order, up to the first one
below 255. -/
def alphaScan (s : State) (source : Nat) : (p count : Nat) → Except CmdError Bool
  | _, 0 => .ok false
  | p, count + 1 => do
    let a ← s.checkedByte (source + 4 * p + 3)
    if a.toNat < 255 then .ok true else alphaScan s source (p + 1) count

/-- `hasAlpha` of R153: with FM set no byte is read. -/
def encoderHasAlpha (s : State) (fm : Bool) (source width height : Nat) : Except CmdError Bool :=
  if fm then .ok true else alphaScan s source 0 (width * height)

/-- The header the encoders write (R143, R144, R153). -/
def gb7HeaderBytes (hasAlpha : Bool) (width height : Nat) : List Byte :=
  gb7Magic ++
    [0x01#8, if hasAlpha then 1#8 else 0#8,
      BitVec.ofNat 8 (width / 256), BitVec.ofNat 8 (width % 256),
      BitVec.ofNat 8 (height / 256), BitVec.ofNat 8 (height % 256), 0x00#8, 0x00#8]

/-- The gray value of a PixelBuffer pixel (R149, R153). -/
def pixelGray (s : State) (source width x y : Nat) : Byte :=
  gray7 (s.px source width x y 0) (s.px source width x y 1) (s.px source width x y 2)

/-- The mask bit of a PixelBuffer pixel (R150). -/
def pixelMaskBit (s : State) (source width x y : Nat) : Bool := maskBit s.threshold (s.px source width x y 3)

/-- Byte `j` of row `y` of the mask plane: bit `7 - t` is the mask bit of pixel `(8j + t, y)`, and padding is 0
(R148, R153). -/
def maskPlaneByte (s : State) (source width y j : Nat) : Byte :=
  [0, 1, 2, 3, 4, 5, 6, 7].foldl
    (fun byte t =>
      if 8 * j + t < width then
        byte ||| (if pixelMaskBit s source width (8 * j + t) y then 0x80#8 >>> t else 0#8)
      else byte) 0#8

/-- The data-phase reads of the encoders: R, G and B of every pixel, and A where the mask is written (R153, R154). -/
def encoderReads (source width height : Nat) (hasAlpha : Bool) : List Nat :=
  (rasterPositions width height).flatMap (fun (x, y) =>
    [pixelAddress source width x y 0, pixelAddress source width x y 1, pixelAddress source width x y 2] ++
      (if hasAlpha then [pixelAddress source width x y 3] else []))

/-- The stream length of the separate-plane encoder (R153). -/
def planeStreamLength (width height : Nat) (hasAlpha : Bool) : Nat :=
  12 + width * height + (if hasAlpha then height * maskRowBytes width else 0)

/-- The results of the encoders (R153). -/
def encoderEffect (dest total : Nat) (hasAlpha : Bool) (value : Nat → Byte) (reads : List Nat) : Effect :=
  { Effect.none with
    written := ⟨dest, total⟩, value := value, reads := reads,
    result0 := BitVec.ofNat 32 total, result1 := if hasAlpha then 1#32 else 0#32 }

/-- GB7_ENC (R153): the header, the gray plane, and the mask plane when `hasAlpha`. -/
def cmdGb7Enc (fm : Bool) (s : State) : Command :=
  let source := s.arg 0
  let width := s.arg 1
  let height := s.arg 2
  let dest := s.arg 3
  let capacity := s.arg 4
  { sources := [pixelRegion source width height]
    dest := ⟨dest, capacity⟩
    args := gb7EncodeArgs width height (pixelRegion source width height) ⟨dest, capacity⟩
    body := do
      let hasAlpha ← encoderHasAlpha s fm source width height
      let total := planeStreamLength width height hasAlpha
      raiseIf (decide (capacity < total)) (.dstSmall total)
      .ok (encoderEffect dest total hasAlpha
        (fun k =>
          if k < 12 then (gb7HeaderBytes hasAlpha width height).getD k 0#8
          else if k < 12 + width * height then
            pixelGray s source width (grayColumn width (k - 12)) (grayRow width (k - 12))
          else
            let q := k - 12 - width * height
            maskPlaneByte s source width (q / maskRowBytes width) (q % maskRowBytes width))
        (encoderReads source width height hasAlpha)) }

/-- GB7_ENC_INLINE (R154): the header, and the gray plane with the mask in bit 7 when `hasAlpha`. -/
def cmdGb7EncInline (fm : Bool) (s : State) : Command :=
  let source := s.arg 0
  let width := s.arg 1
  let height := s.arg 2
  let dest := s.arg 3
  let capacity := s.arg 4
  { sources := [pixelRegion source width height]
    dest := ⟨dest, capacity⟩
    args := gb7EncodeArgs width height (pixelRegion source width height) ⟨dest, capacity⟩
    body := do
      let hasAlpha ← encoderHasAlpha s fm source width height
      let total := 12 + width * height
      raiseIf (decide (capacity < total)) (.dstSmall total)
      .ok (encoderEffect dest total hasAlpha
        (fun k =>
          if k < 12 then (gb7HeaderBytes hasAlpha width height).getD k 0#8
          else
            let x := grayColumn width (k - 12)
            let y := grayRow width (k - 12)
            withOpacity (pixelGray s source width x y) (hasAlpha && pixelMaskBit s source width x y))
        (encoderReads source width height hasAlpha)) }

/-! ## Render (R156) -/

/-- The four channels of a rendered gray byte (R156). -/
def renderedChannel (d8 : Bool) (b : Byte) (c : Nat) : Byte :=
  if c < 3 then gb7to8 (graySample b)
  else if d8 then (if b.getLsbD 7 then 255#8 else 0#8) else 255#8

/-- GB7_RENDER (R156). Pixel 0 is read in the validation phase, the other gray bytes in the data phase (R333). -/
def cmdGb7Render (d8 : Bool) (s : State) : Command :=
  let source := s.arg 0
  let width := s.arg 1
  let height := s.arg 2
  let dest := s.arg 3
  { sources := [grayRegion source width height]
    dest := pixelRegion dest width height
    args := do
      checkRange (grayRegion source width height) .src
      checkRange (pixelRegion dest width height) .dst
      checkOverlap (grayRegion source width height) (pixelRegion dest width height) .src
    body := do
      s.checkedReads (beforeFirstWrite (width * height) [grayAddress source width 0 0])
      .ok (writePixels dest width height
        (fun x y c => renderedChannel d8 (s.gx source width x y) c)
        ((rasterPositions width height).map (fun (x, y) => grayAddress source width x y))) }

/-! ## The meanings -/

/-- Completion of GB7_DEC (R151). -/
def execGb7Dec (s : State) : Host.Outcome State Fault Refusal := completeStep (cmdGb7Dec s) s

/-- Completion of GB7_DEC_PLANE (R152). -/
def execGb7DecPlane (s : State) : Host.Outcome State Fault Refusal := completeStep (cmdGb7DecPlane s) s

/-- Completion of GB7_ENC (R153). -/
def execGb7Enc (fm : Bool) (s : State) : Host.Outcome State Fault Refusal := completeStep (cmdGb7Enc fm s) s

/-- Completion of GB7_ENC_INLINE (R154). -/
def execGb7EncInline (fm : Bool) (s : State) : Host.Outcome State Fault Refusal :=
  completeStep (cmdGb7EncInline fm s) s

/-- Completion of GB7_RENDER (R156). -/
def execGb7Render (d8 : Bool) (s : State) : Host.Outcome State Fault Refusal := completeStep (cmdGb7Render d8 s) s

end Sys2Proof.Machine
end

