-- ==== Sys2Proof/Machine/Color.lean ====
section
/-! DEFINITION. Machine/Color.lean: the eighteen colour-converter commands (R180 to R217). Values are binary64 (R16);
the evaluation order is the one the rules write. A decimal literal is `fl` of the decimal, and a constant whose
pattern the spec lists is that pattern. -/

namespace Sys2Proof.Machine

/-! ## 8-bit channel helpers (R181) -/

/-- `in8(c) = fl(c) ÷ 255.0`. -/
def in8 (c : Byte) : F64 := fdiv (fl (byteRat c)) (fl 255)

/-- `sat8(v)`: 0 for a NaN, otherwise the exact value rounded by R11 and clamped to 0..255. -/
def sat8 (v : F64) : Byte :=
  match binary64 v with
  | .nan => 0#8
  | .infinity negative => if negative then 0#8 else 255#8
  | .finite negative q => u8 (signedRat negative q)

/-- `pack(R, G, B)`: the channels with A = 0xFF. -/
def packPixel (r g b : Byte) : Word :=
  r.setWidth 32 ||| (g.setWidth 32 <<< 8) ||| (b.setWidth 32 <<< 16) ||| 0xFF000000#32

/-! ## sRGB transfer (R182, R183) -/

/-- R182. -/
def srgbToLin (v : F64) : F64 :=
  if fle v (fl (4045 / 100000)) then fdiv v (fl (1292 / 100))
  else Config.pow (fdiv (fadd v (fl (55 / 1000))) (fl (1055 / 1000))) (fl (24 / 10))

/-- R183: `T_INV = 0.04045 ÷ 12.92`. -/
def tInv : F64 := fdiv (fl (4045 / 100000)) (fl (1292 / 100))

/-- R183: `E_INV = 1.0 ÷ 2.4`. -/
def eInv : F64 := fdiv (fl 1) (fl (24 / 10))

/-- R183. -/
def linToSrgb (l : F64) : F64 :=
  if fle l tInv then fmul l (fl (1292 / 100))
  else fsub (fmul (fl (1055 / 1000)) (Config.pow l eInv)) (fl (55 / 1000))

/-! ## Matrices (R184 to R186, R192, R193) -/

/-- A 3×3 matrix of binary64 patterns, by rows. -/
abbrev Matrix3 := Vector (Vector F64 3) 3

/-- Three binary64 values. -/
abbrev Triple := Vector F64 3

/-- R184: one row of the product, left to right. -/
def rowProduct (row : Vector F64 3) (x : Triple) : F64 :=
  fadd (fadd (fmul row[0] x[0]) (fmul row[1] x[1])) (fmul row[2] x[2])

/-- R184: the matrix-vector product. -/
def mv (m : Matrix3) (x : Triple) : Triple := #v[rowProduct m[0] x, rowProduct m[1] x, rowProduct m[2] x]

/-- R185: `M_XYZ`. -/
def mXyz : Matrix3 :=
  #v[#v[0x3FDA65AF8741A841#64, 0x3FD6E286DDD532CD#64, 0x3FC7189374BC6A7F#64],
     #v[0x3FCB38DD971F6BD6#64, 0x3FE6E286DDD532CD#64, 0x3FB27A0F9096BB99#64],
     #v[0x3F93CC4410D1089C#64, 0x3FBE835DEDF1E083#64, 0x3FEE68E424D8269D#64]]

/-- R186: `M_XYZ_INV`. -/
def mXyzInv : Matrix3 :=
  #v[#v[0x4009EC7395C70414#64, 0xBFF8981EE829A02E#64, 0xBFDFE7F0DC74C33E#64],
     #v[0xBFEF043AF2B417E8#64, 0x3FFE0424092512C6#64, 0x3FA546D6BD41F811#64],
     #v[0x3FAC7D4B56E01A99#64, 0xBFCA1D84E9CF2204#64, 0x3FF0EA64EE943DD0#64]]

/-- R192: `M1`, linear sRGB to LMS. -/
def m1 : Matrix3 :=
  #v[#v[0x3FDA61D629F2E197#64, 0x3FE129A2D9E60E32#64, 0x3FAA572112081026#64],
     #v[0x3FCB1FA76156A7C5#64, 0x3FE5C84A69936914#64, 0x3FBB7E5DF0497455#64],
     #v[0x3FB69AFD7A044C17#64, 0x3FD207AE728A2F45#64, 0x3FE428C9177A5EDB#64]]

/-- R192: `M2`, cube-rooted LMS to OKLab. -/
def m2 : Matrix3 :=
  #v[#v[0x3FCAF02A3FE8A4FA#64, 0x3FE9655120032AAD#64, 0xBF70ADD9BD572B38#64],
     #v[0x3FFFA5E1BFFFDE12#64, 0xC0036DC1BFFE5D3E#64, 0x3FDCD686FFF371A5#64],
     #v[0x3F9A869680B729E0#64, 0x3FE90C776001F502#64, 0xBFE9E0AC0001353D#64]]

/-- R193: `M2_INV`, OKLab to cube-rooted LMS. -/
def m2Inv : Matrix3 :=
  #v[#v[0x3FF0000000000000#64, 0x3FD95D9920068C8A#64, 0x3FCB9F751FFA8CC8#64],
     #v[0x3FF0000000000000#64, 0xBFBB06117FEEC881#64, 0xBFB058BF3FE39E34#64],
     #v[0x3FF0000000000000#64, 0xBFB6E86F5FDF38B5#64, 0xBFF4A9ECBFFEAA8D#64]]

/-- R193: `M1_INV`, LMS to linear sRGB. -/
def m1Inv : Matrix3 :=
  #v[#v[0x40104E955DC3D73A#64, 0xC00A76317EA9DE73#64, 0x3FCD906C3222FFEF#64],
     #v[0xBFF44B85A62C2AFF#64, 0x4004E0C87D01BF65#64, 0xBFD5D82D4F5D4F2A#64],
     #v[0xBF712FEA56E00671#64, 0xBFE68267C131178D#64, 0x3FFB5263CAEF6BCD#64]]

/-! ## Lab (R187 to R189) -/

/-- R187: the reference white `Xn`. -/
def whiteX : F64 := 0x3FEE6A400FBA8827#64

/-- R187: `Yn`. -/
def whiteY : F64 := 0x3FF0000000000000#64

/-- R187: `Zn`. -/
def whiteZ : F64 := 0x3FF16BD9018E7579#64

/-- R187: `DELTA = 6/29`. -/
def labDelta : F64 := 0x3FCA7B9611A7B961#64

/-- R187: `D3 = 216/24389`. -/
def labD3 : F64 := 0x3F822354D28F7CD6#64

/-- R187: `C3 = 108/841`. -/
def labC3 : F64 := 0x3FC07004DED20922#64

/-- R187: `C4 = 4/29`. -/
def labC4 : F64 := 0x3FC1A7B9611A7B96#64

/-- R187. -/
def labF (t : F64) : F64 := if fgt t labD3 then Config.cbrt t else fadd (fdiv t labC3) labC4

/-- R187. -/
def labFinv (u : F64) : F64 := if fgt u labDelta then fmul (fmul u u) u else fmul labC3 (fsub u labC4)

/-- R188. -/
def xyzToLab (v : Triple) : Triple :=
  let fx := labF (fdiv v[0] whiteX)
  let fy := labF (fdiv v[1] whiteY)
  let fz := labF (fdiv v[2] whiteZ)
  #v[fsub (fmul (fl 116) fy) (fl 16), fmul (fl 500) (fsub fx fy), fmul (fl 200) (fsub fy fz)]

/-- R189. -/
def labToXyz (v : Triple) : Triple :=
  let fy := fdiv (fadd v[0] (fl 16)) (fl 116)
  let fx := fadd fy (fdiv v[1] (fl 500))
  let fz := fsub fy (fdiv v[2] (fl 200))
  #v[fmul whiteX (labFinv fx), fmul whiteY (labFinv fy), fmul whiteZ (labFinv fz)]

/-! ## Polar form (R190, R191) -/

/-- R190: `PI`. -/
def piF64 : F64 := 0x400921FB54442D18#64

/-- R190: `R2D = 180.0 ÷ PI`. -/
def radToDeg : F64 := fdiv (fl 180) piF64

/-- R191: `D2R = PI ÷ 180.0`. -/
def degToRad : F64 := fdiv piF64 (fl 180)

/-- R190: the hue folded into [0, 360), the two tests in the order written. -/
def foldHue (h : F64) : F64 :=
  let raised := if flt h (fl 0) then fadd h (fl 360) else h
  if fge raised (fl 360) then fsub raised (fl 360) else raised

/-- R190: `to_polar`. -/
def toPolar (v : Triple) : Triple :=
  #v[v[0], Config.hypot v[1] v[2], foldHue (fmul (Config.atan2 v[2] v[1]) radToDeg)]

/-- R191: `from_polar`. -/
def fromPolar (v : Triple) : Triple :=
  let hr := fmul v[2] degToRad
  #v[v[0], fmul v[1] (Config.cos hr), fmul v[1] (Config.sin hr)]

/-! ## OKLab (R194, R195) -/

/-- R194. -/
def linToOklab (v : Triple) : Triple :=
  let lms := mv m1 v
  mv m2 #v[Config.cbrt lms[0], Config.cbrt lms[1], Config.cbrt lms[2]]

/-- R195: a cube, left to right. -/
def cube (x : F64) : F64 := fmul (fmul x x) x

/-- R195. -/
def oklabToLin (v : Triple) : Triple :=
  let roots := mv m2Inv v
  mv m1Inv #v[cube roots[0], cube roots[1], cube roots[2]]

/-! ## Operands and results (R180) -/

/-- CC_FIN0..2 (R48, R108). -/
def State.colorIn (s : State) : Triple := s.fin

/-- The linear R, G, B of CC_PIXIN: `srgb_to_lin(in8(c))` per channel (R204, R212). -/
def linearOfPixel (w : Word) : Triple :=
  #v[srgbToLin (in8 (pixelRed w)), srgbToLin (in8 (pixelGreen w)), srgbToLin (in8 (pixelBlue w))]

/-- The packed 8-bit sRGB of linear R, G, B: `sat8(lin_to_srgb(c) × 255.0)` per channel (R205, R213). -/
def pixelOfLinear (v : Triple) : Word :=
  packPixel (sat8 (fmul (linToSrgb v[0]) (fl 255))) (sat8 (fmul (linToSrgb v[1]) (fl 255)))
    (sat8 (fmul (linToSrgb v[2]) (fl 255)))

/-- A colour command that writes CC_FOUT0..2 (R180). -/
def colorOut (v : Triple) : Command := registerCommand { Effect.none with fout := some v }

/-- A colour command that writes CC_PIXOUT (R180). -/
def pixelOut (w : Word) : Command := registerCommand { Effect.none with pixout := some w }

/-! ## Commands (R200 to R217) -/

/-- CC_SRGB_TO_LIN (R200). -/
def cmdCcSrgbToLin (s : State) : Command := colorOut (s.colorIn.map srgbToLin)

/-- CC_LIN_TO_SRGB (R201). -/
def cmdCcLinToSrgb (s : State) : Command := colorOut (s.colorIn.map linToSrgb)

/-- CC_LIN_TO_XYZ (R202). -/
def cmdCcLinToXyz (s : State) : Command := colorOut (mv mXyz s.colorIn)

/-- CC_XYZ_TO_LIN (R203). -/
def cmdCcXyzToLin (s : State) : Command := colorOut (mv mXyzInv s.colorIn)

/-- CC_RGB8_TO_XYZ (R204). -/
def cmdCcRgb8ToXyz (s : State) : Command := colorOut (mv mXyz (linearOfPixel s.pixin))

/-- CC_XYZ_TO_RGB8 (R205). -/
def cmdCcXyzToRgb8 (s : State) : Command := pixelOut (pixelOfLinear (mv mXyzInv s.colorIn))

/-- CC_XYZ_TO_LAB (R206). -/
def cmdCcXyzToLab (s : State) : Command := colorOut (xyzToLab s.colorIn)

/-- CC_LAB_TO_XYZ (R207). -/
def cmdCcLabToXyz (s : State) : Command := colorOut (labToXyz s.colorIn)

/-- CC_LAB_TO_LCH (R208). -/
def cmdCcLabToLch (s : State) : Command := colorOut (toPolar s.colorIn)

/-- CC_LCH_TO_LAB (R209). -/
def cmdCcLchToLab (s : State) : Command := colorOut (fromPolar s.colorIn)

/-- CC_LIN_TO_OKLAB (R210). -/
def cmdCcLinToOklab (s : State) : Command := colorOut (linToOklab s.colorIn)

/-- CC_OKLAB_TO_LIN (R211). -/
def cmdCcOklabToLin (s : State) : Command := colorOut (oklabToLin s.colorIn)

/-- CC_RGB8_TO_OKLAB (R212). -/
def cmdCcRgb8ToOklab (s : State) : Command := colorOut (linToOklab (linearOfPixel s.pixin))

/-- CC_OKLAB_TO_RGB8 (R213). -/
def cmdCcOklabToRgb8 (s : State) : Command := pixelOut (pixelOfLinear (oklabToLin s.colorIn))

/-- CC_OKLAB_TO_OKLCH (R214). -/
def cmdCcOklabToOklch (s : State) : Command := colorOut (toPolar s.colorIn)

/-- CC_OKLCH_TO_OKLAB (R215). -/
def cmdCcOklchToOklab (s : State) : Command := colorOut (fromPolar s.colorIn)

/-- CC_GB7_TO_RGB8 (R216): CC_PIXIN[6:0] through `gb7to8`, packed. -/
def cmdCcGb7ToRgb8 (s : State) : Command :=
  let u := gb7to8 (graySample (pixelRed s.pixin))
  pixelOut (packPixel u u u)

/-- CC_RGB8_TO_GB7 (R217): bits 31:7 of CC_PIXOUT are 0. -/
def cmdCcRgb8ToGb7 (s : State) : Command :=
  pixelOut ((gray7 (pixelRed s.pixin) (pixelGreen s.pixin) (pixelBlue s.pixin)).setWidth 32)

/-! ## The meanings -/

/-- Completion of CC_SRGB_TO_LIN (R200). -/
def execCcSrgbToLin (s : State) : Host.Outcome State Fault Refusal := completeStep (cmdCcSrgbToLin s) s

/-- Completion of CC_LIN_TO_SRGB (R201). -/
def execCcLinToSrgb (s : State) : Host.Outcome State Fault Refusal := completeStep (cmdCcLinToSrgb s) s

/-- Completion of CC_LIN_TO_XYZ (R202). -/
def execCcLinToXyz (s : State) : Host.Outcome State Fault Refusal := completeStep (cmdCcLinToXyz s) s

/-- Completion of CC_XYZ_TO_LIN (R203). -/
def execCcXyzToLin (s : State) : Host.Outcome State Fault Refusal := completeStep (cmdCcXyzToLin s) s

/-- Completion of CC_RGB8_TO_XYZ (R204). -/
def execCcRgb8ToXyz (s : State) : Host.Outcome State Fault Refusal := completeStep (cmdCcRgb8ToXyz s) s

/-- Completion of CC_XYZ_TO_RGB8 (R205). -/
def execCcXyzToRgb8 (s : State) : Host.Outcome State Fault Refusal := completeStep (cmdCcXyzToRgb8 s) s

/-- Completion of CC_XYZ_TO_LAB (R206). -/
def execCcXyzToLab (s : State) : Host.Outcome State Fault Refusal := completeStep (cmdCcXyzToLab s) s

/-- Completion of CC_LAB_TO_XYZ (R207). -/
def execCcLabToXyz (s : State) : Host.Outcome State Fault Refusal := completeStep (cmdCcLabToXyz s) s

/-- Completion of CC_LAB_TO_LCH (R208). -/
def execCcLabToLch (s : State) : Host.Outcome State Fault Refusal := completeStep (cmdCcLabToLch s) s

/-- Completion of CC_LCH_TO_LAB (R209). -/
def execCcLchToLab (s : State) : Host.Outcome State Fault Refusal := completeStep (cmdCcLchToLab s) s

/-- Completion of CC_LIN_TO_OKLAB (R210). -/
def execCcLinToOklab (s : State) : Host.Outcome State Fault Refusal := completeStep (cmdCcLinToOklab s) s

/-- Completion of CC_OKLAB_TO_LIN (R211). -/
def execCcOklabToLin (s : State) : Host.Outcome State Fault Refusal := completeStep (cmdCcOklabToLin s) s

/-- Completion of CC_RGB8_TO_OKLAB (R212). -/
def execCcRgb8ToOklab (s : State) : Host.Outcome State Fault Refusal := completeStep (cmdCcRgb8ToOklab s) s

/-- Completion of CC_OKLAB_TO_RGB8 (R213). -/
def execCcOklabToRgb8 (s : State) : Host.Outcome State Fault Refusal := completeStep (cmdCcOklabToRgb8 s) s

/-- Completion of CC_OKLAB_TO_OKLCH (R214). -/
def execCcOklabToOklch (s : State) : Host.Outcome State Fault Refusal := completeStep (cmdCcOklabToOklch s) s

/-- Completion of CC_OKLCH_TO_OKLAB (R215). -/
def execCcOklchToOklab (s : State) : Host.Outcome State Fault Refusal := completeStep (cmdCcOklchToOklab s) s

/-- Completion of CC_GB7_TO_RGB8 (R216). -/
def execCcGb7ToRgb8 (s : State) : Host.Outcome State Fault Refusal := completeStep (cmdCcGb7ToRgb8 s) s

/-- Completion of CC_RGB8_TO_GB7 (R217). -/
def execCcRgb8ToGb7 (s : State) : Host.Outcome State Fault Refusal := completeStep (cmdCcRgb8ToGb7 s) s

end Sys2Proof.Machine
end

