-- ==== Sys2Proof/Machine/Composite.lean ====
section
/-! DEFINITION. Machine/Composite.lean: COMPOSITE, the alpha compositor (R230 to R239). -/

namespace Sys2Proof.Machine

/-- The blend modes (R231 BLEND, R236). -/
inductive Blend where
  | normal | multiply | screen | overlay
  deriving DecidableEq, Repr

/-- The BLEND byte; 4 to 255 are invalid (R231). -/
def blendOf (b : Byte) : Option Blend :=
  match b with
  | 0#8 => some .normal
  | 1#8 => some .multiply
  | 2#8 => some .screen
  | 3#8 => some .overlay
  | _ => none

/-- R232: the effective opacity of an OPACITY word, in [0, 1]. -/
def effectiveOpacity (w : Word) : ℚ :=
  match binary32 w with
  | .nan => 0
  | .infinity negative => if negative then 0 else 1
  | .finite q => clampRat q 0 1

/-- Where a contributing layer's pixels come from (R234). -/
inductive LayerSource where
  /-- The base address of the layer's PixelBuffer. -/
  | image (base : Nat)
  /-- The address of the descriptor's r, g, b, a bytes. -/
  | color (base : Nat)
  deriving DecidableEq, Repr

/-- What compositing needs of a contributing layer (R230, R233). -/
structure Layer where
  hideAlpha : Bool
  blend : Blend
  opacity : ℚ
  source : LayerSource
  deriving DecidableEq, Repr

/-- R238: the pre-pass of descriptor `i`, its reads and checks in the order they occur. The answer is the layer, or
`none` where it does not contribute (R233). -/
def examineLayer (s : State) (table width height : Nat) (dest : Region) (i : Nat) :
    Except CmdError (Option Layer) := do
  let b := table + 32 * i
  let flags ← s.checkedByte b
  let opacityWord ← s.checkedRead (b + 4) 4
  let opacity := effectiveOpacity (BitVec.ofNat 32 opacityWord)
  if !flags.getLsbD 0 || decide (opacity = 0) then .ok none
  else do
    let mode ← s.checkedByte (b + 1)
    match blendOf mode with
    | none => .error (.badDesc i)
    | some blend =>
      if flags.getLsbD 2 then
        .ok (some { hideAlpha := flags.getLsbD 1, blend, opacity, source := .color (b + 16) })
      else do
        let lw ← s.checkedRead (b + 8) 4
        if lw ≠ width then .ok none
        else do
          let lh ← s.checkedRead (b + 12) 4
          if lh ≠ height then .ok none
          else do
            let a ← s.checkedRead (b + 16) 4
            checkRange (pixelRegion a width height) (.layer i)
            checkOverlap (pixelRegion a width height) dest (.layer i)
            .ok (some { hideAlpha := flags.getLsbD 1, blend, opacity, source := .image a })

/-- R238: the pre-pass over `count` descriptors from descriptor `i` on. The answer is the contributing layers, bottom
first. -/
def prepass (s : State) (table width height : Nat) (dest : Region) : (i count : Nat) → Except CmdError (List Layer)
  | _, 0 => .ok []
  | i, count + 1 => do
    let layer ← examineLayer s table width height dest i
    let rest ← prepass s table width height dest (i + 1) count
    .ok (layer.toList ++ rest)

/-- The address of channel `c` of a layer's pixel `(x, y)` (R234). -/
def LayerSource.address (l : LayerSource) (width x y c : Nat) : Nat :=
  match l with
  | .image base => pixelAddress base width x y c
  | .color base => base + c

/-- R234: `src(i, x, y, c)`. -/
def Layer.channel (l : Layer) (s : State) (width x y c : Nat) : Byte := s.byteAt (l.source.address width x y c)

/-- The four channels of a pixel. -/
structure Pixel where
  r : Byte
  g : Byte
  b : Byte
  a : Byte
  deriving DecidableEq, Repr

/-- Channel `c` of a pixel: 0 = R, 1 = G, 2 = B, 3 = A (R79). -/
def Pixel.channel (p : Pixel) (c : Nat) : Byte :=
  match c with
  | 0 => p.r
  | 1 => p.g
  | 2 => p.b
  | _ => p.a

/-- R236: the blend functions. -/
def blendValue (mode : Blend) (sv dv : Byte) : ℚ :=
  match mode with
  | .normal => byteRat sv
  | .multiply => byteRat dv * byteRat sv / 255
  | .screen => 255 - (255 - byteRat dv) * (255 - byteRat sv) / 255
  | .overlay =>
    if dv.toNat < 128 then 2 * byteRat dv * byteRat sv / 255
    else 255 - 2 * (255 - byteRat dv) * (255 - byteRat sv) / 255

/-- R235: `sA`. -/
def sourceAlpha (l : Layer) (alpha : Byte) : ℚ := (if l.hideAlpha then 255 else byteRat alpha) / 255 * l.opacity

/-- R235: `outA`. -/
def outputAlpha (sA dA : ℚ) : ℚ := sA + dA * (1 - sA)

/-- R237: `out_c` of a colour channel. -/
def outputColor (mode : Blend) (sA dA : ℚ) (sv dv : Byte) : Byte :=
  if 0 < outputAlpha sA dA then
    u8 ((blendValue mode sv dv * sA + byteRat dv * dA * (1 - sA)) / outputAlpha sA dA)
  else dv

/-- R235 to R237: one layer's pixel over the destination pixel. -/
def blendOver (l : Layer) (source dest : Pixel) : Pixel :=
  let sA := sourceAlpha l source.a
  let dA := byteRat dest.a / 255
  { r := outputColor l.blend sA dA source.r dest.r
    g := outputColor l.blend sA dA source.g dest.g
    b := outputColor l.blend sA dA source.b dest.b
    a := u8 (outputAlpha sA dA * 255) }

/-- Transparent black, what the destination starts as (R239). -/
def transparentBlack : Pixel := ⟨0#8, 0#8, 0#8, 0#8⟩

/-- A layer's pixel (R234). -/
def Layer.pixel (l : Layer) (s : State) (width x y : Nat) : Pixel :=
  ⟨l.channel s width x y 0, l.channel s width x y 1, l.channel s width x y 2, l.channel s width x y 3⟩

/-- R239: the pixel that the layers, bottom to top, leave at `(x, y)`. A pixel depends on no other pixel of the
destination and the sources are not written, so the layers may be taken pixel by pixel. -/
def compositePixel (s : State) (layers : List Layer) (width x y : Nat) : Pixel :=
  layers.foldl (fun d l => blendOver l (l.pixel s width x y) d) transparentBlack

/-- The source regions of the contributing image layers (R238). -/
def layerRegions (width height : Nat) (layers : List Layer) : List Region :=
  layers.filterMap (fun l =>
    match l.source with
    | .image base => some (pixelRegion base width height)
    | .color _ => none)

/-- Four bytes as a little-endian number (R73), whether or not they respond. -/
def State.littleEndian32 (s : State) (a : Nat) : Nat :=
  (s.byteAt a).toNat + 256 * (s.byteAt (a + 1)).toNat + 65536 * (s.byteAt (a + 2)).toNat +
    16777216 * (s.byteAt (a + 3)).toNat

/-- The buffer of the layer with its descriptor at `b`, where it is a contributing Image layer (R231 to R234). -/
def layerBuffer (s : State) (width height b : Nat) : Option Region :=
  let flags := s.byteAt b
  if flags.getLsbD 0 && !flags.getLsbD 2 && decide (effectiveOpacity (BitVec.ofNat 32 (s.littleEndian32 (b + 4))) ≠ 0) &&
      s.littleEndian32 (b + 8) == width && s.littleEndian32 (b + 12) == height then
    some (pixelRegion (s.littleEndian32 (b + 16)) width height)
  else none

/-- COMPOSITE (R239). Its sources are the table and the buffers of the contributing Image layers: those that the pre-pass
finds, or, where the pre-pass ends in an error, those that the table names (assumption 8). -/
def cmdComposite (s : State) : Command :=
  let table := s.arg 0
  let n := s.arg 1
  let width := s.arg 2
  let height := s.arg 3
  let dest := s.arg 4
  let layers := prepass s table width height (pixelRegion dest width height) 0 n
  { sources := ⟨table, 32 * n⟩ ::
      (match layers with
       | .ok ls => layerRegions width height ls
       | .error _ => (List.range n).filterMap (fun i => layerBuffer s width height (table + 32 * i)))
    dest := pixelRegion dest width height
    args := do
      checkRange ⟨table, 32 * n⟩ .table
      checkRange (pixelRegion dest width height) .dst
      checkOverlap ⟨table, 32 * n⟩ (pixelRegion dest width height) .table
    body := do
      let ls ← layers
      .ok { writePixels dest width height
              (fun x y c => (compositePixel s ls width x y).channel c)
              (ls.flatMap (fun l => (rasterPositions width height).flatMap (fun (x, y) =>
                [0, 1, 2, 3].map (fun c => l.source.address width x y c)))) with
            result0 := BitVec.ofNat 32 ls.length } }

/-- Completion of COMPOSITE (R239). -/
def execComposite (s : State) : Host.Outcome State Fault Refusal := completeStep (cmdComposite s) s

end Sys2Proof.Machine
end

