-- ==== Sys2Proof/Machine/Control.lean ====
section
/-! DEFINITION. Machine/Control.lean: NOP (R313). -/

namespace Sys2Proof.Machine

/-- NOP (R313): RESULT0 and RESULT1 are 0. -/
def cmdNop (_ : State) : Command := registerCommand Effect.none

/-- Completion of NOP (R312, R313). -/
def execNop (s : State) : Host.Outcome State Fault Refusal := completeStep (cmdNop s) s

end Sys2Proof.Machine
end

