-- ==== Sys2Proof/Machine/Convolve.lean ====
section
/-! DEFINITION. Machine/Convolve.lean: the 3×3 convolution (R290 to R295). -/

namespace Sys2Proof.Machine

/-- TGT (R109, R293). -/
inductive ConvTarget where
  | rgb | alpha | rgba
  deriving DecidableEq, Repr

/-- NORM (R109, R292). -/
inductive ConvNorm where
  | auto | off | on
  deriving DecidableEq, Repr

/-- The TGT field; 11 is reserved (R109). -/
def convTarget (tgt : BitVec 2) : Option ConvTarget :=
  match tgt with
  | 0b00#2 => some .rgb
  | 0b01#2 => some .alpha
  | 0b10#2 => some .rgba
  | _ => none

/-- The NORM field; 11 is reserved (R109). -/
def convNorm (norm : BitVec 2) : Option ConvNorm :=
  match norm with
  | 0b00#2 => some .auto
  | 0b01#2 => some .off
  | 0b10#2 => some .on
  | _ => none

/-- R293: whether channel `c` is convolved; otherwise it is copied. -/
def convolved (target : ConvTarget) (apass : Bool) (c : Nat) : Bool :=
  match target with
  | .rgb => decide (c < 3)
  | .alpha => c == 3
  | .rgba => decide (c < 3) || !apass

/-- The nine weight indices. -/
def weightIndices : List (Fin 9) := [0, 1, 2, 3, 4, 5, 6, 7, 8]

/-- R292: the exact sum of the weights. -/
def weightSum (s : State) : ℚ := (weightIndices.map s.weight).sum

/-- R292: the weight in use, divided by the sum unless NORM is off or the sum is 0. -/
def effectiveWeight (norm : ConvNorm) (s : State) (k : Fin 9) : ℚ :=
  if norm ≠ .off ∧ weightSum s ≠ 0 then s.weight k / weightSum s else s.weight k

/-- R290, R291: the coordinate of a neighbour, `offset` one of -1, 0, 1, clamped to the edge. -/
def edgeClamp (i : Nat) (offset : Int) (dim : Nat) : Nat := (clampInt ((i : Int) + offset) 0 ((dim : Int) - 1)).toNat

/-- R290: the column offset `dx` of weight `k`. -/
def weightDx (k : Fin 9) : Int := ((k.val % 3 : Nat) : Int) - 1

/-- R290: the row offset `dy` of weight `k`. -/
def weightDy (k : Fin 9) : Int := ((k.val / 3 : Nat) : Int) - 1

/-- R291: `samp` at the neighbour that weight `k` weighs. -/
def sample (s : State) (source width height x y c : Nat) (k : Fin 9) : Byte :=
  s.px source width (edgeClamp x (weightDx k) width) (edgeClamp y (weightDy k) height) c

/-- R295: the exact sum over the 3×3 neighbourhood. -/
def convolutionSum (norm : ConvNorm) (s : State) (source width height x y c : Nat) : ℚ :=
  (weightIndices.map (fun k => effectiveWeight norm s k * byteRat (sample s source width height x y c k))).sum

/-- R294: BAD_NUM for the lowest weight that is an infinity or a NaN. -/
def checkWeights (s : State) : Except CmdError Unit :=
  match weightIndices.find? (fun k => binary32NonFinite s.kernel[k]) with
  | some k => .error (.badNum k.val)
  | none => .ok ()

/-- The reads of one output channel: the nine samples, `dy` outermost, or the byte copied (R295). -/
def convolutionReads (target : ConvTarget) (apass : Bool) (source width height x y c : Nat) : List Nat :=
  if convolved target apass c then
    weightIndices.map (fun k =>
      pixelAddress source width (edgeClamp x (weightDx k) width) (edgeClamp y (weightDy k) height) c)
  else [pixelAddress source width x y c]

/-- CONV3X3 with its fields decoded (R295). The bytes of channel 0 of pixel 0 are read in the validation phase, the
others in the data phase (R333). -/
def convolveCommand (target : ConvTarget) (norm : ConvNorm) (apass : Bool) (s : State) : Command :=
  let source := s.arg 0
  let width := s.arg 1
  let height := s.arg 2
  let dest := s.arg 3
  { sources := [pixelRegion source width height]
    dest := pixelRegion dest width height
    args := do
      raiseIf (width == 0 || height == 0) .zeroArea
      checkWeights s
      checkRange (pixelRegion source width height) .src
      checkRange (pixelRegion dest width height) .dst
      checkOverlap (pixelRegion source width height) (pixelRegion dest width height) .src
    body := do
      s.checkedReads (convolutionReads target apass source width height 0 0 0)
      .ok (writePixels dest width height
        (fun x y c =>
          if convolved target apass c then u8 (convolutionSum norm s source width height x y c)
          else s.px source width x y c)
        ((rasterPositions width height).flatMap (fun (x, y) =>
          [0, 1, 2, 3].flatMap (fun c => convolutionReads target apass source width height x y c)))) }

/-- CONV3X3 (R295). A reserved TGT or NORM is BAD_CMD (R102, R109); the decoder never yields one. -/
def cmdConv3x3 (tgt norm : BitVec 2) (apass : Bool) (s : State) : Command :=
  match convTarget tgt, convNorm norm with
  | some t, some n => convolveCommand t n apass s
  | _, _ => badCommand s.cmd

/-- Completion of CONV3X3 (R295). -/
def execConv3x3 (tgt norm : BitVec 2) (apass : Bool) (s : State) : Host.Outcome State Fault Refusal :=
  completeStep (cmdConv3x3 tgt norm apass s) s

end Sys2Proof.Machine
end

