-- ==== Sys2Proof/Machine/Resample.lean ====
section
/-! DEFINITION. Machine/Resample.lean: nearest and bilinear resampling of RGBA and gray buffers (R250 to R258). -/

namespace Sys2Proof.Machine

/-! ## Coordinates (R251 to R253) -/

/-- R251: the RGBA path's half-pixel-centre map. -/
def halfPixelMap (i sourceDim destDim : Nat) : ℚ :=
  clampRat (((i : ℚ) + 1 / 2) * sourceDim / destDim - 1 / 2) 0 ((sourceDim : ℚ) - 1)

/-- R253: the gray path's nearest map. -/
def grayNearestMap (i sourceDim destDim : Nat) : Nat :=
  (clampInt (roundHalfUp ((i : ℚ) * sourceDim / destDim)) 0 ((sourceDim : Int) - 1)).toNat

/-- R253: the gray path's bilinear map. -/
def grayLinearMap (i sourceDim destDim : Nat) : ℚ :=
  (i : ℚ) * ((sourceDim : ℚ) - 1) / ((max 1 (destDim - 1) : Nat) : ℚ)

/-- R252: `lo(u) = floor(u)`. -/
def lowIndex (u : ℚ) : Nat := u.floor.toNat

/-- R252: `hi(u) = min(floor(u) + 1, Sd - 1)`. -/
def highIndex (u : ℚ) (sourceDim : Nat) : Nat := (min (u.floor + 1) ((sourceDim : Int) - 1)).toNat

/-- R252: `fr(u) = u - floor(u)`. -/
def fraction (u : ℚ) : ℚ := u - u.floor

/-- R252: the bilinear blend of four samples. -/
def bilinear (v00 v10 v01 v11 fx fy : ℚ) : ℚ :=
  (1 - fx) * (1 - fy) * v00 + fx * (1 - fy) * v10 + (1 - fx) * fy * v01 + fx * fy * v11

/-- R252: the blend, with the samples taken from a two-dimensional source `q` of size `sw` by `sh` at `(sx, sy)`. -/
def bilinearAt (q : Nat → Nat → ℚ) (sw sh : Nat) (sx sy : ℚ) : ℚ :=
  bilinear (q (lowIndex sx) (lowIndex sy)) (q (highIndex sx sw) (lowIndex sy))
    (q (lowIndex sx) (highIndex sy sh)) (q (highIndex sx sw) (highIndex sy sh)) (fraction sx) (fraction sy)

/-- The four source positions a bilinear sample reads, in the order in which the pseudocode writes them (R252, R256,
R258). -/
def neighbours (sw sh : Nat) (sx sy : ℚ) : List (Nat × Nat) :=
  [(lowIndex sx, lowIndex sy), (highIndex sx sw, lowIndex sy), (lowIndex sx, highIndex sy sh),
    (highIndex sx sw, highIndex sy sh)]

/-! ## Prologue (R250) -/

/-- R250: the checks of every resampling command. -/
def resampleArgs (sw sh dw dh : Nat) (source dest : Region) : Except CmdError Unit := do
  raiseIf (sw == 0 || sh == 0 || dw == 0 || dh == 0) .zeroArea
  checkRange source .src
  checkRange dest .dst
  checkOverlap source dest .src

/-- A resampling command on the RGBA path from its effect and from the bytes it reads for channel 0 of output pixel 0,
which are the reads before its first `MemWrite` (R250, R333). -/
def rgbaResample (s : State) (first : List Nat) (effect : Effect) : Command :=
  { sources := [pixelRegion (s.arg 0) (s.arg 1) (s.arg 2)]
    dest := pixelRegion (s.arg 3) (s.arg 4) (s.arg 5)
    args := resampleArgs (s.arg 1) (s.arg 2) (s.arg 4) (s.arg 5)
      (pixelRegion (s.arg 0) (s.arg 1) (s.arg 2)) (pixelRegion (s.arg 3) (s.arg 4) (s.arg 5))
    body := do
      s.checkedReads first
      .ok effect }

/-- A resampling command on the gray path from its effect and from the bytes it reads for output pixel 0, which are the
reads before its first `MemWrite` (R250, R333). -/
def grayResample (s : State) (first : List Nat) (effect : Effect) : Command :=
  { sources := [grayRegion (s.arg 0) (s.arg 1) (s.arg 2)]
    dest := grayRegion (s.arg 3) (s.arg 4) (s.arg 5)
    args := resampleArgs (s.arg 1) (s.arg 2) (s.arg 4) (s.arg 5)
      (grayRegion (s.arg 0) (s.arg 1) (s.arg 2)) (grayRegion (s.arg 3) (s.arg 4) (s.arg 5))
    body := do
      s.checkedReads first
      .ok effect }

/-! ## RGBA path (R255, R256) -/

/-- The source column or row that RS_RGBA_NEAREST reads (R255). -/
def rgbaNearestMap (i sourceDim destDim : Nat) : Nat := (roundHalfUp (halfPixelMap i sourceDim destDim)).toNat

/-- RS_RGBA_NEAREST (R255). -/
def cmdRsRgbaNearest (s : State) : Command :=
  let source := s.arg 0
  let sw := s.arg 1
  let sh := s.arg 2
  let dest := s.arg 3
  let dw := s.arg 4
  let dh := s.arg 5
  rgbaResample s [pixelAddress source sw (rgbaNearestMap 0 sw dw) (rgbaNearestMap 0 sh dh) 0] (writePixels dest dw dh
    (fun x y c => s.px source sw (rgbaNearestMap x sw dw) (rgbaNearestMap y sh dh) c)
    ((rasterPositions dw dh).flatMap (fun (x, y) =>
      pixelAddresses source sw (rgbaNearestMap x sw dw) (rgbaNearestMap y sh dh))))

/-- RS_RGBA_BILINEAR (R256). -/
def cmdRsRgbaBilinear (s : State) : Command :=
  let source := s.arg 0
  let sw := s.arg 1
  let sh := s.arg 2
  let dest := s.arg 3
  let dw := s.arg 4
  let dh := s.arg 5
  rgbaResample s ((neighbours sw sh (halfPixelMap 0 sw dw) (halfPixelMap 0 sh dh)).map (fun (i, j) =>
    pixelAddress source sw i j 0)) (writePixels dest dw dh
    (fun x y c =>
      u8 (bilinearAt (fun i j => byteRat (s.px source sw i j c)) sw sh (halfPixelMap x sw dw) (halfPixelMap y sh dh)))
    ((rasterPositions dw dh).flatMap (fun (x, y) =>
      (neighbours sw sh (halfPixelMap x sw dw) (halfPixelMap y sh dh)).flatMap (fun (i, j) =>
        pixelAddresses source sw i j))))

/-! ## Gray path (R254, R257, R258) -/

/-- RS_GRAY_NEAREST (R257). -/
def cmdRsGrayNearest (d8 : Bool) (s : State) : Command :=
  let source := s.arg 0
  let sw := s.arg 1
  let sh := s.arg 2
  let dest := s.arg 3
  let dw := s.arg 4
  let dh := s.arg 5
  grayResample s [grayAddress source sw (grayNearestMap 0 sw dw) (grayNearestMap 0 sh dh)] (writeGray dest dw dh
    (fun x y =>
      let b := s.gx source sw (grayNearestMap x sw dw) (grayNearestMap y sh dh)
      if d8 then b else graySample b)
    ((rasterPositions dw dh).map (fun (x, y) =>
      grayAddress source sw (grayNearestMap x sw dw) (grayNearestMap y sh dh))))

/-- The mask bit of a GrayBuffer byte as a number (R254). -/
def maskRat (b : Byte) : ℚ := if b.getLsbD 7 then 1 else 0

/-- The output byte of RS_GRAY_BILINEAR at `(sx, sy)` (R254, R258). -/
def grayBilinearByte (d8 : Bool) (q : Nat → Nat → Byte) (sw sh : Nat) (sx sy : ℚ) : Byte :=
  withOpacity (u7 (bilinearAt (fun i j => byteRat (graySample (q i j))) sw sh sx sy))
    (d8 && decide (1 / 2 ≤ bilinearAt (fun i j => maskRat (q i j)) sw sh sx sy))

/-- RS_GRAY_BILINEAR (R258). -/
def cmdRsGrayBilinear (d8 : Bool) (s : State) : Command :=
  let source := s.arg 0
  let sw := s.arg 1
  let sh := s.arg 2
  let dest := s.arg 3
  let dw := s.arg 4
  let dh := s.arg 5
  grayResample s ((neighbours sw sh (grayLinearMap 0 sw dw) (grayLinearMap 0 sh dh)).map (fun (i, j) =>
    grayAddress source sw i j)) (writeGray dest dw dh
    (fun x y => grayBilinearByte d8 (s.gx source sw) sw sh (grayLinearMap x sw dw) (grayLinearMap y sh dh))
    ((rasterPositions dw dh).flatMap (fun (x, y) =>
      (neighbours sw sh (grayLinearMap x sw dw) (grayLinearMap y sh dh)).map (fun (i, j) =>
        grayAddress source sw i j))))

/-! ## The meanings -/

/-- Completion of RS_RGBA_NEAREST (R255). -/
def execRsRgbaNearest (s : State) : Host.Outcome State Fault Refusal := completeStep (cmdRsRgbaNearest s) s

/-- Completion of RS_RGBA_BILINEAR (R256). -/
def execRsRgbaBilinear (s : State) : Host.Outcome State Fault Refusal := completeStep (cmdRsRgbaBilinear s) s

/-- Completion of RS_GRAY_NEAREST (R257). -/
def execRsGrayNearest (d8 : Bool) (s : State) : Host.Outcome State Fault Refusal :=
  completeStep (cmdRsGrayNearest d8 s) s

/-- Completion of RS_GRAY_BILINEAR (R258). -/
def execRsGrayBilinear (d8 : Bool) (s : State) : Host.Outcome State Fault Refusal :=
  completeStep (cmdRsGrayBilinear d8 s) s

end Sys2Proof.Machine
end

