-- ==== Sys2Proof/Machine/ToneCurve.lean ====
section
/-! DEFINITION. Machine/ToneCurve.lean: building and applying tone-curve LUTs (R270 to R275). -/

namespace Sys2Proof.Machine

/-- The line between the two control points (R271, R272). -/
def curveBetween (p1 p2 : CurvePoint) (x : Nat) : ℚ :=
  (p1.output : ℚ) + ((x : ℚ) - p1.input) * ((p2.output : ℚ) - p1.output) / ((p2.input : ℚ) - p1.input)

/-- R271: the ramped-extrapolation curve, its tests in the order written. -/
def ramp (p1 p2 : CurvePoint) (x : Nat) : Byte :=
  if x ≤ p1.input then u8 ((p1.output : ℚ) / ((max 1 p1.input : Nat) : ℚ) * x)
  else if p2.input ≤ x then
    u8 ((p2.output : ℚ) + ((x : ℚ) - p2.input) * (255 - (p2.output : ℚ)) / ((max 1 (255 - p2.input) : Nat) : ℚ))
  else u8 (curveBetween p1 p2 x)

/-- R272: the flat-clamped curve, its tests in the order written. -/
def flat (p1 p2 : CurvePoint) (x : Nat) : Byte :=
  if x < p1.input then BitVec.ofNat 8 p1.output
  else if p2.input < x then BitVec.ofNat 8 p2.output
  else if p1.input = p2.input then BitVec.ofNat 8 p1.output
  else u8 (curveBetween p1 p2 x)

/-- The region of a LUT (R82). -/
def lutRegion (base : Nat) : Region := ⟨base, 256⟩

/-- A LUT build from its curve (R273, R274). -/
def lutBuild (s : State) (curve : CurvePoint → CurvePoint → Nat → Byte) : Command :=
  { sources := []
    dest := lutRegion (s.arg 0)
    args := checkRange (lutRegion (s.arg 0)) .dst
    body := .ok { Effect.none with
      written := lutRegion (s.arg 0)
      value := curve (curvePoint s.args[1]) (curvePoint s.args[2]) } }

/-- LUT_BUILD_RAMP (R273). -/
def cmdLutBuildRamp (s : State) : Command := lutBuild s ramp

/-- LUT_BUILD_FLAT (R274). -/
def cmdLutBuildFlat (s : State) : Command := lutBuild s flat

/-- One channel's LUT of LUT_APPLY: its channel and its address. -/
structure UsedLut where
  channel : Fin 4
  base : Nat
  deriving DecidableEq, Repr

/-- R275: the LUT of a channel where the channel is mapped: HR, HG and HB with target rgb, HA with target alpha. -/
def lutOf (ta hr hg hb ha : Bool) (s : State) (c : Nat) : Option Nat :=
  match c with
  | 0 => if !ta && hr then some (s.arg 4) else none
  | 1 => if !ta && hg then some (s.arg 5) else none
  | 2 => if !ta && hb then some (s.arg 6) else none
  | _ => if ta && ha then some (s.arg 7) else none

/-- The LUTs in use, in channel order (R275, R336). -/
def usedLuts (ta hr hg hb ha : Bool) (s : State) : List UsedLut :=
  ([0, 1, 2, 3] : List (Fin 4)).filterMap (fun c => (lutOf ta hr hg hb ha s c.val).map (fun base => ⟨c, base⟩))

/-- The range checks of the LUTs in use (R275). -/
def checkLutRanges : List UsedLut → Except CmdError Unit
  | [] => .ok ()
  | l :: rest => do
    checkRange (lutRegion l.base) (.lut l.channel)
    checkLutRanges rest

/-- The overlap checks of the LUTs in use (R275). -/
def checkLutOverlaps (dest : Region) : List UsedLut → Except CmdError Unit
  | [] => .ok ()
  | l :: rest => do
    checkOverlap (lutRegion l.base) dest (.lut l.channel)
    checkLutOverlaps dest rest

/-- A channel byte through its LUT, or as it is where there is none (R275). -/
def mapThroughLut (s : State) (lut : Option Nat) (v : Byte) : Byte :=
  match lut with
  | some base => s.byteAt (base + v.toNat)
  | none => v

/-- The LUT entry that a channel byte makes the command read. A byte that does not respond yields no index, so no
entry is read for it (assumption 10). -/
def lutEntryRead (s : State) (lut : Option Nat) (address : Nat) : List Nat :=
  match lut with
  | some base => if s.responds address then [base + (s.byteAt address).toNat] else []
  | none => []

/-- The bytes that LUT_APPLY reads for channel `c` of pixel `(x, y)`: the source byte, then the LUT entry it selects
(R275). -/
def lutPixelReads (s : State) (lut : Nat → Option Nat) (source width x y c : Nat) : List Nat :=
  pixelAddress source width x y c :: lutEntryRead s (lut c) (pixelAddress source width x y c)

/-- LUT_APPLY (R275). Channel 0 of pixel 0 and its LUT entry are read in the validation phase, the other source bytes
and LUT entries in the data phase (R333). -/
def cmdLutApply (ta hr hg hb ha : Bool) (s : State) : Command :=
  let source := s.arg 0
  let width := s.arg 1
  let height := s.arg 2
  let dest := s.arg 3
  let luts := usedLuts ta hr hg hb ha s
  let lut := lutOf ta hr hg hb ha s
  { sources := pixelRegion source width height :: luts.map (fun l => lutRegion l.base)
    dest := pixelRegion dest width height
    args := do
      checkRange (pixelRegion source width height) .src
      checkRange (pixelRegion dest width height) .dst
      checkLutRanges luts
      checkOverlap (pixelRegion source width height) (pixelRegion dest width height) .src
      checkLutOverlaps (pixelRegion dest width height) luts
    body := do
      s.checkedReads (beforeFirstWrite (width * height) (lutPixelReads s lut source width 0 0 0))
      .ok (writePixels dest width height
        (fun x y c => mapThroughLut s (lut c) (s.px source width x y c))
        ((rasterPositions width height).flatMap (fun (x, y) =>
          [0, 1, 2, 3].flatMap (fun c => lutPixelReads s lut source width x y c)))) }

/-! ## The meanings -/

/-- Completion of LUT_BUILD_RAMP (R273). -/
def execLutBuildRamp (s : State) : Host.Outcome State Fault Refusal := completeStep (cmdLutBuildRamp s) s

/-- Completion of LUT_BUILD_FLAT (R274). -/
def execLutBuildFlat (s : State) : Host.Outcome State Fault Refusal := completeStep (cmdLutBuildFlat s) s

/-- Completion of LUT_APPLY (R275). -/
def execLutApply (ta hr hg hb ha : Bool) (s : State) : Host.Outcome State Fault Refusal :=
  completeStep (cmdLutApply ta hr hg hb ha s) s

end Sys2Proof.Machine
end

