-- ==== Sys2Proof/Machine/Dispatch.lean ====
section
/-! DEFINITION. Machine/Dispatch.lean: one arm per command, each the completion step of that command (R311, R312). -/

namespace Sys2Proof.Machine

def exec (i : Instr) (s : State) : Host.Outcome State Fault Refusal :=
  match i with
  | .nop => Sys2Proof.Machine.execNop s
  | .gb7Dec => Sys2Proof.Machine.execGb7Dec s
  | .gb7DecPlane => Sys2Proof.Machine.execGb7DecPlane s
  | .gb7Enc fm => Sys2Proof.Machine.execGb7Enc fm s
  | .gb7EncInline fm => Sys2Proof.Machine.execGb7EncInline fm s
  | .gb7Render d8 => Sys2Proof.Machine.execGb7Render d8 s
  | .ccSrgbToLin => Sys2Proof.Machine.execCcSrgbToLin s
  | .ccLinToSrgb => Sys2Proof.Machine.execCcLinToSrgb s
  | .ccLinToXyz => Sys2Proof.Machine.execCcLinToXyz s
  | .ccXyzToLin => Sys2Proof.Machine.execCcXyzToLin s
  | .ccRgb8ToXyz => Sys2Proof.Machine.execCcRgb8ToXyz s
  | .ccXyzToRgb8 => Sys2Proof.Machine.execCcXyzToRgb8 s
  | .ccXyzToLab => Sys2Proof.Machine.execCcXyzToLab s
  | .ccLabToXyz => Sys2Proof.Machine.execCcLabToXyz s
  | .ccLabToLch => Sys2Proof.Machine.execCcLabToLch s
  | .ccLchToLab => Sys2Proof.Machine.execCcLchToLab s
  | .ccLinToOklab => Sys2Proof.Machine.execCcLinToOklab s
  | .ccOklabToLin => Sys2Proof.Machine.execCcOklabToLin s
  | .ccRgb8ToOklab => Sys2Proof.Machine.execCcRgb8ToOklab s
  | .ccOklabToRgb8 => Sys2Proof.Machine.execCcOklabToRgb8 s
  | .ccOklabToOklch => Sys2Proof.Machine.execCcOklabToOklch s
  | .ccOklchToOklab => Sys2Proof.Machine.execCcOklchToOklab s
  | .ccGb7ToRgb8 => Sys2Proof.Machine.execCcGb7ToRgb8 s
  | .ccRgb8ToGb7 => Sys2Proof.Machine.execCcRgb8ToGb7 s
  | .composite => Sys2Proof.Machine.execComposite s
  | .rsRgbaNearest => Sys2Proof.Machine.execRsRgbaNearest s
  | .rsRgbaBilinear => Sys2Proof.Machine.execRsRgbaBilinear s
  | .rsGrayNearest d8 => Sys2Proof.Machine.execRsGrayNearest d8 s
  | .rsGrayBilinear d8 => Sys2Proof.Machine.execRsGrayBilinear d8 s
  | .lutBuildRamp => Sys2Proof.Machine.execLutBuildRamp s
  | .lutBuildFlat => Sys2Proof.Machine.execLutBuildFlat s
  | .lutApply ta hr hg hb ha => Sys2Proof.Machine.execLutApply ta hr hg hb ha s
  | .conv3x3 tgt norm apass => Sys2Proof.Machine.execConv3x3 tgt norm apass s

end Sys2Proof.Machine
end

