-- ==== Sys2Proof/Machine/Commands.lean ====
section
/-! DEFINITION. Machine/Commands.lean: which command is in flight, as its rule gives it. The host's races (R89) and a
reset (R372) need its regions and its outcome before it completes. -/

namespace Sys2Proof.Machine

/-- The command an instruction stands for, one arm per instruction. -/
def commandOf (i : Instr) (s : State) : Command :=
  match i with
  | .nop => cmdNop s
  | .gb7Dec => cmdGb7Dec s
  | .gb7DecPlane => cmdGb7DecPlane s
  | .gb7Enc fm => cmdGb7Enc fm s
  | .gb7EncInline fm => cmdGb7EncInline fm s
  | .gb7Render d8 => cmdGb7Render d8 s
  | .ccSrgbToLin => cmdCcSrgbToLin s
  | .ccLinToSrgb => cmdCcLinToSrgb s
  | .ccLinToXyz => cmdCcLinToXyz s
  | .ccXyzToLin => cmdCcXyzToLin s
  | .ccRgb8ToXyz => cmdCcRgb8ToXyz s
  | .ccXyzToRgb8 => cmdCcXyzToRgb8 s
  | .ccXyzToLab => cmdCcXyzToLab s
  | .ccLabToXyz => cmdCcLabToXyz s
  | .ccLabToLch => cmdCcLabToLch s
  | .ccLchToLab => cmdCcLchToLab s
  | .ccLinToOklab => cmdCcLinToOklab s
  | .ccOklabToLin => cmdCcOklabToLin s
  | .ccRgb8ToOklab => cmdCcRgb8ToOklab s
  | .ccOklabToRgb8 => cmdCcOklabToRgb8 s
  | .ccOklabToOklch => cmdCcOklabToOklch s
  | .ccOklchToOklab => cmdCcOklchToOklab s
  | .ccGb7ToRgb8 => cmdCcGb7ToRgb8 s
  | .ccRgb8ToGb7 => cmdCcRgb8ToGb7 s
  | .composite => cmdComposite s
  | .rsRgbaNearest => cmdRsRgbaNearest s
  | .rsRgbaBilinear => cmdRsRgbaBilinear s
  | .rsGrayNearest d8 => cmdRsGrayNearest d8 s
  | .rsGrayBilinear d8 => cmdRsGrayBilinear d8 s
  | .lutBuildRamp => cmdLutBuildRamp s
  | .lutBuildFlat => cmdLutBuildFlat s
  | .lutApply ta hr hg hb ha => cmdLutApply ta hr hg hb ha s
  | .conv3x3 tgt norm apass => cmdConv3x3 tgt norm apass s

/-- The command of a CMD word: BAD_CMD where the word does not decode (R111, R337). -/
def commandOfWord (w : Word) (s : State) : Command :=
  match decode w with
  | .ok i => commandOf i s
  | .error _ => badCommand w

/-- The command in flight: the one that the latched CMD word encodes (R56, R311). -/
def State.inFlight (s : State) : Command := commandOfWord s.cmd s

end Sys2Proof.Machine
end

