-- ==== Sys2Proof/Machine/RegisterPort.lean ====
section
/-! DEFINITION. Machine/RegisterPort.lean: the register window (R30 to R52): which register an offset names, what a
read returns, and what a write does, with the soft reset of R372. -/

namespace Sys2Proof.Machine

/-- The registers of the window (R30). -/
inductive Reg where
  | id
  | ctrl
  | status
  | errinfo
  | cmd
  | result0
  | result1
  | arg (k : Fin 8)
  | kernel (k : Fin 9)
  | pixin
  | pixout
  /-- Half of CC_FIN`j`: `high` is the HI half (R48). -/
  | fin (j : Fin 3) (high : Bool)
  /-- Half of CC_FOUT`j` (R49). -/
  | fout (j : Fin 3) (high : Bool)
  /-- An offset that names no register: reads 0, writes are ignored (R50). -/
  | reserved
  deriving DecidableEq, Repr

/-- `ID` (R31), hard-wired. -/
def idValue : Word := 0x52494331#32

/-- The register at word offset `offset / 4` of the window (R30); the offset is a multiple of 4 below 0x100. -/
def regAt (offset : Nat) : Reg :=
  if offset < 0x20 then
    match offset / 4 with
    | 0 => .id
    | 1 => .ctrl
    | 2 => .status
    | 3 => .errinfo
    | 4 => .cmd
    | 5 => .result0
    | 6 => .result1
    | _ => .reserved
  else if offset < 0x40 then .arg (Fin.ofNat 8 ((offset - 0x20) / 4))
  else if offset < 0x64 then .kernel (Fin.ofNat 9 ((offset - 0x40) / 4))
  else if offset < 0x80 then .reserved
  else if offset < 0x84 then .pixin
  else if offset < 0x88 then .pixout
  else if offset < 0xA0 then .fin (Fin.ofNat 3 ((offset - 0x88) / 8)) (decide ((offset - 0x88) % 8 = 4))
  else if offset < 0xB8 then .fout (Fin.ofNat 3 ((offset - 0xA0) / 8)) (decide ((offset - 0xA0) % 8 = 4))
  else .reserved

/-- The LO or HI half of a 64-bit colour register (R48). -/
def half (v : F64) (high : Bool) : Word := if high then v.extractLsb' 32 32 else v.extractLsb' 0 32

/-- A 64-bit colour register with one half written; the other half stays (R48). -/
def withHalf (v : F64) (high : Bool) (w : Word) : F64 :=
  if high then w ++ v.extractLsb' 0 32 else v.extractLsb' 32 32 ++ w

/-- What a read of a register returns; a read changes no register (R30 to R52). -/
def State.readReg (s : State) : Reg → Word
  | .id => idValue
  | .ctrl => s.ctrlWord
  | .status => s.statusWord
  | .errinfo => s.errinfo
  | .cmd => s.cmd
  | .result0 => s.result0
  | .result1 => s.result1
  | .arg k => s.args[k]
  | .kernel k => s.kernel[k]
  | .pixin => s.pixin
  | .pixout => s.pixout
  | .fin j high => half s.fin[j] high
  | .fout j high => half s.fout[j] high
  | .reserved => 0#32

/-- The command in flight, if there is one, is abandoned (R372). -/
def State.abandonInFlight (s : State) : State := if s.busy then s.abandon s.inFlight else s

/-- A soft reset (R34, R372): one atomic step that abandons the command in flight and resets every register. -/
def State.softReset (s : State) : State := s.abandonInFlight.resetRegisters

/-- A write to CTRL (R32, R34): IE takes bit 0, and then bit 31 resets. -/
def State.writeCtrl (v : Word) (s : State) : State :=
  if v.getLsbD 31 then (s.setIE v).softReset else s.setIE v

/-- A write to CMD: issue, or an overrun while BUSY is 1 (R39, R42, R310). -/
def State.writeCmd (v : Word) (s : State) : State := if s.busy then s.setOverrun else s.issue v

/-- An operand register write is ignored while BUSY is 1 (R51). -/
def State.whenIdle (update : State → State) (s : State) : State := if s.busy then s else update s

/-- What a write to a register does (R30 to R52). -/
def State.writeReg (r : Reg) (v : Word) (s : State) : State :=
  match r with
  | .id => s
  | .ctrl => s.writeCtrl v
  | .status => s.clearStatus v
  | .errinfo => s
  | .cmd => s.writeCmd v
  | .result0 => s
  | .result1 => s
  | .arg k => s.whenIdle (fun t => { t with args := t.args.set k v })
  | .kernel k => s.whenIdle (fun t => { t with kernel := t.kernel.set k v })
  | .pixin => s.whenIdle (fun t => { t with pixin := v })
  | .pixout => s
  | .fin j high => s.whenIdle (fun t => { t with fin := t.fin.set j (withHalf t.fin[j] high v) })
  | .fout _ _ => s
  | .reserved => s

/-- The host-bus address lies in the register window (R30, R70). -/
def State.inWindow (s : State) (address : Nat) : Bool :=
  decide (s.platform.base ≤ address) && decide (address < s.platform.base + 0x100)

/-- The access is one R52 gives a meaning: 32 bits at a word-aligned offset. -/
def State.wordAccess (s : State) (address width : Nat) : Bool :=
  width == 32 && (address - s.platform.base) % 4 == 0

/-- The register a host-bus address in the window names. -/
def State.regOf (s : State) (address : Nat) : Reg := regAt (address - s.platform.base)

/-- A host write on the register bus. While the hardware reset is asserted it is ignored (R371). -/
def busWrite (address width : Nat) (v : Word) (s : State) : Host.Outcome State Fault Refusal :=
  if !s.inWindow address then .refused (.outsideWindow address)
  else if !s.wordAccess address width then .refused (.portAccess address width)
  else if s.inReset then .next s
  else .next (s.writeReg (s.regOf address) v)

/-- A host read on the register bus. While the hardware reset is asserted the registers hold their reset values, and a
read returns them (R371). -/
def busRead (address width : Nat) (s : State) : Host.Outcome State Fault Refusal :=
  if !s.inWindow address then .refused (.outsideWindow address)
  else if !s.wordAccess address width then .refused (.portAccess address width)
  else .next { s with readData := s.readReg (s.regOf address) }

end Sys2Proof.Machine
end

