-- ==== Sys2Proof/Machine/Platform.lean ====
section
/-! DEFINITION. Machine/Platform.lean: the transitions of R318 around the register port: the host's own accesses to data
memory (R87 to R89), the hardware reset input (R371), and the engine's turn (R311, R312). -/

namespace Sys2Proof.Machine

/-- The address is in a region that the command in flight reads or writes (R89). -/
def State.protects (s : State) (a : Nat) : Bool := s.busy && s.inFlight.footprint.any (fun r => r.contains a)

/-- The host breaks R89 by writing such an address: the phase keeps data memory as it was before the first such
write. -/
def State.noteRace (s : State) : State :=
  match s.phase with
  | .idle => s
  | .busy none => { s with phase := .busy (some s.mem) }
  | .busy (some _) => s

/-- A host write of one data byte (R87, R89, R318). DESIGN CHOICE (assumption 22): `MemOK` is about the engine alone (R72),
so a byte that does not respond to the engine is plain memory to the host. A data address at or above 2^32 faults
(DESIGN CHOICE, assumption 14). -/
def hostMemWrite (a : Nat) (b : Byte) (s : State) : Host.Outcome State Fault Refusal :=
  if dataSpace ≤ a then .fault (.noDataByte a)
  else
    let t := if s.protects a then s.noteRace else s
    .next { t with mem := t.mem.write a b }

/-- The address is a destination byte of the command in flight (R89). -/
def State.hidden (s : State) (a : Nat) : Bool := s.busy && s.inFlight.destination.contains a

/-- A host read of one data byte: any value for a destination byte of the command in flight (R56, R88, R89), whatever way
the command will end. DESIGN CHOICE (assumption 22): a byte that does not respond to the engine is plain memory to the
host. A data address at or above 2^32 faults (DESIGN CHOICE, assumption 14). -/
def hostMemRead (a : Nat) (s : State) : Host.Outcome State Fault Refusal :=
  if dataSpace ≤ a then .fault (.noDataByte a)
  else if s.hidden a then
    .next { s with readData := (Config.freeByte s.draws a).setWidth 32, draws := s.draws + 1 }
  else .next { s with readData := (s.mem.read a).setWidth 32 }

/-- The hardware reset input is asserted: as a soft reset, and register writes are ignored from now on (R371, R372). -/
def assertReset (s : State) : State := { s.softReset with inReset := true }

/-- The hardware reset input is released: every register holds its reset value (R371). -/
def releaseReset (s : State) : State := { s with inReset := false }

/-- The engine's turn: the command in flight completes; an idle engine does nothing (R311, R312, R347). A word that does
not decode ends with BAD_CMD (R337). -/
def engineTurn (s : State) : Host.Outcome State Fault Refusal :=
  match s.phase with
  | .idle => .next s
  | .busy _ =>
    match decode s.cmd with
    | .ok i => exec i s
    | .error _ => completeStep (badCommand s.cmd) s

/-- What one event does. -/
def runEvent (e : Event) (s : State) : Host.Outcome State Fault Refusal :=
  match e with
  | .engine => engineTurn s
  | .busWrite address width value => busWrite address width value s
  | .busRead address width => busRead address width s
  | .memWrite address value => hostMemWrite address value s
  | .memRead address => hostMemRead address s
  | .resetAssert => .next (assertReset s)
  | .resetRelease => .next (releaseReset s)

/-- The next transition: the oldest event, or, where none waits, the engine's turn (R318; assumption 3). -/
def nextTransition (s : State) : Host.Outcome State Fault Refusal :=
  match s.events with
  | [] => engineTurn s
  | e :: rest => runEvent e { s with events := rest }

/-- A command word issued, with the engine's turn as the next event: what a host's CMD write to an idle RIC and the
engine after it do (R42, R310). -/
def State.placeCommand (w : Word) (s : State) : State := { s.issue w with events := .engine :: s.events }

end Sys2Proof.Machine
end

