-- ==== Sys2Proof/Machine/Step.lean ====
section
/-! DEFINITION. Machine/Step.lean: the whole-machine step (R318), and a command word placed as the next one to run. -/

namespace Sys2Proof.Machine

/-- One step of RIC and what is around it (R318). -/
def step (s : State) : Host.Outcome State Fault Refusal := nextTransition s

/-- The state in which the command word `w` of `nbits` bits is the very next thing to run. RIC fetches no instructions
(R53): a command comes to run by a CMD write that issues it (assumption 3). Bits no command word has make no command,
and such a word is not placed. -/
def State.withFetchWord (s : State) (nbits w : Nat) : State :=
  match tableCommandWord nbits w with
  | some word => s.placeCommand word
  | none => s

end Sys2Proof.Machine
end

