-- ==== Sys2Proof/Safety.lean ====
section
/-! DEFINITION. Safety.lean: what counts as a good state and a good completion, in the terms the statements use. -/

namespace Sys2Proof.Machine

/-- The host has kept R89 so far, so a completion is the one the command's rule gives. -/
def State.orderly (s : State) : Prop := s.raced = false

/-- Every byte of `Region(base, len)` responds to the engine (R72). -/
def State.respondsOn (s : State) (base len : Nat) : Prop := ∀ k, k < len → s.responds (base + k) = true

/-- A region ends within the data address space (R77). -/
def inDataSpace (base len : Nat) : Prop := base + len ≤ dataSpace

/-- Two regions share no address (R18, R78). -/
def disjointRegions (a n b m : Nat) : Prop := ∀ k j, k < n → j < m → a + k ≠ b + j

/-- A source and a destination that the range and overlap checks let pass (R77, R78). -/
def checkedBuffers (source n dest m : Nat) : Prop :=
  inDataSpace source n ∧ inDataSpace dest m ∧ disjointRegions source n dest m

/-- The little-endian value of `n` bytes of a memory (R13 `MemRead`, R73). -/
def Memory.littleEndian (m : Memory) : (a n : Nat) → Nat
  | _, 0 => 0
  | a, n + 1 => (m.read a).toNat + 256 * Memory.littleEndian m (a + 1) n

/-- What no command changes: the operand registers (R44 to R46, R48), CTRL.IE, OVR and CMD (R39, R42), the reset input,
and the MODEL's own fields but for the count of draws. -/
def sameOperands (s t : State) : Prop :=
  t.args = s.args ∧ t.kernel = s.kernel ∧ t.pixin = s.pixin ∧ t.fin = s.fin ∧ t.ie = s.ie ∧ t.ovr = s.ovr ∧
    t.cmd = s.cmd ∧ t.inReset = s.inReset ∧ t.platform = s.platform ∧ t.events = s.events ∧ t.readData = s.readData

/-- The colour output registers are unchanged (R47, R49). -/
def sameColorOutputs (s t : State) : Prop := t.pixout = s.pixout ∧ t.fout = s.fout

/-- Every byte of data memory reads as before. -/
def sameMemory (s t : State) : Prop := ∀ a, t.mem.read a = s.mem.read a

/-- Every byte of data memory outside `Region(base, len)` reads as before. -/
def sameMemoryOutside (s t : State) (base len : Nat) : Prop :=
  ∀ a, ¬ (base ≤ a ∧ a < base + len) → t.mem.read a = s.mem.read a

/-- R312 on success: DONE, no error, the results, the engine idle, and the operands as they were. -/
def completedWith (s t : State) (result0 result1 : Word) : Prop :=
  t.done = true ∧ t.err = false ∧ t.errcode = 0#8 ∧ t.errinfo = 0#32 ∧ t.result0 = result0 ∧ t.result1 = result1 ∧
    t.phase = .idle ∧ sameOperands s t

/-- R312 and R332 on error: ERR, the code and the information word, zero results, the engine idle, and the operands and
colour outputs as they were. -/
def failedWith (s t : State) (code : Byte) (info : Word) : Prop :=
  t.err = true ∧ t.done = false ∧ t.errcode = code ∧ t.errinfo = info ∧ t.result0 = 0#32 ∧ t.result1 = 0#32 ∧
    t.phase = .idle ∧ sameOperands s t ∧ sameColorOutputs s t

/-- A colour command that wrote CC_FOUT (R180): the results are 0, and CC_PIXOUT and data memory are as they were. -/
def colorCompleted (s t : State) : Prop := completedWith s t 0#32 0#32 ∧ sameMemory s t ∧ t.pixout = s.pixout

/-- A colour command that wrote CC_PIXOUT (R180): the results are 0, and CC_FOUT and data memory are as they were. -/
def pixelCompleted (s t : State) : Prop := completedWith s t 0#32 0#32 ∧ sameMemory s t ∧ t.fout = s.fout

/-- A command that wrote `Region(base, len)` and nothing else in memory, with its results, and no colour output. -/
def bufferCompleted (s t : State) (result0 result1 : Word) (base len : Nat) : Prop :=
  completedWith s t result0 result1 ∧ sameColorOutputs s t ∧ sameMemoryOutside s t base len

/-- A command that ended with an error of its validation phase (R332, R333): memory is unchanged. -/
def rejectedWith (s t : State) (code : Byte) (info : Word) : Prop := failedWith s t code info ∧ sameMemory s t

/-- How the data phase of a command that writes `Region(base, len)` ends, by the data bytes it accesses (R312, R334, R335):
with DONE where every one responds; otherwise with BUS_ERROR and the address of one that does not, every byte of the
region a free value, and every byte outside it as before. -/
def endsAsAccessesRespond (s t : State) (accessed : Nat → Prop) (base len : Nat) : Prop :=
  ((∀ a, accessed a → s.responds a = true) → t.done = true) ∧
    ∀ b, accessed b → s.responds b = false →
      (∃ a, accessed a ∧ s.responds a = false ∧ failedWith s t 0x09#8 (BitVec.ofNat 32 a)) ∧
        (∀ k, k < len → t.mem.read (base + k) = Config.freeByte s.draws (base + k)) ∧ sameMemoryOutside s t base len

/-- How a command ends, by the data bytes it accesses, once its tests have passed (R333, R335): with an up-front BUS_ERROR,
which leaves memory unchanged and names the first byte of `first` that does not respond, where one of the reads before
its first `MemWrite` does not; otherwise as its data phase does. -/
def endsByAccesses (s t : State) (first : List Nat) (accessed : Nat → Prop) (base len : Nat) : Prop :=
  match first.find? (fun a => !s.responds a) with
  | some a => rejectedWith s t 0x09#8 (BitVec.ofNat 32 a)
  | none => endsAsAccessesRespond s t accessed base len

/-- A GB7 header stands at `a` (R141, R142, R145, R146). -/
structure Gb7HeaderAt (m : Memory) (a : Nat) (version flags : Byte) (width height : Nat) : Prop where
  magic : m.read a = 0x47#8 ∧ m.read (a + 1) = 0x42#8 ∧ m.read (a + 2) = 0x37#8 ∧ m.read (a + 3) = 0x1D#8
  version_byte : m.read (a + 4) = version
  flags_byte : m.read (a + 5) = flags
  width_field : (m.read (a + 6)).toNat * 256 + (m.read (a + 7)).toNat = width
  height_field : (m.read (a + 8)).toNat * 256 + (m.read (a + 9)).toNat = height
  reserved_zero : m.read (a + 10) = 0#8 ∧ m.read (a + 11) = 0#8

/-- A pixel of a PixelBuffer has alpha below 255 (R153). -/
def someTransparency (m : Memory) (source width height : Nat) : Prop :=
  ∃ x y, x < width ∧ y < height ∧ (m.read (pixelAddress source width x y 3)).toNat < 255

/-- The alpha scan of R153 over `count` pixels meets, at pixel `q`, a byte that does not respond: every pixel before it has
a responding alpha of 255, so that the scan has not stopped. -/
def alphaScanFailsAt (s : State) (source count q : Nat) : Prop :=
  q < count ∧ s.responds (source + 4 * q + 3) = false ∧
    ∀ r, r < q → s.responds (source + 4 * r + 3) = true ∧ s.mem.read (source + 4 * r + 3) = 255#8

/-- `hasAlpha` of R153. -/
def streamHasAlpha (m : Memory) (fm : Bool) (source width height : Nat) (hasAlpha : Bool) : Prop :=
  hasAlpha = true ↔ fm = true ∨ someTransparency m source width height

/-- The layer that the descriptor at `b` gives, or none where it does not contribute or is not valid (R231 to R234). -/
def contributingLayer (m : Memory) (b width height : Nat) : Option Layer :=
  let flags := m.read b
  let opacity := effectiveOpacity (BitVec.ofNat 32 (m.littleEndian (b + 4) 4))
  if flags.getLsbD 0 = false ∨ opacity = 0 then none
  else
    match blendOf (m.read (b + 1)) with
    | none => none
    | some blend =>
      if flags.getLsbD 2 = true then
        some { hideAlpha := flags.getLsbD 1, blend, opacity, source := .color (b + 16) }
      else if m.littleEndian (b + 8) 4 = width ∧ m.littleEndian (b + 12) 4 = height then
        some { hideAlpha := flags.getLsbD 1, blend, opacity, source := .image (m.littleEndian (b + 16) 4) }
      else none

/-- The contributing layers of a table, bottom first (R83, R233). -/
def contributingLayers (m : Memory) (table count width height : Nat) : List Layer :=
  (List.range count).filterMap (fun i => contributingLayer m (table + 32 * i) width height)

/-- The descriptor at `b` is visible with opacity above 0 (R238). -/
def descriptorActive (m : Memory) (b : Nat) : Prop :=
  (m.read b).getLsbD 0 = true ∧ effectiveOpacity (BitVec.ofNat 32 (m.littleEndian (b + 4) 4)) ≠ 0

/-- A descriptor that the pre-pass of R238 lets pass. -/
def descriptorPasses (m : Memory) (b width height dest : Nat) : Prop :=
  (descriptorActive m b → (m.read (b + 1)).toNat ≤ 3) ∧
    ∀ l base, contributingLayer m b width height = some l → l.source = .image base →
      checkedBuffers base (4 * width * height) dest (4 * width * height)

/-- The bytes that the pre-pass reads of a descriptor at `b` that it lets pass: FLAGS and OPACITY; of an active one BLEND;
of an active Image LW; where that is the width, LH; and where that is the height, ADDR (R238). It reads no other. -/
def prepassReads (m : Memory) (b width height : Nat) : List Nat :=
  let flags := m.read b
  [b, b + 4, b + 5, b + 6, b + 7] ++
    if flags.getLsbD 0 = false ∨ effectiveOpacity (BitVec.ofNat 32 (m.littleEndian (b + 4) 4)) = 0 then []
    else [b + 1] ++
      if flags.getLsbD 2 = true then []
      else [b + 8, b + 9, b + 10, b + 11] ++
        if m.littleEndian (b + 8) 4 ≠ width then []
        else [b + 12, b + 13, b + 14, b + 15] ++
          if m.littleEndian (b + 12) 4 ≠ height then [] else [b + 16, b + 17, b + 18, b + 19]

/-- Every byte that the pre-pass reads of the descriptor at `b` responds. -/
def descriptorReadable (s : State) (b width height : Nat) : Prop :=
  ∀ a ∈ prepassReads s.mem b width height, s.responds a = true

/-- A descriptor that the pre-pass of R238 reads and lets pass, with responding pixels: an Image layer's buffer, a Color
layer's four bytes (R234). -/
def descriptorValid (s : State) (b width height dest : Nat) : Prop :=
  descriptorReadable s b width height ∧ descriptorPasses s.mem b width height dest ∧
    ∀ l base, contributingLayer s.mem b width height = some l →
      (l.source = .image base → s.respondsOn base (4 * width * height)) ∧
      (l.source = .color base → s.respondsOn base 4)

/-- The decimals of `M_XYZ` (R185). -/
def rationalXyz (i j : Fin 3) : ℚ :=
  (#v[#v[4124564, 3575761, 1804375], #v[2126729, 7151522, 721750], #v[193339, 1191920, 9503041]] :
    Vector (Vector ℚ 3) 3)[i][j] / 10000000

/-- The decimals of the four OKLab matrices (R192, R193), as integers over 10^10. -/
def oklabDecimals : List (Matrix3 × Vector (Vector ℚ 3) 3) :=
  [(m1, #v[#v[4122214708, 5363325363, 514459929], #v[2119034982, 6806995451, 1073969566],
           #v[883024619, 2817188376, 6299787005]]),
   (m2, #v[#v[2104542553, 7936177850, -40720468], #v[19779984951, -24285922050, 4505937099],
           #v[259040371, 7827717662, -8086757660]]),
   (m2Inv, #v[#v[10000000000, 3963377774, 2158037573], #v[10000000000, -1055613458, -638541728],
              #v[10000000000, -894841775, -12914855480]]),
   (m1Inv, #v[#v[40767416621, -33077115913, 2309699292], #v[-12684380046, 26097574011, -3413193965],
              #v[-41960863, -7034186147, 17076147010]])]

/-- `if condition then yes else no` of statements: one link of a chain of checks. -/
def whenElse (condition yes no : Prop) : Prop := (condition → yes) ∧ (¬ condition → no)

/-- Validation reads of statements: the bytes `base + k` for the `k` of `offsets`, in that order. The first that does not
respond ends the command with BUS_ERROR and its address, and memory unchanged (R333, R335); past them, `rest`. -/
def readsThen (s t : State) (base : Nat) (offsets : List Nat) (rest : Prop) : Prop :=
  offsets.foldr (fun k next =>
    whenElse (s.responds (base + k) = false) (rejectedWith s t 0x09#8 (BitVec.ofNat 32 (base + k))) next) rest

/-- An error of layer `i` with the LAYER code: the index is in bits 31:8 where it fits there (R335). -/
def layerRejected (s t : State) (code : Byte) (i : Nat) : Prop :=
  ∃ info : Word, rejectedWith s t code info ∧ info.extractLsb' 0 8 = 7#8 ∧
    (i < 2 ^ 24 → info = BitVec.ofNat 32 (7 + 256 * i))

/-- The value of a finite binary64 pattern (R48). -/
def f64Value (b : F64) : ℚ := signedRat (f64Sign b) (f64Magnitude b)

/-- What a pattern that is not a NaN stands for in comparisons: its value, or an infinity above or below every value. -/
def f64Extended (b : F64) : WithBot (WithTop ℚ) :=
  if f64Exponent b = 2047 then (if f64Sign b then ⊥ else ((⊤ : WithTop ℚ) : WithBot (WithTop ℚ)))
  else ((f64Value b : WithTop ℚ) : WithBot (WithTop ℚ))

/-- The pattern `r` is the binary64 result for the exact value `q` (R16; IEEE 754, round to nearest, ties to even): no
finite pattern is nearer, and where another value is as near, the fraction of `r` is even. Half a unit in the last place
above the largest finite value and beyond, it is an infinity. A zero from a zero takes the sign given. -/
structure NearestBinary64 (q : ℚ) (zeroNegative : Bool) (r : F64) : Prop where
  sign : f64Sign r = if q = 0 then zeroNegative else decide (q < 0)
  overflow : (2 : ℚ) ^ 1024 - 2 ^ 970 ≤ |q| → f64Exponent r = 2047 ∧ f64Fraction r = 0
  finite : |q| < (2 : ℚ) ^ 1024 - 2 ^ 970 → f64Exponent r ≠ 2047
  nearest : |q| < (2 : ℚ) ^ 1024 - 2 ^ 970 → ∀ c, f64Exponent c ≠ 2047 → |f64Value r - q| ≤ |f64Value c - q|
  even : |q| < (2 : ℚ) ^ 1024 - 2 ^ 970 → ∀ c, f64Exponent c ≠ 2047 → |f64Value r - q| = |f64Value c - q| →
    f64Value c = f64Value r ∨ f64Fraction r % 2 = 0

/-- The codes of R331; no other value is ever written to ERRCODE. -/
def definedCodes : List Byte :=
  [0x00#8, 0x01#8, 0x02#8, 0x03#8, 0x04#8, 0x05#8, 0x06#8, 0x07#8, 0x08#8, 0x09#8, 0x10#8, 0x11#8, 0x12#8]

/-- No entry of data memory is outside the data address space (R70, R71). -/
def State.memInSpace (s : State) : Prop := ∀ c ∈ s.mem, c.1 < dataSpace

/-- What holds of the registers, the phase and the memory in every state of a run. -/
structure State.Inv (s : State) : Prop where
  /-- Data memory keeps its canonical form. -/
  mem_wf : s.mem.wf
  /-- No entry of data memory is outside the data address space (R71, R77). -/
  mem_space : s.memInSpace
  /-- So does the memory a broken R89 keeps. -/
  race_wf : ∀ m, s.phase = .busy (some m) → Memory.wf m
  /-- DONE and ERR are never both 1 (R38). -/
  done_err : ¬ (s.done = true ∧ s.err = true)
  /-- While a command is in flight DONE, ERR, ERRCODE and ERRINFO are 0 (R310). -/
  busy_clear : s.busy = true → s.done = false ∧ s.err = false ∧ s.errcode = 0#8 ∧ s.errinfo = 0#32
  /-- With DONE set, ERRCODE and ERRINFO are 0 (R312). -/
  done_code : s.done = true → s.errcode = 0#8 ∧ s.errinfo = 0#32
  /-- With ERR set, ERRCODE is not 0 (R331, R332). -/
  err_code : s.err = true → s.errcode ≠ 0#8
  /-- ERRCODE holds a code of R331. -/
  code_defined : s.errcode ∈ definedCodes
  /-- While the hardware reset is asserted every register holds its reset value and the engine is idle (R371). -/
  in_reset : s.inReset = true → s.resetRegisters = s

/-- The bytes a command's rule names for writing (R90): none where its validation ends in an error. -/
def Command.namedBytes (c : Command) : Region :=
  match c.outcome with
  | .ok e => e.written
  | .error _ => Region.empty

/-- A run of events that keeps R89: no host write into the regions of the command in flight, and no host read of its
destination. -/
def keepsR89 (s : State) (e : Event) : Prop :=
  match e with
  | .memWrite a _ => s.protects a = false
  | .memRead a => s.hidden a = false
  | .engine => True
  | .busWrite _ _ _ => True
  | .busRead _ _ => True
  | .resetAssert => True
  | .resetRelease => True

end Sys2Proof.Machine
end

