-- ==== Sys2Proof/Certificates/Slice0/Obligations.lean ====
section
/-! DEFINITION. Certificates/Slice0/Obligations.lean: the statements for the provers. Each docstring names the rules
of spec/ that the statement formalises. Statements about an instruction's completion hold wherever the host has kept
R89 (`State.orderly`); what a broken R89 leaves is a statement of its own. -/

section Statements
open Sys2Proof Sys2Proof.Machine

/-! ## Encoding -/

/-- R100 to R103, R109, R112, R116: the words that decode are the encodings of the well-formed instructions, one each. -/
def Obligations.DecodeInvertsEncode : Prop :=
  ∀ (w : Word) (i : Instr), decode w = .ok i ↔ (i.wellFormed = true ∧ w = encode i)

/-- R111: when a word decodes, and what it is otherwise. -/
def Obligations.WordDecodesExactlyWhenAdmitted : Prop :=
  (∀ w : Word, (∃ i, decode w = .ok i) ↔
    (resField w = 0#16 ∧ (∃ r ∈ commandRows, r.accepts w = true) ∧
      ¬ (opField w = 0x70#8 ∧ (w.extractLsb' 8 2 = 0b11#2 ∨ w.extractLsb' 10 2 = 0b11#2)))) ∧
  ∀ (w : Word) (s : State), (∀ i, decode w ≠ .ok i) → s.cmd = w → s.inFlight.outcome = .error (.badCmd w)

/-- R112, R116: words written out from the encoding tables decode to the commands they stand for. -/
def Obligations.WrittenOutWordsDecode : Prop :=
  decode 0x00000000#32 = .ok .nop ∧
  decode 0x00000112#32 = .ok (.gb7Enc true) ∧
  decode 0x00000014#32 = .ok (.gb7Render false) ∧
  decode 0x00000025#32 = .ok .ccXyzToRgb8 ∧
  decode 0x00000040#32 = .ok .composite ∧
  decode 0x00000153#32 = .ok (.rsGrayBilinear true) ∧
  decode 0x00000061#32 = .ok .lutBuildFlat ∧
  decode 0x00001162#32 = .ok (.lutApply true false false false true) ∧
  decode 0x00001A70#32 = .ok (.conv3x3 0b10#2 0b10#2 true) ∧
  decode 0x00010000#32 = .error .reservedBits ∧
  decode 0x00000001#32 = .error .illegalOpcode ∧
  decode 0x00000120#32 = .error .undefinedOption ∧
  decode 0x00000370#32 = .error .reservedField

/-! ## The step, the register port and the phase -/

/-- R311, R318 (assumption 3): while a command is in flight, the engine's turn is exec of the decoded command; it comes
when it is the oldest event, or when no event waits. A command word placed as the next to run is issued, and the very
next step runs it (R53, R310). -/
def Obligations.StepRunsDecodedCommand : Prop :=
  (∀ (s : State) (i : Instr) (rest : List Event), s.busy = true → decode s.cmd = .ok i →
    (s.events = [] → step s = exec i s) ∧
    (s.events = .engine :: rest → step s = exec i { s with events := rest })) ∧
  ∀ (s : State) (w : Word) (i : Instr), decode w = .ok i →
    step (s.withFetchWord 32 w.toNat) = exec i (s.issue w)

/-- R337: an undecodable word is issued normally, and ends with BAD_CMD and the word, with no other effect. -/
def Obligations.UndecodableWordEndsWithBadCmd : Prop :=
  ∀ (s : State) (w : Word), s.inReset = false → s.busy = false → (∀ i, decode w ≠ .ok i) →
    busWrite (s.platform.base + 0x10) 32 w s = .next (s.issue w) ∧
    ∃ t, engineTurn (s.issue w) = .next t ∧ rejectedWith (s.issue w) t 0x01#8 w

/-- R310: what a CMD write does, idle and busy. -/
def Obligations.CmdWriteIssuesWhenIdle : Prop :=
  ∀ (s : State) (w : Word), s.inReset = false →
    (s.busy = false → ∃ t, busWrite (s.platform.base + 0x10) 32 w s = .next t ∧
      t.cmd = w ∧ t.phase = .busy none ∧ t.busy = true ∧ t.done = false ∧ t.err = false ∧ t.errcode = 0#8 ∧
      t.errinfo = 0#32 ∧ t.irq = false ∧ t.ovr = s.ovr ∧ t.result0 = s.result0 ∧ t.result1 = s.result1 ∧
      sameColorOutputs s t ∧ t.args = s.args ∧ t.kernel = s.kernel ∧ t.pixin = s.pixin ∧ t.fin = s.fin ∧
      t.ie = s.ie ∧ t.mem = s.mem ∧ t.inReset = false) ∧
    (s.busy = true → busWrite (s.platform.base + 0x10) 32 w s = .next { s with ovr := true })

/-- R39: when OVR is set and cleared, and that it does not raise the interrupt. -/
def Obligations.OverrunIsSetAndClearedOnlyAsSaid : Prop :=
  ∀ (s : State) (e : Event) (t : State), runEvent e s = .next t →
    (s.ovr = false → t.ovr = true → s.busy = true ∧ ∃ v, e = .busWrite (s.platform.base + 0x10) 32 v) ∧
    (s.ovr = true → t.ovr = false →
      (∃ v, e = .busWrite (s.platform.base + 0x08) 32 v ∧ v.getLsbD 3 = true) ∨
      (∃ v, e = .busWrite (s.platform.base + 0x04) 32 v ∧ v.getLsbD 31 = true) ∨ e = .resetAssert) ∧
    (∀ v, e = .busWrite (s.platform.base + 0x10) 32 v → s.busy = true → s.inReset = false →
      t = { s with ovr := true }) ∧
    (∀ b, State.irq { s with ovr := b } = s.irq)

/-- R36 to R38: BUSY rises only by an accepted CMD write and falls only by completion or reset; DONE and ERR are set
only by a completion, without and with an error, and are never both 1. -/
def Obligations.PhaseFlagsChangeOnlyAsSaid : Prop :=
  ∀ (s : State) (e : Event) (t : State), runEvent e s = .next t →
    (s.busy = false → t.busy = true → ∃ v, e = .busWrite (s.platform.base + 0x10) 32 v) ∧
    (s.busy = true → t.busy = false →
      e = .engine ∨ (∃ v, e = .busWrite (s.platform.base + 0x04) 32 v ∧ v.getLsbD 31 = true) ∨ e = .resetAssert) ∧
    (s.busy = true → e = .engine → t.busy = false ∧ (t.done = true ∨ t.err = true)) ∧
    (e = .resetAssert → t.busy = false ∧ t.done = false ∧ t.err = false) ∧
    (∀ v, e = .busWrite (s.platform.base + 0x04) 32 v → v.getLsbD 31 = true → s.inReset = false →
      t.busy = false ∧ t.done = false ∧ t.err = false) ∧
    (∀ v, e = .busWrite (s.platform.base + 0x10) 32 v → s.busy = false → s.inReset = false →
      t.busy = true ∧ t.cmd = v ∧ t.done = false ∧ t.err = false) ∧
    (∀ v, e = .busWrite (s.platform.base + 0x08) 32 v → s.inReset = false →
      (v.getLsbD 1 = true → t.done = false) ∧ (v.getLsbD 2 = true → t.err = false)) ∧
    (s.done = false → t.done = true → e = .engine ∧ s.busy = true ∧ t.errcode = 0#8) ∧
    (s.err = false → t.err = true → e = .engine ∧ s.busy = true ∧ t.errcode ≠ 0#8) ∧
    (¬ (s.done = true ∧ s.err = true) → ¬ (t.done = true ∧ t.err = true))

/-- R51: what a register write does while a command is in flight, and that its operands are constant until it ends. -/
def Obligations.BusyDropsOperandWrites : Prop :=
  (∀ (s : State) (v : Word), s.inReset = false → s.busy = true →
    busWrite (s.platform.base + 0x10) 32 v s = .next { s with ovr := true } ∧
    (∀ k, k < 8 → busWrite (s.platform.base + 0x20 + 4 * k) 32 v s = .next s) ∧
    (∀ k, k < 9 → busWrite (s.platform.base + 0x40 + 4 * k) 32 v s = .next s) ∧
    busWrite (s.platform.base + 0x80) 32 v s = .next s ∧
    (∀ k, k < 6 → busWrite (s.platform.base + 0x88 + 4 * k) 32 v s = .next s) ∧
    busWrite (s.platform.base + 0x04) 32 v s = .next (s.writeCtrl v) ∧
    busWrite (s.platform.base + 0x08) 32 v s = .next (s.clearStatus v)) ∧
  ∀ (s : State) (e : Event) (t : State), runEvent e s = .next t → s.busy = true → t.busy = true →
    t.args = s.args ∧ t.kernel = s.kernel ∧ t.pixin = s.pixin ∧ t.fin = s.fin ∧ t.cmd = s.cmd

/-- R33, R35: the STATUS word, bit by bit, what a write to it clears, irq, and what changing IE changes. -/
def Obligations.StatusAndInterruptLine : Prop :=
  State.reset.statusWord = 0#32 ∧
  ∀ s : State,
    busRead (s.platform.base + 0x08) 32 s = .next { s with readData := s.statusWord } ∧
    s.statusWord.getLsbD 0 = s.busy ∧ s.statusWord.getLsbD 1 = s.done ∧ s.statusWord.getLsbD 2 = s.err ∧
    s.statusWord.getLsbD 3 = s.ovr ∧ s.statusWord.extractLsb' 4 4 = 0#4 ∧
    s.statusWord.extractLsb' 8 8 = s.errcode ∧ s.statusWord.extractLsb' 16 16 = 0#16 ∧
    (s.inReset = false → ∀ v, busWrite (s.platform.base + 0x08) 32 v s =
      .next { s with done := s.done && !v.getLsbD 1, err := s.err && !v.getLsbD 2, ovr := s.ovr && !v.getLsbD 3 }) ∧
    (s.irq = true ↔ s.ctrlWord.getLsbD 0 = true ∧ (s.statusWord.getLsbD 1 = true ∨ s.statusWord.getLsbD 2 = true)) ∧
    ∀ v : Word, s.inReset = false → v.getLsbD 31 = false →
      busWrite (s.platform.base + 0x04) 32 v s = .next { s with ie := v.getLsbD 0 } ∧
      State.statusWord { s with ie := v.getLsbD 0 } = s.statusWord

/-- R50, R52: which accesses have a meaning, that a read changes no register, that a write to a register other than
CMD, CTRL and STATUS changes that register alone, and that a reserved offset reads 0 and ignores writes. -/
def Obligations.PortAccessesHaveOnlyTheirSideEffects : Prop :=
  ∀ (s : State) (offset width : Nat) (v : Word), offset < 0x100 →
    (width ≠ 32 ∨ offset % 4 ≠ 0 →
      busRead (s.platform.base + offset) width s = .refused (.portAccess (s.platform.base + offset) width) ∧
      busWrite (s.platform.base + offset) width v s = .refused (.portAccess (s.platform.base + offset) width)) ∧
    (offset % 4 = 0 → ∃ value, busRead (s.platform.base + offset) 32 s = .next { s with readData := value }) ∧
    (offset % 4 = 0 → offset ≠ 0x04 → offset ≠ 0x08 → offset ≠ 0x10 →
      ∃ t, busWrite (s.platform.base + offset) 32 v s = .next t ∧ t.mem = s.mem ∧ t.phase = s.phase ∧
        ∀ r : Reg, r ≠ regAt offset → t.readReg r = s.readReg r) ∧
    (offset % 4 = 0 → (offset = 0x1C ∨ (0x64 ≤ offset ∧ offset ≤ 0x7C) ∨ 0xB8 ≤ offset) →
      busRead (s.platform.base + offset) 32 s = .next { s with readData := 0#32 } ∧
      busWrite (s.platform.base + offset) 32 v s = .next s)

/-- R378, with R30, R31, R41 to R50: what a read of a register returns right after a write to it, while no command is in
flight; and, at each offset of the window that names a register other than CTRL and STATUS, which register a read
returns and a write changes. -/
def Obligations.ReadAfterWriteReturnsWhatAccessRulesGive : Prop :=
  (∀ (s : State) (v : Word), s.busy = false →
    (∀ r : Reg, (r = .cmd ∨ r = .pixin ∨ (∃ k, r = .arg k) ∨ (∃ k, r = .kernel k) ∨ ∃ j high, r = .fin j high) →
      (s.writeReg r v).readReg r = v) ∧
    (∀ r : Reg, (r = .id ∨ r = .errinfo ∨ r = .result0 ∨ r = .result1 ∨ r = .pixout ∨ r = .reserved ∨
      ∃ j high, r = .fout j high) → s.writeReg r v = s) ∧
    (s.writeReg .ctrl v).readReg .ctrl = (if v.getLsbD 31 then 0#32 else v &&& 1#32) ∧
    ∀ (j : Fin 3) (high : Bool),
      (s.writeReg (.fin j high) v).readReg (.fin j (!high)) = s.readReg (.fin j (!high)) ∧
      (s.writeReg (.fin j high) v).fin[j] =
        (s.writeReg (.fin j high) v).readReg (.fin j true) ++ (s.writeReg (.fin j high) v).readReg (.fin j false)) ∧
  (∀ s : State,
    let reads := fun (offset : Nat) (value : Word) =>
      busRead (s.platform.base + offset) 32 s = .next { s with readData := value }
    reads 0x00 0x52494331#32 ∧ reads 0x0C s.errinfo ∧ reads 0x10 s.cmd ∧ reads 0x14 s.result0 ∧
    reads 0x18 s.result1 ∧ (∀ k : Fin 8, reads (0x20 + 4 * k.val) s.args[k]) ∧
    (∀ k : Fin 9, reads (0x40 + 4 * k.val) s.kernel[k]) ∧ reads 0x80 s.pixin ∧ reads 0x84 s.pixout ∧
    ∀ j : Fin 3,
      reads (0x88 + 8 * j.val) (s.fin[j].extractLsb' 0 32) ∧ reads (0x8C + 8 * j.val) (s.fin[j].extractLsb' 32 32) ∧
      reads (0xA0 + 8 * j.val) (s.fout[j].extractLsb' 0 32) ∧ reads (0xA4 + 8 * j.val) (s.fout[j].extractLsb' 32 32)) ∧
  ∀ (s : State) (v : Word), s.inReset = false → s.busy = false →
    let writes := fun (offset : Nat) (t : State) => busWrite (s.platform.base + offset) 32 v s = .next t
    (∀ k : Fin 8, writes (0x20 + 4 * k.val) { s with args := s.args.set k v }) ∧
    (∀ k : Fin 9, writes (0x40 + 4 * k.val) { s with kernel := s.kernel.set k v }) ∧
    writes 0x80 { s with pixin := v } ∧
    (∀ j : Fin 3,
      writes (0x88 + 8 * j.val) { s with fin := s.fin.set j (s.fin[j].extractLsb' 32 32 ++ v) } ∧
      writes (0x8C + 8 * j.val) { s with fin := s.fin.set j (v ++ s.fin[j].extractLsb' 0 32) }) ∧
    (∀ offset ∈ [0x00, 0x0C, 0x14, 0x18, 0x84, 0xA0, 0xA4, 0xA8, 0xAC, 0xB0, 0xB4], writes offset s) ∧
    ∀ offset, offset % 4 = 0 → (offset = 0x10 ∨ (0x20 ≤ offset ∧ offset < 0x64) ∨ offset = 0x80 ∨
        (0x88 ≤ offset ∧ offset < 0xA0)) →
      ∃ t, writes offset t ∧ busRead (t.platform.base + offset) 32 t = .next { t with readData := v }

/-! ## Reset -/

/-- R58: what every register reads after a soft or hardware reset, the phase and irq. -/
def Obligations.EveryRegisterHasItsResetValue : Prop :=
  ∀ (s t : State), (t = s.softReset ∨ t = assertReset s ∨ t = releaseReset (assertReset s) ∨ t = State.reset) →
    (∀ r : Reg, t.readReg r = if r = .id then 0x52494331#32 else 0#32) ∧ t.phase = .idle ∧ t.irq = false

/-- R372: a soft reset abandons the command in flight. -/
def Obligations.SoftResetAbandonsCommand : Prop :=
  ∀ (s : State) (v : Word), s.inReset = false → v.getLsbD 31 = true →
    ∃ t, busWrite (s.platform.base + 0x04) 32 v s = .next t ∧ t.resetRegisters = t ∧ t.phase = .idle ∧
      t.done = false ∧ t.err = false ∧ t.irq = false ∧ t.result0 = 0#32 ∧ t.result1 = 0#32 ∧
      (s.busy = false → t.mem = s.mem) ∧
      (s.busy = true → s.orderly →
        (∀ a, s.inFlight.namedBytes.contains a = true → t.mem.read a = Config.freeByte s.draws a) ∧
        ∀ a, s.inFlight.namedBytes.contains a = false → t.mem.read a = s.mem.read a) ∧
      (s.busy = true → ∀ a, s.inFlight.destination.contains a = false → t.mem.read a = s.mem.read a) ∧
      (s.busy = true → s.orderly → ∀ r ∈ s.inFlight.sources, ∀ a, r.contains a = true →
        t.mem.read a = s.mem.read a)

/-- R371, R372: the hardware reset input, while asserted and when released; it abandons a command in flight as a soft
reset does. That asserting and releasing it are two events is the model's reading (log entry 18). -/
def Obligations.HardwareResetHoldsRegisters : Prop :=
  (∀ s : State, ∃ t, runEvent .resetAssert s = .next t ∧ t.inReset = true ∧ t.resetRegisters = t ∧
    (s.busy = false → t.mem = s.mem) ∧
    (s.busy = true → s.orderly →
      (∀ a, s.inFlight.namedBytes.contains a = true → t.mem.read a = Config.freeByte s.draws a) ∧
      (∀ a, s.inFlight.namedBytes.contains a = false → t.mem.read a = s.mem.read a) ∧
      ∀ r ∈ s.inFlight.sources, ∀ a, r.contains a = true → t.mem.read a = s.mem.read a) ∧
    ∀ a, (s.busy = false ∨ s.inFlight.destination.contains a = false) → t.mem.read a = s.mem.read a) ∧
  ∀ s : State, s.inReset = true → s.resetRegisters = s →
    (∀ (offset : Nat) (v : Word), offset < 0x100 → offset % 4 = 0 →
      busWrite (s.platform.base + offset) 32 v s = .next s ∧
      busRead (s.platform.base + offset) 32 s =
        .next { s with readData := if offset = 0 then 0x52494331#32 else 0#32 }) ∧
    ∃ t, runEvent .resetRelease s = .next t ∧ t.inReset = false ∧ t.resetRegisters = t ∧ t.mem = s.mem ∧
      t.irq = false

/-! ## The whole machine -/

/-- The invariant holds after reset (R58, R371; memory at reset is assumption 2). -/
def Obligations.InvariantHoldsAtReset : Prop := State.reset.Inv

/-- R38, R71, R77, R310, R312, R331, R371 and the canonical form of memory: every step keeps the invariant. -/
def Obligations.EveryStepKeepsInvariant : Prop :=
  ∀ s t : State, s.Inv → step s = .next t → t.Inv

/-- R87, R90, R318: which events can change data memory, and where; and no event changes a platform parameter (R7,
R373). -/
def Obligations.MemoryChangesOnlyByHostOrCompletion : Prop :=
  ∀ (s : State) (e : Event) (t : State), runEvent e s = .next t → t.platform = s.platform ∧
    ∀ a : Nat, t.mem.read a ≠ s.mem.read a →
      (e = .engine ∧ s.busy = true ∧ s.inFlight.destination.contains a = true) ∨
      (∃ b, e = .memWrite a b) ∨
      (s.busy = true ∧ s.inFlight.destination.contains a = true ∧
        (e = .resetAssert ∨ ∃ v, e = .busWrite (s.platform.base + 0x04) 32 v ∧ v.getLsbD 31 = true))

/-- R311, R312, R330: every command completes, with DONE and code 0 or with ERR and a code of R331; and it changes no
operand register, nor CMD, CTRL.IE or OVR (R44 to R46, R48, R180). -/
def Obligations.EveryCommandCompletes : Prop :=
  ∀ (i : Instr) (s : State), ∃ t, exec i s = .next t ∧ sameOperands s t ∧ t.phase = .idle ∧
    t.errcode ∈ definedCodes ∧
    ((t.done = true ∧ t.err = false ∧ t.errcode = 0#8 ∧ t.errinfo = 0#32) ∨
     (t.done = false ∧ t.err = true ∧ t.errcode ≠ 0#8 ∧ sameColorOutputs s t))

/-- R311, R380: a command in flight ends after finitely many of the machine's steps, unless one of the host accesses that
wait stops the run first: a data-memory access at or above 2^32 (`noDataByte`), a register access outside the window
(`outsideWindow`), or one in it that is not 32 bits wide or not word-aligned (`portAccess`, R52). The first two are
stops that log entry 14 chooses. -/
def Obligations.CommandInFlightEnds : Prop :=
  ∀ s : State, s.busy = true → ∃ n, n ≤ s.events.length + 1 ∧
    match Sys2Proof.core.run n s with
    | .next t => t.busy = false
    | .fault f => ∃ a, f = Fault.noDataByte a ∧ dataSpace ≤ a ∧
        (.memRead a ∈ s.events ∨ ∃ b, .memWrite a b ∈ s.events)
    | .refused r => ∃ a width, (.busRead a width ∈ s.events ∨ ∃ v, .busWrite a width v ∈ s.events) ∧
        ((r = Refusal.outsideWindow a ∧ ¬ (s.platform.base ≤ a ∧ a < s.platform.base + 0x100)) ∨
         (r = Refusal.portAccess a width ∧ s.platform.base ≤ a ∧ a < s.platform.base + 0x100 ∧
           (width ≠ 32 ∨ (a - s.platform.base) % 4 ≠ 0)))

/-- R90: a completion writes only bytes that the command's rule names, all of them in its destination, and no source
byte, even on error. -/
def Obligations.SourceBuffersAreNeverWritten : Prop :=
  ∀ (i : Instr) (s t : State), s.orderly → exec i s = .next t →
    (∀ a, (commandOf i s).namedBytes.contains a = false → t.mem.read a = s.mem.read a) ∧
    (∀ a, (commandOf i s).namedBytes.contains a = true → (commandOf i s).dest.contains a = true) ∧
    ∀ r ∈ (commandOf i s).sources, ∀ a, r.contains a = true → t.mem.read a = s.mem.read a

/-- R332, R333: how an error of the validation phase ends a command, and that only BUS_ERROR can come later. -/
def Obligations.UpFrontErrorsChangeNoMemory : Prop :=
  ∀ (i : Instr) (s : State), s.orderly →
    (∀ e, (commandOf i s).outcome = .error e →
      ∃ t, exec i s = .next t ∧ rejectedWith s t e.code (e.info (Config.freeWord s.draws 2))) ∧
    ∀ t, exec i s = .next t → t.err = true → t.errcode ≠ 0x09#8 → sameMemory s t

/-- R334 and, for the data phase, R335: what a BUS_ERROR of the data phase leaves. Which bytes each family reads, and in
which phase, is the statement AccessedBytesDecideBusError. -/
def Obligations.DataPhaseBusErrorLeavesNamedBytesOpen : Prop :=
  ∀ (i : Instr) (s : State) (e : Effect) (bad : Nat), s.orderly → (commandOf i s).outcome = .ok e →
    bad ∈ e.accesses → s.responds bad = false →
    ∃ t a, exec i s = .next t ∧ a ∈ e.accesses ∧ s.responds a = false ∧
      failedWith s t 0x09#8 (BitVec.ofNat 32 a) ∧
      (∀ d, e.written.contains d = true → t.mem.read d = Config.freeByte s.draws d) ∧
      ∀ d, e.written.contains d = false → t.mem.read d = s.mem.read d

/-- R91, R379: a completion depends on the registers and on the bytes of its source regions alone. -/
def Obligations.CompletionDependsOnlyOnSources : Prop :=
  ∀ (i : Instr) (s u : State), s.orderly → u.orderly →
    u.args = s.args → u.kernel = s.kernel → u.pixin = s.pixin → u.fin = s.fin → u.cmd = s.cmd →
    u.platform = s.platform → u.draws = s.draws → sameColorOutputs s u →
    (∀ r ∈ (commandOf i s).sources, ∀ a, r.contains a = true → u.mem.read a = s.mem.read a) →
    ∃ t v, exec i s = .next t ∧ exec i u = .next v ∧
      v.done = t.done ∧ v.err = t.err ∧ v.errcode = t.errcode ∧ v.errinfo = t.errinfo ∧
      v.result0 = t.result0 ∧ v.result1 = t.result1 ∧ sameColorOutputs t v ∧
      (commandOf i u).namedBytes = (commandOf i s).namedBytes ∧
      ∀ a, (commandOf i s).namedBytes.contains a = true → v.mem.read a = t.mem.read a

/-- R56, R89: what the host's accesses to a command's regions leave, and that other accesses are plain. The MODEL's
choices, which R56 and R89 do not state: that MemOK does not bear on the host's own accesses, so that the plain-access
clauses hold of every address below 2^32 (DESIGN CHOICE, log entry 22); and the regions of a command that will end in an
error (DEDUCED, log entry 8): it has its destination and its sources all the same, the destination's bytes below 2^32,
and of an erroring COMPOSITE the table and the buffers that its active Image descriptors name. -/
def Obligations.HostAccessDuringCommand : Prop :=
  ∀ (s : State) (i : Instr), s.phase = .busy none → decode s.cmd = .ok i →
    let c := commandOf i s
    (∀ a, a < dataSpace → c.dest.contains a = true →
      ∃ t, hostMemRead a s = .next t ∧ t.readData = (Config.freeByte s.draws a).setWidth 32) ∧
    (∀ a b, a < dataSpace → (∃ r ∈ c.dest :: c.sources, r.contains a = true) →
      ∃ u t, hostMemWrite a b s = .next u ∧ u.mem = s.mem.write a b ∧ exec i u = .next t ∧
        (∀ d, d < dataSpace → c.dest.contains d = true → t.mem.read d = Config.freeByte u.draws d) ∧
        t.result0 = Config.freeWord u.draws 0 ∧ t.result1 = Config.freeWord u.draws 1 ∧
        ∀ d, (c.dest.contains d = false ∨ dataSpace ≤ d) → t.mem.read d = u.mem.read d) ∧
    (∀ a, a < dataSpace → c.dest.contains a = false →
      hostMemRead a s = .next { s with readData := (s.mem.read a).setWidth 32 }) ∧
    ∀ a b, a < dataSpace → (∀ r ∈ c.dest :: c.sources, r.contains a = false) →
      hostMemWrite a b s = .next { s with mem := s.mem.write a b }

/-- R70, R71, R88: the host's own accesses to data memory while no command is in flight. The MODEL's choices: that an
address at or above 2^32, which R70 and R71 give no byte, faults with `noDataByte` (DESIGN CHOICE, log entry 14); that
MemOK does not bear on the host's own accesses (DESIGN CHOICE, log entry 22); and that the machine carries these
accesses as events (log entry 3). -/
def Obligations.HostMemoryAccessWhenIdle : Prop :=
  ∀ (s : State) (a : Nat) (b : Byte), s.busy = false →
    (dataSpace ≤ a → hostMemRead a s = .fault (.noDataByte a) ∧ hostMemWrite a b s = .fault (.noDataByte a)) ∧
    (a < dataSpace → hostMemRead a s = .next { s with readData := (s.mem.read a).setWidth 32 } ∧
      ∃ t, hostMemWrite a b s = .next t ∧ t = { s with mem := t.mem } ∧
        ∀ d, t.mem.read d = if d = a then b else s.mem.read d)

/-! ## NOP and the colour commands -/

/-- R313: NOP, its encoding and its completion. -/
def Obligations.NopOnlyCompletes : Prop :=
  decode 0x00000000#32 = .ok .nop ∧
  (∀ w : Word, opField w = 0x00#8 → w ≠ 0x00000000#32 → ∃ e, decode w = .error e) ∧
  ∀ s : State, s.orderly → ∃ t, exec .nop s = .next t ∧ completedWith s t 0#32 0#32 ∧ sameColorOutputs s t ∧
    sameMemory s t ∧ (s.ovr = false → t.statusWord = 0x00000002#32)

/-- R182, R183 with R200, R201: the sRGB transfer commands and their constants. And R16, for every colour command: `fl`
and the four operations round the exact value to the nearest binary64, ties to even, and a comparison with a NaN is false.
What R16 leaves to IEEE 754 is taken from that standard (PRESUMED, log entry 21): overflow to an infinity, the sign of a
zero, the operations on infinities and by zero, and which results are a NaN (of any pattern, log entry 4). -/
def Obligations.SrgbTransferCommands : Prop :=
  (∀ q : ℚ, NearestBinary64 q false (fl q)) ∧
  (∀ a : F64, f64Exponent a ≠ 2047 → f64Value a = (if a.getLsbD 63 then -1 else 1) *
    if f64Exponent a = 0 then (f64Fraction a : ℚ) / 2 ^ 1074
    else (1 + (f64Fraction a : ℚ) / 2 ^ 52) * (2 : ℚ) ^ ((f64Exponent a : Int) - 1023)) ∧
  (∀ a b : F64, f64Exponent a ≠ 2047 → f64Exponent b ≠ 2047 →
    NearestBinary64 (f64Value a + f64Value b) (f64Sign a && f64Sign b) (fadd a b) ∧
    NearestBinary64 (f64Value a - f64Value b) (f64Sign a && !f64Sign b) (fsub a b) ∧
    NearestBinary64 (f64Value a * f64Value b) (f64Sign a != f64Sign b) (fmul a b) ∧
    (f64Value b ≠ 0 → NearestBinary64 (f64Value a / f64Value b) (f64Sign a != f64Sign b) (fdiv a b))) ∧
  (∀ a b : F64,
    let nan := f64IsNaN a = true ∨ f64IsNaN b = true
    (flt a b = true ↔ ¬ nan ∧ f64Extended a < f64Extended b) ∧
    (fle a b = true ↔ ¬ nan ∧ f64Extended a ≤ f64Extended b) ∧
    (fgt a b = true ↔ ¬ nan ∧ f64Extended b < f64Extended a) ∧
    (fge a b = true ↔ ¬ nan ∧ f64Extended b ≤ f64Extended a)) ∧
  (∀ a b : F64,
    let nan := f64IsNaN a = true ∨ f64IsNaN b = true
    let inf := fun (v : F64) => f64Exponent v = 2047 ∧ f64Fraction v = 0
    let zero := fun (v : F64) => f64Exponent v = 0 ∧ f64Fraction v = 0
    let result := fun (invalid : Prop) (r : F64) (cases : Prop) =>
      whenElse (nan ∨ invalid) (f64IsNaN r = true) cases
    let infinite := fun (sign : Bool) (r : F64) => inf r ∧ f64Sign r = sign
    result (inf a ∧ inf b ∧ f64Sign a ≠ f64Sign b) (fadd a b)
      ((inf a → fadd a b = a) ∧ (inf b → fadd a b = b)) ∧
    result (inf a ∧ inf b ∧ f64Sign a = f64Sign b) (fsub a b)
      ((inf a → fsub a b = a) ∧ (inf b → infinite (!f64Sign b) (fsub a b))) ∧
    result ((inf a ∧ zero b) ∨ (zero a ∧ inf b)) (fmul a b)
      (inf a ∨ inf b → infinite (f64Sign a != f64Sign b) (fmul a b)) ∧
    result ((inf a ∧ inf b) ∨ (zero a ∧ zero b)) (fdiv a b)
      ((inf a ∨ zero b → infinite (f64Sign a != f64Sign b) (fdiv a b)) ∧
        (inf b → zero (fdiv a b) ∧ f64Sign (fdiv a b) = (f64Sign a != f64Sign b)))) ∧
  fdiv (fl (4045 / 100000)) (fl (1292 / 100)) = 0x3F69A5C61C57A062#64 ∧
  fdiv (fl 1) (fl (24 / 10)) = 0x3FDAAAAAAAAAAAAB#64 ∧
  ∀ s : State, s.orderly →
    (∃ t, exec .ccSrgbToLin s = .next t ∧ colorCompleted s t ∧ ∀ j : Fin 3, t.fout[j] =
      if fle s.fin[j] (fl (4045 / 100000)) then fdiv s.fin[j] (fl (1292 / 100))
      else Config.pow (fdiv (fadd s.fin[j] (fl (55 / 1000))) (fl (1055 / 1000))) (fl (24 / 10))) ∧
    ∃ t, exec .ccLinToSrgb s = .next t ∧ colorCompleted s t ∧ ∀ j : Fin 3, t.fout[j] =
      if fle s.fin[j] 0x3F69A5C61C57A062#64 then fmul s.fin[j] (fl (1292 / 100))
      else fsub (fmul (fl (1055 / 1000)) (Config.pow s.fin[j] 0x3FDAAAAAAAAAAAAB#64)) (fl (55 / 1000))

/-- R184 to R186 with R202, R203: the XYZ matrix commands; the inverse matrix is the exact inverse, each entry
rounded. -/
def Obligations.XyzMatrixCommands : Prop :=
  (∀ i j : Fin 3, mXyz[i][j] = fl (rationalXyz i j)) ∧
  (∃ inverse : Fin 3 → Fin 3 → ℚ,
    (∀ i j : Fin 3, rationalXyz i 0 * inverse 0 j + rationalXyz i 1 * inverse 1 j + rationalXyz i 2 * inverse 2 j =
      if i = j then 1 else 0) ∧
    ∀ i j : Fin 3, mXyzInv[i][j] = fl (inverse i j)) ∧
  ∀ s : State, s.orderly →
    (∃ t, exec .ccLinToXyz s = .next t ∧ colorCompleted s t ∧ ∀ i : Fin 3, t.fout[i] =
      fadd (fadd (fmul mXyz[i][0] s.fin[0]) (fmul mXyz[i][1] s.fin[1])) (fmul mXyz[i][2] s.fin[2])) ∧
    ∃ t, exec .ccXyzToLin s = .next t ∧ colorCompleted s t ∧ ∀ i : Fin 3, t.fout[i] =
      fadd (fadd (fmul mXyzInv[i][0] s.fin[0]) (fmul mXyzInv[i][1] s.fin[1])) (fmul mXyzInv[i][2] s.fin[2])

/-- R187 to R189 with R206, R207: the Lab commands and their constants. -/
def Obligations.LabCommands : Prop :=
  whiteX = fl (95047 / 100000) ∧ whiteY = fl 1 ∧ whiteZ = fl (108883 / 100000) ∧ labDelta = fl (6 / 29) ∧
  labD3 = fl (216 / 24389) ∧ labC3 = fl (108 / 841) ∧ labC4 = fl (4 / 29) ∧
  ∀ s : State, s.orderly →
    let f := fun v => if fgt v labD3 then Config.cbrt v else fadd (fdiv v labC3) labC4
    let finv := fun u => if fgt u labDelta then fmul (fmul u u) u else fmul labC3 (fsub u labC4)
    (∃ t, exec .ccXyzToLab s = .next t ∧ colorCompleted s t ∧
      t.fout[0] = fsub (fmul (fl 116) (f (fdiv s.fin[1] whiteY))) (fl 16) ∧
      t.fout[1] = fmul (fl 500) (fsub (f (fdiv s.fin[0] whiteX)) (f (fdiv s.fin[1] whiteY))) ∧
      t.fout[2] = fmul (fl 200) (fsub (f (fdiv s.fin[1] whiteY)) (f (fdiv s.fin[2] whiteZ)))) ∧
    ∃ t, exec .ccLabToXyz s = .next t ∧ colorCompleted s t ∧
      let fy := fdiv (fadd s.fin[0] (fl 16)) (fl 116)
      t.fout[0] = fmul whiteX (finv (fadd fy (fdiv s.fin[1] (fl 500)))) ∧
      t.fout[1] = fmul whiteY (finv fy) ∧
      t.fout[2] = fmul whiteZ (finv (fsub fy (fdiv s.fin[2] (fl 200))))

/-- R190, R191 with R208, R209, R214, R215: the polar commands and their constants. -/
def Obligations.PolarCommands : Prop :=
  fdiv (fl 180) 0x400921FB54442D18#64 = 0x404CA5DC1A63C1F8#64 ∧
  fdiv 0x400921FB54442D18#64 (fl 180) = 0x3F91DF46A2529D39#64 ∧
  ∀ s : State, s.orderly →
    (∀ i ∈ [Instr.ccLabToLch, Instr.ccOklabToOklch], ∃ t, exec i s = .next t ∧ colorCompleted s t ∧
      t.fout[0] = s.fin[0] ∧ t.fout[1] = Config.hypot s.fin[1] s.fin[2] ∧
      let h := fmul (Config.atan2 s.fin[2] s.fin[1]) 0x404CA5DC1A63C1F8#64
      let h' := if flt h (fl 0) then fadd h (fl 360) else h
      t.fout[2] = if fge h' (fl 360) then fsub h' (fl 360) else h') ∧
    ∀ i ∈ [Instr.ccLchToLab, Instr.ccOklchToOklab], ∃ t, exec i s = .next t ∧ colorCompleted s t ∧
      t.fout[0] = s.fin[0] ∧
      t.fout[1] = fmul s.fin[1] (Config.cos (fmul s.fin[2] 0x3F91DF46A2529D39#64)) ∧
      t.fout[2] = fmul s.fin[1] (Config.sin (fmul s.fin[2] 0x3F91DF46A2529D39#64))

/-- R184, R192 to R195 with R210, R211: the OKLab commands and their matrices. -/
def Obligations.OklabCommands : Prop :=
  (∀ p ∈ oklabDecimals, ∀ i j : Fin 3, p.1[i][j] = fl (p.2[i][j] / 10000000000)) ∧
  ∀ s : State, s.orderly →
    let row := fun (r : Vector F64 3) (a b c : F64) => fadd (fadd (fmul r[0] a) (fmul r[1] b)) (fmul r[2] c)
    let cubed := fun (x : F64) => fmul (fmul x x) x
    (∃ t, exec .ccLinToOklab s = .next t ∧ colorCompleted s t ∧ ∀ i : Fin 3, t.fout[i] =
      row m2[i] (Config.cbrt (row m1[0] s.fin[0] s.fin[1] s.fin[2]))
        (Config.cbrt (row m1[1] s.fin[0] s.fin[1] s.fin[2])) (Config.cbrt (row m1[2] s.fin[0] s.fin[1] s.fin[2]))) ∧
    ∃ t, exec .ccOklabToLin s = .next t ∧ colorCompleted s t ∧ ∀ i : Fin 3, t.fout[i] =
      row m1Inv[i] (cubed (row m2Inv[0] s.fin[0] s.fin[1] s.fin[2]))
        (cubed (row m2Inv[1] s.fin[0] s.fin[1] s.fin[2])) (cubed (row m2Inv[2] s.fin[0] s.fin[1] s.fin[2]))

/-- R181 with R204, R205, R212, R213: `sat8` of every binary64 pattern (0 for a NaN and for minus infinity, 255 for
plus infinity, else the exact value rounded, ties up, and clamped), and the commands that take or give 8-bit channels.
The conversion functions are those that the statements SrgbTransferCommands, XyzMatrixCommands and OklabCommands
characterise. -/
def Obligations.EightBitColourCommands : Prop :=
  (∀ v : F64,
    (f64Exponent v = 2047 → f64Fraction v ≠ 0 → sat8 v = 0#8) ∧
    (f64Exponent v = 2047 → f64Fraction v = 0 → sat8 v = if v.getLsbD 63 then 0#8 else 255#8) ∧
    (f64Exponent v ≠ 2047 → ∀ n : Int,
      (n : ℚ) ≤ signedRat (v.getLsbD 63) (f64Magnitude v) + 1 / 2 →
      signedRat (v.getLsbD 63) (f64Magnitude v) + 1 / 2 < n + 1 →
      ((sat8 v).toNat : Int) = min 255 (max 0 n))) ∧
  ∀ s : State, s.orderly →
    let linear := fun (c : Byte) => srgbToLin (fdiv (fl (c.toNat : ℚ)) (fl 255))
    let pixel := #v[linear (s.pixin.extractLsb' 0 8), linear (s.pixin.extractLsb' 8 8),
      linear (s.pixin.extractLsb' 16 8)]
    let packed := fun (w : Word) (v : Vector F64 3) =>
      w.extractLsb' 0 8 = sat8 (fmul (linToSrgb v[0]) (fl 255)) ∧
      w.extractLsb' 8 8 = sat8 (fmul (linToSrgb v[1]) (fl 255)) ∧
      w.extractLsb' 16 8 = sat8 (fmul (linToSrgb v[2]) (fl 255)) ∧ w.extractLsb' 24 8 = 0xFF#8
    (∃ t, exec .ccRgb8ToXyz s = .next t ∧ colorCompleted s t ∧ t.fout = mv mXyz pixel) ∧
    (∃ t, exec .ccRgb8ToOklab s = .next t ∧ colorCompleted s t ∧ t.fout = linToOklab pixel) ∧
    (∃ t, exec .ccXyzToRgb8 s = .next t ∧ pixelCompleted s t ∧ packed t.pixout (mv mXyzInv s.fin)) ∧
    ∃ t, exec .ccOklabToRgb8 s = .next t ∧ pixelCompleted s t ∧ packed t.pixout (oklabToLin s.fin)

/-- R149, R155 with R216, R217: `gray7` by an integer formula, always below 128; the linear map of a 7-bit sample and
the bit replication agree; and the two gray commands. -/
def Obligations.GrayColourCommands : Prop :=
  (∀ r g b : Byte, (gray7 r g b).toNat =
      (2 * 127 * (2126 * r.toNat + 7152 * g.toNat + 722 * b.toNat) + 2550000) / 5100000 ∧
    (gray7 r g b).toNat < 128) ∧
  (∀ v : Byte, v.toNat < 128 → gb7to8 v = (v <<< 1) ||| (v >>> 6)) ∧
  ∀ s : State, s.orderly →
    (∃ t, exec .ccGb7ToRgb8 s = .next t ∧ pixelCompleted s t ∧
      let v := (s.pixin.extractLsb' 0 7).toNat
      t.pixout.toNat = (2 * v + v / 64) * 0x10101 + 0xFF000000) ∧
    ∃ t, exec .ccRgb8ToGb7 s = .next t ∧ pixelCompleted s t ∧ t.pixout =
      (gray7 (s.pixin.extractLsb' 0 8) (s.pixin.extractLsb' 8 8) (s.pixin.extractLsb' 16 8)).setWidth 32

/-! ## GB7 -/

/-- R151 on success: GB7_DEC of a well-formed stream. -/
def Obligations.InlineDecodeWritesGrayBuffer : Prop :=
  ∀ (s : State) (version flags : Byte) (W H : Nat), s.orderly →
    Gb7HeaderAt s.mem (s.arg 0) version flags W H → checkedBuffers (s.arg 0) (s.arg 1) (s.arg 2) (s.arg 3) →
    12 + W * H ≤ s.arg 1 → W * H ≤ s.arg 3 →
    s.respondsOn (s.arg 0) (12 + W * H) → s.respondsOn (s.arg 2) (W * H) →
    ∃ t, exec .gb7Dec s = .next t ∧
      bufferCompleted s t (BitVec.ofNat 32 (W + H * 65536))
        (BitVec.ofNat 32 ((if flags.getLsbD 0 then 8 else 7) + version.toNat * 256 + flags.toNat * 65536))
        (s.arg 2) (W * H) ∧
      ∀ x y, x < W → y < H → t.mem.read (s.arg 2 + y * W + x) =
        if flags.getLsbD 0 then s.mem.read (s.arg 0 + 12 + y * W + x)
        else s.mem.read (s.arg 0 + 12 + y * W + x) &&& 0x7F#8

/-- R148, R152 on success: GB7_DEC_PLANE of a well-formed stream. -/
def Obligations.PlaneDecodeWritesGrayBuffer : Prop :=
  ∀ (s : State) (version flags : Byte) (W H : Nat), s.orderly →
    Gb7HeaderAt s.mem (s.arg 0) version flags W H → checkedBuffers (s.arg 0) (s.arg 1) (s.arg 2) (s.arg 3) →
    let total := 12 + W * H + if flags.getLsbD 0 then H * ((W + 7) / 8) else 0
    total ≤ s.arg 1 → W * H ≤ s.arg 3 → s.respondsOn (s.arg 0) total → s.respondsOn (s.arg 2) (W * H) →
    ∃ t, exec .gb7DecPlane s = .next t ∧
      bufferCompleted s t (BitVec.ofNat 32 (W + H * 65536))
        (BitVec.ofNat 32 ((if flags.getLsbD 0 then 8 else 7) + version.toNat * 256 + flags.toNat * 65536))
        (s.arg 2) (W * H) ∧
      ∀ x y, x < W → y < H →
        (t.mem.read (s.arg 2 + y * W + x)).extractLsb' 0 7 =
          (s.mem.read (s.arg 0 + 12 + y * W + x)).extractLsb' 0 7 ∧
        (t.mem.read (s.arg 2 + y * W + x)).getLsbD 7 =
          (flags.getLsbD 0 &&
            (s.mem.read (s.arg 0 + 12 + W * H + y * ((W + 7) / 8) + x / 8)).getLsbD (7 - x % 8))

/-- R149, R150, R153 on success: GB7_ENC writes the header, the gray plane and the mask plane, nothing beyond. -/
def Obligations.EncodeWritesStreamWithMaskPlane : Prop :=
  ∀ (s : State) (fm hasAlpha : Bool), s.orderly → s.arg 1 ≤ 65535 → s.arg 2 ≤ 65535 →
    let W := s.arg 1
    let H := s.arg 2
    let total := 12 + W * H + if hasAlpha then H * ((W + 7) / 8) else 0
    streamHasAlpha s.mem fm (s.arg 0) W H hasAlpha →
    checkedBuffers (s.arg 0) (4 * W * H) (s.arg 3) (s.arg 4) → total ≤ s.arg 4 →
    s.respondsOn (s.arg 0) (4 * W * H) → s.respondsOn (s.arg 3) total →
    ∃ t, exec (.gb7Enc fm) s = .next t ∧
      bufferCompleted s t (BitVec.ofNat 32 total) (if hasAlpha then 1#32 else 0#32) (s.arg 3) total ∧
      Gb7HeaderAt t.mem (s.arg 3) 0x01#8 (if hasAlpha then 1#8 else 0#8) W H ∧
      (∀ x y, x < W → y < H → t.mem.read (s.arg 3 + 12 + y * W + x) =
        gray7 (s.mem.read (pixelAddress (s.arg 0) W x y 0)) (s.mem.read (pixelAddress (s.arg 0) W x y 1))
          (s.mem.read (pixelAddress (s.arg 0) W x y 2))) ∧
      (hasAlpha = true → ∀ x y, x < 8 * ((W + 7) / 8) → y < H →
        (t.mem.read (s.arg 3 + 12 + W * H + y * ((W + 7) / 8) + x / 8)).getLsbD (7 - x % 8) =
          (decide (x < W) && decide ((s.args[5]).toNat % 256 ≤ (s.mem.read (pixelAddress (s.arg 0) W x y 3)).toNat)))

/-- R149, R150, R154 on success: GB7_ENC_INLINE writes the header and the gray plane with the mask in bit 7. -/
def Obligations.InlineEncodeWritesStream : Prop :=
  ∀ (s : State) (fm hasAlpha : Bool), s.orderly → s.arg 1 ≤ 65535 → s.arg 2 ≤ 65535 →
    let W := s.arg 1
    let H := s.arg 2
    streamHasAlpha s.mem fm (s.arg 0) W H hasAlpha →
    checkedBuffers (s.arg 0) (4 * W * H) (s.arg 3) (s.arg 4) → 12 + W * H ≤ s.arg 4 →
    s.respondsOn (s.arg 0) (4 * W * H) → s.respondsOn (s.arg 3) (12 + W * H) →
    ∃ t, exec (.gb7EncInline fm) s = .next t ∧
      bufferCompleted s t (BitVec.ofNat 32 (12 + W * H)) (if hasAlpha then 1#32 else 0#32) (s.arg 3) (12 + W * H) ∧
      Gb7HeaderAt t.mem (s.arg 3) 0x01#8 (if hasAlpha then 1#8 else 0#8) W H ∧
      ∀ x y, x < W → y < H →
        (t.mem.read (s.arg 3 + 12 + y * W + x)).toNat % 128 =
          (gray7 (s.mem.read (pixelAddress (s.arg 0) W x y 0)) (s.mem.read (pixelAddress (s.arg 0) W x y 1))
            (s.mem.read (pixelAddress (s.arg 0) W x y 2))).toNat ∧
        (t.mem.read (s.arg 3 + 12 + y * W + x)).getLsbD 7 =
          (hasAlpha && decide ((s.args[5]).toNat % 256 ≤ (s.mem.read (pixelAddress (s.arg 0) W x y 3)).toNat))

/-- R155, R156 on success: GB7_RENDER. -/
def Obligations.RenderWritesPixelBuffer : Prop :=
  ∀ (s : State) (d8 : Bool), s.orderly →
    let W := s.arg 1
    let H := s.arg 2
    checkedBuffers (s.arg 0) (W * H) (s.arg 3) (4 * W * H) →
    s.respondsOn (s.arg 0) (W * H) → s.respondsOn (s.arg 3) (4 * W * H) →
    ∃ t, exec (.gb7Render d8) s = .next t ∧ bufferCompleted s t 0#32 0#32 (s.arg 3) (4 * W * H) ∧
      ∀ x y, x < W → y < H →
        let b := s.mem.read (grayAddress (s.arg 0) W x y)
        (∀ c, c < 3 → (t.mem.read (pixelAddress (s.arg 3) W x y c)).toNat =
          2 * (b.toNat % 128) + b.toNat % 128 / 64) ∧
        t.mem.read (pixelAddress (s.arg 3) W x y 3) = if d8 && !b.getLsbD 7 then 0x00#8 else 0xFF#8

/-- R157: GB7_DEC reads back what GB7_ENC_INLINE wrote. -/
def Obligations.DecodeReadsBackInlineEncode : Prop :=
  ∀ (s t u : State) (fm : Bool), s.orderly → exec (.gb7EncInline fm) s = .next t → t.done = true →
    u.orderly → (∀ a, u.mem.read a = t.mem.read a) → u.platform = s.platform →
    u.arg 0 = s.arg 3 → u.arg 1 = t.result0.toNat → checkedBuffers (u.arg 0) (u.arg 1) (u.arg 2) (u.arg 3) →
    s.arg 1 * s.arg 2 ≤ u.arg 3 → u.respondsOn (u.arg 2) (s.arg 1 * s.arg 2) →
    ∃ v, exec .gb7Dec u = .next v ∧ v.done = true ∧ v.result0 = BitVec.ofNat 32 (s.arg 1 + s.arg 2 * 65536) ∧
      ∀ x y, x < s.arg 1 → y < s.arg 2 →
        (v.mem.read (grayAddress (u.arg 2) (s.arg 1) x y)).toNat % 128 =
          (gray7 (s.mem.read (pixelAddress (s.arg 0) (s.arg 1) x y 0))
            (s.mem.read (pixelAddress (s.arg 0) (s.arg 1) x y 1))
            (s.mem.read (pixelAddress (s.arg 0) (s.arg 1) x y 2))).toNat ∧
        (v.mem.read (grayAddress (u.arg 2) (s.arg 1) x y)).getLsbD 7 =
          (t.result1.getLsbD 0 &&
            decide ((s.args[5]).toNat % 256 ≤ (s.mem.read (pixelAddress (s.arg 0) (s.arg 1) x y 3)).toNat))

/-- R157: the two decoders agree where hasMask is clear, error or not. -/
def Obligations.DecodersAgreeWithoutMask : Prop :=
  ∀ s : State, s.orderly → (s.mem.read (s.arg 0 + 5)).getLsbD 0 = false → exec .gb7Dec s = exec .gb7DecPlane s

/-- R151, R152, R333, R335, R336 (the GB7_DEC rows): the errors of both decoders in their order, each header byte's
BUS_ERROR at its read: a MAGIC byte is read, and compared, only after the ones before it have matched, and the other
header bytes only once MAGIC and the length have passed; the high byte of a 16-bit field before the low one, as R151 writes
the expression (DEDUCED, log entry 23). The length that GB7_DEC_PLANE needs takes in the mask plane where hasMask is set. -/
def Obligations.DecodeErrorsInOrder : Prop :=
  ∀ s : State, s.orderly →
    let S := s.arg 0
    let L := s.arg 1
    let byte := fun k => (s.mem.read (S + k)).toNat
    let W := byte 6 * 256 + byte 7
    let H := byte 8 * 256 + byte 9
    let plane := if (s.mem.read (S + 5)).getLsbD 0 then H * ((W + 7) / 8) else 0
    ∀ p ∈ [(Instr.gb7Dec, 12 + W * H), (Instr.gb7DecPlane, 12 + W * H + plane)],
    ∃ t, exec p.1 s = .next t ∧ (
      let magic := fun (k : Nat) (expected : Byte) (rest : Prop) =>
        whenElse (L ≤ k) rest <| readsThen s t S [k] <|
        whenElse (s.mem.read (S + k) ≠ expected) (rejectedWith s t 0x10#8 0#32) rest
      whenElse (¬ inDataSpace S L) (rejectedWith s t 0x04#8 0#32) <|
      whenElse (¬ inDataSpace (s.arg 2) (s.arg 3)) (rejectedWith s t 0x04#8 1#32) <|
      whenElse (¬ disjointRegions S L (s.arg 2) (s.arg 3)) (rejectedWith s t 0x05#8 0#32) <|
      magic 0 0x47#8 <| magic 1 0x42#8 <| magic 2 0x37#8 <| magic 3 0x1D#8 <|
      whenElse (L < 12) (rejectedWith s t 0x12#8 12#32) <|
      readsThen s t S [4, 5, 6, 7, 8, 9, 10, 11] <|
      whenElse (byte 10 * 256 + byte 11 ≠ 0)
        (rejectedWith s t 0x11#8 (BitVec.ofNat 32 (byte 10 * 256 + byte 11))) <|
      whenElse (L < p.2) (rejectedWith s t 0x12#8 (BitVec.ofNat 32 (min p.2 0xFFFFFFFF))) <|
      whenElse (s.arg 3 < W * H) (rejectedWith s t 0x08#8 (BitVec.ofNat 32 (min (W * H) 0xFFFFFFFF)))
        (t.err = true → t.errcode = 0x09#8))

/-- R153, R154, R336 (the GB7_ENC row): the errors of both encoders in their order, the alpha scan's BUS_ERROR between
OVERLAP and DST_SMALL. -/
def Obligations.EncodeErrorsInOrder : Prop :=
  ∀ (s : State) (fm hasAlpha : Bool), s.orderly →
    streamHasAlpha s.mem fm (s.arg 0) (s.arg 1) (s.arg 2) hasAlpha →
    let plane := if hasAlpha then s.arg 2 * ((s.arg 1 + 7) / 8) else 0
    ∀ p ∈ [(Instr.gb7Enc fm, 12 + s.arg 1 * s.arg 2 + plane), (Instr.gb7EncInline fm, 12 + s.arg 1 * s.arg 2)],
    ∃ t, exec p.1 s = .next t ∧ (
      whenElse (65535 < s.arg 1 ∨ 65535 < s.arg 2) (rejectedWith s t 0x03#8 0#32) <|
      whenElse (¬ inDataSpace (s.arg 0) (4 * s.arg 1 * s.arg 2)) (rejectedWith s t 0x04#8 0#32) <|
      whenElse (¬ inDataSpace (s.arg 3) (s.arg 4)) (rejectedWith s t 0x04#8 1#32) <|
      whenElse (¬ disjointRegions (s.arg 0) (4 * s.arg 1 * s.arg 2) (s.arg 3) (s.arg 4))
        (rejectedWith s t 0x05#8 0#32) <|
      whenElse (fm = false ∧ ∃ q, alphaScanFailsAt s (s.arg 0) (s.arg 1 * s.arg 2) q)
        (∃ q, alphaScanFailsAt s (s.arg 0) (s.arg 1 * s.arg 2) q ∧
          rejectedWith s t 0x09#8 (BitVec.ofNat 32 (s.arg 0 + 4 * q + 3))) <|
      whenElse (s.arg 4 < p.2) (rejectedWith s t 0x08#8 (BitVec.ofNat 32 (min p.2 0xFFFFFFFF)))
        (t.err = true → t.errcode = 0x09#8))

/-- R153, R335: without FM, the alpha scan goes in raster order and stops at the first alpha below 255. Where every alpha
byte before pixel `p` responds and is 255: if that of `p` does not respond, it is the one reported, up front; if it
responds and is below 255, no later one is read in the validation phase: the check of the capacity comes next, and a later
one that does not respond is a BUS_ERROR of the data phase, which reads every channel. -/
def Obligations.AlphaScanReportsFirstFailingByte : Prop :=
  ∀ (s : State) (p : Nat), s.orderly → s.arg 1 ≤ 65535 → s.arg 2 ≤ 65535 →
    checkedBuffers (s.arg 0) (4 * s.arg 1 * s.arg 2) (s.arg 3) (s.arg 4) → p < s.arg 1 * s.arg 2 →
    (∀ q, q < p → s.responds (s.arg 0 + 4 * q + 3) = true ∧ s.mem.read (s.arg 0 + 4 * q + 3) = 255#8) →
    ∀ e ∈ [(Instr.gb7Enc false, 12 + s.arg 1 * s.arg 2 + s.arg 2 * ((s.arg 1 + 7) / 8)),
        (Instr.gb7EncInline false, 12 + s.arg 1 * s.arg 2)],
      ∃ t, exec e.1 s = .next t ∧
        (s.responds (s.arg 0 + 4 * p + 3) = false →
          rejectedWith s t 0x09#8 (BitVec.ofNat 32 (s.arg 0 + 4 * p + 3))) ∧
        (s.responds (s.arg 0 + 4 * p + 3) = true → (s.mem.read (s.arg 0 + 4 * p + 3)).toNat < 255 →
          (s.arg 4 < e.2 → rejectedWith s t 0x08#8 (BitVec.ofNat 32 (min e.2 0xFFFFFFFF))) ∧
          (e.2 ≤ s.arg 4 → endsAsAccessesRespond s t
            (fun a => (s.arg 0 ≤ a ∧ a < s.arg 0 + 4 * s.arg 1 * s.arg 2) ∨ (s.arg 3 ≤ a ∧ a < s.arg 3 + e.2))
            (s.arg 3) e.2))

/-! ## Resampling -/

/-- R250 to R252 with R255, R256 on success: the RGBA path. -/
def Obligations.RgbaResampleWritesPixels : Prop :=
  ∀ s : State, s.orderly →
    let SW := s.arg 1
    let SH := s.arg 2
    let DW := s.arg 4
    let DH := s.arg 5
    0 < SW → 0 < SH → 0 < DW → 0 < DH →
    checkedBuffers (s.arg 0) (4 * SW * SH) (s.arg 3) (4 * DW * DH) →
    s.respondsOn (s.arg 0) (4 * SW * SH) → s.respondsOn (s.arg 3) (4 * DW * DH) →
    let hmap := fun (i sd dd : Nat) =>
      min ((sd : ℚ) - 1) (max 0 (((i : ℚ) + 1 / 2) * (sd : ℚ) / (dd : ℚ) - 1 / 2))
    let px := fun (x y c : Nat) => s.mem.read (pixelAddress (s.arg 0) SW x y c)
    (∃ t, exec .rsRgbaNearest s = .next t ∧ bufferCompleted s t 0#32 0#32 (s.arg 3) (4 * DW * DH) ∧
      ∀ x y c, x < DW → y < DH → c < 4 → t.mem.read (pixelAddress (s.arg 3) DW x y c) =
        px (hmap x SW DW + 1 / 2).floor.toNat (hmap y SH DH + 1 / 2).floor.toNat c) ∧
    ∃ t, exec .rsRgbaBilinear s = .next t ∧ bufferCompleted s t 0#32 0#32 (s.arg 3) (4 * DW * DH) ∧
      ∀ x y c, x < DW → y < DH → c < 4 →
        let sx := hmap x SW DW
        let sy := hmap y SH DH
        let lx := sx.floor.toNat
        let ly := sy.floor.toNat
        let hx := min (lx + 1) (SW - 1)
        let hy := min (ly + 1) (SH - 1)
        let fx := sx - lx
        let fy := sy - ly
        t.mem.read (pixelAddress (s.arg 3) DW x y c) =
          u8 ((1 - fx) * (1 - fy) * ((px lx ly c).toNat : ℚ) + fx * (1 - fy) * ((px hx ly c).toNat : ℚ) +
            (1 - fx) * fy * ((px lx hy c).toNat : ℚ) + fx * fy * ((px hx hy c).toNat : ℚ))

/-- R250, R252 to R254 with R257, R258 on success: the gray path. -/
def Obligations.GrayResampleWritesSamples : Prop :=
  ∀ (s : State) (d8 : Bool), s.orderly →
    let SW := s.arg 1
    let SH := s.arg 2
    let DW := s.arg 4
    let DH := s.arg 5
    0 < SW → 0 < SH → 0 < DW → 0 < DH →
    checkedBuffers (s.arg 0) (SW * SH) (s.arg 3) (DW * DH) →
    s.respondsOn (s.arg 0) (SW * SH) → s.respondsOn (s.arg 3) (DW * DH) →
    let q := fun (x y : Nat) => s.mem.read (grayAddress (s.arg 0) SW x y)
    let gnear := fun (i sd dd : Nat) => min (((i : ℚ) * (sd : ℚ) / (dd : ℚ) + 1 / 2).floor.toNat) (sd - 1)
    let glin := fun (i sd dd : Nat) => (i : ℚ) * ((sd : ℚ) - 1) / ((max 1 (dd - 1) : Nat) : ℚ)
    (∃ t, exec (.rsGrayNearest d8) s = .next t ∧ bufferCompleted s t 0#32 0#32 (s.arg 3) (DW * DH) ∧
      ∀ x y, x < DW → y < DH → t.mem.read (grayAddress (s.arg 3) DW x y) =
        let b := q (gnear x SW DW) (gnear y SH DH)
        if d8 then b else b &&& 0x7F#8) ∧
    ∃ t, exec (.rsGrayBilinear d8) s = .next t ∧ bufferCompleted s t 0#32 0#32 (s.arg 3) (DW * DH) ∧
      ∀ x y, x < DW → y < DH →
        let sx := glin x SW DW
        let sy := glin y SH DH
        let lx := sx.floor.toNat
        let ly := sy.floor.toNat
        let hx := min (lx + 1) (SW - 1)
        let hy := min (ly + 1) (SH - 1)
        let fx := sx - lx
        let fy := sy - ly
        let blend := fun (v : Byte → ℚ) =>
          (1 - fx) * (1 - fy) * v (q lx ly) + fx * (1 - fy) * v (q hx ly) + (1 - fx) * fy * v (q lx hy) +
            fx * fy * v (q hx hy)
        let out := t.mem.read (grayAddress (s.arg 3) DW x y)
        out &&& 0x7F#8 = u7 (blend (fun b => ((b &&& 0x7F#8).toNat : ℚ))) ∧
        (out.getLsbD 7 = true ↔ d8 = true ∧ 1 / 2 ≤ blend (fun b => if b.getLsbD 7 then 1 else 0))

/-- R259: resampling to the same size copies the source; at depth 7 it clears bit 7. -/
def Obligations.EqualSizeResampleCopies : Prop :=
  ∀ (s : State) (d8 : Bool), s.orderly → s.arg 4 = s.arg 1 → s.arg 5 = s.arg 2 → 0 < s.arg 1 → 0 < s.arg 2 →
    (∀ i ∈ [Instr.rsRgbaNearest, Instr.rsRgbaBilinear], ∀ t, exec i s = .next t → t.done = true →
      ∀ x y c, x < s.arg 1 → y < s.arg 2 → c < 4 →
        t.mem.read (pixelAddress (s.arg 3) (s.arg 1) x y c) = s.mem.read (pixelAddress (s.arg 0) (s.arg 1) x y c)) ∧
    ∀ i ∈ [Instr.rsGrayNearest d8, Instr.rsGrayBilinear d8], ∀ t, exec i s = .next t → t.done = true →
      ∀ x y, x < s.arg 1 → y < s.arg 2 →
        t.mem.read (grayAddress (s.arg 3) (s.arg 1) x y) =
          if d8 then s.mem.read (grayAddress (s.arg 0) (s.arg 1) x y)
          else s.mem.read (grayAddress (s.arg 0) (s.arg 1) x y) &&& 0x7F#8

/-- R77, R78, R250, R336 (the RS_* and GB7_RENDER rows): ZERO_AREA, and the range and overlap errors, in their order. -/
def Obligations.ResampleAndRenderErrorsInOrder : Prop :=
  ∀ (s : State) (d8 : Bool), s.orderly →
    let checks := fun (t : State) (n m : Nat) =>
      whenElse (¬ inDataSpace (s.arg 0) n) (rejectedWith s t 0x04#8 0#32) <|
      whenElse (¬ inDataSpace (s.arg 3) m) (rejectedWith s t 0x04#8 1#32) <|
      whenElse (¬ disjointRegions (s.arg 0) n (s.arg 3) m) (rejectedWith s t 0x05#8 0#32)
        (t.err = true → t.errcode = 0x09#8)
    let zero := s.arg 1 = 0 ∨ s.arg 2 = 0 ∨ s.arg 4 = 0 ∨ s.arg 5 = 0
    (∃ t, exec (.gb7Render d8) s = .next t ∧ checks t (s.arg 1 * s.arg 2) (4 * s.arg 1 * s.arg 2)) ∧
    (∀ i ∈ [Instr.rsRgbaNearest, Instr.rsRgbaBilinear], ∃ t, exec i s = .next t ∧
      whenElse zero (rejectedWith s t 0x02#8 0#32) (checks t (4 * s.arg 1 * s.arg 2) (4 * s.arg 4 * s.arg 5))) ∧
    ∀ i ∈ [Instr.rsGrayNearest d8, Instr.rsGrayBilinear d8], ∃ t, exec i s = .next t ∧
      whenElse zero (rejectedWith s t 0x02#8 0#32) (checks t (s.arg 1 * s.arg 2) (s.arg 4 * s.arg 5))

/-! ## Tone curves -/

/-- R105, R271 to R274: the LUT builds: the curve each writes, and the range check. -/
def Obligations.LutBuildsFollowTheirCurves : Prop :=
  ∀ s : State, s.orderly →
    let i1 := (s.args[1]).toNat % 256
    let o1 := (s.args[1]).toNat / 256 % 256
    let i2 := (s.args[2]).toNat % 256
    let o2 := (s.args[2]).toNat / 256 % 256
    let between := fun (x : Nat) =>
      u8 ((o1 : ℚ) + ((x : ℚ) - (i1 : ℚ)) * ((o2 : ℚ) - (o1 : ℚ)) / ((i2 : ℚ) - (i1 : ℚ)))
    (¬ inDataSpace (s.arg 0) 256 → ∀ i ∈ [Instr.lutBuildRamp, Instr.lutBuildFlat],
      ∃ t, exec i s = .next t ∧ rejectedWith s t 0x04#8 1#32) ∧
    (inDataSpace (s.arg 0) 256 → s.respondsOn (s.arg 0) 256 →
      (∃ t, exec .lutBuildRamp s = .next t ∧ bufferCompleted s t 0#32 0#32 (s.arg 0) 256 ∧
        ∀ x, x < 256 → t.mem.read (s.arg 0 + x) =
          if x ≤ i1 then u8 ((o1 : ℚ) / ((max 1 i1 : Nat) : ℚ) * (x : ℚ))
          else if i2 ≤ x then
            u8 ((o2 : ℚ) + ((x : ℚ) - (i2 : ℚ)) * (255 - (o2 : ℚ)) / ((max 1 (255 - i2) : Nat) : ℚ))
          else between x) ∧
      ∃ t, exec .lutBuildFlat s = .next t ∧ bufferCompleted s t 0#32 0#32 (s.arg 0) 256 ∧
        ∀ x, x < 256 → t.mem.read (s.arg 0 + x) =
          if x < i1 then BitVec.ofNat 8 o1
          else if i2 < x then BitVec.ofNat 8 o2
          else if i1 = i2 then BitVec.ofNat 8 o1
          else between x)

/-- R276: the identity curve, the identity LUT, and the ends of a ramp. -/
def Obligations.IdentityLutsLeaveChannels : Prop :=
  (∀ s : State, s.orderly → s.args[1] = 0x0000#32 → s.args[2] = 0xFFFF#32 →
    ∀ i ∈ [Instr.lutBuildRamp, Instr.lutBuildFlat], ∀ t, exec i s = .next t → t.done = true →
      ∀ x, x < 256 → t.mem.read (s.arg 0 + x) = BitVec.ofNat 8 x) ∧
  (∀ (s : State) (ta hr hg hb ha : Bool), s.orderly →
    (∀ c : Fin 4, [!ta && hr, !ta && hg, !ta && hb, ta && ha].getD c.val false = true →
      ∀ x, x < 256 → s.mem.read (s.arg (Fin.ofNat 8 (4 + c.val)) + x) = BitVec.ofNat 8 x) →
    ∀ t, exec (.lutApply ta hr hg hb ha) s = .next t → t.done = true →
      ∀ x y c, x < s.arg 1 → y < s.arg 2 → c < 4 →
        t.mem.read (pixelAddress (s.arg 3) (s.arg 1) x y c) = s.mem.read (pixelAddress (s.arg 0) (s.arg 1) x y c)) ∧
  ∀ s t : State, s.orderly → exec .lutBuildRamp s = .next t → t.done = true →
    t.mem.read (s.arg 0) = 0#8 ∧
    ((s.args[1]).toNat % 256 < 255 → (s.args[2]).toNat % 256 < 255 → t.mem.read (s.arg 0 + 255) = 255#8)

/-- R275 on success: LUT_APPLY. -/
def Obligations.LutApplyMapsChannels : Prop :=
  ∀ (s : State) (ta hr hg hb ha : Bool), s.orderly →
    let W := s.arg 1
    let H := s.arg 2
    let used : Fin 4 → Bool := fun c => [!ta && hr, !ta && hg, !ta && hb, ta && ha].getD c.val false
    let lut : Fin 4 → Nat := fun c => s.arg (Fin.ofNat 8 (4 + c.val))
    checkedBuffers (s.arg 0) (4 * W * H) (s.arg 3) (4 * W * H) →
    (∀ c : Fin 4, used c = true → checkedBuffers (lut c) 256 (s.arg 3) (4 * W * H) ∧ s.respondsOn (lut c) 256) →
    s.respondsOn (s.arg 0) (4 * W * H) → s.respondsOn (s.arg 3) (4 * W * H) →
    ∃ t, exec (.lutApply ta hr hg hb ha) s = .next t ∧ bufferCompleted s t 0#32 0#32 (s.arg 3) (4 * W * H) ∧
      ∀ (x y : Nat) (c : Fin 4), x < W → y < H →
        let v := s.mem.read (pixelAddress (s.arg 0) W x y c.val)
        t.mem.read (pixelAddress (s.arg 3) W x y c.val) = if used c then s.mem.read (lut c + v.toNat) else v

/-- R275, R336 (the LUT_APPLY row): the range errors of the buffers and the LUTs in use, then the overlap errors. -/
def Obligations.LutApplyErrorsInOrder : Prop :=
  ∀ (s : State) (ta hr hg hb ha : Bool), s.orderly →
    let n := 4 * s.arg 1 * s.arg 2
    let used : Fin 4 → Bool := fun c => [!ta && hr, !ta && hg, !ta && hb, ta && ha].getD c.val false
    let lut : Fin 4 → Nat := fun c => s.arg (Fin.ofNat 8 (4 + c.val))
    let bad : Fin 4 → Prop := fun c => used c = true ∧ ¬ inDataSpace (lut c) 256
    let laid : Fin 4 → Prop := fun c => used c = true ∧ ¬ disjointRegions (lut c) 256 (s.arg 3) n
    ∃ t, exec (.lutApply ta hr hg hb ha) s = .next t ∧ (
      whenElse (¬ inDataSpace (s.arg 0) n) (rejectedWith s t 0x04#8 0#32) <|
      whenElse (¬ inDataSpace (s.arg 3) n) (rejectedWith s t 0x04#8 1#32) <|
      whenElse (∃ c, bad c)
        (∃ c, bad c ∧ (∀ d, d < c → ¬ bad d) ∧ rejectedWith s t 0x04#8 (BitVec.ofNat 32 (3 + c.val))) <|
      whenElse (¬ disjointRegions (s.arg 0) n (s.arg 3) n) (rejectedWith s t 0x05#8 0#32) <|
      whenElse (∃ c, laid c)
        (∃ c, laid c ∧ (∀ d, d < c → ¬ laid d) ∧ rejectedWith s t 0x05#8 (BitVec.ofNat 32 (3 + c.val)))
        (t.err = true → t.errcode = 0x09#8))

/-! ## Convolution -/

/-- R290 to R293, R295 on success: CONV3X3. The neighbour of weight `3 j + i` is at `(x + i - 1, y + j - 1)`, clamped to
the edge. The value of a weight is that of its binary32 word (R15), by sign, exponent and fraction; a subnormal keeps
its exact value. -/
def Obligations.ConvolutionWritesPixels : Prop :=
  (∀ word : Word, word.extractLsb' 23 8 ≠ 0xFF#8 →
    let exponent := (word.extractLsb' 23 8).toNat
    let fraction : ℚ := (word.extractLsb' 0 23).toNat
    binary32Value word = (if word.getLsbD 31 then -1 else 1) *
      if exponent = 0 then fraction / 2 ^ 149 else (1 + fraction / 2 ^ 23) * (2 : ℚ) ^ ((exponent : Int) - 127)) ∧
  ∀ (s : State) (tgt norm : BitVec 2) (apass : Bool), s.orderly → tgt ≠ 0b11#2 → norm ≠ 0b11#2 →
    let W := s.arg 1
    let H := s.arg 2
    0 < W → 0 < H → (∀ k : Fin 9, (s.kernel[k].extractLsb' 23 8) ≠ 0xFF#8) →
    checkedBuffers (s.arg 0) (4 * W * H) (s.arg 3) (4 * W * H) →
    s.respondsOn (s.arg 0) (4 * W * H) → s.respondsOn (s.arg 3) (4 * W * H) →
    let w := fun (k : Nat) => binary32Value s.kernel[Fin.ofNat 9 k]
    let total := w 0 + w 1 + w 2 + w 3 + w 4 + w 5 + w 6 + w 7 + w 8
    let w' := fun (k : Nat) => if norm ≠ 0b01#2 ∧ total ≠ 0 then w k / total else w k
    ∃ t, exec (.conv3x3 tgt norm apass) s = .next t ∧ bufferCompleted s t 0#32 0#32 (s.arg 3) (4 * W * H) ∧
      ∀ x y c, x < W → y < H → c < 4 →
        let p := fun (x y : Nat) => s.mem.read (pixelAddress (s.arg 0) W x y c)
        let term := fun (j i : Nat) =>
          w' (3 * j + i) * ((p (min (W - 1) (x + i - 1)) (min (H - 1) (y + j - 1))).toNat : ℚ)
        t.mem.read (pixelAddress (s.arg 3) W x y c) =
          if (tgt = 0b00#2 ∧ c < 3) ∨ (tgt = 0b01#2 ∧ c = 3) ∨ (tgt = 0b10#2 ∧ (c < 3 ∨ apass = false)) then
            u8 (term 0 0 + term 0 1 + term 0 2 + term 1 0 + term 1 1 + term 1 2 + term 2 0 + term 2 1 + term 2 2)
          else p x y

/-- R294, R295, R336 (the CONV3X3 row): ZERO_AREA, then the lowest weight that is an infinity or a NaN, then the range
and overlap errors. -/
def Obligations.ConvolutionErrorsInOrder : Prop :=
  ∀ (s : State) (tgt norm : BitVec 2) (apass : Bool), s.orderly → tgt ≠ 0b11#2 → norm ≠ 0b11#2 →
    let n := 4 * s.arg 1 * s.arg 2
    let bad : Fin 9 → Prop := fun k => s.kernel[k].extractLsb' 23 8 = 0xFF#8
    ∃ t, exec (.conv3x3 tgt norm apass) s = .next t ∧ (
      whenElse (s.arg 1 = 0 ∨ s.arg 2 = 0) (rejectedWith s t 0x02#8 0#32) <|
      whenElse (∃ k, bad k)
        (∃ k, bad k ∧ (∀ j, j < k → ¬ bad j) ∧ rejectedWith s t 0x06#8 (BitVec.ofNat 32 k.val)) <|
      whenElse (¬ inDataSpace (s.arg 0) n) (rejectedWith s t 0x04#8 0#32) <|
      whenElse (¬ inDataSpace (s.arg 3) n) (rejectedWith s t 0x04#8 1#32) <|
      whenElse (¬ disjointRegions (s.arg 0) n (s.arg 3) n) (rejectedWith s t 0x05#8 0#32)
        (t.err = true → t.errcode = 0x09#8))

/-- R296: the identity kernel, the orientation of the kernel, and that scaling every weight changes nothing where
weights are normalised. -/
def Obligations.ConvolutionProperties : Prop :=
  (∀ (s t : State) (tgt norm : BitVec 2) (apass : Bool), s.orderly →
    (∀ k : Fin 9, s.kernel[k] = if k = 4 then 0x3F800000#32 else 0#32) →
    exec (.conv3x3 tgt norm apass) s = .next t → t.done = true →
    ∀ x y c, x < s.arg 1 → y < s.arg 2 → c < 4 →
      t.mem.read (pixelAddress (s.arg 3) (s.arg 1) x y c) = s.mem.read (pixelAddress (s.arg 0) (s.arg 1) x y c)) ∧
  (∀ (s t : State) (norm : BitVec 2), s.orderly →
    (∀ k : Fin 9, s.kernel[k] = if k = 5 then 0x3F800000#32 else 0#32) →
    exec (.conv3x3 0b10#2 norm false) s = .next t → t.done = true →
    ∀ x y c, x < s.arg 1 → y < s.arg 2 → c < 4 →
      t.mem.read (pixelAddress (s.arg 3) (s.arg 1) x y c) =
        s.mem.read (pixelAddress (s.arg 0) (s.arg 1) (min (x + 1) (s.arg 1 - 1)) y c)) ∧
  (∀ (s t : State) (norm : BitVec 2), s.orderly →
    (∀ k : Fin 9, s.kernel[k] = if k = 7 then 0x3F800000#32 else 0#32) →
    exec (.conv3x3 0b10#2 norm false) s = .next t → t.done = true →
    ∀ x y c, x < s.arg 1 → y < s.arg 2 → c < 4 →
      t.mem.read (pixelAddress (s.arg 3) (s.arg 1) x y c) =
        s.mem.read (pixelAddress (s.arg 0) (s.arg 1) x (min (y + 1) (s.arg 2 - 1)) c)) ∧
  ∀ (s u t v : State) (tgt norm : BitVec 2) (apass : Bool) (scale : ℚ), s.orderly → norm ≠ 0b01#2 → scale ≠ 0 →
    u = { s with kernel := u.kernel } →
    (∀ k : Fin 9, binary32NonFinite u.kernel[k] = false) →
    (∀ k : Fin 9, binary32Value u.kernel[k] = scale * binary32Value s.kernel[k]) →
    (binary32Value s.kernel[0] + binary32Value s.kernel[1] + binary32Value s.kernel[2] + binary32Value s.kernel[3] +
      binary32Value s.kernel[4] + binary32Value s.kernel[5] + binary32Value s.kernel[6] + binary32Value s.kernel[7] +
      binary32Value s.kernel[8] ≠ 0) →
    exec (.conv3x3 tgt norm apass) s = .next t → t.done = true → exec (.conv3x3 tgt norm apass) u = .next v →
    v.mem = t.mem

/-! ## Compositing -/

/-- R233, R234, R238, R239 on success: COMPOSITE of a valid table: every output pixel is the contributing layers' pixels,
bottom to top, over transparent black, and RESULT0 counts them. Of the table only the bytes that R238 and R234 read need
respond. -/
def Obligations.CompositeFlattensContributingLayers : Prop :=
  ∀ s : State, s.orderly →
    let T := s.arg 0
    let N := s.arg 1
    let W := s.arg 2
    let H := s.arg 3
    let layers := contributingLayers s.mem T N W H
    checkedBuffers T (32 * N) (s.arg 4) (4 * W * H) →
    (∀ i, i < N → descriptorValid s (T + 32 * i) W H (s.arg 4)) → s.respondsOn (s.arg 4) (4 * W * H) →
    ∃ t, exec .composite s = .next t ∧
      bufferCompleted s t (BitVec.ofNat 32 layers.length) 0#32 (s.arg 4) (4 * W * H) ∧
      ∀ x y, x < W → y < H →
        let pixelOf := fun (l : Layer) =>
          let b := fun c => s.mem.read (match l.source with
            | .image base => pixelAddress base W x y c
            | .color base => base + c)
          Pixel.mk (b 0) (b 1) (b 2) (b 3)
        let result := layers.foldl (fun d l => blendOver l (pixelOf l) d) ⟨0#8, 0#8, 0#8, 0#8⟩
        t.mem.read (pixelAddress (s.arg 4) W x y 0) = result.r ∧
        t.mem.read (pixelAddress (s.arg 4) W x y 1) = result.g ∧
        t.mem.read (pixelAddress (s.arg 4) W x y 2) = result.b ∧
        t.mem.read (pixelAddress (s.arg 4) W x y 3) = result.a

/-- R238, R333, R335, R336 (the COMPOSITE row): the first error, in the order of the table of R336 and of the pre-pass,
each read's BUS_ERROR in its place: of a descriptor FLAGS and OPACITY are read; BLEND only where it is active; LW only of an
Image; LH only where LW is the width; ADDR only where LH is the height; and never another byte. The bytes of one field are
taken in ascending order (DEDUCED, log entry 11); bits 31:8 of the LAYER code for an index of 2^24 or more are open (log
entry 6). -/
def Obligations.CompositeErrorsInOrder : Prop :=
  ∀ s : State, s.orderly →
    let T := s.arg 0
    let N := s.arg 1
    let W := s.arg 2
    let H := s.arg 3
    let n := 4 * W * H
    let D := s.arg 4
    ∃ t, exec .composite s = .next t ∧ (
      let field := fun (b k : Nat) => s.mem.littleEndian (b + k) 4
      let examined := fun (i : Nat) (rest : Prop) =>
        let b := T + 32 * i
        readsThen s t b [0, 4, 5, 6, 7] <|
        whenElse ((s.mem.read b).getLsbD 0 = false ∨ effectiveOpacity (BitVec.ofNat 32 (field b 4)) = 0) rest <|
        readsThen s t b [1] <|
        whenElse (3 < (s.mem.read (b + 1)).toNat) (rejectedWith s t 0x07#8 (BitVec.ofNat 32 i)) <|
        whenElse ((s.mem.read b).getLsbD 2 = true) rest <|
        readsThen s t b [8, 9, 10, 11] <|
        whenElse (field b 8 ≠ W) rest <|
        readsThen s t b [12, 13, 14, 15] <|
        whenElse (field b 12 ≠ H) rest <|
        readsThen s t b [16, 17, 18, 19] <|
        whenElse (¬ inDataSpace (field b 16) n) (layerRejected s t 0x04#8 i) <|
        whenElse (¬ disjointRegions (field b 16) n D n) (layerRejected s t 0x05#8 i) rest
      whenElse (¬ inDataSpace T (32 * N)) (rejectedWith s t 0x04#8 2#32) <|
      whenElse (¬ inDataSpace D n) (rejectedWith s t 0x04#8 1#32) <|
      whenElse (¬ disjointRegions T (32 * N) D n) (rejectedWith s t 0x05#8 2#32) <|
      (List.range N).foldr examined (t.err = true → t.errcode = 0x09#8))

/-- R235 to R237: one layer's pixel over a destination pixel; with an opacity in [0, 1] no clamp acts. -/
def Obligations.BlendFollowsPixelAlgebra : Prop :=
  ∀ (l : Layer) (p d : Pixel),
    let sA := ((if l.hideAlpha then 255 else (p.a.toNat : ℚ)) / 255) * l.opacity
    let dA := (d.a.toNat : ℚ) / 255
    let outA := sA + dA * (1 - sA)
    let B := fun (sv dv : Byte) =>
      let x : ℚ := sv.toNat
      let y : ℚ := dv.toNat
      match l.blend with
      | .normal => x
      | .multiply => y * x / 255
      | .screen => 255 - (255 - y) * (255 - x) / 255
      | .overlay => if dv.toNat < 128 then 2 * y * x / 255 else 255 - 2 * (255 - y) * (255 - x) / 255
    let value := fun (sv dv : Byte) => (B sv dv * sA + (dv.toNat : ℚ) * dA * (1 - sA)) / outA
    let out := fun (sv dv : Byte) => if 0 < outA then u8 (value sv dv) else dv
    blendOver l p d = ⟨out p.r d.r, out p.g d.g, out p.b d.b, u8 (outA * 255)⟩ ∧
    (0 ≤ l.opacity → l.opacity ≤ 1 → 0 ≤ outA ∧ outA ≤ 1 ∧
      ∀ sv dv : Byte, 0 < outA → 0 ≤ value sv dv ∧ value sv dv ≤ 255)

/-- R232, R240: the effective opacity of every OPACITY word, by sign, exponent and fraction: 0 for a NaN and minus
infinity, 1 for plus infinity, else the binary32 value clamped to [0, 1]. A layer that is not visible or has opacity 0 (a
NaN opacity among them) is not validated and takes no part: with it or without it, the pre-pass gives the same layers,
and of its descriptor only FLAGS and OPACITY are read (R238). A single normal layer copies its pixel but for alpha 0; a
normal layer with `sA = 1` hides what is below; a layer pixel with alpha 0 changes nothing. -/
def Obligations.LayerProperties : Prop :=
  (∀ (l : Layer) (p : Pixel), l.blend = .normal → l.hideAlpha = false → l.opacity = 1 →
    blendOver l p transparentBlack = if p.a = 0#8 then transparentBlack else p) ∧
  (∀ (l : Layer) (p d : Pixel), l.blend = .normal → sourceAlpha l p.a = 1 →
    blendOver l p d = ⟨p.r, p.g, p.b, 0xFF#8⟩) ∧
  (∀ (l : Layer) (p d : Pixel), l.hideAlpha = false → p.a = 0#8 → blendOver l p d = d) ∧
  (∀ w : Word, 0 ≤ effectiveOpacity w ∧ effectiveOpacity w ≤ 1 ∧
    (w.extractLsb' 23 8 = 0xFF#8 → w.extractLsb' 0 23 ≠ 0#23 → effectiveOpacity w = 0) ∧
    (w.extractLsb' 23 8 = 0xFF#8 → w.extractLsb' 0 23 = 0#23 → effectiveOpacity w = if w.getLsbD 31 then 0 else 1) ∧
    (w.extractLsb' 23 8 ≠ 0xFF#8 →
      let exponent := (w.extractLsb' 23 8).toNat
      let fraction : ℚ := (w.extractLsb' 0 23).toNat
      effectiveOpacity w = min 1 (max 0 ((if w.getLsbD 31 then -1 else 1) *
        if exponent = 0 then fraction / 2 ^ 149 else (1 + fraction / 2 ^ 23) * (2 : ℚ) ^ ((exponent : Int) - 127))))) ∧
  ∀ (s : State) (table width height i : Nat) (dest : Region), s.orderly →
    (∀ k ∈ [0, 4, 5, 6, 7], s.responds (table + 32 * i + k) = true) → ¬ descriptorActive s.mem (table + 32 * i) →
    examineLayer s table width height dest i = .ok none ∧
    ∀ count, prepass s table width height dest i (count + 1) = prepass s table width height dest (i + 1) count

/-! ## Bus errors, per family -/

/-- R333 to R335 with the pseudocode of R151 to R156, R239, R255 to R258, R273 to R275 and R295: past the tests, which
data bytes each command accesses, and which of them it reads before its first `MemWrite`, in the order of the pseudocode.
Where one of the latter does not respond, the command ends with an up-front BUS_ERROR that names the first of them and
leaves memory unchanged. Otherwise it ends with DONE where every accessed byte responds, else with BUS_ERROR and the
address of one that does not. That the four neighbours and the nine samples of one expression are read in the order in
which it is written is the model's reading (log entry 23), and that no LUT entry is read for a byte that does not respond
(log entry 10). -/
def Obligations.AccessedBytesDecideBusError : Prop :=
  ∀ s : State, s.orderly →
    let within := fun (a base len : Nat) => base ≤ a ∧ a < base + len
    let ends := fun (i : Instr) (first : List Nat) (read : Nat → Prop) (base len : Nat) =>
      ∃ t, exec i s = .next t ∧ endsByAccesses s t first (fun a => read a ∨ within a base len) base len
    let ifAny := fun (pixels : Nat) (first : List Nat) => if pixels = 0 then [] else first
    -- GB7_DEC and GB7_DEC_PLANE, past a header that responds: the pixel bytes, and the mask plane where there is one;
    -- up front, those of pixel 0.
    (∀ (version flags : Byte) (W H : Nat), Gb7HeaderAt s.mem (s.arg 0) version flags W H → s.respondsOn (s.arg 0) 12 →
      checkedBuffers (s.arg 0) (s.arg 1) (s.arg 2) (s.arg 3) → W * H ≤ s.arg 3 →
      let plane := if flags.getLsbD 0 then H * ((W + 7) / 8) else 0
      (12 + W * H ≤ s.arg 1 →
        ends .gb7Dec (ifAny (W * H) [s.arg 0 + 12]) (fun a => within a (s.arg 0 + 12) (W * H)) (s.arg 2) (W * H)) ∧
      (12 + W * H + plane ≤ s.arg 1 →
        ends .gb7DecPlane
          (ifAny (W * H) (if flags.getLsbD 0 then [s.arg 0 + 12, s.arg 0 + 12 + W * H] else [s.arg 0 + 12]))
          (fun a => within a (s.arg 0 + 12) (W * H + plane)) (s.arg 2) (W * H))) ∧
    -- The encoders, past an alpha scan that meets no failing byte: R, G and B of every pixel, and A where the mask is
    -- written. The header is written before any of them.
    (∀ fm hasAlpha : Bool, s.arg 1 ≤ 65535 → s.arg 2 ≤ 65535 →
      checkedBuffers (s.arg 0) (4 * s.arg 1 * s.arg 2) (s.arg 3) (s.arg 4) →
      streamHasAlpha s.mem fm (s.arg 0) (s.arg 1) (s.arg 2) hasAlpha →
      (fm = true ∨ ∀ q, ¬ alphaScanFailsAt s (s.arg 0) (s.arg 1 * s.arg 2) q) →
      let read := fun (a : Nat) => ∃ x y c, x < s.arg 1 ∧ y < s.arg 2 ∧ (c < 3 ∨ (c = 3 ∧ hasAlpha = true)) ∧
        a = pixelAddress (s.arg 0) (s.arg 1) x y c
      let plane := if hasAlpha then s.arg 2 * ((s.arg 1 + 7) / 8) else 0
      (12 + s.arg 1 * s.arg 2 + plane ≤ s.arg 4 →
        ends (.gb7Enc fm) [] read (s.arg 3) (12 + s.arg 1 * s.arg 2 + plane)) ∧
      (12 + s.arg 1 * s.arg 2 ≤ s.arg 4 → ends (.gb7EncInline fm) [] read (s.arg 3) (12 + s.arg 1 * s.arg 2))) ∧
    -- GB7_RENDER: every gray byte; up front, the first.
    (∀ d8 : Bool, checkedBuffers (s.arg 0) (s.arg 1 * s.arg 2) (s.arg 3) (4 * s.arg 1 * s.arg 2) →
      ends (.gb7Render d8) (ifAny (s.arg 1 * s.arg 2) [s.arg 0])
        (fun a => within a (s.arg 0) (s.arg 1 * s.arg 2)) (s.arg 3) (4 * s.arg 1 * s.arg 2)) ∧
    -- COMPOSITE, past the pre-pass: every byte of the contributing Image layers and, where there is a pixel, the four
    -- bytes of the contributing Color layers. The destination is cleared before any.
    (checkedBuffers (s.arg 0) (32 * s.arg 1) (s.arg 4) (4 * s.arg 2 * s.arg 3) →
      (∀ i, i < s.arg 1 → descriptorReadable s (s.arg 0 + 32 * i) (s.arg 2) (s.arg 3) ∧
        descriptorPasses s.mem (s.arg 0 + 32 * i) (s.arg 2) (s.arg 3) (s.arg 4)) →
      ends .composite []
        (fun a => ∃ l ∈ contributingLayers s.mem (s.arg 0) (s.arg 1) (s.arg 2) (s.arg 3), ∃ base,
          (l.source = .image base ∧ within a base (4 * s.arg 2 * s.arg 3)) ∨
          (l.source = .color base ∧ 0 < s.arg 2 * s.arg 3 ∧ within a base 4))
        (s.arg 4) (4 * s.arg 2 * s.arg 3)) ∧
    -- The resampling commands: the source pixels that the coordinate maps select; up front, those that channel 0 of
    -- output pixel 0 reads.
    (0 < s.arg 1 → 0 < s.arg 2 → 0 < s.arg 4 → 0 < s.arg 5 →
      let SW := s.arg 1
      let SH := s.arg 2
      let DW := s.arg 4
      let DH := s.arg 5
      let hmap := fun (i sd dd : Nat) =>
        min ((sd : ℚ) - 1) (max 0 (((i : ℚ) + 1 / 2) * (sd : ℚ) / (dd : ℚ) - 1 / 2))
      let gnear := fun (i sd dd : Nat) => min (((i : ℚ) * (sd : ℚ) / (dd : ℚ) + 1 / 2).floor.toNat) (sd - 1)
      let glin := fun (i sd dd : Nat) => (i : ℚ) * ((sd : ℚ) - 1) / ((max 1 (dd - 1) : Nat) : ℚ)
      let lo := fun (u : ℚ) => u.floor.toNat
      let hi := fun (u : ℚ) (sd : Nat) => min (u.floor.toNat + 1) (sd - 1)
      let four := fun (u v : ℚ) => [(lo u, lo v), (hi u SW, lo v), (lo u, hi v SH), (hi u SW, hi v SH)]
      (checkedBuffers (s.arg 0) (4 * SW * SH) (s.arg 3) (4 * DW * DH) →
        ends .rsRgbaNearest
          [pixelAddress (s.arg 0) SW (hmap 0 SW DW + 1 / 2).floor.toNat (hmap 0 SH DH + 1 / 2).floor.toNat 0]
          (fun a => ∃ x y c, x < DW ∧ y < DH ∧ c < 4 ∧ a = pixelAddress (s.arg 0) SW
            (hmap x SW DW + 1 / 2).floor.toNat (hmap y SH DH + 1 / 2).floor.toNat c)
          (s.arg 3) (4 * DW * DH) ∧
        ends .rsRgbaBilinear
          ((four (hmap 0 SW DW) (hmap 0 SH DH)).map (fun p => pixelAddress (s.arg 0) SW p.1 p.2 0))
          (fun a => ∃ x y c, x < DW ∧ y < DH ∧ c < 4 ∧ ∃ p ∈ four (hmap x SW DW) (hmap y SH DH),
            a = pixelAddress (s.arg 0) SW p.1 p.2 c)
          (s.arg 3) (4 * DW * DH)) ∧
      (checkedBuffers (s.arg 0) (SW * SH) (s.arg 3) (DW * DH) → ∀ d8 : Bool,
        ends (.rsGrayNearest d8)
          [grayAddress (s.arg 0) SW (gnear 0 SW DW) (gnear 0 SH DH)]
          (fun a => ∃ x y, x < DW ∧ y < DH ∧ a = grayAddress (s.arg 0) SW (gnear x SW DW) (gnear y SH DH))
          (s.arg 3) (DW * DH) ∧
        ends (.rsGrayBilinear d8)
          ((four (glin 0 SW DW) (glin 0 SH DH)).map (fun p => grayAddress (s.arg 0) SW p.1 p.2))
          (fun a => ∃ x y, x < DW ∧ y < DH ∧ ∃ p ∈ four (glin x SW DW) (glin y SH DH),
            a = grayAddress (s.arg 0) SW p.1 p.2)
          (s.arg 3) (DW * DH))) ∧
    -- The LUT builds: no source byte.
    (inDataSpace (s.arg 0) 256 →
      ∀ i ∈ [Instr.lutBuildRamp, Instr.lutBuildFlat], ends i [] (fun _ => False) (s.arg 0) 256) ∧
    -- LUT_APPLY: every source byte, and the entry that each byte of a used channel selects; up front, the first source
    -- byte and its entry.
    (∀ ta hr hg hb ha : Bool,
      let used : Fin 4 → Bool := fun c => [!ta && hr, !ta && hg, !ta && hb, ta && ha].getD c.val false
      let lut : Fin 4 → Nat := fun c => s.arg (Fin.ofNat 8 (4 + c.val))
      checkedBuffers (s.arg 0) (4 * s.arg 1 * s.arg 2) (s.arg 3) (4 * s.arg 1 * s.arg 2) →
      (∀ c : Fin 4, used c = true → checkedBuffers (lut c) 256 (s.arg 3) (4 * s.arg 1 * s.arg 2)) →
      ends (.lutApply ta hr hg hb ha)
        (ifAny (s.arg 1 * s.arg 2)
          (s.arg 0 :: if used 0 = true then [lut 0 + (s.mem.read (s.arg 0)).toNat] else []))
        (fun a => ∃ (x y : Nat) (c : Fin 4), x < s.arg 1 ∧ y < s.arg 2 ∧
          let p := pixelAddress (s.arg 0) (s.arg 1) x y c.val
          (a = p ∨ (used c = true ∧ s.responds p = true ∧ a = lut c + (s.mem.read p).toNat)))
        (s.arg 3) (4 * s.arg 1 * s.arg 2)) ∧
    -- CONV3X3: every source byte; up front, the samples of channel 0 of pixel 0, row by row, or its byte where the
    -- channel is copied.
    ∀ (tgt norm : BitVec 2) (apass : Bool), tgt ≠ 0b11#2 → norm ≠ 0b11#2 → 0 < s.arg 1 → 0 < s.arg 2 →
      (∀ k : Fin 9, (s.kernel[k].extractLsb' 23 8) ≠ 0xFF#8) →
      checkedBuffers (s.arg 0) (4 * s.arg 1 * s.arg 2) (s.arg 3) (4 * s.arg 1 * s.arg 2) →
      let left := pixelAddress (s.arg 0) (s.arg 1) 0
      let right := pixelAddress (s.arg 0) (s.arg 1) (min 1 (s.arg 1 - 1))
      let below := min 1 (s.arg 2 - 1)
      ends (.conv3x3 tgt norm apass)
        (if tgt = 0b01#2 then [s.arg 0]
         else [left 0 0, left 0 0, right 0 0, left 0 0, left 0 0, right 0 0, left below 0, left below 0, right below 0])
        (fun a => within a (s.arg 0) (4 * s.arg 1 * s.arg 2)) (s.arg 3)
        (4 * s.arg 1 * s.arg 2)

end Statements
end

