-- ==== Sys2Proof/Laws/Arith.lean ====
section
/-! SUPPORT. Laws/Arith.lean: the rounding operations (R11, R12) on quotients of natural numbers. -/

namespace Sys2Proof.Machine

/-- The floor of a quotient of naturals (R11). -/
theorem floor_nat (n d : Nat) : (((n : ℚ)) / (d : ℚ)).floor = ((n / d : Nat) : Int) := by
  have := Rat.floor_intCast_div_natCast (n : Int) d
  show ⌊((n : ℚ)) / (d : ℚ)⌋ = _
  rw [show (n : ℚ) = ((n : Int) : ℚ) by simp, this]; simp

/-- `u7` of a quotient of naturals (R12). -/
theorem u7_nat (n d : Nat) (hd : 0 < d) : (u7 ((n : ℚ) / d)).toNat = min 127 ((2 * n + d) / (2 * d)) := by
  have e : (n : ℚ) / d + 1 / 2 = ((2 * n + d : Nat) : ℚ) / ((2 * d : Nat) : ℚ) := by
    push_cast; field_simp
  unfold u7 roundHalfUp clampInt
  rw [e, floor_nat]
  generalize (2 * n + d) / (2 * d) = q
  have : (min 127 (max 0 (q : Int))) = ((min 127 q : Nat) : Int) := by omega
  rw [this, BitVec.ofInt_natCast, BitVec.toNat_ofNat]
  omega

/-- `u8` of a quotient of naturals (R12). -/
theorem u8_nat (n d : Nat) (hd : 0 < d) : (u8 ((n : ℚ) / d)).toNat = min 255 ((2 * n + d) / (2 * d)) := by
  have e : (n : ℚ) / d + 1 / 2 = ((2 * n + d : Nat) : ℚ) / ((2 * d : Nat) : ℚ) := by
    push_cast; field_simp
  unfold u8 roundHalfUp clampInt
  rw [e, floor_nat]
  generalize (2 * n + d) / (2 * d) = q
  have : (min 255 (max 0 (q : Int))) = ((min 255 q : Nat) : Int) := by omega
  rw [this, BitVec.ofInt_natCast, BitVec.toNat_ofNat]
  omega

end Sys2Proof.Machine
end

