-- ==== Sys2Proof/Laws/Memory.lean ====
section
/-! SUPPORT. Laws/Memory.lean: the laws of data memory. Reading after a write gives the byte written at its address and
the old byte elsewhere, for every list; the canonical form is kept by every operation; and canonical memories that read
alike are equal. -/

namespace Sys2Proof.Machine

/-! ## Reading -/

@[simp] theorem read_nil (a : Nat) : Memory.read [] a = unlistedByte := rfl

theorem read_cons (k : Nat) (b : Byte) (m : Memory) (a : Nat) :
    Memory.read ((k, b) :: m) a = if k = a then b else Memory.read m a := rfl

theorem erase_cons_same (k : Nat) (b : Byte) (m : Memory) : Memory.erase ((k, b) :: m) k = Memory.erase m k := by
  simp [Memory.erase]

theorem erase_cons_ne {k a : Nat} (h : k ≠ a) (b : Byte) (m : Memory) :
    Memory.erase ((k, b) :: m) a = (k, b) :: Memory.erase m a := by
  simp [Memory.erase, h]

theorem read_erase_same (m : Memory) (a : Nat) : (m.erase a).read a = unlistedByte := by
  induction m with
  | nil => rfl
  | cons c m ih =>
    obtain ⟨k, b⟩ := c
    by_cases h : k = a
    · subst h
      rw [erase_cons_same, ih]
    · rw [erase_cons_ne h, read_cons, if_neg h, ih]

theorem read_erase_other {m : Memory} {a a' : Nat} (h : a' ≠ a) : (m.erase a).read a' = m.read a' := by
  induction m with
  | nil => rfl
  | cons c m ih =>
    obtain ⟨k, b⟩ := c
    by_cases hk : k = a
    · subst hk
      rw [erase_cons_same, read_cons, if_neg (Ne.symm h), ih]
    · rw [erase_cons_ne hk, read_cons, read_cons, ih]

theorem read_place_same {m : Memory} {a : Nat} {b : Byte} (h : ∀ c ∈ m, c.1 ≠ a) : (Memory.place a b m).read a = b := by
  induction m with
  | nil => simp [Memory.place, read_cons]
  | cons c m ih =>
    obtain ⟨k, v⟩ := c
    have hk : k ≠ a := h (k, v) (by simp)
    unfold Memory.place
    split
    · simp [read_cons]
    · rw [read_cons, if_neg hk, ih (fun c hc => h c (by simp [hc]))]

theorem read_place_other {m : Memory} {a a' : Nat} {b : Byte} (h : a' ≠ a) :
    (Memory.place a b m).read a' = m.read a' := by
  induction m with
  | nil => simp [Memory.place, read_cons, Ne.symm h]
  | cons c m ih =>
    obtain ⟨k, v⟩ := c
    unfold Memory.place
    split
    · rw [read_cons, if_neg (Ne.symm h)]
    · rw [read_cons, read_cons, ih]

theorem mem_erase_ne (m : Memory) (a : Nat) : ∀ c ∈ m.erase a, c.1 ≠ a := by
  intro c hc
  simpa using (List.mem_filter.mp hc).2

/-- Reading the address just written gives the byte written. -/
@[simp] theorem read_write_same (m : Memory) (a : Nat) (b : Byte) : (m.write a b).read a = b := by
  unfold Memory.write
  split
  · rename_i h; rw [read_erase_same, h]
  · exact read_place_same (mem_erase_ne m a)

/-- A write leaves every other address alone. -/
theorem read_write_other {m : Memory} {a a' : Nat} {b : Byte} (h : a' ≠ a) : (m.write a b).read a' = m.read a' := by
  unfold Memory.write
  split
  · exact read_erase_other h
  · rw [read_place_other h, read_erase_other h]

theorem read_fillFrom (m : Memory) (base : Nat) (f : Nat → Byte) (k count a : Nat) :
    (m.fillFrom base f k count).read a =
      if base + k ≤ a ∧ a < base + k + count then f (a - base) else m.read a := by
  induction count generalizing k with
  | zero =>
    have : ¬ (base + k ≤ a ∧ a < base + k + 0) := by omega
    rw [if_neg this]; rfl
  | succ n ih =>
    rw [Memory.fillFrom]
    by_cases h : a = base + k
    · subst h
      have h1 : base + k ≤ base + k ∧ base + k < base + k + (n + 1) := by omega
      have h2 : base + k - base = k := by omega
      rw [read_write_same, if_pos h1, h2]
    · rw [read_write_other h, ih]
      by_cases h2 : base + (k + 1) ≤ a ∧ a < base + (k + 1) + n
      · rw [if_pos h2, if_pos (by omega)]
      · rw [if_neg h2, if_neg (by omega)]

/-- What a fill does to every address. -/
theorem read_fill (m : Memory) (base count : Nat) (f : Nat → Byte) (a : Nat) :
    (m.fill base count f).read a = if base ≤ a ∧ a < base + count then f (a - base) else m.read a := by
  simpa [Memory.fill] using read_fillFrom m base f 0 count a

/-- A byte inside a fill. -/
theorem read_fill_inside {m : Memory} {base count k : Nat} {f : Nat → Byte} (h : k < count) :
    (m.fill base count f).read (base + k) = f k := by
  rw [read_fill, if_pos (by omega)]; congr 1; omega

/-- A byte outside a fill. -/
theorem read_fill_outside {m : Memory} {base count a : Nat} {f : Nat → Byte} (h : ¬ (base ≤ a ∧ a < base + count)) :
    (m.fill base count f).read a = m.read a := by
  rw [read_fill, if_neg h]

/-- A scatter leaves every byte outside its region alone. -/
theorem read_scatter_outside {m : Memory} {draw a : Nat} {r : Region} (h : ¬ (r.base ≤ a ∧ a < r.base + r.len)) :
    (m.scatter draw r).read a = m.read a :=
  read_fill_outside h

/-! ## The canonical form -/

theorem wf_nil : Memory.wf [] := by simp [Memory.wf]

theorem wf_erase {m : Memory} (h : m.wf) (a : Nat) : (m.erase a).wf :=
  ⟨h.1.filter _, fun c hc => h.2 c (List.mem_filter.mp hc).1⟩

theorem mem_place {a : Nat} {b : Byte} {m : Memory} {c : Host.Cell} (h : c ∈ Memory.place a b m) :
    c = (a, b) ∨ c ∈ m := by
  induction m with
  | nil => simpa [Memory.place] using h
  | cons d m ih =>
    unfold Memory.place at h
    split at h
    · simpa using h
    · rcases List.mem_cons.mp h with h | h
      · simp [h]
      · rcases ih h with h | h
        · exact .inl h
        · simp [h]

theorem wf_place {m : Memory} {a : Nat} {b : Byte} (h : m.wf) (hm : ∀ c ∈ m, c.1 ≠ a) (hb : b ≠ unlistedByte) :
    (Memory.place a b m).wf := by
  refine ⟨?_, fun c hc => ?_⟩
  · have hs := h.1
    clear h
    induction m with
    | nil => simp [Memory.place]
    | cons d m ih =>
      have hp := List.pairwise_cons.mp hs
      unfold Memory.place
      split
      · rename_i hlt
        refine List.pairwise_cons.mpr ⟨fun c hc => ?_, hs⟩
        rcases List.mem_cons.mp hc with rfl | hc
        · exact hlt
        · exact Nat.lt_trans hlt (hp.1 c hc)
      · rename_i hge
        refine List.pairwise_cons.mpr ⟨fun c hc => ?_, ih (fun c hc => hm c (by simp [hc])) hp.2⟩
        rcases mem_place hc with rfl | hc
        · have := hm d (by simp)
          show d.1 < a
          omega
        · exact hp.1 c hc
  · rcases mem_place hc with rfl | hc
    · exact hb
    · exact h.2 c hc

/-- A write keeps the canonical form. -/
theorem wf_write {m : Memory} (h : m.wf) (a : Nat) (b : Byte) : (m.write a b).wf := by
  unfold Memory.write
  split
  · exact wf_erase h a
  · exact wf_place (wf_erase h a) (mem_erase_ne m a) ‹_›

theorem wf_fillFrom {m : Memory} (h : m.wf) (base : Nat) (f : Nat → Byte) (k count : Nat) :
    (m.fillFrom base f k count).wf := by
  induction count generalizing k with
  | zero => exact h
  | succ n ih => exact wf_write (ih (k + 1)) _ _

/-- A fill keeps the canonical form. -/
theorem wf_fill {m : Memory} (h : m.wf) (base count : Nat) (f : Nat → Byte) : (m.fill base count f).wf :=
  wf_fillFrom h base f 0 count

/-- A scatter keeps the canonical form. -/
theorem wf_scatter {m : Memory} (h : m.wf) (draw : Nat) (r : Region) : (m.scatter draw r).wf := wf_fill h _ _ _

/-- Reset memory has the canonical form. -/
theorem wf_reset : State.reset.mem.wf := wf_nil

/-! ## Which addresses a memory lists -/

theorem mem_write {m : Memory} {a : Nat} {b : Byte} {c : Host.Cell} (h : c ∈ m.write a b) : c.1 = a ∨ c ∈ m := by
  unfold Memory.write at h
  split at h
  · exact .inr (List.mem_filter.mp h).1
  · rcases mem_place h with rfl | h
    · exact .inl rfl
    · exact .inr (List.mem_filter.mp h).1

/-- A fill lists no address but those it writes and those listed before. -/
theorem mem_fill {m : Memory} {base count : Nat} {f : Nat → Byte} {c : Host.Cell} (h : c ∈ m.fill base count f) :
    (base ≤ c.1 ∧ c.1 < base + count) ∨ c ∈ m := by
  suffices H : ∀ k, c ∈ m.fillFrom base f k count → (base + k ≤ c.1 ∧ c.1 < base + k + count) ∨ c ∈ m by
    simpa using H 0 h
  clear h
  induction count with
  | zero => exact fun k h => .inr h
  | succ n ih =>
    intro k h
    rcases mem_write h with h | h
    · exact .inl (by omega)
    · rcases ih (k + 1) h with h | h
      · exact .inl (by omega)
      · exact .inr h

theorem read_of_mem {m : Memory} (h : m.wf) {c : Host.Cell} (hc : c ∈ m) : m.read c.1 = c.2 := by
  induction m with
  | nil => simp at hc
  | cons d m ih =>
    have hp := List.pairwise_cons.mp h.1
    obtain ⟨k, b⟩ := d
    rcases List.mem_cons.mp hc with rfl | hc
    · simp [read_cons]
    · have : k < c.1 := hp.1 c hc
      rw [read_cons, if_neg (by omega)]
      exact ih ⟨hp.2, fun c hc => h.2 c (by simp [hc])⟩ hc

theorem read_of_not_mem {m : Memory} {a : Nat} (h : ∀ c ∈ m, c.1 ≠ a) : m.read a = unlistedByte := by
  induction m with
  | nil => rfl
  | cons d m ih =>
    obtain ⟨k, b⟩ := d
    rw [read_cons, if_neg (h (k, b) (by simp)), ih (fun c hc => h c (by simp [hc]))]

theorem mem_iff_read {m : Memory} (h : m.wf) (c : Host.Cell) : c ∈ m ↔ m.read c.1 = c.2 ∧ c.2 ≠ unlistedByte := by
  refine ⟨fun hc => ⟨read_of_mem h hc, h.2 c hc⟩, fun ⟨hr, hn⟩ => ?_⟩
  by_cases hex : ∃ d ∈ m, d.1 = c.1
  · obtain ⟨d, hd, he⟩ := hex
    have h2 : d.2 = c.2 := by rw [← read_of_mem h hd, he, hr]
    rwa [show c = d from Prod.ext he.symm h2.symm]
  · refine absurd ?_ hn
    rw [← hr]
    exact read_of_not_mem (fun d hd he => hex ⟨d, hd, he⟩)

/-- Canonical memories that read alike are the same data. -/
theorem memory_ext {m n : Memory} (hm : m.wf) (hn : n.wf) (h : ∀ a, m.read a = n.read a) : m = n := by
  have hmem : ∀ c, c ∈ m ↔ c ∈ n := fun c => by rw [mem_iff_read hm, mem_iff_read hn, h]
  have nodup : ∀ {l : Memory}, l.wf → l.Nodup := fun hl =>
    hl.1.imp (fun {a b} hab => by rintro rfl; exact Nat.lt_irrefl _ hab)
  have hperm : m.Perm n := (List.perm_ext_iff_of_nodup (nodup hm) (nodup hn)).mpr hmem
  exact hperm.eq_of_pairwise (fun a b _ _ hab hba => absurd hba (Nat.lt_asymm hab)) hm.1 hn.1

end Sys2Proof.Machine
end

