-- ==== Sys2Proof/Laws/Ops.lean ====
section
/-! SUPPORT. Laws/Ops.lean: what each shared operation can do, said once: the checks, the validation reads, how a
command's outcome settles, what a completion leaves unchanged, and what writing a buffer does to memory. -/

namespace Sys2Proof.Machine

/-! ## Checks -/

/-- A computation in `Except` answers exactly when both of its parts do. -/
theorem bind_ok_iff {ε α β : Type} {x : Except ε α} {f : α → Except ε β} {b : β} :
    (x >>= f) = .ok b ↔ ∃ a, x = .ok a ∧ f a = .ok b := by
  cases x <;> simp [bind, Except.bind]

/-- Sequencing after an answer. -/
@[simp] theorem ok_bind {ε α β : Type} (a : α) (f : α → Except ε β) : (Except.ok a >>= f) = f a := rfl

/-- Sequencing after an error. -/
@[simp] theorem error_bind {ε α β : Type} (e : ε) (f : α → Except ε β) : (Except.error e >>= f) = .error e := rfl

theorem raiseIf_ok_iff {b : Bool} {e : CmdError} {u : Unit} : raiseIf b e = .ok u ↔ b = false := by
  cases b <;> simp [raiseIf]

@[simp] theorem raiseIf_false (e : CmdError) : raiseIf false e = .ok () := rfl

@[simp] theorem raiseIf_true (e : CmdError) : raiseIf true e = .error e := rfl

theorem checkRange_ok_iff {r : Region} {code : RegionCode} {u : Unit} :
    checkRange r code = .ok u ↔ r.base + r.len ≤ dataSpace := by
  by_cases h : r.base + r.len ≤ dataSpace <;> simp [checkRange, Region.inRange, h]

theorem checkRange_ok {r : Region} {code : RegionCode} (h : r.base + r.len ≤ dataSpace) :
    checkRange r code = .ok () := checkRange_ok_iff.mpr h

theorem checkRange_error {r : Region} {code : RegionCode} (h : ¬ r.base + r.len ≤ dataSpace) :
    checkRange r code = .error (.addrRange code) := by simp [checkRange, Region.inRange, h]

theorem checkOverlap_ok_iff {r t : Region} {code : RegionCode} {u : Unit} :
    checkOverlap r t code = .ok u ↔ r.overlaps t = false := by
  by_cases h : r.overlaps t <;> simp [checkOverlap, h]

theorem checkOverlap_ok {r t : Region} {code : RegionCode} (h : r.overlaps t = false) :
    checkOverlap r t code = .ok () := checkOverlap_ok_iff.mpr h

theorem checkOverlap_error {r t : Region} {code : RegionCode} (h : r.overlaps t = true) :
    checkOverlap r t code = .error (.overlap code) := by simp [checkOverlap, h]

theorem contains_iff {r : Region} {a : Nat} : r.contains a = true ↔ r.base ≤ a ∧ a < r.base + r.len := by
  simp [Region.contains]

/-- R18: two regions overlap when some address lies in both. -/
theorem overlaps_iff {r t : Region} : r.overlaps t = true ↔ ∃ a, r.contains a = true ∧ t.contains a = true := by
  simp only [Region.overlaps, Bool.and_eq_true, decide_eq_true_eq, contains_iff]
  constructor
  · rintro ⟨⟨⟨h1, h2⟩, h3⟩, h4⟩
    rcases Nat.le_total r.base t.base with h | h
    · exact ⟨t.base, ⟨h, h4⟩, Nat.le_refl _, by omega⟩
    · exact ⟨r.base, ⟨Nat.le_refl _, by omega⟩, h, h3⟩
  · rintro ⟨a, ⟨h1, h2⟩, h3, h4⟩
    omega

/-- No address lies in both of two regions that do not overlap. -/
theorem not_both {r t : Region} (h : r.overlaps t = false) {a : Nat} (h1 : r.contains a = true) :
    t.contains a = false := by
  by_contra h2
  have := overlaps_iff.mpr ⟨a, h1, Bool.not_eq_false _ |>.mp h2⟩
  simp [h] at this

/-! ## Validation reads -/

theorem checkedByte_ok_iff {s : State} {a : Nat} {b : Byte} :
    s.checkedByte a = .ok b ↔ s.responds a = true ∧ b = s.byteAt a := by
  unfold State.checkedByte
  split
  · rename_i h; simpa [h] using (eq_comm : s.byteAt a = b ↔ _)
  · rename_i h; simp [h]

theorem checkedByte_ok {s : State} {a : Nat} (h : s.responds a = true) : s.checkedByte a = .ok (s.byteAt a) :=
  checkedByte_ok_iff.mpr ⟨h, rfl⟩

theorem checkedRead_zero (s : State) (a : Nat) : s.checkedRead a 0 = .ok 0 := rfl

theorem checkedRead_succ (s : State) (a n : Nat) :
    s.checkedRead a (n + 1) =
      (s.checkedByte a >>= fun low => s.checkedRead (a + 1) n >>= fun rest => .ok (low.toNat + 256 * rest)) := rfl

theorem littleEndian_succ (m : Memory) (a n : Nat) :
    m.littleEndian a (n + 1) = (m.read a).toNat + 256 * m.littleEndian (a + 1) n := rfl

/-- A validation read answers exactly when every byte responds, and then with the little-endian value. -/
theorem checkedRead_ok_iff {s : State} {a n v : Nat} :
    s.checkedRead a n = .ok v ↔
      (∀ k, k < n → s.responds (a + k) = true) ∧ v = s.sourceMem.littleEndian a n := by
  induction n generalizing a v with
  | zero => rw [checkedRead_zero, Except.ok.injEq]; exact ⟨fun h => ⟨fun k hk => by omega, h.symm⟩, fun h => h.2.symm⟩
  | succ n ih =>
    rw [checkedRead_succ, bind_ok_iff]
    simp only [bind_ok_iff, checkedByte_ok_iff, ih, Except.ok.injEq, littleEndian_succ]
    constructor
    · rintro ⟨b, ⟨h1, rfl⟩, w, ⟨h2, rfl⟩, rfl⟩
      refine ⟨fun k hk => ?_, rfl⟩
      cases k with
      | zero => exact h1
      | succ k => have := h2 k (by omega); rwa [show a + (k + 1) = a + 1 + k by omega]
    · rintro ⟨h, rfl⟩
      refine ⟨_, ⟨h 0 (by omega), rfl⟩, _, ⟨fun k hk => ?_, rfl⟩, rfl⟩
      have := h (k + 1) (by omega); rwa [show a + 1 + k = a + (k + 1) by omega]

/-- The little-endian value of `n` bytes is below `256 ^ n`. -/
theorem littleEndian_lt (m : Memory) (a n : Nat) : m.littleEndian a n < 256 ^ n := by
  induction n generalizing a with
  | zero => exact Nat.zero_lt_one
  | succ n ih =>
    have h1 := ih (a + 1)
    have h2 := (m.read a).isLt
    rw [littleEndian_succ, Nat.pow_succ]
    omega

/-- The reads before the first `MemWrite` pass exactly when every one of their bytes responds. -/
theorem checkedReads_ok_iff {s : State} {l : List Nat} {u : Unit} :
    s.checkedReads l = .ok u ↔ ∀ a ∈ l, s.responds a = true := by
  unfold State.checkedReads
  split
  · rename_i a h
    have h1 := List.mem_of_find?_eq_some h
    have h2 := List.find?_some h
    simp only [reduceCtorEq, false_iff, not_forall]
    exact ⟨a, h1, by simpa using h2⟩
  · rename_i h
    simpa using h

theorem checkedReads_ok {s : State} {l : List Nat} (h : ∀ a ∈ l, s.responds a = true) : s.checkedReads l = .ok () :=
  checkedReads_ok_iff.mpr h

/-- Otherwise they end with BUS_ERROR and the first byte that does not respond (R335). -/
theorem checkedReads_error {s : State} {l : List Nat} {a : Nat} (h : l.find? (fun b => !s.responds b) = some a) :
    s.checkedReads l = .error (.busError a) := by
  unfold State.checkedReads
  rw [h]

/-- An error of these reads is a BUS_ERROR. -/
theorem checkedReads_error_iff {s : State} {l : List Nat} {e : CmdError} :
    s.checkedReads l = .error e ↔ ∃ a, l.find? (fun b => !s.responds b) = some a ∧ e = .busError a := by
  unfold State.checkedReads
  split
  · rename_i a h
    rw [h]
    simp [eq_comm]
  · rename_i h
    rw [h]
    simp

/-- Every read of a first pixel is a read of the pixel. -/
theorem mem_beforeFirstWrite {n a : Nat} {l : List Nat} : a ∈ beforeFirstWrite n l ↔ 0 < n ∧ a ∈ l := by
  unfold beforeFirstWrite
  split
  · simp_all
  · simp_all [Nat.pos_of_ne_zero]

/-! ## Outcomes and completion -/

/-- A command answers an effect exactly when its register checks and the rest of its validation pass. -/
theorem outcome_ok_iff {c : Command} {e : Effect} : c.outcome = .ok e ↔ c.args = .ok () ∧ c.body = .ok e := by
  unfold Command.outcome
  rw [bind_ok_iff]
  exact ⟨fun ⟨_, h1, h2⟩ => ⟨h1, h2⟩, fun ⟨h1, h2⟩ => ⟨_, h1, h2⟩⟩

/-- How the validation phase ends where, past its tests, only the reads before the first `MemWrite` are left (R333). -/
theorem outcome_of_reads {c : Command} {s : State} {first : List Nat} {e : Effect} (ha : c.args = .ok ())
    (hb : c.body = (s.checkedReads first >>= fun _ => .ok e)) :
    c.outcome = (s.checkedReads first >>= fun _ => .ok e) := by
  rw [Command.outcome, ha, ok_bind, hb]

/-- It passes where those bytes respond. -/
theorem outcome_of_reads_ok {c : Command} {s : State} {first : List Nat} {e : Effect} (ha : c.args = .ok ())
    (hb : c.body = (s.checkedReads first >>= fun _ => .ok e)) (hr : ∀ a ∈ first, s.responds a = true) :
    c.outcome = .ok e := by
  rw [outcome_of_reads ha hb, checkedReads_ok hr, ok_bind]

/-- A failed register check is the command's error. -/
theorem outcome_args_error {c : Command} {e : CmdError} (h : c.args = .error e) : c.outcome = .error e := by
  simp [Command.outcome, h]

/-- Where the host has kept R89, a command computes from data memory as it is. -/
theorem sourceMem_of_not_raced {s : State} (h : s.raced = false) : s.sourceMem = s.mem := by
  unfold State.raced at h
  unfold State.sourceMem
  split <;> simp_all

theorem byteAt_of_not_raced {s : State} (h : s.raced = false) (a : Nat) : s.byteAt a = s.mem.read a := by
  rw [State.byteAt, sourceMem_of_not_raced h]

/-- No accessed byte fails exactly when all of them respond. -/
theorem failing_nil_iff {s : State} {e : Effect} :
    s.failing e = [] ↔ (∀ a ∈ e.reads, s.responds a = true) ∧
      ∀ k, k < e.written.len → s.responds (e.written.base + k) = true := by
  simp only [State.failing, Effect.accesses, List.filter_eq_nil_iff, List.mem_append, List.mem_map, List.mem_range]
  constructor
  · intro h
    exact ⟨fun a ha => by simpa using h a (.inl ha), fun k hk => by simpa using h _ (.inr ⟨k, hk, rfl⟩)⟩
  · rintro ⟨h1, h2⟩ a (ha | ⟨k, hk, rfl⟩)
    · simp [h1 a ha]
    · simp [h2 k hk]

theorem mem_failing_iff {s : State} {e : Effect} {a : Nat} :
    a ∈ s.failing e ↔ a ∈ e.accesses ∧ s.responds a = false := by
  simp [State.failing]

/-- The three ways a completion settles. -/
theorem settle_cases (c : Command) (s : State) :
    (∃ e, c.outcome = .error e ∧ s.settle c = s.raise e) ∨
    (∃ e, c.outcome = .ok e ∧ s.failing e = [] ∧ s.settle c = s.succeed e) ∨
    ∃ e, c.outcome = .ok e ∧ s.failing e ≠ [] ∧ s.settle c = s.dataBusError e (s.failing e) := by
  unfold State.settle
  split
  · exact .inl ⟨_, ‹_›, rfl⟩
  · rename_i e h
    split
    · exact .inr (.inl ⟨e, h, ‹_›, rfl⟩)
    · rename_i h2; exact .inr (.inr ⟨e, h, by simp [h2], by rw [h2]⟩)

/-- What a completion does where the host has kept R89. -/
theorem complete_orderly {c : Command} {s : State} (h : s.raced = false) :
    s.complete c = { s.settle c with draws := s.draws + 1 } := by
  simp [State.complete, h]

/-- Completion with success. -/
theorem complete_succeed {c : Command} {s : State} {e : Effect} (h : s.raced = false) (ho : c.outcome = .ok e)
    (hf : s.failing e = []) : s.complete c = { s.succeed e with draws := s.draws + 1 } := by
  rw [complete_orderly h]
  simp [State.settle, ho, hf]

/-- Completion with an error of the validation phase. -/
theorem complete_raise {c : Command} {s : State} {e : CmdError} (h : s.raced = false) (ho : c.outcome = .error e) :
    s.complete c = { s.raise e with draws := s.draws + 1 } := by
  rw [complete_orderly h]
  simp [State.settle, ho]

/-- Completion with a data-phase BUS_ERROR. -/
theorem complete_dataBusError {c : Command} {s : State} {e : Effect} (h : s.raced = false) (ho : c.outcome = .ok e)
    (hf : s.failing e ≠ []) :
    s.complete c = { s.dataBusError e (s.failing e) with draws := s.draws + 1 } := by
  rw [complete_orderly h]
  rcases settle_cases c s with ⟨e', h', _⟩ | ⟨e', h', h2, _⟩ | ⟨e', h', h2, h3⟩
  · simp [ho] at h'
  · rw [ho] at h'; cases h'; exact absurd h2 hf
  · rw [ho] at h'; cases h'; rw [h3]

/-- A drawn failing address is one of the failing addresses. -/
theorem drawAddress_mem {draw : Nat} {l : List Nat} (h : l ≠ []) : drawAddress draw l ∈ l := by
  have hl : 0 < l.length := List.length_pos_iff.mpr h
  have hk := Nat.mod_lt (Config.freeIndex draw) hl
  unfold drawAddress
  rw [List.getD_eq_getElem?_getD, List.getElem?_eq_getElem hk]
  exact List.getElem_mem hk

/-! ## What no completion changes -/

@[simp] theorem complete_args (c : Command) (s : State) : (s.complete c).args = s.args := by
  rcases settle_cases c s with ⟨e, _, h⟩ | ⟨e, _, _, h⟩ | ⟨e, _, _, h⟩ <;>
    simp only [State.complete, State.spoil, h] <;> split <;> rfl

@[simp] theorem complete_kernel (c : Command) (s : State) : (s.complete c).kernel = s.kernel := by
  rcases settle_cases c s with ⟨e, _, h⟩ | ⟨e, _, _, h⟩ | ⟨e, _, _, h⟩ <;>
    simp only [State.complete, State.spoil, h] <;> split <;> rfl

@[simp] theorem complete_pixin (c : Command) (s : State) : (s.complete c).pixin = s.pixin := by
  rcases settle_cases c s with ⟨e, _, h⟩ | ⟨e, _, _, h⟩ | ⟨e, _, _, h⟩ <;>
    simp only [State.complete, State.spoil, h] <;> split <;> rfl

@[simp] theorem complete_fin (c : Command) (s : State) : (s.complete c).fin = s.fin := by
  rcases settle_cases c s with ⟨e, _, h⟩ | ⟨e, _, _, h⟩ | ⟨e, _, _, h⟩ <;>
    simp only [State.complete, State.spoil, h] <;> split <;> rfl

@[simp] theorem complete_ie (c : Command) (s : State) : (s.complete c).ie = s.ie := by
  rcases settle_cases c s with ⟨e, _, h⟩ | ⟨e, _, _, h⟩ | ⟨e, _, _, h⟩ <;>
    simp only [State.complete, State.spoil, h] <;> split <;> rfl

@[simp] theorem complete_ovr (c : Command) (s : State) : (s.complete c).ovr = s.ovr := by
  rcases settle_cases c s with ⟨e, _, h⟩ | ⟨e, _, _, h⟩ | ⟨e, _, _, h⟩ <;>
    simp only [State.complete, State.spoil, h] <;> split <;> rfl

@[simp] theorem complete_cmd (c : Command) (s : State) : (s.complete c).cmd = s.cmd := by
  rcases settle_cases c s with ⟨e, _, h⟩ | ⟨e, _, _, h⟩ | ⟨e, _, _, h⟩ <;>
    simp only [State.complete, State.spoil, h] <;> split <;> rfl

@[simp] theorem complete_inReset (c : Command) (s : State) : (s.complete c).inReset = s.inReset := by
  rcases settle_cases c s with ⟨e, _, h⟩ | ⟨e, _, _, h⟩ | ⟨e, _, _, h⟩ <;>
    simp only [State.complete, State.spoil, h] <;> split <;> rfl

@[simp] theorem complete_platform (c : Command) (s : State) : (s.complete c).platform = s.platform := by
  rcases settle_cases c s with ⟨e, _, h⟩ | ⟨e, _, _, h⟩ | ⟨e, _, _, h⟩ <;>
    simp only [State.complete, State.spoil, h] <;> split <;> rfl

@[simp] theorem complete_events (c : Command) (s : State) : (s.complete c).events = s.events := by
  rcases settle_cases c s with ⟨e, _, h⟩ | ⟨e, _, _, h⟩ | ⟨e, _, _, h⟩ <;>
    simp only [State.complete, State.spoil, h] <;> split <;> rfl

@[simp] theorem complete_readData (c : Command) (s : State) : (s.complete c).readData = s.readData := by
  rcases settle_cases c s with ⟨e, _, h⟩ | ⟨e, _, _, h⟩ | ⟨e, _, _, h⟩ <;>
    simp only [State.complete, State.spoil, h] <;> split <;> rfl

/-- The engine is idle after a completion. -/
@[simp] theorem complete_phase (c : Command) (s : State) : (s.complete c).phase = .idle := by
  rcases settle_cases c s with ⟨e, _, h⟩ | ⟨e, _, _, h⟩ | ⟨e, _, _, h⟩ <;>
    simp only [State.complete, State.spoil, h] <;> split <;> rfl

/-- A completion counts one draw. -/
@[simp] theorem complete_draws (c : Command) (s : State) : (s.complete c).draws = s.draws + 1 := rfl

/-! ## exec -/

/-- Every meaning is the completion of the instruction's command. -/
theorem exec_eq (i : Instr) (s : State) : exec i s = .next (s.complete (commandOf i s)) := by
  cases i <;> rfl

/-- Completion with success, for any instruction. -/
theorem exec_succeed {i : Instr} {s : State} {e : Effect} (h : s.raced = false)
    (ho : (commandOf i s).outcome = .ok e) (hf : s.failing e = []) :
    exec i s = .next { s.succeed e with draws := s.draws + 1 } := by
  rw [exec_eq, complete_succeed h ho hf]

/-- Completion with an error of the validation phase, for any instruction. -/
theorem exec_raise {i : Instr} {s : State} {e : CmdError} (h : s.raced = false)
    (ho : (commandOf i s).outcome = .error e) :
    exec i s = .next { s.raise e with draws := s.draws + 1 } := by
  rw [exec_eq, complete_raise h ho]

/-- Completion with a BUS_ERROR of the data phase, for any instruction. -/
theorem exec_dataBusError {i : Instr} {s : State} {e : Effect} (h : s.raced = false)
    (ho : (commandOf i s).outcome = .ok e) (hf : s.failing e ≠ []) :
    exec i s = .next { s.dataBusError e (s.failing e) with draws := s.draws + 1 } := by
  rw [exec_eq, complete_dataBusError h ho hf]

/-! ## Writing buffers -/

theorem pixel_index {width x y c : Nat} (hx : x < width) (hc : c < 4) :
    pixelColumn width (4 * (y * width + x) + c) = x ∧ pixelRow width (4 * (y * width + x) + c) = y ∧
      pixelChannel (4 * (y * width + x) + c) = c := by
  have h4 : (4 * (y * width + x) + c) / 4 = y * width + x := by omega
  refine ⟨?_, ?_, ?_⟩
  · rw [pixelColumn, h4, Nat.mul_comm, Nat.mul_add_mod, Nat.mod_eq_of_lt hx]
  · rw [pixelRow, h4, Nat.mul_comm, Nat.mul_add_div (by omega), Nat.div_eq_of_lt hx, Nat.add_zero]
  · rw [pixelChannel]; omega

theorem pixel_offset_lt {width height x y c : Nat} (hx : x < width) (hy : y < height) (hc : c < 4) :
    4 * (y * width + x) + c < 4 * width * height := by
  have h1 : y * width + width ≤ height * width := by
    have := Nat.mul_le_mul_right width (Nat.succ_le_of_lt hy)
    simpa [Nat.succ_mul] using this
  have h2 : 4 * width * height = 4 * (height * width) := by rw [Nat.mul_assoc, Nat.mul_comm width]
  omega

theorem gray_index {width x y : Nat} (hx : x < width) :
    grayColumn width (y * width + x) = x ∧ grayRow width (y * width + x) = y := by
  refine ⟨?_, ?_⟩
  · rw [grayColumn, Nat.mul_comm, Nat.mul_add_mod, Nat.mod_eq_of_lt hx]
  · rw [grayRow, Nat.mul_comm, Nat.mul_add_div (by omega), Nat.div_eq_of_lt hx, Nat.add_zero]

theorem gray_offset_lt {width height x y : Nat} (hx : x < width) (hy : y < height) :
    y * width + x < width * height := by
  have h1 : y * width + width ≤ height * width := by
    have := Nat.mul_le_mul_right width (Nat.succ_le_of_lt hy)
    simpa [Nat.succ_mul] using this
  rw [Nat.mul_comm width]
  omega

/-- A written PixelBuffer, pixel by pixel. -/
theorem read_writePixels {m : Memory} {base width height x y c : Nat} {f : Nat → Nat → Nat → Byte}
    {reads : List Nat} (hx : x < width) (hy : y < height) (hc : c < 4) :
    (m.fill (writePixels base width height f reads).written.base (writePixels base width height f reads).written.len
      (writePixels base width height f reads).value).read (pixelAddress base width x y c) = f x y c := by
  show (m.fill base (4 * width * height) _).read (pixelAddress base width x y c) = _
  rw [pixelAddress, Nat.add_assoc, read_fill_inside (pixel_offset_lt hx hy hc)]
  obtain ⟨h1, h2, h3⟩ := pixel_index (y := y) hx hc
  show f _ _ _ = _
  rw [h1, h2, h3]

/-- A written GrayBuffer, pixel by pixel. -/
theorem read_writeGray {m : Memory} {base width height x y : Nat} {f : Nat → Nat → Byte} {reads : List Nat}
    (hx : x < width) (hy : y < height) :
    (m.fill (writeGray base width height f reads).written.base (writeGray base width height f reads).written.len
      (writeGray base width height f reads).value).read (grayAddress base width x y) = f x y := by
  show (m.fill base (width * height) _).read (grayAddress base width x y) = _
  rw [grayAddress, Nat.add_assoc, read_fill_inside (gray_offset_lt hx hy)]
  obtain ⟨h1, h2⟩ := gray_index (y := y) hx
  show f _ _ = _
  rw [h1, h2]

theorem mem_rasterPositions {width height x y : Nat} :
    (x, y) ∈ rasterPositions width height ↔ x < width ∧ y < height := by
  simp only [rasterPositions, List.mem_flatMap, List.mem_range, List.mem_map, Prod.mk.injEq]
  constructor
  · rintro ⟨b, hb, a, ha, rfl, rfl⟩; exact ⟨ha, hb⟩
  · rintro ⟨hx, hy⟩; exact ⟨y, hy, x, hx, rfl, rfl⟩

end Sys2Proof.Machine
end

