-- ==== Sys2Proof/Laws/State.lean ====
section
/-! SUPPORT. Laws/State.lean: one lemma per field per named update of State, each true by rfl. -/

namespace Sys2Proof.Machine

@[simp] theorem clearStatus_ie (s : State) (v : Word) : (s.clearStatus v).ie = s.ie := rfl
@[simp] theorem clearStatus_done (s : State) (v : Word) : (s.clearStatus v).done = (s.done && !v.getLsbD 1) := rfl
@[simp] theorem clearStatus_err (s : State) (v : Word) : (s.clearStatus v).err = (s.err && !v.getLsbD 2) := rfl
@[simp] theorem clearStatus_ovr (s : State) (v : Word) : (s.clearStatus v).ovr = (s.ovr && !v.getLsbD 3) := rfl
@[simp] theorem clearStatus_errcode (s : State) (v : Word) : (s.clearStatus v).errcode = s.errcode := rfl
@[simp] theorem clearStatus_errinfo (s : State) (v : Word) : (s.clearStatus v).errinfo = s.errinfo := rfl
@[simp] theorem clearStatus_cmd (s : State) (v : Word) : (s.clearStatus v).cmd = s.cmd := rfl
@[simp] theorem clearStatus_result0 (s : State) (v : Word) : (s.clearStatus v).result0 = s.result0 := rfl
@[simp] theorem clearStatus_result1 (s : State) (v : Word) : (s.clearStatus v).result1 = s.result1 := rfl
@[simp] theorem clearStatus_args (s : State) (v : Word) : (s.clearStatus v).args = s.args := rfl
@[simp] theorem clearStatus_kernel (s : State) (v : Word) : (s.clearStatus v).kernel = s.kernel := rfl
@[simp] theorem clearStatus_pixin (s : State) (v : Word) : (s.clearStatus v).pixin = s.pixin := rfl
@[simp] theorem clearStatus_pixout (s : State) (v : Word) : (s.clearStatus v).pixout = s.pixout := rfl
@[simp] theorem clearStatus_fin (s : State) (v : Word) : (s.clearStatus v).fin = s.fin := rfl
@[simp] theorem clearStatus_fout (s : State) (v : Word) : (s.clearStatus v).fout = s.fout := rfl
@[simp] theorem clearStatus_phase (s : State) (v : Word) : (s.clearStatus v).phase = s.phase := rfl
@[simp] theorem clearStatus_inReset (s : State) (v : Word) : (s.clearStatus v).inReset = s.inReset := rfl
@[simp] theorem clearStatus_mem (s : State) (v : Word) : (s.clearStatus v).mem = s.mem := rfl
@[simp] theorem clearStatus_platform (s : State) (v : Word) : (s.clearStatus v).platform = s.platform := rfl
@[simp] theorem clearStatus_events (s : State) (v : Word) : (s.clearStatus v).events = s.events := rfl
@[simp] theorem clearStatus_readData (s : State) (v : Word) : (s.clearStatus v).readData = s.readData := rfl
@[simp] theorem clearStatus_draws (s : State) (v : Word) : (s.clearStatus v).draws = s.draws := rfl

@[simp] theorem setIE_ie (s : State) (v : Word) : (s.setIE v).ie = v.getLsbD 0 := rfl
@[simp] theorem setIE_done (s : State) (v : Word) : (s.setIE v).done = s.done := rfl
@[simp] theorem setIE_err (s : State) (v : Word) : (s.setIE v).err = s.err := rfl
@[simp] theorem setIE_ovr (s : State) (v : Word) : (s.setIE v).ovr = s.ovr := rfl
@[simp] theorem setIE_errcode (s : State) (v : Word) : (s.setIE v).errcode = s.errcode := rfl
@[simp] theorem setIE_errinfo (s : State) (v : Word) : (s.setIE v).errinfo = s.errinfo := rfl
@[simp] theorem setIE_cmd (s : State) (v : Word) : (s.setIE v).cmd = s.cmd := rfl
@[simp] theorem setIE_result0 (s : State) (v : Word) : (s.setIE v).result0 = s.result0 := rfl
@[simp] theorem setIE_result1 (s : State) (v : Word) : (s.setIE v).result1 = s.result1 := rfl
@[simp] theorem setIE_args (s : State) (v : Word) : (s.setIE v).args = s.args := rfl
@[simp] theorem setIE_kernel (s : State) (v : Word) : (s.setIE v).kernel = s.kernel := rfl
@[simp] theorem setIE_pixin (s : State) (v : Word) : (s.setIE v).pixin = s.pixin := rfl
@[simp] theorem setIE_pixout (s : State) (v : Word) : (s.setIE v).pixout = s.pixout := rfl
@[simp] theorem setIE_fin (s : State) (v : Word) : (s.setIE v).fin = s.fin := rfl
@[simp] theorem setIE_fout (s : State) (v : Word) : (s.setIE v).fout = s.fout := rfl
@[simp] theorem setIE_phase (s : State) (v : Word) : (s.setIE v).phase = s.phase := rfl
@[simp] theorem setIE_inReset (s : State) (v : Word) : (s.setIE v).inReset = s.inReset := rfl
@[simp] theorem setIE_mem (s : State) (v : Word) : (s.setIE v).mem = s.mem := rfl
@[simp] theorem setIE_platform (s : State) (v : Word) : (s.setIE v).platform = s.platform := rfl
@[simp] theorem setIE_events (s : State) (v : Word) : (s.setIE v).events = s.events := rfl
@[simp] theorem setIE_readData (s : State) (v : Word) : (s.setIE v).readData = s.readData := rfl
@[simp] theorem setIE_draws (s : State) (v : Word) : (s.setIE v).draws = s.draws := rfl

@[simp] theorem setOverrun_ie (s : State) : (s.setOverrun).ie = s.ie := rfl
@[simp] theorem setOverrun_done (s : State) : (s.setOverrun).done = s.done := rfl
@[simp] theorem setOverrun_err (s : State) : (s.setOverrun).err = s.err := rfl
@[simp] theorem setOverrun_ovr (s : State) : (s.setOverrun).ovr = true := rfl
@[simp] theorem setOverrun_errcode (s : State) : (s.setOverrun).errcode = s.errcode := rfl
@[simp] theorem setOverrun_errinfo (s : State) : (s.setOverrun).errinfo = s.errinfo := rfl
@[simp] theorem setOverrun_cmd (s : State) : (s.setOverrun).cmd = s.cmd := rfl
@[simp] theorem setOverrun_result0 (s : State) : (s.setOverrun).result0 = s.result0 := rfl
@[simp] theorem setOverrun_result1 (s : State) : (s.setOverrun).result1 = s.result1 := rfl
@[simp] theorem setOverrun_args (s : State) : (s.setOverrun).args = s.args := rfl
@[simp] theorem setOverrun_kernel (s : State) : (s.setOverrun).kernel = s.kernel := rfl
@[simp] theorem setOverrun_pixin (s : State) : (s.setOverrun).pixin = s.pixin := rfl
@[simp] theorem setOverrun_pixout (s : State) : (s.setOverrun).pixout = s.pixout := rfl
@[simp] theorem setOverrun_fin (s : State) : (s.setOverrun).fin = s.fin := rfl
@[simp] theorem setOverrun_fout (s : State) : (s.setOverrun).fout = s.fout := rfl
@[simp] theorem setOverrun_phase (s : State) : (s.setOverrun).phase = s.phase := rfl
@[simp] theorem setOverrun_inReset (s : State) : (s.setOverrun).inReset = s.inReset := rfl
@[simp] theorem setOverrun_mem (s : State) : (s.setOverrun).mem = s.mem := rfl
@[simp] theorem setOverrun_platform (s : State) : (s.setOverrun).platform = s.platform := rfl
@[simp] theorem setOverrun_events (s : State) : (s.setOverrun).events = s.events := rfl
@[simp] theorem setOverrun_readData (s : State) : (s.setOverrun).readData = s.readData := rfl
@[simp] theorem setOverrun_draws (s : State) : (s.setOverrun).draws = s.draws := rfl

@[simp] theorem issue_ie (s : State) (w : Word) : (s.issue w).ie = s.ie := rfl
@[simp] theorem issue_done (s : State) (w : Word) : (s.issue w).done = false := rfl
@[simp] theorem issue_err (s : State) (w : Word) : (s.issue w).err = false := rfl
@[simp] theorem issue_ovr (s : State) (w : Word) : (s.issue w).ovr = s.ovr := rfl
@[simp] theorem issue_errcode (s : State) (w : Word) : (s.issue w).errcode = 0#8 := rfl
@[simp] theorem issue_errinfo (s : State) (w : Word) : (s.issue w).errinfo = 0#32 := rfl
@[simp] theorem issue_cmd (s : State) (w : Word) : (s.issue w).cmd = w := rfl
@[simp] theorem issue_result0 (s : State) (w : Word) : (s.issue w).result0 = s.result0 := rfl
@[simp] theorem issue_result1 (s : State) (w : Word) : (s.issue w).result1 = s.result1 := rfl
@[simp] theorem issue_args (s : State) (w : Word) : (s.issue w).args = s.args := rfl
@[simp] theorem issue_kernel (s : State) (w : Word) : (s.issue w).kernel = s.kernel := rfl
@[simp] theorem issue_pixin (s : State) (w : Word) : (s.issue w).pixin = s.pixin := rfl
@[simp] theorem issue_pixout (s : State) (w : Word) : (s.issue w).pixout = s.pixout := rfl
@[simp] theorem issue_fin (s : State) (w : Word) : (s.issue w).fin = s.fin := rfl
@[simp] theorem issue_fout (s : State) (w : Word) : (s.issue w).fout = s.fout := rfl
@[simp] theorem issue_phase (s : State) (w : Word) : (s.issue w).phase = .busy none := rfl
@[simp] theorem issue_inReset (s : State) (w : Word) : (s.issue w).inReset = s.inReset := rfl
@[simp] theorem issue_mem (s : State) (w : Word) : (s.issue w).mem = s.mem := rfl
@[simp] theorem issue_platform (s : State) (w : Word) : (s.issue w).platform = s.platform := rfl
@[simp] theorem issue_events (s : State) (w : Word) : (s.issue w).events = s.events := rfl
@[simp] theorem issue_readData (s : State) (w : Word) : (s.issue w).readData = s.readData := rfl
@[simp] theorem issue_draws (s : State) (w : Word) : (s.issue w).draws = s.draws := rfl

@[simp] theorem placeCommand_ie (s : State) (w : Word) : (s.placeCommand w).ie = s.ie := rfl
@[simp] theorem placeCommand_done (s : State) (w : Word) : (s.placeCommand w).done = false := rfl
@[simp] theorem placeCommand_err (s : State) (w : Word) : (s.placeCommand w).err = false := rfl
@[simp] theorem placeCommand_ovr (s : State) (w : Word) : (s.placeCommand w).ovr = s.ovr := rfl
@[simp] theorem placeCommand_errcode (s : State) (w : Word) : (s.placeCommand w).errcode = 0#8 := rfl
@[simp] theorem placeCommand_errinfo (s : State) (w : Word) : (s.placeCommand w).errinfo = 0#32 := rfl
@[simp] theorem placeCommand_cmd (s : State) (w : Word) : (s.placeCommand w).cmd = w := rfl
@[simp] theorem placeCommand_result0 (s : State) (w : Word) : (s.placeCommand w).result0 = s.result0 := rfl
@[simp] theorem placeCommand_result1 (s : State) (w : Word) : (s.placeCommand w).result1 = s.result1 := rfl
@[simp] theorem placeCommand_args (s : State) (w : Word) : (s.placeCommand w).args = s.args := rfl
@[simp] theorem placeCommand_kernel (s : State) (w : Word) : (s.placeCommand w).kernel = s.kernel := rfl
@[simp] theorem placeCommand_pixin (s : State) (w : Word) : (s.placeCommand w).pixin = s.pixin := rfl
@[simp] theorem placeCommand_pixout (s : State) (w : Word) : (s.placeCommand w).pixout = s.pixout := rfl
@[simp] theorem placeCommand_fin (s : State) (w : Word) : (s.placeCommand w).fin = s.fin := rfl
@[simp] theorem placeCommand_fout (s : State) (w : Word) : (s.placeCommand w).fout = s.fout := rfl
@[simp] theorem placeCommand_phase (s : State) (w : Word) : (s.placeCommand w).phase = .busy none := rfl
@[simp] theorem placeCommand_inReset (s : State) (w : Word) : (s.placeCommand w).inReset = s.inReset := rfl
@[simp] theorem placeCommand_mem (s : State) (w : Word) : (s.placeCommand w).mem = s.mem := rfl
@[simp] theorem placeCommand_platform (s : State) (w : Word) : (s.placeCommand w).platform = s.platform := rfl
@[simp] theorem placeCommand_events (s : State) (w : Word) : (s.placeCommand w).events = .engine :: s.events := rfl
@[simp] theorem placeCommand_readData (s : State) (w : Word) : (s.placeCommand w).readData = s.readData := rfl
@[simp] theorem placeCommand_draws (s : State) (w : Word) : (s.placeCommand w).draws = s.draws := rfl

@[simp] theorem raise_ie (s : State) (e : CmdError) : (s.raise e).ie = s.ie := rfl
@[simp] theorem raise_done (s : State) (e : CmdError) : (s.raise e).done = false := rfl
@[simp] theorem raise_err (s : State) (e : CmdError) : (s.raise e).err = true := rfl
@[simp] theorem raise_ovr (s : State) (e : CmdError) : (s.raise e).ovr = s.ovr := rfl
@[simp] theorem raise_errcode (s : State) (e : CmdError) : (s.raise e).errcode = e.code := rfl
@[simp] theorem raise_errinfo (s : State) (e : CmdError) : (s.raise e).errinfo = e.info (Config.freeWord s.draws 2) := rfl
@[simp] theorem raise_cmd (s : State) (e : CmdError) : (s.raise e).cmd = s.cmd := rfl
@[simp] theorem raise_result0 (s : State) (e : CmdError) : (s.raise e).result0 = 0#32 := rfl
@[simp] theorem raise_result1 (s : State) (e : CmdError) : (s.raise e).result1 = 0#32 := rfl
@[simp] theorem raise_args (s : State) (e : CmdError) : (s.raise e).args = s.args := rfl
@[simp] theorem raise_kernel (s : State) (e : CmdError) : (s.raise e).kernel = s.kernel := rfl
@[simp] theorem raise_pixin (s : State) (e : CmdError) : (s.raise e).pixin = s.pixin := rfl
@[simp] theorem raise_pixout (s : State) (e : CmdError) : (s.raise e).pixout = s.pixout := rfl
@[simp] theorem raise_fin (s : State) (e : CmdError) : (s.raise e).fin = s.fin := rfl
@[simp] theorem raise_fout (s : State) (e : CmdError) : (s.raise e).fout = s.fout := rfl
@[simp] theorem raise_phase (s : State) (e : CmdError) : (s.raise e).phase = .idle := rfl
@[simp] theorem raise_inReset (s : State) (e : CmdError) : (s.raise e).inReset = s.inReset := rfl
@[simp] theorem raise_mem (s : State) (e : CmdError) : (s.raise e).mem = s.mem := rfl
@[simp] theorem raise_platform (s : State) (e : CmdError) : (s.raise e).platform = s.platform := rfl
@[simp] theorem raise_events (s : State) (e : CmdError) : (s.raise e).events = s.events := rfl
@[simp] theorem raise_readData (s : State) (e : CmdError) : (s.raise e).readData = s.readData := rfl
@[simp] theorem raise_draws (s : State) (e : CmdError) : (s.raise e).draws = s.draws := rfl

@[simp] theorem succeed_ie (s : State) (e : Effect) : (s.succeed e).ie = s.ie := rfl
@[simp] theorem succeed_done (s : State) (e : Effect) : (s.succeed e).done = true := rfl
@[simp] theorem succeed_err (s : State) (e : Effect) : (s.succeed e).err = false := rfl
@[simp] theorem succeed_ovr (s : State) (e : Effect) : (s.succeed e).ovr = s.ovr := rfl
@[simp] theorem succeed_errcode (s : State) (e : Effect) : (s.succeed e).errcode = 0#8 := rfl
@[simp] theorem succeed_errinfo (s : State) (e : Effect) : (s.succeed e).errinfo = 0#32 := rfl
@[simp] theorem succeed_cmd (s : State) (e : Effect) : (s.succeed e).cmd = s.cmd := rfl
@[simp] theorem succeed_result0 (s : State) (e : Effect) : (s.succeed e).result0 = e.result0 := rfl
@[simp] theorem succeed_result1 (s : State) (e : Effect) : (s.succeed e).result1 = e.result1 := rfl
@[simp] theorem succeed_args (s : State) (e : Effect) : (s.succeed e).args = s.args := rfl
@[simp] theorem succeed_kernel (s : State) (e : Effect) : (s.succeed e).kernel = s.kernel := rfl
@[simp] theorem succeed_pixin (s : State) (e : Effect) : (s.succeed e).pixin = s.pixin := rfl
@[simp] theorem succeed_pixout (s : State) (e : Effect) : (s.succeed e).pixout = e.pixout.getD s.pixout := rfl
@[simp] theorem succeed_fin (s : State) (e : Effect) : (s.succeed e).fin = s.fin := rfl
@[simp] theorem succeed_fout (s : State) (e : Effect) : (s.succeed e).fout = e.fout.getD s.fout := rfl
@[simp] theorem succeed_phase (s : State) (e : Effect) : (s.succeed e).phase = .idle := rfl
@[simp] theorem succeed_inReset (s : State) (e : Effect) : (s.succeed e).inReset = s.inReset := rfl
@[simp] theorem succeed_mem (s : State) (e : Effect) : (s.succeed e).mem = s.mem.fill e.written.base e.written.len e.value := rfl
@[simp] theorem succeed_platform (s : State) (e : Effect) : (s.succeed e).platform = s.platform := rfl
@[simp] theorem succeed_events (s : State) (e : Effect) : (s.succeed e).events = s.events := rfl
@[simp] theorem succeed_readData (s : State) (e : Effect) : (s.succeed e).readData = s.readData := rfl
@[simp] theorem succeed_draws (s : State) (e : Effect) : (s.succeed e).draws = s.draws := rfl

@[simp] theorem dataBusError_ie (s : State) (e : Effect) (l : List Nat) : (s.dataBusError e l).ie = s.ie := rfl
@[simp] theorem dataBusError_done (s : State) (e : Effect) (l : List Nat) : (s.dataBusError e l).done = false := rfl
@[simp] theorem dataBusError_err (s : State) (e : Effect) (l : List Nat) : (s.dataBusError e l).err = true := rfl
@[simp] theorem dataBusError_ovr (s : State) (e : Effect) (l : List Nat) : (s.dataBusError e l).ovr = s.ovr := rfl
@[simp] theorem dataBusError_errcode (s : State) (e : Effect) (l : List Nat) : (s.dataBusError e l).errcode = 0x09#8 := rfl
@[simp] theorem dataBusError_errinfo (s : State) (e : Effect) (l : List Nat) : (s.dataBusError e l).errinfo = BitVec.ofNat 32 (drawAddress s.draws l) := rfl
@[simp] theorem dataBusError_cmd (s : State) (e : Effect) (l : List Nat) : (s.dataBusError e l).cmd = s.cmd := rfl
@[simp] theorem dataBusError_result0 (s : State) (e : Effect) (l : List Nat) : (s.dataBusError e l).result0 = 0#32 := rfl
@[simp] theorem dataBusError_result1 (s : State) (e : Effect) (l : List Nat) : (s.dataBusError e l).result1 = 0#32 := rfl
@[simp] theorem dataBusError_args (s : State) (e : Effect) (l : List Nat) : (s.dataBusError e l).args = s.args := rfl
@[simp] theorem dataBusError_kernel (s : State) (e : Effect) (l : List Nat) : (s.dataBusError e l).kernel = s.kernel := rfl
@[simp] theorem dataBusError_pixin (s : State) (e : Effect) (l : List Nat) : (s.dataBusError e l).pixin = s.pixin := rfl
@[simp] theorem dataBusError_pixout (s : State) (e : Effect) (l : List Nat) : (s.dataBusError e l).pixout = s.pixout := rfl
@[simp] theorem dataBusError_fin (s : State) (e : Effect) (l : List Nat) : (s.dataBusError e l).fin = s.fin := rfl
@[simp] theorem dataBusError_fout (s : State) (e : Effect) (l : List Nat) : (s.dataBusError e l).fout = s.fout := rfl
@[simp] theorem dataBusError_phase (s : State) (e : Effect) (l : List Nat) : (s.dataBusError e l).phase = .idle := rfl
@[simp] theorem dataBusError_inReset (s : State) (e : Effect) (l : List Nat) : (s.dataBusError e l).inReset = s.inReset := rfl
@[simp] theorem dataBusError_mem (s : State) (e : Effect) (l : List Nat) : (s.dataBusError e l).mem = s.mem.scatter s.draws e.written := rfl
@[simp] theorem dataBusError_platform (s : State) (e : Effect) (l : List Nat) : (s.dataBusError e l).platform = s.platform := rfl
@[simp] theorem dataBusError_events (s : State) (e : Effect) (l : List Nat) : (s.dataBusError e l).events = s.events := rfl
@[simp] theorem dataBusError_readData (s : State) (e : Effect) (l : List Nat) : (s.dataBusError e l).readData = s.readData := rfl
@[simp] theorem dataBusError_draws (s : State) (e : Effect) (l : List Nat) : (s.dataBusError e l).draws = s.draws := rfl

@[simp] theorem spoil_ie (s : State) (c : Command) (t : State) : (State.spoil c s t).ie = t.ie := rfl
@[simp] theorem spoil_done (s : State) (c : Command) (t : State) : (State.spoil c s t).done = t.done := rfl
@[simp] theorem spoil_err (s : State) (c : Command) (t : State) : (State.spoil c s t).err = t.err := rfl
@[simp] theorem spoil_ovr (s : State) (c : Command) (t : State) : (State.spoil c s t).ovr = t.ovr := rfl
@[simp] theorem spoil_errcode (s : State) (c : Command) (t : State) : (State.spoil c s t).errcode = t.errcode := rfl
@[simp] theorem spoil_errinfo (s : State) (c : Command) (t : State) : (State.spoil c s t).errinfo = t.errinfo := rfl
@[simp] theorem spoil_cmd (s : State) (c : Command) (t : State) : (State.spoil c s t).cmd = t.cmd := rfl
@[simp] theorem spoil_result0 (s : State) (c : Command) (t : State) : (State.spoil c s t).result0 = Config.freeWord s.draws 0 := rfl
@[simp] theorem spoil_result1 (s : State) (c : Command) (t : State) : (State.spoil c s t).result1 = Config.freeWord s.draws 1 := rfl
@[simp] theorem spoil_args (s : State) (c : Command) (t : State) : (State.spoil c s t).args = t.args := rfl
@[simp] theorem spoil_kernel (s : State) (c : Command) (t : State) : (State.spoil c s t).kernel = t.kernel := rfl
@[simp] theorem spoil_pixin (s : State) (c : Command) (t : State) : (State.spoil c s t).pixin = t.pixin := rfl
@[simp] theorem spoil_pixout (s : State) (c : Command) (t : State) : (State.spoil c s t).pixout = t.pixout := rfl
@[simp] theorem spoil_fin (s : State) (c : Command) (t : State) : (State.spoil c s t).fin = t.fin := rfl
@[simp] theorem spoil_fout (s : State) (c : Command) (t : State) : (State.spoil c s t).fout = t.fout := rfl
@[simp] theorem spoil_phase (s : State) (c : Command) (t : State) : (State.spoil c s t).phase = t.phase := rfl
@[simp] theorem spoil_inReset (s : State) (c : Command) (t : State) : (State.spoil c s t).inReset = t.inReset := rfl
@[simp] theorem spoil_mem (s : State) (c : Command) (t : State) : (State.spoil c s t).mem = s.mem.scatter s.draws c.destination := rfl
@[simp] theorem spoil_platform (s : State) (c : Command) (t : State) : (State.spoil c s t).platform = t.platform := rfl
@[simp] theorem spoil_events (s : State) (c : Command) (t : State) : (State.spoil c s t).events = t.events := rfl
@[simp] theorem spoil_readData (s : State) (c : Command) (t : State) : (State.spoil c s t).readData = t.readData := rfl
@[simp] theorem spoil_draws (s : State) (c : Command) (t : State) : (State.spoil c s t).draws = t.draws := rfl

@[simp] theorem resetRegisters_ie (s : State) : (s.resetRegisters).ie = false := rfl
@[simp] theorem resetRegisters_done (s : State) : (s.resetRegisters).done = false := rfl
@[simp] theorem resetRegisters_err (s : State) : (s.resetRegisters).err = false := rfl
@[simp] theorem resetRegisters_ovr (s : State) : (s.resetRegisters).ovr = false := rfl
@[simp] theorem resetRegisters_errcode (s : State) : (s.resetRegisters).errcode = 0#8 := rfl
@[simp] theorem resetRegisters_errinfo (s : State) : (s.resetRegisters).errinfo = 0#32 := rfl
@[simp] theorem resetRegisters_cmd (s : State) : (s.resetRegisters).cmd = 0#32 := rfl
@[simp] theorem resetRegisters_result0 (s : State) : (s.resetRegisters).result0 = 0#32 := rfl
@[simp] theorem resetRegisters_result1 (s : State) : (s.resetRegisters).result1 = 0#32 := rfl
@[simp] theorem resetRegisters_args (s : State) : (s.resetRegisters).args = Vector.replicate 8 0#32 := rfl
@[simp] theorem resetRegisters_kernel (s : State) : (s.resetRegisters).kernel = Vector.replicate 9 0#32 := rfl
@[simp] theorem resetRegisters_pixin (s : State) : (s.resetRegisters).pixin = 0#32 := rfl
@[simp] theorem resetRegisters_pixout (s : State) : (s.resetRegisters).pixout = 0#32 := rfl
@[simp] theorem resetRegisters_fin (s : State) : (s.resetRegisters).fin = Vector.replicate 3 0#64 := rfl
@[simp] theorem resetRegisters_fout (s : State) : (s.resetRegisters).fout = Vector.replicate 3 0#64 := rfl
@[simp] theorem resetRegisters_phase (s : State) : (s.resetRegisters).phase = .idle := rfl
@[simp] theorem resetRegisters_inReset (s : State) : (s.resetRegisters).inReset = s.inReset := rfl
@[simp] theorem resetRegisters_mem (s : State) : (s.resetRegisters).mem = s.mem := rfl
@[simp] theorem resetRegisters_platform (s : State) : (s.resetRegisters).platform = s.platform := rfl
@[simp] theorem resetRegisters_events (s : State) : (s.resetRegisters).events = s.events := rfl
@[simp] theorem resetRegisters_readData (s : State) : (s.resetRegisters).readData = s.readData := rfl
@[simp] theorem resetRegisters_draws (s : State) : (s.resetRegisters).draws = s.draws := rfl

@[simp] theorem abandon_ie (s : State) (c : Command) : (s.abandon c).ie = s.ie := rfl
@[simp] theorem abandon_done (s : State) (c : Command) : (s.abandon c).done = s.done := rfl
@[simp] theorem abandon_err (s : State) (c : Command) : (s.abandon c).err = s.err := rfl
@[simp] theorem abandon_ovr (s : State) (c : Command) : (s.abandon c).ovr = s.ovr := rfl
@[simp] theorem abandon_errcode (s : State) (c : Command) : (s.abandon c).errcode = s.errcode := rfl
@[simp] theorem abandon_errinfo (s : State) (c : Command) : (s.abandon c).errinfo = s.errinfo := rfl
@[simp] theorem abandon_cmd (s : State) (c : Command) : (s.abandon c).cmd = s.cmd := rfl
@[simp] theorem abandon_result0 (s : State) (c : Command) : (s.abandon c).result0 = s.result0 := rfl
@[simp] theorem abandon_result1 (s : State) (c : Command) : (s.abandon c).result1 = s.result1 := rfl
@[simp] theorem abandon_args (s : State) (c : Command) : (s.abandon c).args = s.args := rfl
@[simp] theorem abandon_kernel (s : State) (c : Command) : (s.abandon c).kernel = s.kernel := rfl
@[simp] theorem abandon_pixin (s : State) (c : Command) : (s.abandon c).pixin = s.pixin := rfl
@[simp] theorem abandon_pixout (s : State) (c : Command) : (s.abandon c).pixout = s.pixout := rfl
@[simp] theorem abandon_fin (s : State) (c : Command) : (s.abandon c).fin = s.fin := rfl
@[simp] theorem abandon_fout (s : State) (c : Command) : (s.abandon c).fout = s.fout := rfl
@[simp] theorem abandon_phase (s : State) (c : Command) : (s.abandon c).phase = s.phase := rfl
@[simp] theorem abandon_inReset (s : State) (c : Command) : (s.abandon c).inReset = s.inReset := rfl
@[simp] theorem abandon_mem (s : State) (c : Command) : (s.abandon c).mem = s.mem.scatter s.draws (s.abandoned c) := rfl
@[simp] theorem abandon_platform (s : State) (c : Command) : (s.abandon c).platform = s.platform := rfl
@[simp] theorem abandon_events (s : State) (c : Command) : (s.abandon c).events = s.events := rfl
@[simp] theorem abandon_readData (s : State) (c : Command) : (s.abandon c).readData = s.readData := rfl
@[simp] theorem abandon_draws (s : State) (c : Command) : (s.abandon c).draws = s.draws + 1 := rfl

@[simp] theorem assertReset_ie (s : State) : (assertReset s).ie = s.softReset.ie := rfl
@[simp] theorem assertReset_done (s : State) : (assertReset s).done = s.softReset.done := rfl
@[simp] theorem assertReset_err (s : State) : (assertReset s).err = s.softReset.err := rfl
@[simp] theorem assertReset_ovr (s : State) : (assertReset s).ovr = s.softReset.ovr := rfl
@[simp] theorem assertReset_errcode (s : State) : (assertReset s).errcode = s.softReset.errcode := rfl
@[simp] theorem assertReset_errinfo (s : State) : (assertReset s).errinfo = s.softReset.errinfo := rfl
@[simp] theorem assertReset_cmd (s : State) : (assertReset s).cmd = s.softReset.cmd := rfl
@[simp] theorem assertReset_result0 (s : State) : (assertReset s).result0 = s.softReset.result0 := rfl
@[simp] theorem assertReset_result1 (s : State) : (assertReset s).result1 = s.softReset.result1 := rfl
@[simp] theorem assertReset_args (s : State) : (assertReset s).args = s.softReset.args := rfl
@[simp] theorem assertReset_kernel (s : State) : (assertReset s).kernel = s.softReset.kernel := rfl
@[simp] theorem assertReset_pixin (s : State) : (assertReset s).pixin = s.softReset.pixin := rfl
@[simp] theorem assertReset_pixout (s : State) : (assertReset s).pixout = s.softReset.pixout := rfl
@[simp] theorem assertReset_fin (s : State) : (assertReset s).fin = s.softReset.fin := rfl
@[simp] theorem assertReset_fout (s : State) : (assertReset s).fout = s.softReset.fout := rfl
@[simp] theorem assertReset_phase (s : State) : (assertReset s).phase = s.softReset.phase := rfl
@[simp] theorem assertReset_inReset (s : State) : (assertReset s).inReset = true := rfl
@[simp] theorem assertReset_mem (s : State) : (assertReset s).mem = s.softReset.mem := rfl
@[simp] theorem assertReset_platform (s : State) : (assertReset s).platform = s.softReset.platform := rfl
@[simp] theorem assertReset_events (s : State) : (assertReset s).events = s.softReset.events := rfl
@[simp] theorem assertReset_readData (s : State) : (assertReset s).readData = s.softReset.readData := rfl
@[simp] theorem assertReset_draws (s : State) : (assertReset s).draws = s.softReset.draws := rfl

@[simp] theorem releaseReset_ie (s : State) : (releaseReset s).ie = s.ie := rfl
@[simp] theorem releaseReset_done (s : State) : (releaseReset s).done = s.done := rfl
@[simp] theorem releaseReset_err (s : State) : (releaseReset s).err = s.err := rfl
@[simp] theorem releaseReset_ovr (s : State) : (releaseReset s).ovr = s.ovr := rfl
@[simp] theorem releaseReset_errcode (s : State) : (releaseReset s).errcode = s.errcode := rfl
@[simp] theorem releaseReset_errinfo (s : State) : (releaseReset s).errinfo = s.errinfo := rfl
@[simp] theorem releaseReset_cmd (s : State) : (releaseReset s).cmd = s.cmd := rfl
@[simp] theorem releaseReset_result0 (s : State) : (releaseReset s).result0 = s.result0 := rfl
@[simp] theorem releaseReset_result1 (s : State) : (releaseReset s).result1 = s.result1 := rfl
@[simp] theorem releaseReset_args (s : State) : (releaseReset s).args = s.args := rfl
@[simp] theorem releaseReset_kernel (s : State) : (releaseReset s).kernel = s.kernel := rfl
@[simp] theorem releaseReset_pixin (s : State) : (releaseReset s).pixin = s.pixin := rfl
@[simp] theorem releaseReset_pixout (s : State) : (releaseReset s).pixout = s.pixout := rfl
@[simp] theorem releaseReset_fin (s : State) : (releaseReset s).fin = s.fin := rfl
@[simp] theorem releaseReset_fout (s : State) : (releaseReset s).fout = s.fout := rfl
@[simp] theorem releaseReset_phase (s : State) : (releaseReset s).phase = s.phase := rfl
@[simp] theorem releaseReset_inReset (s : State) : (releaseReset s).inReset = false := rfl
@[simp] theorem releaseReset_mem (s : State) : (releaseReset s).mem = s.mem := rfl
@[simp] theorem releaseReset_platform (s : State) : (releaseReset s).platform = s.platform := rfl
@[simp] theorem releaseReset_events (s : State) : (releaseReset s).events = s.events := rfl
@[simp] theorem releaseReset_readData (s : State) : (releaseReset s).readData = s.readData := rfl
@[simp] theorem releaseReset_draws (s : State) : (releaseReset s).draws = s.draws := rfl


end Sys2Proof.Machine
end

