-- ==== Sys2Proof/Laws/Commands.lean ====
section
/-! SUPPORT. Laws/Commands.lean: what holds of every command: its named bytes lie in its destination and outside its
sources, how its completion and its abandonment can end, and that it depends on nothing but what it can see. -/

namespace Sys2Proof.Machine

/-! ## Sound commands -/

structure Command.Sound (c : Command) : Prop where
  within : ∀ e, c.outcome = .ok e → ∀ a, e.written.contains a = true → c.dest.contains a = true
  apart : ∀ e, c.outcome = .ok e → ∀ r ∈ c.sources, ∀ a, r.contains a = true → e.written.contains a = false
  inRange : c.args = .ok () → c.dest.base + c.dest.len ≤ dataSpace

theorem contains_empty (a : Nat) : Region.empty.contains a = false := by
  simp [Region.contains, Region.empty]
theorem contains_mono {b n m a : Nat} (h : n ≤ m) (hc : (Region.mk b n).contains a = true) : (Region.mk b m).contains a = true := by
  rw [contains_iff] at *; simp at *; omega

theorem sound_register (e : Effect) (h : e.written = Region.empty) : (registerCommand e).Sound := by
  refine ⟨?_, ?_, ?_⟩
  · intro e' he a ha
    simp [registerCommand, outcome_ok_iff] at he
    subst he; rw [h, contains_empty] at ha; simp at ha
  · intro e' he r hr; simp [registerCommand] at hr
  · intro; simp [registerCommand, Region.empty, dataSpace]

/-- A command with one source is sound where its register checks cover it and its destination. -/
theorem sound_one {c : Command} {src dst : Region} (hs : c.sources = [src]) (hd : c.dest = dst)
    (h : c.args = .ok () → dst.base + dst.len ≤ dataSpace ∧ src.overlaps dst = false)
    (hw : ∀ e, c.args = .ok () → c.body = .ok e → ∀ a, e.written.contains a = true → dst.contains a = true) : c.Sound := by
  refine ⟨?_, ?_, ?_⟩
  · intro e he a ha
    obtain ⟨h1, h2⟩ := outcome_ok_iff.mp he
    rw [hd]; exact hw e h1 h2 a ha
  · intro e he r hr a ha
    obtain ⟨h1, h2⟩ := outcome_ok_iff.mp he
    rw [hs] at hr; simp at hr; subst hr
    have := not_both (h h1).2 ha
    by_contra hc
    have := hw e h1 h2 a (by simpa using hc)
    simp_all
  · intro h1; rw [hd]; exact (h h1).1

theorem sound_gb7Dec (s : State) : (cmdGb7Dec s).Sound := by
  refine sound_one (src := ⟨s.arg 0, s.arg 1⟩) (dst := ⟨s.arg 2, s.arg 3⟩) rfl rfl ?_ ?_
  · intro h
    simp only [cmdGb7Dec, gb7DecodeArgs, bind_ok_iff, checkRange_ok_iff, checkOverlap_ok_iff] at h
    obtain ⟨_, h1, _, h2, h3⟩ := h
    exact ⟨h2, h3⟩
  · intro e _ h a ha
    simp only [cmdGb7Dec, bind_ok_iff, raiseIf_ok_iff, Except.ok.injEq, decide_eq_false_iff_not] at h
    obtain ⟨hd, _, _, _, _, h2, _, _, rfl⟩ := h
    exact contains_mono (by omega) ha

theorem sound_gb7DecPlane (s : State) : (cmdGb7DecPlane s).Sound := by
  refine sound_one (src := ⟨s.arg 0, s.arg 1⟩) (dst := ⟨s.arg 2, s.arg 3⟩) rfl rfl ?_ ?_
  · intro h
    simp only [cmdGb7DecPlane, gb7DecodeArgs, bind_ok_iff, checkRange_ok_iff, checkOverlap_ok_iff] at h
    obtain ⟨_, h1, _, h2, h3⟩ := h
    exact ⟨h2, h3⟩
  · intro e _ h a ha
    simp only [cmdGb7DecPlane, bind_ok_iff, raiseIf_ok_iff, Except.ok.injEq, decide_eq_false_iff_not] at h
    obtain ⟨hd, _, _, _, _, h2, _, _, rfl⟩ := h
    exact contains_mono (by omega) ha

theorem sound_gb7Enc (fm : Bool) (s : State) : (cmdGb7Enc fm s).Sound := by
  refine sound_one (src := pixelRegion (s.arg 0) (s.arg 1) (s.arg 2)) (dst := ⟨s.arg 3, s.arg 4⟩) rfl rfl ?_ ?_
  · intro h
    simp only [cmdGb7Enc, gb7EncodeArgs, bind_ok_iff, checkRange_ok_iff, checkOverlap_ok_iff] at h
    obtain ⟨_, _, _, h1, _, h2, h3⟩ := h
    exact ⟨h2, h3⟩
  · intro e _ h a ha
    simp only [cmdGb7Enc, bind_ok_iff, raiseIf_ok_iff, Except.ok.injEq, decide_eq_false_iff_not] at h
    obtain ⟨hd, _, _, h2, rfl⟩ := h
    exact contains_mono (by omega) ha

theorem sound_gb7EncInline (fm : Bool) (s : State) : (cmdGb7EncInline fm s).Sound := by
  refine sound_one (src := pixelRegion (s.arg 0) (s.arg 1) (s.arg 2)) (dst := ⟨s.arg 3, s.arg 4⟩) rfl rfl ?_ ?_
  · intro h
    simp only [cmdGb7EncInline, gb7EncodeArgs, bind_ok_iff, checkRange_ok_iff, checkOverlap_ok_iff] at h
    obtain ⟨_, _, _, h1, _, h2, h3⟩ := h
    exact ⟨h2, h3⟩
  · intro e _ h a ha
    simp only [cmdGb7EncInline, bind_ok_iff, raiseIf_ok_iff, Except.ok.injEq, decide_eq_false_iff_not] at h
    obtain ⟨hd, _, _, h2, rfl⟩ := h
    exact contains_mono (by omega) ha

theorem sound_gb7Render (d8 : Bool) (s : State) : (cmdGb7Render d8 s).Sound := by
  refine sound_one (src := grayRegion (s.arg 0) (s.arg 1) (s.arg 2)) (dst := pixelRegion (s.arg 3) (s.arg 1) (s.arg 2)) rfl rfl ?_ ?_
  · intro h
    simp only [cmdGb7Render, bind_ok_iff, checkRange_ok_iff, checkOverlap_ok_iff] at h
    obtain ⟨_, h1, _, h2, h3⟩ := h
    exact ⟨h2, h3⟩
  · intro e _ h a ha
    simp only [cmdGb7Render, bind_ok_iff, Except.ok.injEq] at h
    obtain ⟨_, _, rfl⟩ := h; exact ha

theorem resampleArgs_ok {a b c d : Nat} {src dst : Region} (h : resampleArgs a b c d src dst = .ok ()) :
   dst.base + dst.len ≤ dataSpace ∧ src.overlaps dst = false := by
  simp only [resampleArgs, bind_ok_iff, checkRange_ok_iff, checkOverlap_ok_iff] at h
  obtain ⟨_, _, _, h1, _, h2, h3⟩ := h
  exact ⟨h2, h3⟩

theorem sound_rgba {s : State} {first : List Nat} {e : Effect}
    (h : e.written = pixelRegion (s.arg 3) (s.arg 4) (s.arg 5)) : (rgbaResample s first e).Sound := by
  refine sound_one rfl rfl (fun h => resampleArgs_ok h) ?_
  intro e' _ he a ha
  simp only [rgbaResample, bind_ok_iff, Except.ok.injEq] at he
  obtain ⟨_, _, rfl⟩ := he; rw [h] at ha; exact ha

theorem sound_gray {s : State} {first : List Nat} {e : Effect}
    (h : e.written = grayRegion (s.arg 3) (s.arg 4) (s.arg 5)) : (grayResample s first e).Sound := by
  refine sound_one rfl rfl (fun h => resampleArgs_ok h) ?_
  intro e' _ he a ha
  simp only [grayResample, bind_ok_iff, Except.ok.injEq] at he
  obtain ⟨_, _, rfl⟩ := he; rw [h] at ha; exact ha

theorem sound_lutBuild (s : State) (f) : (lutBuild s f).Sound := by
  refine ⟨?_, ?_, ?_⟩
  · intro e he a ha
    obtain ⟨h1, h2⟩ := outcome_ok_iff.mp he
    simp only [lutBuild, Except.ok.injEq] at h2
    subst h2; exact ha
  · intro e he r hr; simp [lutBuild] at hr
  · intro h; exact checkRange_ok_iff.mp h

theorem checkLutOverlaps_ok {d : Region} {l : List UsedLut} (h : checkLutOverlaps d l = .ok ()) :
    ∀ u ∈ l, (lutRegion u.base).overlaps d = false := by
  induction l with
  | nil => simp
  | cons a l ih =>
    simp only [checkLutOverlaps, bind_ok_iff, checkOverlap_ok_iff] at h
    obtain ⟨_, h1, h2⟩ := h
    intro u hu
    rcases List.mem_cons.mp hu with rfl | hu
    · exact h1
    · exact ih h2 u hu

theorem sound_lutApply (ta hr hg hb ha : Bool) (s : State) : (cmdLutApply ta hr hg hb ha s).Sound := by
  have key : (cmdLutApply ta hr hg hb ha s).args = .ok () →
     (pixelRegion (s.arg 3) (s.arg 1) (s.arg 2)).base + (pixelRegion (s.arg 3) (s.arg 1) (s.arg 2)).len ≤ dataSpace ∧
     (pixelRegion (s.arg 0) (s.arg 1) (s.arg 2)).overlaps (pixelRegion (s.arg 3) (s.arg 1) (s.arg 2)) = false ∧
     ∀ u ∈ usedLuts ta hr hg hb ha s, (lutRegion u.base).overlaps (pixelRegion (s.arg 3) (s.arg 1) (s.arg 2)) = false := by
    intro h
    simp only [cmdLutApply, bind_ok_iff, checkRange_ok_iff, checkOverlap_ok_iff] at h
    obtain ⟨_, h1, _, h2, _, h3, _, h4, h5⟩ := h
    exact ⟨h2, h4, checkLutOverlaps_ok h5⟩
  refine ⟨?_, ?_, ?_⟩
  · intro e he a ha'
    obtain ⟨h1, h2⟩ := outcome_ok_iff.mp he
    simp only [cmdLutApply, bind_ok_iff, Except.ok.injEq] at h2
    obtain ⟨_, _, rfl⟩ := h2; exact ha'
  · intro e he r hr' a ha'
    obtain ⟨h1, h2⟩ := outcome_ok_iff.mp he
    obtain ⟨k1, k2, k3⟩ := key h1
    have hw : e.written = pixelRegion (s.arg 3) (s.arg 1) (s.arg 2) := by
      simp only [cmdLutApply, bind_ok_iff, Except.ok.injEq] at h2
      obtain ⟨_, _, rfl⟩ := h2; rfl
    rw [hw]
    simp only [cmdLutApply, List.mem_cons, List.mem_map] at hr'
    rcases hr' with rfl | ⟨u, hu, rfl⟩
    · exact not_both k2 ha'
    · exact not_both (k3 u hu) ha'
  · intro h; exact (key h).1

theorem sound_bad (w : Word) : (badCommand w).Sound := by
  refine ⟨?_, ?_, ?_⟩ <;> intros <;> simp_all [badCommand, outcome_ok_iff]

theorem sound_conv (tgt norm : BitVec 2) (ap : Bool) (s : State) : (cmdConv3x3 tgt norm ap s).Sound := by
  unfold cmdConv3x3
  split
  · refine sound_one (src := pixelRegion (s.arg 0) (s.arg 1) (s.arg 2)) (dst := pixelRegion (s.arg 3) (s.arg 1) (s.arg 2)) rfl rfl ?_ ?_
    · intro h
      simp only [convolveCommand, bind_ok_iff, checkRange_ok_iff, checkOverlap_ok_iff] at h
      obtain ⟨_, _, _, _, _, h1, _, h2, h3⟩ := h
      exact ⟨h2, h3⟩
    · intro e _ h a ha
      simp only [convolveCommand, bind_ok_iff, Except.ok.injEq] at h
      obtain ⟨_, _, rfl⟩ := h; exact ha
  · exact sound_bad _

theorem examine_image {s : State} {t w h i : Nat} {d : Region} {l : Layer} {base : Nat}
   (hx : examineLayer s t w h d i = .ok (some l)) (hb : l.source = .image base) :
   (pixelRegion base w h).overlaps d = false ∧ (pixelRegion base w h).base + (pixelRegion base w h).len ≤ dataSpace := by
  unfold examineLayer at hx
  simp only [bind_ok_iff] at hx
  obtain ⟨f, _, o, _, hx⟩ := hx
  split at hx
  · simp at hx
  · simp only [bind_ok_iff] at hx
    obtain ⟨m, _, hx⟩ := hx
    split at hx
    · simp at hx
    · split at hx
      · simp at hx; subst hx; simp at hb
      · simp only [bind_ok_iff] at hx
        obtain ⟨lw, _, hx⟩ := hx
        split at hx
        · simp at hx
        · simp only [bind_ok_iff] at hx
          obtain ⟨lh, _, hx⟩ := hx
          split at hx
          · simp at hx
          · simp only [bind_ok_iff, checkRange_ok_iff, checkOverlap_ok_iff] at hx
            obtain ⟨a, _, _, h1, _, h2, hx⟩ := hx
            simp at hx; subst hx; simp at hb; subst hb
            exact ⟨h2, h1⟩

theorem prepass_image {s : State} {t w h : Nat} {d : Region} {n i : Nat} {ls : List Layer}
   (hx : prepass s t w h d i n = .ok ls) : ∀ l ∈ ls, ∀ base, l.source = .image base →
   (pixelRegion base w h).overlaps d = false ∧ (pixelRegion base w h).base + (pixelRegion base w h).len ≤ dataSpace := by
  induction n generalizing i ls with
  | zero => simp [prepass] at hx; subst hx; simp
  | succ n ih =>
    simp only [prepass, bind_ok_iff] at hx
    obtain ⟨l, h1, r, h2, hx⟩ := hx
    simp at hx; subst hx
    intro l' hl' base hb
    rcases List.mem_append.mp hl' with hm | hm
    · simp at hm; subst hm; exact examine_image h1 hb
    · exact ih h2 l' hm base hb

theorem sound_composite (s : State) : (cmdComposite s).Sound := by
  have key : (cmdComposite s).args = .ok () →
     (pixelRegion (s.arg 4) (s.arg 2) (s.arg 3)).base + (pixelRegion (s.arg 4) (s.arg 2) (s.arg 3)).len ≤ dataSpace ∧
     (Region.mk (s.arg 0) (32 * s.arg 1)).overlaps (pixelRegion (s.arg 4) (s.arg 2) (s.arg 3)) = false := by
    intro h
    simp only [cmdComposite, bind_ok_iff, checkRange_ok_iff, checkOverlap_ok_iff] at h
    obtain ⟨_, h1, _, h2, h3⟩ := h
    exact ⟨h2, h3⟩
  refine ⟨?_, ?_, ?_⟩
  · intro e he a ha'
    obtain ⟨h1, h2⟩ := outcome_ok_iff.mp he
    simp only [cmdComposite, bind_ok_iff, Except.ok.injEq] at h2
    obtain ⟨ls, h2, rfl⟩ := h2
    exact ha'
  · intro e he r hr' a ha'
    obtain ⟨h1, h2⟩ := outcome_ok_iff.mp he
    obtain ⟨k1, k2⟩ := key h1
    simp only [cmdComposite, bind_ok_iff, Except.ok.injEq] at h2
    obtain ⟨ls, h2, rfl⟩ := h2
    simp only [cmdComposite, h2, List.mem_cons] at hr'
    show (pixelRegion (s.arg 4) (s.arg 2) (s.arg 3)).contains a = false
    rcases hr' with rfl | hr'
    · exact not_both k2 ha'
    · simp only [layerRegions, List.mem_filterMap] at hr'
      obtain ⟨l, hl, hr'⟩ := hr'
      split at hr'
      · simp at hr'; subst hr'
        exact not_both (prepass_image h2 l hl _ ‹_›).1 ha'
      · simp at hr'
  · intro h; exact (key h).1

/-- Every command is sound (R77, R78, R90). -/
theorem sound (i : Instr) (s : State) : (commandOf i s).Sound := by
  cases i with
  | gb7Dec => exact sound_gb7Dec s
  | gb7DecPlane => exact sound_gb7DecPlane s
  | gb7Enc fm => exact sound_gb7Enc fm s
  | gb7EncInline fm => exact sound_gb7EncInline fm s
  | gb7Render fm => exact sound_gb7Render fm s
  | composite => exact sound_composite s
  | rsRgbaNearest => exact sound_rgba rfl
  | rsRgbaBilinear => exact sound_rgba rfl
  | rsGrayNearest d8 => exact sound_gray rfl
  | rsGrayBilinear d8 => exact sound_gray rfl
  | lutBuildRamp => exact sound_lutBuild s _
  | lutBuildFlat => exact sound_lutBuild s _
  | lutApply ta hr hg hb ha => exact sound_lutApply ta hr hg hb ha s
  | conv3x3 t n a => exact sound_conv t n a s
  | _ => exact sound_register _ rfl

/-! ## Completion, the engine's turn and a reset -/

theorem completes_shape (c : Command) (s : State) :
   ((s.complete c).done = true ∧ (s.complete c).err = false ∧ (s.complete c).errcode = 0#8 ∧ (s.complete c).errinfo = 0#32) ∨
   ((s.complete c).done = false ∧ (s.complete c).err = true ∧ (s.complete c).errcode ≠ 0#8 ∧ sameColorOutputs s (s.complete c)) := by
  have hc : ∀ e : CmdError, e.code ≠ 0#8 := by intro e; cases e <;> simp [CmdError.code]
  rcases settle_cases c s with ⟨e, _, h⟩ | ⟨e, _, _, h⟩ | ⟨e, _, _, h⟩
  · right; simp only [State.complete, State.spoil, h]
    split <;> exact ⟨rfl, rfl, hc _, rfl, rfl⟩
  · left; simp only [State.complete, State.spoil, h]
    split <;> exact ⟨rfl, rfl, rfl, rfl⟩
  · right; simp only [State.complete, State.spoil, h]
    split <;> exact ⟨rfl, rfl, hc (.busError (drawAddress s.draws (s.failing e))), rfl, rfl⟩

/-- ERRCODE always holds a code of R331. -/
theorem complete_code (c : Command) (s : State) : (s.complete c).errcode ∈ definedCodes := by
  have hc : ∀ e : CmdError, e.code ∈ definedCodes := by intro e; cases e <;> simp [definedCodes, CmdError.code]
  rcases settle_cases c s with ⟨e, _, h⟩ | ⟨e, _, _, h⟩ | ⟨e, _, _, h⟩
  · simp only [State.complete, State.spoil, h]
    split <;> exact hc _
  · simp only [State.complete, State.spoil, h]
    split <;> (show (0#8 : Byte) ∈ definedCodes; decide)
  · simp only [State.complete, State.spoil, h]
    split <;> exact hc (.busError (drawAddress s.draws (s.failing e)))

/-- The engine's turn is the completion of the command in flight (R311, R337). -/
theorem engineTurn_eq (s : State) : engineTurn s = if s.busy then .next (s.complete s.inFlight) else .next s := by
  unfold engineTurn
  split
  · rename_i h; simp [State.busy, h]
  · rename_i hp
    have hb : s.busy = true := by simp [State.busy, hp]
    rw [if_pos hb]
    split
    · rename_i h; simp [exec_eq, h, State.inFlight, commandOfWord]
    · rename_i h; simp [h, completeStep, State.inFlight, commandOfWord]

/-- A completion leaves memory, or fills one region: the named bytes, or the destination once R89 is broken. -/
theorem complete_mem_cases (c : Command) (s : State) :
    (s.complete c).mem = s.mem ∨ (∃ r f, (s.complete c).mem = s.mem.fill r.base r.len f ∧
       ((∃ e, c.outcome = .ok e ∧ e.written = r) ∨ r = c.destination)) := by
  rcases settle_cases c s with ⟨e, h1, h⟩ | ⟨e, h1, _, h⟩ | ⟨e, h1, _, h⟩ <;>
   · simp only [State.complete, State.spoil, h]
     split
     · exact .inr ⟨c.destination, _, rfl, .inr rfl⟩
     · first
        | exact .inl rfl
        | exact .inr ⟨e.written, _, rfl, .inl ⟨e, h1, rfl⟩⟩

/-- R71: a clipped region is the region's part below the end of the data address space. -/
theorem contains_clip {r : Region} {a : Nat} : r.clip.contains a = true ↔ r.contains a = true ∧ a < dataSpace := by
  simp only [contains_iff, Region.clip]; omega

/-- R56, R89: the hidden bytes of a command are the data bytes of its destination. -/
theorem destination_contains {c : Command} {a : Nat} :
    c.destination.contains a = true ↔ c.dest.contains a = true ∧ a < dataSpace := contains_clip

theorem destination_not_contains {c : Command} {a : Nat} :
    c.destination.contains a = false ↔ c.dest.contains a = false ∨ dataSpace ≤ a := by
  rw [← Bool.not_eq_true, destination_contains, not_and_or, Bool.not_eq_true, Nat.not_lt]

theorem sound_word (w : Word) (s : State) : (commandOfWord w s).Sound := by
  unfold commandOfWord; split
  · exact sound _ _
  · exact sound_bad _

theorem region_in_dest {c : Command} (hs : c.Sound) {r : Region}
    (h : (∃ e, c.outcome = .ok e ∧ e.written = r) ∨ r = c.destination) {a : Nat} (ha : r.contains a = true) :
    c.destination.contains a = true := by
  rcases h with ⟨e, h1, rfl⟩ | rfl
  · have hd := hs.within e h1 a ha
    have hr := hs.inRange (outcome_ok_iff.mp h1).1
    exact destination_contains.mpr ⟨hd, by rw [contains_iff] at hd; omega⟩
  · exact ha

/-- R71: every hidden byte is a data byte. -/
theorem dest_in_range {c : Command} {a : Nat} (ha : c.destination.contains a = true) : a < dataSpace :=
  (destination_contains.mp ha).2

/-- What an abandoned command leaves open (R372). -/
theorem abandon_cases (c : Command) (s : State) :
   (s.abandoned c = c.destination) ∨ (∃ e, c.outcome = .ok e ∧ e.written = s.abandoned c) ∨ s.abandoned c = Region.empty := by
  unfold State.abandoned
  split
  · exact .inl rfl
  · split
    · exact .inr (.inl ⟨_, ‹_›, rfl⟩)
    · exact .inr (.inr rfl)

theorem abandoned_in_dest {c : Command} (hs : c.Sound) {s : State} {a : Nat} (ha : (s.abandoned c).contains a = true) : c.destination.contains a = true := by
  rcases abandon_cases c s with h | ⟨e, h1, h⟩ | h
  · exact region_in_dest hs (.inr h) ha
  · exact region_in_dest hs (.inl ⟨e, h1, h⟩) ha
  · rw [h, contains_empty] at ha; simp at ha

theorem softReset_mem (s : State) : s.softReset.mem = s.mem ∨ (s.busy = true ∧ s.softReset.mem = s.mem.scatter s.draws (s.abandoned s.inFlight)) := by
  unfold State.softReset State.abandonInFlight
  split
  · exact .inr ⟨‹_›, rfl⟩
  · exact .inl rfl

/-! ## What a command depends on -/

/-- What a command can see of the state. -/
def State.view (s : State) : State :=
  { State.reset with
    cmd := s.cmd, args := s.args, kernel := s.kernel, pixin := s.pixin, fin := s.fin, mem := s.sourceMem,
    platform := s.platform }

theorem view_sourceMem (s : State) : s.view.sourceMem = s.sourceMem := rfl
theorem view_checkedByte (s : State) : s.view.checkedByte = s.checkedByte := rfl

theorem view_checkedRead (s : State) (a n : Nat) : s.view.checkedRead a n = s.checkedRead a n := by
  induction n generalizing a with
  | zero => rfl
  | succ n ih => rw [checkedRead_succ, checkedRead_succ, view_checkedByte]; simp only [ih]

theorem view_checkMagic (s : State) (a : Nat) (l : List Byte) : checkMagic s.view a l = checkMagic s a l := by
  induction l generalizing a with
  | nil => rfl
  | cons m l ih => simp only [checkMagic, view_checkedByte, ih]

theorem view_readHeader (s : State) (a l : Nat) : readGb7Header s.view a l = readGb7Header s a l := by
  simp only [readGb7Header, view_checkMagic, view_checkedByte, checkedBigEndian16]

theorem view_alphaScan (s : State) (a p n : Nat) : alphaScan s.view a p n = alphaScan s a p n := by
  induction n generalizing p with
  | zero => rfl
  | succ n ih => simp only [alphaScan, view_checkedByte, ih]

theorem view_prepass (s : State) (t w h : Nat) (d : Region) (i n : Nat) : prepass s.view t w h d i n = prepass s t w h d i n := by
  induction n generalizing i with
  | zero => rfl
  | succ n ih => simp only [prepass, ih, examineLayer, view_checkedByte, view_checkedRead]

theorem view_hasAlpha (s : State) (fm : Bool) (a w h : Nat) : encoderHasAlpha s.view fm a w h = encoderHasAlpha s fm a w h := by
  simp only [encoderHasAlpha, view_alphaScan]

theorem commandOf_view (i : Instr) (s : State) : commandOf i s.view = commandOf i s := by
  cases i with
  | gb7Dec => 
     show cmdGb7Dec s.view = cmdGb7Dec s
     have := view_readHeader s; unfold cmdGb7Dec; simp only [this]; rfl
  | gb7DecPlane => 
     show cmdGb7DecPlane s.view = cmdGb7DecPlane s
     have := view_readHeader s; unfold cmdGb7DecPlane; simp only [this]; rfl
  | gb7Enc fm => 
     show cmdGb7Enc fm s.view = cmdGb7Enc fm s
     have := view_hasAlpha s fm; unfold cmdGb7Enc; simp only [this]; rfl
  | gb7EncInline fm => 
     show cmdGb7EncInline fm s.view = cmdGb7EncInline fm s
     have := view_hasAlpha s fm; unfold cmdGb7EncInline; simp only [this]; rfl
  | composite => 
     show cmdComposite s.view = cmdComposite s
     have := view_prepass s; unfold cmdComposite; simp only [this]; rfl
  | _ => rfl

/-- A command depends on what it can see of the state alone (R91, R379). -/
theorem commandOf_congr {i : Instr} {s u : State} (h : s.view = u.view) : commandOf i s = commandOf i u := by
  rw [← commandOf_view i s, ← commandOf_view i u, h]

/-! ## Commands on registers alone -/

theorem exec_register {i : Instr} {s : State} {e : Effect} (ho : s.orderly) (hc : commandOf i s = registerCommand e)
   (hr : e.reads = []) (hw : e.written = Region.empty) :
   ∃ t, exec i s = .next t ∧ completedWith s t e.result0 e.result1 ∧ sameMemory s t ∧ t.pixout = e.pixout.getD s.pixout ∧ t.fout = e.fout.getD s.fout := by
  have h1 : (commandOf i s).outcome = .ok e := by rw [hc]; rfl
  have h2 : s.failing e = [] := by
    rw [failing_nil_iff]; rw [hr, hw]; simp [Region.empty]
  refine ⟨_, exec_succeed ho h1 h2, ?_, ?_, rfl, rfl⟩
  · exact ⟨rfl, rfl, rfl, rfl, rfl, rfl, rfl, ⟨rfl,rfl,rfl,rfl,rfl,rfl,rfl,rfl,rfl,rfl,rfl⟩⟩
  · intro a
    show (s.mem.fill e.written.base e.written.len e.value).read a = _
    rw [hw]; rfl

end Sys2Proof.Machine
end

