-- ==== Sys2Proof/Laws/Buffers.lean ====
section
/-! SUPPORT. Laws/Buffers.lean: how a command over buffers ends: with its region filled, with the error of its first
failing check, or with a BUS_ERROR. -/

namespace Sys2Proof.Machine

/-- Two regions do not overlap exactly when they share no address (R18). -/
theorem overlaps_eq_false_iff {a n b m : Nat} : (Region.mk a n).overlaps ⟨b, m⟩ = false ↔ disjointRegions a n b m :=
    by
  rw [← Bool.not_eq_true, overlaps_iff]
  simp only [contains_iff, disjointRegions]
  constructor
  · intro h k j hk hj he
    exact h ⟨a + k, ⟨by omega, by omega⟩, by omega, by omega⟩
  · rintro h ⟨x, ⟨h1, h2⟩, h3, h4⟩
    exact h (x - a) (x - b) (by omega) (by omega) (by omega)

/-- The range and overlap checks of a command with one source pass on checked buffers (R77, R78). -/
theorem bufferChecks_ok {a n b m : Nat} {c d e : RegionCode} (h : checkedBuffers a n b m) :
   (do checkRange ⟨a, n⟩ c; checkRange ⟨b, m⟩ d; checkOverlap ⟨a, n⟩ ⟨b, m⟩ e) = (.ok () : Except CmdError Unit) := by
  obtain ⟨h1, h2, h3⟩ := h
  rw [checkRange_ok (by exact h1), checkRange_ok (by exact h2), checkOverlap_ok (overlaps_eq_false_iff.mpr h3)]; rfl

/-- A command whose validation passes and whose accessed bytes all respond completes, fills its region, and changes
nothing else (R312). -/
theorem exec_buffer {i : Instr} {s : State} {e : Effect} (ho : s.orderly) (hc : (commandOf i s).outcome = .ok e)
    (hr : ∀ a ∈ e.reads, s.responds a = true) (hw : s.respondsOn e.written.base e.written.len)
    (hp : e.pixout = none) (hf : e.fout = none) :
    ∃ t, exec i s = .next t ∧ bufferCompleted s t e.result0 e.result1 e.written.base e.written.len ∧
      t.mem = s.mem.fill e.written.base e.written.len e.value := by
  refine ⟨_, exec_succeed ho hc (failing_nil_iff.mpr ⟨hr, hw⟩), ⟨?_, ?_, ?_⟩, rfl⟩
  · exact ⟨rfl, rfl, rfl, rfl, rfl, rfl, rfl, ⟨rfl,rfl,rfl,rfl,rfl,rfl,rfl,rfl,rfl,rfl,rfl⟩⟩
  · constructor
    · show e.pixout.getD s.pixout = _; rw [hp]; rfl
    · show e.fout.getD s.fout = _; rw [hf]; rfl
  · intro a ha
    exact read_fill_outside (by omega)

/-- The same for a command that writes a PixelBuffer (R79, R80). -/
theorem exec_pixels {i : Instr} {s : State} {base w h : Nat} {f : Nat → Nat → Nat → Byte} {reads : List Nat}
    (ho : s.orderly)
    (hc : (commandOf i s).outcome = .ok (writePixels base w h f reads))
    (hr : ∀ a ∈ reads, s.responds a = true) (hw : s.respondsOn base (4 * w * h)) :
    ∃ t, exec i s = .next t ∧ bufferCompleted s t 0#32 0#32 base (4 * w * h) ∧
      ∀ x y c, x < w → y < h → c < 4 → t.mem.read (pixelAddress base w x y c) = f x y c := by
  obtain ⟨t, h1, h2, h3⟩ := exec_buffer ho hc hr hw rfl rfl
  exact ⟨t, h1, h2, fun x y c hx hy hc => by rw [h3]; exact read_writePixels hx hy hc⟩

/-- The same for a command that writes a GrayBuffer (R79, R81). -/
theorem exec_grays {i : Instr} {s : State} {base w h : Nat} {f : Nat → Nat → Byte} {reads : List Nat} (ho : s.orderly)
    (hc : (commandOf i s).outcome = .ok (writeGray base w h f reads))
    (hr : ∀ a ∈ reads, s.responds a = true) (hw : s.respondsOn base (w * h)) :
    ∃ t, exec i s = .next t ∧ bufferCompleted s t 0#32 0#32 base (w * h) ∧
      ∀ x y, x < w → y < h → t.mem.read (grayAddress base w x y) = f x y := by
  obtain ⟨t, h1, h2, h3⟩ := exec_buffer ho hc hr hw rfl rfl
  exact ⟨t, h1, h2, fun x y hx hy => by rw [h3]; exact read_writeGray hx hy⟩

/-- A command whose validation ends in an error is rejected with that error (R332, R333). -/
theorem exec_rejects {i : Instr} {s : State} {e : CmdError} (ho : s.orderly)
    (h : (commandOf i s).outcome = .error e) :
    ∃ t, exec i s = .next t ∧ rejectedWith s t e.code (e.info (Config.freeWord s.draws 2)) := by
  refine ⟨_, exec_raise ho h, ⟨rfl, rfl, rfl, rfl, rfl, rfl, rfl, ⟨rfl,rfl,rfl,rfl,rfl,rfl,rfl,rfl,rfl,rfl,rfl⟩,
      rfl, rfl⟩, fun a => rfl⟩

/-- A command whose tests pass can end with no other error than a BUS_ERROR (R333, R334). -/
theorem exec_errs_only_busError {i : Instr} {s : State} {first : List Nat} {e : Effect} (ho : s.orderly)
    (h : (commandOf i s).outcome = (s.checkedReads first >>= fun _ => .ok e)) :
    ∃ t, exec i s = .next t ∧ (t.err = true → t.errcode = 0x09#8) := by
  rw [exec_eq]
  refine ⟨_, rfl, ?_⟩
  cases hr : s.checkedReads first with
  | error d =>
    obtain ⟨a, _, rfl⟩ := checkedReads_error_iff.mp hr
    rw [complete_raise ho (by rw [h, hr, error_bind])]
    intro _; rfl
  | ok u =>
  rw [hr, ok_bind] at h
  by_cases hf : s.failing e = []
  · rw [complete_succeed ho h hf]; intro h; cases h
  · rw [complete_dataBusError ho h hf]; intro _; rfl

/-- The bytes a data phase accesses are those it reads and those it writes. -/
theorem mem_accesses {e : Effect} {a : Nat} :
    a ∈ e.accesses ↔ a ∈ e.reads ∨ (e.written.base ≤ a ∧ a < e.written.base + e.written.len) := by
  simp only [Effect.accesses, List.mem_append, List.mem_map, List.mem_range]
  refine or_congr_right ⟨?_, fun h => ⟨a - e.written.base, by omega, by omega⟩⟩
  rintro ⟨k, hk, rfl⟩
  omega

/-- How a command whose validation passes ends, by the source bytes `read` that its data phase reads and the bytes it
writes; `read` may leave out bytes that respond (R312, R334, R335). -/
theorem exec_accesses {i : Instr} {s : State} {e : Effect} {read : Nat → Prop} (ho : s.orderly)
    (hc : (commandOf i s).outcome = .ok e) (h1 : ∀ a ∈ e.reads, read a ∨ s.responds a = true)
    (h2 : ∀ a, read a → a ∈ e.reads) :
    ∃ t, exec i s = .next t ∧ endsAsAccessesRespond s t
      (fun a => read a ∨ (e.written.base ≤ a ∧ a < e.written.base + e.written.len)) e.written.base e.written.len := by
  have hm : ∀ a, a ∈ s.failing e ↔ a ∈ e.accesses ∧ s.responds a = false := by
    intro a
    simp [State.failing]
  by_cases hf : s.failing e = []
  · refine ⟨_, exec_succeed ho hc hf, fun _ => rfl, fun b hb hr => ?_⟩
    have := (hm b).mpr ⟨mem_accesses.mpr (hb.imp_left (h2 b)), hr⟩
    rw [hf] at this
    cases this
  · obtain ⟨hd, hr⟩ := (hm _).mp (drawAddress_mem (draw := s.draws) hf)
    have hx := (mem_accesses.mp hd).imp_left (fun h => (h1 _ h).resolve_right (by rw [hr]; simp))
    refine ⟨_, exec_dataBusError ho hc hf, fun h => ?_, fun _ _ _ => ⟨⟨_, hx, hr, ?_⟩, ?_, ?_⟩⟩
    · rw [h _ hx] at hr
      cases hr
    · exact ⟨rfl, rfl, rfl, rfl, rfl, rfl, rfl, ⟨rfl,rfl,rfl,rfl,rfl,rfl,rfl,rfl,rfl,rfl,rfl⟩, rfl, rfl⟩
    · exact fun k hk => read_fill_inside hk
    · exact fun a ha => read_fill_outside (by omega)

/-- A command that ended with DONE passed its validation, every accessed byte responded, and it filled its region. -/
theorem exec_done_fills {i : Instr} {s t : State} (ho : s.orderly) (h : exec i s = .next t) (hd : t.done = true) :
    ∃ e, (commandOf i s).outcome = .ok e ∧ s.failing e = [] ∧ t.mem = s.mem.fill e.written.base e.written.len e.value
      ∧ t.result0 = e.result0 ∧ t.result1 = e.result1 := by
  rw [exec_eq] at h
  cases h
  rcases settle_cases (commandOf i s) s with ⟨e, h1, h⟩ | ⟨e, h1, h2, h⟩ | ⟨e, h1, _, h⟩
  · rw [complete_orderly ho, h] at hd; cases hd
  · refine ⟨e, h1, h2, ?_⟩
    rw [complete_orderly ho, h]; exact ⟨rfl, rfl, rfl⟩
  · rw [complete_orderly ho, h] at hd; cases hd

/-- The same for a command whose pseudocode reads the bytes `first` before its first `MemWrite` (R333). -/
theorem exec_endsByAccesses {i : Instr} {s : State} {first : List Nat} {e : Effect} {read : Nat → Prop} (ho : s.orderly)
    (hc : (commandOf i s).outcome = (s.checkedReads first >>= fun _ => .ok e))
    (h1 : ∀ a ∈ e.reads, read a ∨ s.responds a = true) (h2 : ∀ a, read a → a ∈ e.reads) :
    ∃ t, exec i s = .next t ∧ endsByAccesses s t first
      (fun a => read a ∨ (e.written.base ≤ a ∧ a < e.written.base + e.written.len)) e.written.base e.written.len := by
  unfold endsByAccesses
  cases h : first.find? (fun a => !s.responds a) with
  | some a => exact exec_rejects ho (e := .busError a) (by rw [hc, checkedReads_error h, error_bind])
  | none => exact exec_accesses ho (by rw [hc, checkedReads_ok (by simpa using h), ok_bind]) h1 h2

/-- Every byte of a pixel of a responding PixelBuffer responds. -/
theorem responds_pixelAddress {s : State} {b w h x y c : Nat} (hr : s.respondsOn b (4 * w * h)) (hx : x < w)
    (hy : y < h) (hc : c < 4) :
   s.responds (pixelAddress b w x y c) = true := by
  rw [pixelAddress, Nat.add_assoc]; exact hr _ (pixel_offset_lt hx hy hc)

/-- Every pixel of a responding GrayBuffer responds. -/
theorem responds_grayAddress {s : State} {b w h x y : Nat} (hr : s.respondsOn b (w * h)) (hx : x < w) (hy : y < h) :
   s.responds (grayAddress b w x y) = true := by
  rw [grayAddress, Nat.add_assoc]; exact hr _ (gray_offset_lt hx hy)

/-- The bytes of a GrayBuffer are those of its pixels (R79, R81). -/
theorem within_grayRegion {base w h a : Nat} :
    (base ≤ a ∧ a < base + w * h) ↔ ∃ x y, x < w ∧ y < h ∧ a = grayAddress base w x y := by
  constructor
  · rintro ⟨h1, h2⟩
    have hw : 0 < w := Nat.pos_of_ne_zero (by rintro rfl; simp at h2; omega)
    refine ⟨(a - base) % w, (a - base) / w, Nat.mod_lt _ hw, Nat.div_lt_of_lt_mul (by omega), ?_⟩
    have := Nat.div_add_mod (a - base) w
    rw [grayAddress, Nat.mul_comm]
    omega
  · rintro ⟨x, y, hx, hy, rfl⟩
    have := gray_offset_lt hx hy
    rw [grayAddress]
    omega

/-- The bytes of a PixelBuffer are the channels of its pixels (R79, R80). -/
theorem within_pixelRegion {base w h a : Nat} :
    (base ≤ a ∧ a < base + 4 * w * h) ↔ ∃ x y c, x < w ∧ y < h ∧ c < 4 ∧ a = pixelAddress base w x y c := by
  constructor
  · rintro ⟨h1, h2⟩
    rw [Nat.mul_assoc] at h2
    obtain ⟨x, y, hx, hy, e⟩ := within_grayRegion (base := 0) (w := w) (h := h) (a := (a - base) / 4) |>.mp (by omega)
    refine ⟨x, y, (a - base) % 4, hx, hy, by omega, ?_⟩
    rw [grayAddress, Nat.zero_add] at e
    rw [pixelAddress, ← e]
    omega
  · rintro ⟨x, y, c, hx, hy, hc, rfl⟩
    have := pixel_offset_lt hx hy hc
    rw [pixelAddress]
    omega

/-- The first arm of a chain of checks. -/
theorem whenElse_yes {c a b : Prop} (h : c) (ha : a) : whenElse c a b := ⟨fun _ => ha, fun k => absurd h k⟩

/-- The next arm of a chain of checks. -/
theorem whenElse_no {c a b : Prop} (h : ¬ c) (hb : b) : whenElse c a b := ⟨fun k => absurd k h, fun _ => hb⟩

end Sys2Proof.Machine
end

