-- ==== Sys2Proof/Laws/Samples.lean ====
section
/-! SUPPORT. Laws/Samples.lean: the coordinates, clamps, blends and packed values that the pixel rules compute. -/

namespace Sys2Proof.Machine

/-- A rational is at least its floor. -/
theorem floor_le_self (q : ℚ) : (q.floor : ℚ) ≤ q := Int.floor_le q

/-- The floor of a rational that is not negative, as a natural number. -/
theorem floor_toNat {q : ℚ} (h : 0 ≤ q) : ((q.floor.toNat : Nat) : ℚ) = (q.floor : ℚ) := by
  have : 0 ≤ q.floor := Int.floor_nonneg.mpr h
  exact_mod_cast Int.toNat_of_nonneg this

/-- The half-pixel-centre map stays within the source (R251). -/
theorem halfPixelMap_bounds {i sd dd : Nat} (h : 0 < sd) : 0 ≤ halfPixelMap i sd dd ∧
    halfPixelMap i sd dd ≤ (sd : ℚ) - 1 := by
  have : (1 : ℚ) ≤ sd := by exact_mod_cast h
  unfold halfPixelMap clampRat
  constructor
  · exact le_min (by linarith) (le_max_left _ _)
  · exact min_le_left _ _

/-- The low neighbour is within the source (R252). -/
theorem lowIndex_lt {u : ℚ} {n : Nat} (h0 : 0 ≤ u) (h : u ≤ (n : ℚ) - 1) : lowIndex u < n := by
  have h2 : (lowIndex u : ℚ) ≤ u := by rw [lowIndex, floor_toNat h0]; exact floor_le_self u
  have : (lowIndex u : ℚ) < n := by linarith
  exact_mod_cast this

/-- The high neighbour is the next sample, or the last one (R252). -/
theorem highIndex_eq {u : ℚ} {n : Nat} (h0 : 0 ≤ u) (hn : 0 < n) : highIndex u n = min (lowIndex u + 1) (n - 1) := by
  have : 0 ≤ u.floor := Int.floor_nonneg.mpr h0
  unfold highIndex lowIndex; omega

/-- The high neighbour is within the source (R252). -/
theorem highIndex_lt {u : ℚ} {n : Nat} (h0 : 0 ≤ u) (hn : 0 < n) : highIndex u n < n := by
  rw [highIndex_eq h0 hn]; omega

/-- The RGBA path's nearest sample is within the source (R255). -/
theorem rgbaNearestMap_lt {i sd dd : Nat} (h : 0 < sd) : rgbaNearestMap i sd dd < sd := by
  obtain ⟨h0, h1⟩ := halfPixelMap_bounds (i := i) (dd := dd) h
  unfold rgbaNearestMap roundHalfUp
  have h2 := floor_le_self (halfPixelMap i sd dd + 1/2)
  have h3 : (((halfPixelMap i sd dd + 1/2).floor : Int) : ℚ) < (sd : Int) := by push_cast; linarith
  have h4 : (halfPixelMap i sd dd + 1/2).floor < (sd : Int) := by exact_mod_cast h3
  omega

/-- Rounding a rational that is not negative gives no negative integer (R11). -/
theorem floor_half_nonneg {q : ℚ} (h : 0 ≤ q) : 0 ≤ (q + 1/2).floor := by
  have : 0 ≤ ⌊q + 1/2⌋ := Int.floor_nonneg.mpr (by linarith)
  exact this

/-- The gray path's nearest map in natural numbers (R253). -/
theorem grayNearestMap_eq {i sd dd : Nat} (h : 0 < sd) :
    grayNearestMap i sd dd = min (((i : ℚ) * (sd : ℚ) / (dd : ℚ) + 1 / 2).floor.toNat) (sd - 1) := by
  have : 0 ≤ ((i : ℚ) * (sd : ℚ) / (dd : ℚ) + 1 / 2).floor := floor_half_nonneg (by positivity)
  unfold grayNearestMap clampInt roundHalfUp; omega

/-- The gray path's nearest sample is within the source (R253). -/
theorem grayNearestMap_lt {i sd dd : Nat} (h : 0 < sd) : grayNearestMap i sd dd < sd := by
  rw [grayNearestMap_eq h]; omega

/-- The gray path's bilinear map stays within the source (R253). -/
theorem grayLinearMap_bounds {i sd dd : Nat} (h : 0 < sd) (hi : i < dd) : 0 ≤ grayLinearMap i sd dd ∧
    grayLinearMap i sd dd ≤ (sd : ℚ) - 1 := by
  have h1 : (1 : ℚ) ≤ sd := by exact_mod_cast h
  unfold grayLinearMap
  have h2 : (0 : ℚ) < ((max 1 (dd - 1) : Nat) : ℚ) := by exact_mod_cast (by omega)
  constructor
  · apply div_nonneg (mul_nonneg (by positivity) (by linarith)) h2.le
  · rw [div_le_iff₀ h2, mul_comm]
    apply mul_le_mul_of_nonneg_left _ (by linarith)
    exact_mod_cast (by omega)

/-- A byte is its own `u8` (R12). -/
theorem u8_byteRat (b : Byte) : u8 (byteRat b) = b := by
  have := u8_nat b.toNat 1 (by omega)
  apply BitVec.eq_of_toNat_eq
  rw [byteRat, show ((b.toNat : ℚ)) = ((b.toNat : ℚ)) / ((1 : Nat) : ℚ) by simp, this]
  have := b.isLt; omega

/-- A clamped coordinate is within the buffer (R291). -/
theorem edgeClamp_lt {i d : Nat} {o : Int} (h : 0 < d) : edgeClamp i o d < d := by
  unfold edgeClamp clampInt; omega

/-- A clamped coordinate in natural numbers (R290, R291). -/
theorem edgeClamp_eq {i d k : Nat} (h : 0 < d) (hi : i < d) : edgeClamp i ((k : Int) - 1) d = min (d - 1)
    (i + k - 1) := by
  unfold edgeClamp clampInt; omega

/-- The input of a control point (R105). -/
theorem curvePoint_input (w : Word) : (curvePoint w).input = w.toNat % 256 := by simp [curvePoint]

/-- The output of a control point (R105). -/
theorem curvePoint_output (w : Word) : (curvePoint w).output = w.toNat / 256 % 256 := by
  simp [curvePoint, Nat.shiftRight_eq_div_pow]

/-- The four fields of a packed pixel (R181). -/
theorem packPixel_fields (r g b : Byte) : (packPixel r g b).extractLsb' 0 8 = r ∧
    (packPixel r g b).extractLsb' 8 8 = g ∧ (packPixel r g b).extractLsb' 16 8 = b ∧
        (packPixel r g b).extractLsb' 24 8 = 0xFF#8 := by
  refine ⟨?_, ?_, ?_, ?_⟩ <;>
  · apply BitVec.eq_of_getLsbD_eq
    intro i hi
    interval_cases i <;> simp [packPixel, BitVec.getLsbD_eq_getElem]

/-- A rational clamped to [0, 1] (R12, R232). -/
theorem clampRat_bounds (q : ℚ) : 0 ≤ clampRat q 0 1 ∧ clampRat q 0 1 ≤ 1 := by
  unfold clampRat; exact ⟨le_min (by norm_num) (le_max_left _ _), min_le_left _ _⟩

/-- The value of a byte is in [0, 255]. -/
theorem byte_toNat_bounds (b : Byte) : (0 : ℚ) ≤ b.toNat ∧ (b.toNat : ℚ) ≤ 255 := by
  constructor
  · positivity
  · have := b.isLt; exact_mod_cast (by omega : b.toNat ≤ 255)

/-- Every blend function gives a value in [0, 255] (R236). -/
theorem blendValue_bounds (m : Blend) (s d : Byte) : 0 ≤ blendValue m s d ∧ blendValue m s d ≤ 255 := by
  obtain ⟨s0, s1⟩ := byte_toNat_bounds s
  obtain ⟨d0, d1⟩ := byte_toNat_bounds d
  have hp : (0 : ℚ) ≤ (d.toNat : ℚ) * s.toNat := by positivity
  have hq : (0 : ℚ) ≤ (255 - (d.toNat : ℚ)) * (255 - s.toNat) := mul_nonneg (by linarith) (by linarith)
  have e : (255 - (d.toNat : ℚ)) * (255 - s.toNat) = 255*255 - 255*d.toNat - 255 * s.toNat + d.toNat * s.toNat := by
    ring
  have hr : (d.toNat : ℚ) * s.toNat ≤ 255 * s.toNat := mul_le_mul_of_nonneg_right d1 s0
  have hr' : (d.toNat : ℚ) * s.toNat ≤ 255 * d.toNat := by rw [mul_comm]; exact mul_le_mul_of_nonneg_right s1 d0
  cases m <;> simp only [blendValue, byteRat]
  · exact ⟨s0, s1⟩
  · constructor
    · positivity
    · rw [div_le_iff₀ (by norm_num)]; linarith
  · constructor
    · have : (255 - (d.toNat : ℚ)) * (255 - s.toNat) / 255 ≤ 255 := by rw [div_le_iff₀ (by norm_num)]; linarith
      linarith
    · have : 0 ≤ (255 - (d.toNat : ℚ)) * (255 - s.toNat) / 255 := by positivity
      linarith
  · split
    · rename_i h
      have h : (d.toNat : ℚ) ≤ 127 := by exact_mod_cast (by omega : d.toNat ≤ 127)
      have : (d.toNat : ℚ) * s.toNat ≤ 127 * s.toNat := mul_le_mul_of_nonneg_right h s0
      constructor
      · positivity
      · rw [div_le_iff₀ (by norm_num)]; nlinarith
    · rename_i h
      have h : (128 : ℚ) ≤ (d.toNat : ℚ) := by exact_mod_cast (by omega : 128 ≤ d.toNat)
      have h3 : (255 - (d.toNat : ℚ)) * (255 - s.toNat) ≤ 127 * (255 - s.toNat) :=
          mul_le_mul_of_nonneg_right (by linarith) (by linarith)
      constructor
      · have : 2 * (255 - (d.toNat : ℚ)) * (255 - s.toNat) / 255 ≤ 255 := by rw [div_le_iff₀ (by norm_num)]; nlinarith
        linarith
      · have : 0 ≤ 2 * (255 - (d.toNat : ℚ)) * (255 - s.toNat) / 255 := by 
          apply div_nonneg _ (by norm_num); nlinarith
        linarith

/-- A 7-bit gray value is below 128 (R149). -/
theorem gray7_lt (r g b : Byte) : (gray7 r g b).toNat < 128 := by
  unfold gray7 u7 clampInt
  generalize roundHalfUp _ = z
  rw [BitVec.toNat_ofInt]; omega

/-- The threshold is the low byte of ARG5 (R106). -/
theorem threshold_eq_mod (s : State) : s.threshold = (s.args[5]).toNat % 256 := by
  simp [State.threshold]

/-- One bit of one step of building a mask byte. -/
theorem getLsbD_maskStep (byte : Byte) (f g : Bool) (k : Nat) (i : Nat) :
    (if f = true then byte ||| (if g then 0x80#8 >>> k else 0#8) else byte).getLsbD i =
        (byte.getLsbD i || (f && g && (0x80#8 >>> k).getLsbD i)) := by
  cases f <;> cases g <;> simp

/-- Bit `7 - t` of a mask byte is pixel `t`'s bit (R148). -/
theorem getLsbD_maskByte (f : Nat → Bool) (g : Nat → Bool) (t : Nat) (ht : t < 8) :
   ([0, 1, 2, 3, 4, 5, 6, 7].foldl (fun byte t => if f t = true then byte ||| (if g t then 0x80#8 >>> t else 0#8)
       else byte) 0#8).getLsbD (7 - t) = (f t && g t) := by
  simp only [List.foldl, getLsbD_maskStep]
  have : ∀ k, k < 8 → ∀ i, i < 8 → (0x80#8 >>> k).getLsbD (7 - i) = decide (k = i) := by decide
  rw [this 0 (by omega) t ht, this 1 (by omega) t ht, this 2 (by omega) t ht, this 3 (by omega) t ht,
      this 4 (by omega) t ht, this 5 (by omega) t ht, this 6 (by omega) t ht, this 7 (by omega) t ht]
  interval_cases t <;> simp

/-- A sum over the nine weights, written out (R292, R295). -/
theorem sum_weightIndices (f : Fin 9 → ℚ) : (weightIndices.map f).sum = f 0 + f 1 + f 2 + f 3 + f 4 + f 5 + f 6 + f
    7 + f 8 := by
  simp only [weightIndices, List.map, List.sum_cons, List.sum_nil]; ring

end Sys2Proof.Machine
end

