-- ==== Sys2Proof/Laws/Validation.lean ====
section
/-! SUPPORT. Laws/Validation.lean: what the validation phase of each family of commands answers. -/

namespace Sys2Proof.Machine

/-- The LUT of a channel, by the four flags and the target (R275). -/
theorem lutOf_eq (ta hr hg hb ha : Bool) (s : State) (c : Fin 4) : lutOf ta hr hg hb ha s c.val =
   if [!ta && hr, !ta && hg, !ta && hb, ta && ha].getD c.val false then some (s.arg (Fin.ofNat 8 (4 + c.val))) else
       none := by
  fin_cases c <;> rfl

/-- The LUTs in use are those of the mapped channels (R275). -/
theorem mem_usedLuts (ta hr hg hb ha : Bool) (s : State) (l : UsedLut) : l ∈ usedLuts ta hr hg hb ha s ↔
    lutOf ta hr hg hb ha s l.channel.val = some l.base := by
  unfold usedLuts
  simp only [List.mem_filterMap, Option.map_eq_some_iff]
  constructor
  · rintro ⟨c, _, b, h, rfl⟩; exact h
  · intro h; refine ⟨l.channel, ?_, l.base, h, rfl⟩
    obtain ⟨c, b⟩ := l
    fin_cases c <;> simp

/-- The LUT range checks pass, or name the first LUT that is out of range (R275). -/
theorem checkLutRanges_cases (l : List UsedLut) : (checkLutRanges l = .ok () ∧ ∀ u ∈ l, inDataSpace u.base 256) ∨
   ∃ p u q, l = p ++ u :: q ∧ ¬ inDataSpace u.base 256 ∧ (∀ v ∈ p, inDataSpace v.base 256) ∧
       checkLutRanges l = .error (.addrRange (.lut u.channel)) := by
  induction l with
  | nil => left; exact ⟨rfl, by simp⟩
  | cons a l ih =>
    by_cases h : inDataSpace a.base 256
    · have e : checkLutRanges (a :: l) = checkLutRanges l := by
        simp only [checkLutRanges]; rw [checkRange_ok (by exact h), ok_bind]
      rcases ih with ⟨h1, h2⟩ | ⟨p, u, q, rfl, h1, h2, h3⟩
      · left; exact ⟨by rw [e, h1], by simpa using ⟨h, h2⟩⟩
      · right; exact ⟨a :: p, u, q, rfl, h1, by simpa using ⟨h, h2⟩, by rw [e, h3]⟩
    · right; exact ⟨[], a, l, rfl, h, by simp, by simp only [checkLutRanges]; rw [checkRange_error (by exact h)]; rfl⟩

/-- The LUT overlap checks pass, or name the first LUT that overlaps the destination (R275). -/
theorem checkLutOverlaps_cases (b m : Nat) (l : List UsedLut) :
    (checkLutOverlaps ⟨b, m⟩ l = .ok () ∧ ∀ u ∈ l, disjointRegions u.base 256 b m) ∨
   ∃ p u q, l = p ++ u :: q ∧ ¬ disjointRegions u.base 256 b m ∧ (∀ v ∈ p, disjointRegions v.base 256 b m) ∧
       checkLutOverlaps ⟨b, m⟩ l = .error (.overlap (.lut u.channel)) := by
  induction l with
  | nil => left; exact ⟨rfl, by simp⟩
  | cons a l ih =>
    by_cases h : disjointRegions a.base 256 b m
    · have e : checkLutOverlaps ⟨b, m⟩ (a :: l) = checkLutOverlaps ⟨b, m⟩ l := by
        simp only [checkLutOverlaps]
        rw [show checkOverlap (lutRegion a.base) ⟨b, m⟩ (.lut a.channel) = .ok () from checkOverlap_ok
            (overlaps_eq_false_iff.mpr h), ok_bind]
      rcases ih with ⟨h1, h2⟩ | ⟨p, u, q, rfl, h1, h2, h3⟩
      · left; exact ⟨by rw [e, h1], by simpa using ⟨h, h2⟩⟩
      · right; exact ⟨a :: p, u, q, rfl, h1, by simpa using ⟨h, h2⟩, by rw [e, h3]⟩
    · right; refine ⟨[], a, l, rfl, h, by simp, ?_⟩
      have h' : (lutRegion a.base).overlaps ⟨b, m⟩ = true := by
        rw [← overlaps_eq_false_iff] at h; simpa [lutRegion] using h
      simp only [checkLutOverlaps]; rw [checkOverlap_error h']; rfl

/-- The checks of LUT_APPLY pass on checked buffers and checked LUTs in use (R275). -/
theorem lutApply_checks_ok {l : List UsedLut} {b m S n : Nat} (h : checkedBuffers S n b m)
    (hl : ∀ u ∈ l, checkedBuffers u.base 256 b m) :
   (do checkRange ⟨S, n⟩ .src; checkRange ⟨b, m⟩ .dst; checkLutRanges l; checkOverlap ⟨S, n⟩ ⟨b, m⟩ .src;
       checkLutOverlaps ⟨b, m⟩ l) = (.ok () : Except CmdError Unit) := by
  obtain ⟨h1, h2, h3⟩ := h
  have r1 : checkLutRanges l = .ok () := by
    rcases checkLutRanges_cases l with ⟨h, _⟩ | ⟨p, u, q, rfl, h, _⟩
    · exact h
    · exact absurd (hl u (by simp)).1 h
  have r2 : checkLutOverlaps ⟨b, m⟩ l = .ok () := by
    rcases checkLutOverlaps_cases b m l with ⟨h, _⟩ | ⟨p, u, q, rfl, h, _⟩
    · exact h
    · exact absurd (hl u (by simp)).2.2 h
  rw [checkRange_ok (by exact h1), ok_bind, checkRange_ok (by exact h2), ok_bind, r1, ok_bind,
      checkOverlap_ok (overlaps_eq_false_iff.mpr h3), ok_bind, r2]

/-- An infinity or a NaN has exponent 0xFF (R294). -/
theorem binary32NonFinite_iff (w : Word) : binary32NonFinite w = true ↔ w.extractLsb' 23 8 = 0xFF#8 := by
  unfold binary32NonFinite binary32Exponent
  simp [← BitVec.toNat_inj]

/-- The weight check passes where every weight is finite (R294). -/
theorem checkWeights_ok {s : State} (h : ∀ k : Fin 9, (s.kernel[k].extractLsb' 23 8) ≠ 0xFF#8) :
    checkWeights s = .ok () := by
  unfold checkWeights
  have : weightIndices.find? (fun k => binary32NonFinite s.kernel[k]) = none := by
    rw [List.find?_eq_none]; intro k _; rw [binary32NonFinite_iff]; exact h k
  rw [this]

/-- The three values of a two-bit field that are not reserved (R109). -/
theorem field_cases {t : BitVec 2} (h : t ≠ 0b11#2) : t = 0b00#2 ∨ t = 0b01#2 ∨ t = 0b10#2 := by revert t; decide

/-- CONV3X3 with fields that are not reserved, and which channels it convolves (R109, R293). -/
theorem conv3x3_eq_convolveCommand {tgt norm : BitVec 2} (h1 : tgt ≠ 0b11#2) (h2 : norm ≠ 0b11#2) (ap : Bool)
    (s : State) :
   ∃ T N, commandOf (.conv3x3 tgt norm ap) s = convolveCommand T N ap s ∧ (N ≠ .off ↔ norm ≠ 0b01#2) ∧
     ∀ c, c < 4 → (convolved T ap c = true ↔ ((tgt = 0b00#2 ∧ c < 3) ∨ (tgt = 0b01#2 ∧ c = 3) ∨
         (tgt = 0b10#2 ∧ (c < 3 ∨ ap = false)))) := by
  rcases field_cases h1 with rfl | rfl | rfl <;> rcases field_cases h2 with rfl | rfl | rfl <;>
    refine ⟨_, _, rfl, by decide, ?_⟩ <;> intro c hc <;> simp [convolved]

/-- The checks of a resampling command pass (R250). -/
theorem resampleArgs_passes {a b c d n m e f : Nat} (h1 : 0 < a) (h2 : 0 < b) (h3 : 0 < c) (h4 : 0 < d)
    (h : checkedBuffers n m e f) : resampleArgs a b c d ⟨n, m⟩ ⟨e, f⟩ = .ok () := by
  unfold resampleArgs
  have : (a == 0 || b == 0 || c == 0 || d == 0) = false := by simp; omega
  rw [this, raiseIf_false, ok_bind]
  exact bufferChecks_ok h

/-- The positions a bilinear sample reads, in order: the low and the high neighbour in each direction (R252). -/
theorem neighbours_eq {sw sh : Nat} {u v : ℚ} (hu : 0 ≤ u) (hv : 0 ≤ v) (h1 : 0 < sw) (h2 : 0 < sh) :
    neighbours sw sh u v =
      [(u.floor.toNat, v.floor.toNat), (min (u.floor.toNat + 1) (sw - 1), v.floor.toNat),
        (u.floor.toNat, min (v.floor.toNat + 1) (sh - 1)),
        (min (u.floor.toNat + 1) (sw - 1), min (v.floor.toNat + 1) (sh - 1))] := by
  unfold neighbours
  rw [highIndex_eq hu h1, highIndex_eq hv h2]
  rfl

/-- The four channel addresses of a pixel (R79). -/
theorem mem_pixelAddresses {a b w x y : Nat} : a ∈ pixelAddresses b w x y ↔ ∃ c, c < 4 ∧
    a = pixelAddress b w x y c := by
  unfold pixelAddresses
  simp only [List.mem_cons, List.not_mem_nil, or_false]
  constructor
  · rintro (rfl | rfl | rfl | rfl) <;> exact ⟨_, by omega, rfl⟩
  · rintro ⟨c, hc, rfl⟩
    have : c = 0 ∨ c = 1 ∨ c = 2 ∨ c = 3 := by omega
    rcases this with rfl | rfl | rfl | rfl <;> simp

/-- The checks of an encoder on its registers pass (R153). -/
theorem gb7EncodeArgs_passes {S W H D C : Nat} (h1 : W ≤ 65535) (h2 : H ≤ 65535)
    (h : checkedBuffers S (4 * W * H) D C) : gb7EncodeArgs W H (pixelRegion S W H) ⟨D, C⟩ = .ok () := by
  unfold gb7EncodeArgs
  rw [show (decide (65535 < W) || decide (65535 < H)) = false by simp; omega, raiseIf_false, ok_bind]
  exact bufferChecks_ok h

/-- The data-phase reads of an encoder (R153, R154). -/
theorem mem_encoderReads {S W H : Nat} {al : Bool} {a : Nat} : a ∈ encoderReads S W H al ↔
   ∃ x y c, x < W ∧ y < H ∧ (c < 3 ∨ (c = 3 ∧ al = true)) ∧ a = pixelAddress S W x y c := by
  unfold encoderReads
  rw [List.mem_flatMap]
  constructor
  · rintro ⟨⟨x, y⟩, hm, ha⟩
    obtain ⟨hx, hy⟩ := mem_rasterPositions.mp hm
    rcases List.mem_append.mp ha with ha | ha
    · simp only [List.mem_cons, List.not_mem_nil, or_false] at ha
      rcases ha with rfl | rfl | rfl <;> exact ⟨x, y, _, hx, hy, .inl (by omega), rfl⟩
    · split at ha
      · simp at ha; subst ha; exact ⟨x, y, _, hx, hy, .inr ⟨rfl, ‹_›⟩, rfl⟩
      · simp at ha
  · rintro ⟨x, y, c, hx, hy, hc, rfl⟩
    refine ⟨(x, y), mem_rasterPositions.mpr ⟨hx, hy⟩, ?_⟩
    rw [List.mem_append]
    rcases hc with hc | ⟨rfl, rfl⟩
    · left; simp only [List.mem_cons, List.not_mem_nil, or_false]
      have : c = 0 ∨ c = 1 ∨ c = 2 := by omega
      rcases this with rfl | rfl | rfl <;> simp
    · right; simp

/-- Every byte an encoder reads responds where its source does (R153). -/
theorem responds_encoderReads {s : State} {S W H : Nat} {a : Bool} (hr : s.respondsOn S (4 * W * H)) :
    ∀ x ∈ encoderReads S W H a, s.responds x = true := by
  intro q hq
  obtain ⟨⟨x, y⟩, hm, hq⟩ := List.mem_flatMap.mp hq
  obtain ⟨hx, hy⟩ := mem_rasterPositions.mp hm
  rcases List.mem_append.mp hq with hq | hq
  · simp only [List.mem_cons, List.not_mem_nil, or_false] at hq
    rcases hq with rfl | rfl | rfl <;> exact responds_pixelAddress hr hx hy (by omega)
  · split at hq
    · simp at hq; subst hq; exact responds_pixelAddress hr hx hy (by omega)
    · simp at hq

/-- The decoders' common validation passes on a header (R151). -/
theorem readGb7Header_ok {s : State} {a len n : Nat} {v f : Byte} {W H : Nat} (ho : s.orderly)
    (h : Gb7HeaderAt s.mem a v f W H)
   (hl : 12 ≤ len) (hn : 12 ≤ n) (hr : s.respondsOn a n) : readGb7Header s a len = .ok ⟨v, f, W, H⟩ := by
  have r : ∀ k, k < 12 → s.checkedByte (a + k) = .ok (s.mem.read (a + k)) := by
    intro k hk
    rw [checkedByte_ok (hr k (by omega)), byteAt_of_not_raced ho]
  have h0 : s.checkedByte a = .ok 0x47#8 := by have := r 0 (by omega); rw [Nat.add_zero] at this; rw [this, h.magic.1]
  have h1 : s.checkedByte (a+1) = .ok 0x42#8 := by rw [r 1 (by omega), h.magic.2.1]
  have h2 : s.checkedByte (a+1+1) = .ok 0x37#8 := by
    rw [Nat.add_assoc, r (1+1) (by omega)]; exact congrArg _ h.magic.2.2.1
  have h3 : s.checkedByte (a+1+1+1) = .ok 0x1D#8 := by
    rw [Nat.add_assoc, Nat.add_assoc, r (1+(1+1)) (by omega)]; exact congrArg _ h.magic.2.2.2
  have ht : gb7Magic.take len = gb7Magic := List.take_of_length_le (by simp [gb7Magic]; omega)
  have hm : checkMagic s a gb7Magic = .ok () := by
    simp only [gb7Magic, checkMagic, h0, h1, h2, h3, ok_bind]; rfl
  have hb : ∀ k, k + 1 < 12 → checkedBigEndian16 s (a + k) = .ok
      ((s.mem.read (a + k)).toNat * 256 + (s.mem.read (a + (k+1))).toNat) := by
    intro k hk
    unfold checkedBigEndian16
    rw [r k (by omega), ok_bind, Nat.add_assoc, r (k+1) (by omega)]; rfl
  unfold readGb7Header
  rw [ht, hm, ok_bind, show decide (len < 12) = false by
      simp; omega, raiseIf_false, ok_bind, r 4 (by omega), ok_bind, r 5 (by omega), ok_bind,
    hb 6 (by omega), ok_bind, hb 8 (by omega), ok_bind, hb 10 (by omega), ok_bind]
  rw [h.reserved_zero.1, h.reserved_zero.2, h.version_byte, h.flags_byte, h.width_field, h.height_field,
    show ((0#8 : Byte).toNat * 256 + (0#8 : Byte).toNat != 0) = false from by decide, raiseIf_false, ok_bind]

/-- The MAGIC check passes, or finds a byte that differs (R151). -/
theorem checkMagic_cases {s : State} (ho : s.orderly) (l : List Byte) (a : Nat)
    (hr : ∀ k, k < l.length → s.responds (a + k) = true) :
   (checkMagic s a l = .ok () ∧ ∀ k, k < l.length → s.mem.read (a + k) = l.getD k 0#8) ∨
   (checkMagic s a l = .error .gb7Magic ∧ ∃ k, k < l.length ∧ s.mem.read (a + k) ≠ l.getD k 0#8) := by
  induction l generalizing a with
  | nil => left; exact ⟨rfl, by simp⟩
  | cons m l ih =>
    have h0 : s.checkedByte a = .ok (s.mem.read a) := by
      rw [checkedByte_ok (by exact hr 0 (by simp)), byteAt_of_not_raced ho]
    have h1 := ih (a + 1) (fun k hk => by rw [show a + 1 + k = a + (k + 1) by omega]; exact hr _ (by simpa using hk))
    unfold checkMagic
    rw [h0, ok_bind]
    by_cases hm : s.mem.read a = m
    · rw [show (s.mem.read a != m) = false by simpa using hm, raiseIf_false, ok_bind]
      rcases h1 with ⟨h1, h2⟩ | ⟨h1, k, h2, h3⟩
      · left; refine ⟨h1, ?_⟩
        intro k hk
        cases k with
        | zero => exact hm
        | succ k => rw [show a + (k + 1) = a + 1 + k by omega]; exact h2 k (by simpa using hk)
      · right; refine ⟨h1, k + 1, by simpa using h2, ?_⟩
        rw [show a + (k + 1) = a + 1 + k by omega]; exact h3
    · rw [show (s.mem.read a != m) = true by simpa using hm]
      right; exact ⟨rfl, 0, by simp, hm⟩

/-- The alpha scan ends at the first alpha byte that does not respond, where all before it are 255; otherwise it says
whether one is below 255 (R153, R335). -/
theorem alphaScan_cases {s : State} (ho : s.orderly) (a p n : Nat) :
   (∃ q, p ≤ q ∧ q < p + n ∧ s.responds (a + 4 * q + 3) = false ∧
      (∀ r, p ≤ r → r < q → s.responds (a + 4 * r + 3) = true ∧ s.mem.read (a + 4 * r + 3) = 255#8) ∧
      alphaScan s a p n = .error (.busError (a + 4 * q + 3))) ∨
   ∃ b, alphaScan s a p n = .ok b ∧
      (b = true ↔ ∃ q, p ≤ q ∧ q < p + n ∧ (s.mem.read (a + 4 * q + 3)).toNat < 255) ∧
      ∀ q, p ≤ q → q < p + n → s.responds (a + 4 * q + 3) = false →
        ∃ r, p ≤ r ∧ r < q ∧ (s.mem.read (a + 4 * r + 3)).toNat < 255 := by
  induction n generalizing p with
  | zero => exact .inr ⟨false, rfl, by simp; omega, fun q h1 h2 => by omega⟩
  | succ n ih =>
    unfold alphaScan
    cases hp : s.responds (a + 4 * p + 3) with
    | false =>
      left
      refine ⟨p, le_refl _, by omega, hp, fun r h1 h2 => by omega, ?_⟩
      rw [State.checkedByte, hp]; rfl
    | true =>
      rw [checkedByte_ok hp, ok_bind, byteAt_of_not_raced ho]
      by_cases hc : (s.mem.read (a + 4 * p + 3)).toNat < 255
      · rw [if_pos hc]
        refine .inr ⟨true, rfl, ⟨fun _ => ⟨p, by omega, by omega, hc⟩, fun _ => rfl⟩, fun q h1 h2 h3 => ?_⟩
        refine ⟨p, le_refl _, lt_of_le_of_ne h1 ?_, hc⟩
        rintro rfl; rw [hp] at h3; cases h3
      · rw [if_neg hc]
        rcases ih (p + 1) with ⟨q, h1, h2, h3, h4, h5⟩ | ⟨b, h1, h2, h3⟩
        · refine .inl ⟨q, by omega, by omega, h3, fun r k1 k2 => ?_, h5⟩
          rcases Nat.eq_or_lt_of_le k1 with rfl | k1
          · refine ⟨hp, BitVec.eq_of_toNat_eq ?_⟩
            show _ = 255; omega
          · exact h4 r k1 k2
        · refine .inr ⟨b, h1, ?_, fun q k1 k2 k3 => ?_⟩
          · rw [h2]
            constructor
            · rintro ⟨q, k1, k2, k3⟩; exact ⟨q, by omega, by omega, k3⟩
            · rintro ⟨q, k1, k2, k3⟩
              rcases Nat.eq_or_lt_of_le k1 with rfl | k1
              · exact absurd k3 hc
              · exact ⟨q, by omega, by omega, k3⟩
          · rcases Nat.eq_or_lt_of_le k1 with rfl | k1
            · rw [hp] at k3; cases k3
            · obtain ⟨r, r1, r2, r3⟩ := h3 q k1 (by omega) k3
              exact ⟨r, by omega, r2, r3⟩

/-- Every position of a raster has a column and a row (R79). -/
theorem exists_position {W H q : Nat} (h : q < W * H) : ∃ x y, x < W ∧ y < H ∧ q = y * W + x := by
  have hW : 0 < W := by
    rcases Nat.eq_zero_or_pos W with rfl | h'
    · simp at h
    · exact h'
  refine ⟨q % W, q / W, Nat.mod_lt _ hW, Nat.div_lt_of_lt_mul h, ?_⟩
  rw [Nat.mul_comm]; exact (Nat.div_add_mod q W).symm

/-- What an encoder finds for `hasAlpha`: the byte that ends its alpha scan, or whether the stream has alpha (R153). -/
theorem encoderHasAlpha_cases {s : State} {fm a : Bool} {S W H : Nat} (ho : s.orderly)
    (h : streamHasAlpha s.mem fm S W H a) :
   (∃ q, fm = false ∧ alphaScanFailsAt s S (W * H) q ∧
      encoderHasAlpha s fm S W H = .error (.busError (S + 4 * q + 3))) ∨
   ((fm = true ∨ ∀ q, ¬ alphaScanFailsAt s S (W * H) q) ∧ encoderHasAlpha s fm S W H = .ok a) := by
  unfold encoderHasAlpha
  unfold streamHasAlpha at h
  cases fm with
  | true => right; simp at h; rw [if_pos rfl, h]; exact ⟨.inl rfl, rfl⟩
  | false =>
    rw [if_neg (by simp)]
    rcases alphaScan_cases ho S 0 (W * H) with ⟨q, _, h2, h3, h4, h5⟩ | ⟨b, h1, h2, h3⟩
    · exact .inl ⟨q, rfl, ⟨by omega, h3, fun r hr => h4 r (Nat.zero_le _) hr⟩, h5⟩
    · refine .inr ⟨.inr fun q hq => ?_, ?_⟩
      · obtain ⟨r, _, r2, r3⟩ := h3 q (Nat.zero_le _) (by have := hq.1; omega) hq.2.1
        rw [(hq.2.2 r r2).2] at r3
        exact absurd r3 (by decide)
      · rw [h1]; congr 1
        rw [Bool.eq_iff_iff, h2, h]; simp only [Bool.false_eq_true, false_or, someTransparency]
        constructor
        · rintro ⟨q, _, k2, k3⟩
          obtain ⟨x, y, hx, hy, rfl⟩ := exists_position (W := W) (H := H) (q := q) (by omega)
          exact ⟨x, y, hx, hy, k3⟩
        · rintro ⟨x, y, hx, hy, k⟩
          exact ⟨y * W + x, by omega, by have := gray_offset_lt hx hy; omega, k⟩

/-- Where FM is set or the alpha scan meets no failing byte, an encoder finds `hasAlpha` (R153). -/
theorem encoderHasAlpha_ok {s : State} {fm a : Bool} {S W H : Nat} (ho : s.orderly)
    (hr : fm = true ∨ ∀ q, ¬ alphaScanFailsAt s S (W * H) q) (h : streamHasAlpha s.mem fm S W H a) :
   encoderHasAlpha s fm S W H = .ok a := by
  rcases encoderHasAlpha_cases ho h with ⟨q, h1, h2, _⟩ | ⟨_, h2⟩
  · rcases hr with hr | hr
    · rw [h1] at hr; cases hr
    · exact absurd h2 (hr q)
  · exact h2

/-- The alpha scan meets no failing byte where the whole buffer responds (R79). -/
theorem not_alphaScanFailsAt {s : State} {S W H : Nat} (hr : s.respondsOn S (4 * W * H)) (q : Nat) :
    ¬ alphaScanFailsAt s S (W * H) q := by
  rintro ⟨h1, h2, _⟩
  have e4 : 4 * W * H = 4 * (W * H) := Nat.mul_assoc _ _ _
  have := hr (4 * q + 3) (by omega)
  rw [← Nat.add_assoc, h2] at this
  cases this

/-- The header bytes written at an address make a header there (R143 to R146). -/
theorem gb7HeaderAt_fill {m m' : Memory} {D n : Nat} {f : Nat → Byte} {a : Bool} {W H : Nat} (hW : W ≤ 65535)
    (hH : H ≤ 65535) (hn : 12 ≤ n)
   (hm : m' = m.fill D n f) (hf : ∀ k, k < 12 → f k = (gb7HeaderBytes a W H).getD k 0#8) :
   Gb7HeaderAt m' D 0x01#8 (if a then 1#8 else 0#8) W H := by
  have r : ∀ k, k < 12 → m'.read (D + k) = (gb7HeaderBytes a W H).getD k 0#8 := by
    intro k hk; rw [hm, read_fill_inside (by omega), hf k hk]
  constructor
  · exact ⟨r 0 (by omega), r 1 (by omega), r 2 (by omega), r 3 (by omega)⟩
  · exact r 4 (by omega)
  · exact r 5 (by omega)
  · rw [r 6 (by omega), r 7 (by omega)]
    simp [gb7HeaderBytes, gb7Magic]; omega
  · rw [r 8 (by omega), r 9 (by omega)]
    simp [gb7HeaderBytes, gb7Magic]; omega
  · exact ⟨r 10 (by omega), r 11 (by omega)⟩

/-- BLEND values above 3 are invalid (R231). -/
theorem blendOf_eq_none_iff {b : Byte} : blendOf b = none ↔ 3 < b.toNat := by revert b; decide +kernel

/-- What the pre-pass does with a descriptor of which every byte that it reads responds (R238). -/
theorem examineLayer_cases {s : State} {T W H i : Nat} {dest : Region} (ho : s.orderly)
   (hr : descriptorReadable s (T + 32 * i) W H) :
   (¬ descriptorActive s.mem (T + 32 * i) → contributingLayer s.mem (T + 32 * i) W H = none ∧
       examineLayer s T W H dest i = .ok none) ∧
   (descriptorActive s.mem (T + 32 * i) → 3 < (s.mem.read (T + 32 * i + 1)).toNat →
       contributingLayer s.mem (T + 32 * i) W H = none ∧ examineLayer s T W H dest i = .error (.badDesc i)) ∧
   (descriptorActive s.mem (T + 32 * i) → ¬ 3 < (s.mem.read (T + 32 * i + 1)).toNat → 
     (contributingLayer s.mem (T + 32 * i) W H = none → examineLayer s T W H dest i = .ok none) ∧
     (∀ l, contributingLayer s.mem (T + 32 * i) W H = some l → 
        (∀ base, l.source = .color base → base = T + 32 * i + 16 ∧ examineLayer s T W H dest i = .ok (some l)) ∧
        (∀ base, l.source = .image base → examineLayer s T W H dest i =
            (checkRange (pixelRegion base W H) (.layer i) >>= fun _ =>
                checkOverlap (pixelRegion base W H) dest (.layer i) >>= fun _ => .ok (some l))))) := by
  have rb : ∀ a, a ∈ prepassReads s.mem (T + 32 * i) W H → s.checkedByte a = .ok (s.mem.read a) := by
    intro a ha; rw [checkedByte_ok (hr a ha), byteAt_of_not_raced ho]
  have rw4 : ∀ a, (∀ j ∈ [a, a + 1, a + 2, a + 3], j ∈ prepassReads s.mem (T + 32 * i) W H) →
      s.checkedRead a 4 = .ok (s.mem.littleEndian a 4) := by
    intro a ha
    rw [checkedRead_ok_iff]
    refine ⟨fun j hj => hr _ (ha _ ?_), by rw [sourceMem_of_not_raced ho]⟩
    have : j = 0 ∨ j = 1 ∨ j = 2 ∨ j = 3 := by omega
    rcases this with rfl | rfl | rfl | rfl <;> simp
  clear hr
  unfold prepassReads at rb rw4
  simp only at rb rw4
  unfold contributingLayer descriptorActive examineLayer
  simp only [rb (T + 32 * i) (by simp), rw4 (T + 32 * i + 4) (by simp), ok_bind]
  generalize effectiveOpacity (BitVec.ofNat 32 (s.mem.littleEndian (T + 32 * i + 4) 4)) = op at *
  generalize hfl : s.mem.read (T + 32 * i) = fl at rb rw4 ⊢
  refine ⟨?_, ?_, ?_⟩
  · intro h
    have : fl.getLsbD 0 = false ∨ op = 0 := by
      by_contra hc; push Not at hc; exact h ⟨by simpa using hc.1, hc.2⟩
    rw [if_pos this, if_pos (by simpa using this)]; exact ⟨rfl, rfl⟩
  · intro h hm
    have n : ¬ (fl.getLsbD 0 = false ∨ op = 0) := fun h' => h'.elim (fun h' => by rw [h.1] at h'; cases h') h.2
    rw [if_neg n] at rb
    rw [if_neg n, if_neg (by simpa using n), rb (T + 32 * i + 1) (by simp), ok_bind, blendOf_eq_none_iff.mpr hm]
    exact ⟨rfl, rfl⟩
  · intro h hm
    have n : ¬ (fl.getLsbD 0 = false ∨ op = 0) := fun h' => h'.elim (fun h' => by rw [h.1] at h'; cases h') h.2
    rw [if_neg n] at rb rw4
    rw [if_neg n, if_neg (by simpa using n), rb (T + 32 * i + 1) (by simp), ok_bind]
    generalize s.mem.read (T + 32 * i + 1) = md at hm
    cases hb : blendOf md with
    | none => exact absurd (blendOf_eq_none_iff.mp hb) hm
    | some bl =>
      simp only
      by_cases h2 : fl.getLsbD 2 = true
      · simp only [if_pos h2]
        refine ⟨(by intro h; cases h), ?_⟩
        intro l hl; cases hl
        exact ⟨(by intro b hb; cases hb; exact ⟨rfl, rfl⟩), (by intro b hb; cases hb)⟩
      · simp only [if_neg h2] at rw4 ⊢
        rw [rw4 (T + 32 * i + 8) (by simp), ok_bind]
        by_cases hw : s.mem.littleEndian (T + 32 * i + 8) 4 = W
        · have hw' := not_not.mpr hw
          rw [if_neg hw'] at rw4
          rw [if_neg hw', rw4 (T + 32 * i + 12) (by simp), ok_bind]
          by_cases hh : s.mem.littleEndian (T + 32 * i + 12) 4 = H
          · have hh' := not_not.mpr hh
            rw [if_neg hh'] at rw4
            rw [if_pos ⟨hw, hh⟩, if_neg hh', rw4 (T + 32 * i + 16) (by simp), ok_bind]
            refine ⟨(by intro h; cases h), ?_⟩
            intro l hl; cases hl
            exact ⟨(by intro b hb; cases hb), (by intro b hb; cases hb; rfl)⟩
          · rw [if_neg (fun h => hh h.2), if_pos hh]
            exact ⟨fun _ => rfl, by intro l hl; cases hl⟩
        · rw [if_neg (by simp [hw]), if_pos hw]
          exact ⟨fun _ => rfl, by intro l hl; cases hl⟩

/-- The pre-pass of descriptors that it lets pass gives their contributing layers (R238). -/
theorem prepass_ok {s : State} {T W H D n : Nat} (ho : s.orderly) (i : Nat)
    (hr : ∀ j, i ≤ j → j < i + n → descriptorReadable s (T + 32 * j) W H)
    (hv : ∀ j, i ≤ j → j < i + n → descriptorPasses s.mem (T + 32 * j) W H D) :
    prepass s T W H (pixelRegion D W H) i n = .ok ((List.range' i n).filterMap
        (fun j => contributingLayer s.mem (T + 32 * j) W H)) := by
  induction n generalizing i with
  | zero => rfl
  | succ n ih =>
    have h1 := ih (i + 1) (fun j a b => hr j (by omega) (by omega)) (fun j a b => hv j (by omega) (by omega))
    obtain ⟨e1, e2, e3⟩ := examineLayer_cases (W := W) (H := H) (i := i) (dest := pixelRegion D W H) ho
        (hr i (by omega) (by omega))
    obtain ⟨v1, v2⟩ := hv i (by omega) (by omega)
    have hx : examineLayer s T W H (pixelRegion D W H) i = .ok (contributingLayer s.mem (T + 32 * i) W H) := by
      by_cases ha : descriptorActive s.mem (T + 32 * i)
      · have hm : ¬ 3 < (s.mem.read (T + 32 * i + 1)).toNat := by have := v1 ha; omega
        obtain ⟨f1, f2⟩ := e3 ha hm
        cases hc : contributingLayer s.mem (T + 32 * i) W H with
        | none => exact f1 hc
        | some l =>
          obtain ⟨g1, g2⟩ := f2 l hc
          cases hs : l.source with
          | color b => exact (g1 b hs).2
          | image b =>
            rw [g2 b hs]
            obtain ⟨c1, c2, c3⟩ := v2 l b hc hs
            rw [checkRange_ok (by exact c1), ok_bind, show checkOverlap (pixelRegion b W H) (pixelRegion D W H)
                (.layer i) = .ok () from checkOverlap_ok (overlaps_eq_false_iff.mpr c3)]
            rfl
      · obtain ⟨f1, f2⟩ := e1 ha
        rw [f1, f2]
    unfold prepass
    rw [hx, ok_bind, h1, ok_bind, List.range'_succ, List.filterMap_cons]
    cases contributingLayer s.mem (T + 32 * i) W H <;> rfl

/-- Where a colour layer's pixel stands (R234). -/
theorem contributingLayer_color {m : Memory} {b W H : Nat} {l : Layer} {base : Nat}
    (h : contributingLayer m b W H = some l) (hs : l.source = .color base) : base = b + 16 := by
  unfold contributingLayer at h
  simp only at h
  split at h
  · cases h
  · split at h
    · cases h
    · split at h
      · cases h; cases hs; rfl
      · split at h
        · cases h; cases hs
        · cases h

/-- The pre-pass ends with the error of the first descriptor that has one (R238). -/
theorem prepass_error {s : State} {T W H : Nat} {d : Region} {n : Nat} {e : CmdError} (i p : Nat) (hp : p < n)
   (h : ∀ j, j < p → ∃ l, examineLayer s T W H d (i + j) = .ok l) (he : examineLayer s T W H d (i + p) = .error e) :
   prepass s T W H d i n = .error e := by
  induction n generalizing i p with
  | zero => omega
  | succ n ih =>
    unfold prepass
    cases p with
    | zero => rw [show i = i + 0 by omega, he]; rfl
    | succ p =>
      obtain ⟨l, hl⟩ := h 0 (by omega)
      rw [Nat.add_zero] at hl
      rw [hl, ok_bind, ih (i + 1) p (by omega) (fun j hj => by
        rw [show i + 1 + j = i + (j + 1) by omega]; exact h (j + 1) (by omega))
            (by rw [show i + 1 + p = i + (p + 1) by omega]; exact he)]
      rfl

end Sys2Proof.Machine
end

