-- ==== Sys2Proof/Laws/Chains.lean ====
section
/-! SUPPORT. Laws/Chains.lean: from the validation phase of a command to the chain of its errors, one link per check
(R333, R335, R336). -/

namespace Sys2Proof.Machine

/-- `t` is how a command with the outcome `o` ends at `s`, as far as its errors go. -/
def errorsAs (s t : State) (o : Except CmdError Effect) : Prop :=
  (∀ e, o = .error e → rejectedWith s t e.code (e.info (Config.freeWord s.draws 2))) ∧
    ∀ e, o = .ok e → t.err = true → t.errcode = 0x09#8

/-- Every command of a run that keeps R89 ends as its outcome says. -/
theorem exec_errorsAs {s : State} (i : Instr) (ho : s.orderly) :
    ∃ t, exec i s = .next t ∧ errorsAs s t (commandOf i s).outcome := by
  cases h : (commandOf i s).outcome with
  | error e =>
    obtain ⟨t, h1, h2⟩ := exec_rejects ho h
    exact ⟨t, h1, (fun _ k => by cases k; exact h2), (fun _ k => by cases k)⟩
  | ok e =>
    obtain ⟨t, h1, h2⟩ := exec_errs_only_busError (first := []) (e := e) ho (by rw [h]; rfl)
    exact ⟨t, h1, (fun _ k => by cases k), (fun _ _ => h2)⟩

/-- The range link. -/
theorem errorsAs_checkRange {s t : State} {a n : Nat} {c : RegionCode} {f : Unit → Except CmdError Effect} {rest : Prop}
    (h : errorsAs s t (checkRange ⟨a, n⟩ c >>= f)) (hr : inDataSpace a n → errorsAs s t (f ()) → rest) :
    whenElse (¬ inDataSpace a n) (rejectedWith s t 0x04#8 (c.word (Config.freeWord s.draws 2))) rest := by
  by_cases k : inDataSpace a n
  · rw [checkRange_ok (by exact k), ok_bind] at h
    exact whenElse_no (not_not.mpr k) (hr k h)
  · rw [checkRange_error (by exact k)] at h
    exact whenElse_yes k (h.1 _ rfl)

/-- The overlap link. -/
theorem errorsAs_checkOverlap {s t : State} {a n b m : Nat} {c : RegionCode} {f : Unit → Except CmdError Effect}
    {rest : Prop} (h : errorsAs s t (checkOverlap ⟨a, n⟩ ⟨b, m⟩ c >>= f))
    (hr : disjointRegions a n b m → errorsAs s t (f ()) → rest) :
    whenElse (¬ disjointRegions a n b m) (rejectedWith s t 0x05#8 (c.word (Config.freeWord s.draws 2))) rest := by
  by_cases k : disjointRegions a n b m
  · rw [checkOverlap_ok (overlaps_eq_false_iff.mpr k), ok_bind] at h
    exact whenElse_no (not_not.mpr k) (hr k h)
  · rw [checkOverlap_error (by simpa using mt overlaps_eq_false_iff.mp k)] at h
    exact whenElse_yes k (h.1 _ rfl)

/-- The link of any other test. -/
theorem errorsAs_raiseIf {s t : State} {b : Bool} {e : CmdError} {c : Prop} {f : Unit → Except CmdError Effect}
    {rest : Prop} (hb : b = true ↔ c) (h : errorsAs s t (raiseIf b e >>= f)) (hr : ¬ c → errorsAs s t (f ()) → rest) :
    whenElse c (rejectedWith s t e.code (e.info (Config.freeWord s.draws 2))) rest := by
  by_cases k : c
  · rw [hb.mpr k] at h
    exact whenElse_yes k (h.1 _ rfl)
  · rw [show b = false by simpa using mt hb.mp k, raiseIf_false, ok_bind] at h
    exact whenElse_no k (hr k h)

/-- The link of one byte that the validation phase reads. -/
theorem errorsAs_checkedByte {s t : State} {a k : Nat} {f : Byte → Except CmdError Effect} {rest : Prop}
    (ho : s.orderly) (h : errorsAs s t (s.checkedByte (a + k) >>= f))
    (hr : errorsAs s t (f (s.mem.read (a + k))) → rest) : readsThen s t a [k] rest := by
  cases c : s.responds (a + k) with
  | true =>
    rw [checkedByte_ok c, ok_bind, byteAt_of_not_raced ho] at h
    exact whenElse_no (by rw [c]; decide) (hr h)
  | false =>
    rw [State.checkedByte, c] at h
    exact whenElse_yes c (h.1 _ rfl)

/-- Reads one after the other. -/
theorem readsThen_append {s t : State} {a : Nat} {l m : List Nat} {rest : Prop} :
    readsThen s t a (l ++ m) rest = readsThen s t a l (readsThen s t a m rest) := by
  unfold readsThen; rw [List.foldr_append]

/-- The link of a wider field that the validation phase reads, in ascending order of its bytes. -/
theorem errorsAs_checkedRead {s t : State} {a k n : Nat} {f : Nat → Except CmdError Effect} {rest : Prop}
    (ho : s.orderly) (h : errorsAs s t (s.checkedRead (a + k) n >>= f))
    (hr : errorsAs s t (f (s.mem.littleEndian (a + k) n)) → rest) : readsThen s t a (List.range' k n) rest := by
  induction n generalizing k f with
  | zero => exact hr h
  | succ n ih =>
    rw [checkedRead_succ, bind_assoc] at h
    rw [List.range'_succ, ← List.singleton_append, readsThen_append]
    refine errorsAs_checkedByte ho h (fun h => ?_)
    rw [bind_assoc, Nat.add_assoc] at h
    refine ih h (fun h => hr ?_)
    rw [littleEndian_succ, Nat.add_assoc]
    exact h

/-- Past every test, the only error left is a BUS_ERROR (R333, R334). -/
theorem errorsAs_checkedReads {s t : State} {first : List Nat} {e : Effect}
    (h : errorsAs s t (s.checkedReads first >>= fun _ => .ok e)) : t.err = true → t.errcode = 0x09#8 := by
  cases hc : s.checkedReads first with
  | error d =>
    rw [hc] at h
    obtain ⟨a, _, rfl⟩ := checkedReads_error_iff.mp hc
    exact fun _ => (h.1 _ rfl).1.2.2.1
  | ok u => rw [hc] at h; exact h.2 e rfl

end Sys2Proof.Machine
end

