-- ==== Sys2Proof/Laws/Dependence.lean ====
section
/-! SUPPORT. Laws/Dependence.lean: what the validation phase and the pixel reads depend on: the bytes of their regions and
whether those respond (R91). -/

namespace Sys2Proof.Machine

/-- Every byte of a PixelBuffer is a channel of a pixel in it (R79, R80). -/
theorem pixel_position {w h k : Nat} (hk : k < 4 * w * h) : pixelColumn w k < w ∧ pixelRow w k < h ∧
    pixelChannel k < 4 := by
  have e4 : 4 * w * h = 4 * (w * h) := Nat.mul_assoc _ _ _
  have h1 : k / 4 < w * h := by omega
  have hw : 0 < w := by
    rcases Nat.eq_zero_or_pos w with rfl | h'
    · simp at h1
    · exact h'
  exact ⟨Nat.mod_lt _ hw, Nat.div_lt_of_lt_mul h1, Nat.mod_lt _ (by omega)⟩

/-- Every byte of a GrayBuffer is a pixel in it (R79, R81). -/
theorem gray_position {w h k : Nat} (hk : k < w * h) : grayColumn w k < w ∧ grayRow w k < h := by
  have hw : 0 < w := by
    rcases Nat.eq_zero_or_pos w with rfl | h'
    · simp at hk
    · exact h'
  exact ⟨Nat.mod_lt _ hw, Nat.div_lt_of_lt_mul hk⟩

/-- Two states give a command the same bytes of a region. -/
def AgreeOn (s u : State) (b n : Nat) : Prop := ∀ k, k < n → u.byteAt (b + k) = s.byteAt (b + k)

/-- A channel of a pixel depends on the PixelBuffer alone. -/
theorem px_of_agree {s u : State} {b w h x y c : Nat} (hr : AgreeOn s u b (4 * w * h)) (hx : x < w) (hy : y < h)
    (hc : c < 4) :
   u.px b w x y c = s.px b w x y c := by
  unfold State.px; rw [pixelAddress, Nat.add_assoc]; exact hr _ (pixel_offset_lt hx hy hc)

/-- A pixel depends on the GrayBuffer alone. -/
theorem gx_of_agree {s u : State} {b w h x y : Nat} (hr : AgreeOn s u b (w * h)) (hx : x < w) (hy : y < h) :
   u.gx b w x y = s.gx b w x y := by
  unfold State.gx; rw [grayAddress, Nat.add_assoc]; exact hr _ (gray_offset_lt hx hy)

/-- A validation read depends on its byte and on whether it responds. -/
theorem checkedByte_of_agree {s u : State} {a : Nat} (hp : u.platform = s.platform) (h : u.byteAt a = s.byteAt a) :
    u.checkedByte a = s.checkedByte a := by
  unfold State.checkedByte State.responds; rw [hp, h]

/-- The reads before the first `MemWrite` pass or fail by which bytes respond, whatever they hold. -/
theorem checkedReads_of_agree {s u : State} (hp : u.platform = s.platform) (l : List Nat) :
    u.checkedReads l = s.checkedReads l := by
  unfold State.checkedReads State.responds; rw [hp]

/-- A wider validation read depends on its bytes. -/
theorem checkedRead_of_agree {s u : State} (hp : u.platform = s.platform) (a n : Nat) (h : AgreeOn s u a n) :
    u.checkedRead a n = s.checkedRead a n := by
  induction n generalizing a with
  | zero => rfl
  | succ n ih =>
    rw [checkedRead_succ, checkedRead_succ, checkedByte_of_agree hp (by exact h 0 (by omega)),
        ih (a + 1) (fun k hk => by
      rw [show a + 1 + k = a + (k + 1) by omega]; exact h _ (by omega))]

/-- The alpha scan depends on the alpha bytes (R153). -/
theorem alphaScan_of_agree {s u : State} (hp : u.platform = s.platform) {a p n : Nat}
    (h : ∀ q, p ≤ q → q < p + n → u.byteAt (a + 4 * q + 3) = s.byteAt (a + 4 * q + 3)) :
   alphaScan u a p n = alphaScan s a p n := by
  induction n generalizing p with
  | zero => rfl
  | succ n ih =>
    unfold alphaScan
    rw [checkedByte_of_agree hp (h p (by omega) (by omega)), ih (fun q h1 h2 => h q (by omega) (by omega))]

/-- The MAGIC check depends on the bytes it compares (R151). -/
theorem checkMagic_of_agree {s u : State} (hp : u.platform = s.platform) (l : List Byte) (a : Nat)
    (h : ∀ k, k < l.length → u.byteAt (a + k) = s.byteAt (a + k)) :
   checkMagic u a l = checkMagic s a l := by
  induction l generalizing a with
  | nil => rfl
  | cons m l ih =>
    unfold checkMagic
    rw [checkedByte_of_agree hp (by exact h 0 (by simp)),
        ih (a + 1) (fun k hk => by rw [show a + 1 + k = a + (k + 1) by omega]; exact h _ (by simpa using hk))]

/-- The decoders' common validation depends on the stream (R151). -/
theorem readGb7Header_of_agree {s u : State} (hp : u.platform = s.platform) {S L : Nat} (h : AgreeOn s u S L) :
    readGb7Header u S L = readGb7Header s S L := by
  unfold readGb7Header
  rw [checkMagic_of_agree hp _ _ (fun k hk => h k (by simp [gb7Magic] at hk; omega))]
  by_cases hl : L < 12
  · simp only [hl, decide_true, raiseIf_true, error_bind]
  · have hb : ∀ k, k < 12 → u.checkedByte (S + k) = s.checkedByte (S + k) := fun k hk =>
        checkedByte_of_agree hp (h k (by omega))
    have hbe : ∀ k, k + 1 < 12 → checkedBigEndian16 u (S + k) = checkedBigEndian16 s (S + k) := by
      intro k hk; unfold checkedBigEndian16; rw [hb k (by omega), Nat.add_assoc, hb (k+1) (by omega)]
    rw [hb 4 (by omega), hb 5 (by omega), hbe 6 (by omega), hbe 8 (by omega), hbe 10 (by omega)]

/-- The pre-pass of a descriptor depends on the descriptor (R238). -/
theorem examineLayer_of_agree {s u : State} (hp : u.platform = s.platform) {T W H i : Nat} {d : Region}
    (h : AgreeOn s u (T + 32 * i) 32) :
   examineLayer u T W H d i = examineLayer s T W H d i := by
  have hb : ∀ k, k < 32 → u.checkedByte (T + 32 * i + k) = s.checkedByte (T + 32 * i + k) := fun k hk =>
      checkedByte_of_agree hp (h k hk)
  have hr : ∀ k, k + 4 ≤ 32 → u.checkedRead (T + 32 * i + k) 4 = s.checkedRead (T + 32 * i + k) 4 := fun k hk =>
      checkedRead_of_agree hp _ _ (fun j hj => by rw [Nat.add_assoc (T + 32 * i)]; exact h _ (by omega))
  unfold examineLayer
  have h0 : u.checkedByte (T + 32 * i) = s.checkedByte (T + 32 * i) := hb 0 (by omega)
  simp only [h0, hb 1 (by omega), hr 4 (by omega), hr 8 (by omega), hr 12 (by omega), hr 16 (by omega)]

/-- The pre-pass depends on the table (R238). -/
theorem prepass_of_agree {s u : State} (hp : u.platform = s.platform) {T W H : Nat} {d : Region} (n i : Nat)
    (h : ∀ j, i ≤ j → j < i + n → AgreeOn s u (T + 32 * j) 32) :
   prepass u T W H d i n = prepass s T W H d i n := by
  induction n generalizing i with
  | zero => rfl
  | succ n ih =>
    unfold prepass
    rw [examineLayer_of_agree hp (h i (by omega) (by omega)), ih (i + 1) (fun j h1 h2 => h j (by omega) (by omega))]

/-- Where a colour layer's pixel stands (R234). -/
theorem examineLayer_color {s : State} {t w h i : Nat} {d : Region} {l : Layer} {base : Nat}
   (hx : examineLayer s t w h d i = .ok (some l)) (hb : l.source = .color base) : base = t + 32 * i + 16 := by
  unfold examineLayer at hx
  simp only [bind_ok_iff] at hx
  obtain ⟨f, _, o, _, hx⟩ := hx
  split at hx
  · simp at hx
  · simp only [bind_ok_iff] at hx
    obtain ⟨m, _, hx⟩ := hx
    split at hx
    · simp at hx
    · split at hx
      · simp at hx; subst hx; simp at hb; exact hb.symm
      · simp only [bind_ok_iff] at hx
        obtain ⟨lw, _, hx⟩ := hx
        split at hx
        · simp at hx
        · simp only [bind_ok_iff] at hx
          obtain ⟨lh, _, hx⟩ := hx
          split at hx
          · simp at hx
          · simp only [bind_ok_iff] at hx
            obtain ⟨a, _, _, h1, _, h2, hx⟩ := hx
            simp at hx; subst hx; simp at hb

/-- A colour layer's pixel stands in its descriptor, in the table (R234). -/
theorem prepass_color {s : State} {t w h : Nat} {d : Region} {n i : Nat} {ls : List Layer}
   (hx : prepass s t w h d i n = .ok ls) : ∀ l ∈ ls, ∀ base, l.source = .color base → ∃ j, i ≤ j ∧ j < i + n ∧
       base = t + 32 * j + 16 := by
  induction n generalizing i ls with
  | zero => simp [prepass] at hx; subst hx; simp
  | succ n ih =>
    simp only [prepass, bind_ok_iff] at hx
    obtain ⟨l, h1, r, h2, hx⟩ := hx
    simp at hx; subst hx
    intro l' hl' base hb
    rcases List.mem_append.mp hl' with hm | hm
    · simp at hm; subst hm; exact ⟨i, by omega, by omega, examineLayer_color h1 hb⟩
    · obtain ⟨j, a, b, c⟩ := ih h2 l' hm base hb
      exact ⟨j, by omega, by omega, c⟩

end Sys2Proof.Machine
end

