-- ==== Sys2Proof/Laws/Float64.lean ====
section
/-! SUPPORT. Laws/Float64.lean: what binary64 rounding gives (R16), and the kinds of datum a pattern can hold (R48). -/

namespace Sys2Proof.Machine

/-- The fields of a pattern made from a sign and 63 low bits (R48). -/
theorem f64Pattern_fields {s : Bool} {low : Nat} (h : low < 2 ^ 63) :
    f64Sign (f64Pattern s low) = s ∧ f64Exponent (f64Pattern s low) = low / 2 ^ 52 ∧
      f64Fraction (f64Pattern s low) = low % 2 ^ 52 := by
  have hn : (f64Pattern s low).toNat = (if s then 2 ^ 63 + low else low) := by
    unfold f64Pattern
    rw [BitVec.toNat_ofNat]
    cases s <;> simp <;> omega
  refine ⟨?_, ?_, ?_⟩
  · unfold f64Sign
    rw [← BitVec.testBit_toNat, hn, Nat.testBit_eq_decide_div_mod_eq]
    cases s <;> simp <;> omega
  · unfold f64Exponent
    rw [BitVec.extractLsb'_toNat, hn, Nat.shiftRight_eq_div_pow]
    cases s <;> simp <;> omega
  · unfold f64Fraction
    rw [BitVec.extractLsb'_toNat, hn, Nat.shiftRight_zero]
    cases s <;> simp <;> omega

/-- The magnitude of a finite pattern, in units of the smallest one, `2^-1074`. -/
def f64Units (exponent fraction : Nat) : Nat :=
  if exponent = 0 then fraction else (2 ^ 52 + fraction) * 2 ^ (exponent - 1)

/-- The magnitude of a finite pattern, counted in those units. -/
theorem f64Magnitude_eq (b : F64) : f64Magnitude b = (f64Units (f64Exponent b) (f64Fraction b) : ℚ) / 2 ^ 1074 := by
  unfold f64Magnitude f64Units
  split
  · rfl
  · rename_i h
    obtain ⟨e, he⟩ : ∃ e, f64Exponent b = e + 1 := ⟨f64Exponent b - 1, by omega⟩
    rw [he, Nat.add_sub_cancel, pow_succ, show (2 : ℚ) ^ 1075 = 2 ^ 1074 * 2 by rw [← pow_succ]]
    push_cast
    rw [pow_succ, ← mul_assoc]
    exact mul_div_mul_right _ _ two_ne_zero

/-- Rounding to an integer: within half, and even at exactly half (R16). -/
theorem divRoundEven_spec {n d : Nat} (hd : 0 < d) :
    2 * n ≤ 2 * (divRoundEven n d * d) + d ∧ 2 * (divRoundEven n d * d) ≤ 2 * n + d ∧
      ((2 * n = 2 * (divRoundEven n d * d) + d ∨ 2 * (divRoundEven n d * d) = 2 * n + d) →
        divRoundEven n d % 2 = 0) := by
  have h1 := Nat.div_add_mod n d
  have h2 := Nat.mod_lt n hd
  rw [Nat.mul_comm] at h1
  unfold divRoundEven
  simp only
  generalize n / d = q at *
  generalize n % d = r at *
  split
  · refine ⟨by omega, by omega, by omega⟩
  · split
    · rw [Nat.add_mul, Nat.one_mul]
      refine ⟨by omega, by omega, by omega⟩
    · split
      · refine ⟨by omega, by omega, by omega⟩
      · rw [Nat.add_mul, Nat.one_mul]
        refine ⟨by omega, by omega, by omega⟩

/-- `2^L <= n/d < 2^(L+1)` for the `L` of a positive quotient. -/
theorem floorLog2_spec {n d : Nat} (hn : 0 < n) (hd : 0 < d) :
    (2 : ℚ) ^ floorLog2 n d ≤ (n : ℚ) / d ∧ (n : ℚ) / d < 2 ^ (floorLog2 n d + 1) := by
  have hdq : (0 : ℚ) < d := by exact_mod_cast hd
  have n1 : 2 ^ n.log2 ≤ n := Nat.log2_self_le (by omega)
  have n2 : n < 2 ^ (n.log2 + 1) := Nat.lt_log2_self
  have d1 : 2 ^ d.log2 ≤ d := Nat.log2_self_le (by omega)
  have d2 : d < 2 ^ (d.log2 + 1) := Nat.lt_log2_self
  have key : ∀ g : Int, (d * 2 ^ g.toNat ≤ n * 2 ^ (-g).toNat ↔ (2 : ℚ) ^ g ≤ (n : ℚ) / d) := by
    intro g
    rw [le_div_iff₀ hdq]
    rcases Int.le_total 0 g with h | h
    · obtain ⟨k, rfl⟩ := Int.eq_ofNat_of_zero_le h
      rw [Int.toNat_natCast, Int.toNat_neg_natCast, pow_zero, mul_one, zpow_natCast, mul_comm,
        ← Nat.cast_le (α := ℚ)]
      push_cast; rfl
    · obtain ⟨k, hk⟩ := Int.eq_ofNat_of_zero_le (show (0 : Int) ≤ -g by omega)
      obtain rfl : g = -(k : Int) := by omega
      simp only [Int.toNat_neg_natCast, neg_neg, Int.toNat_natCast, pow_zero, mul_one, zpow_neg, zpow_natCast]
      rw [inv_mul_le_iff₀ (by positivity), ← Nat.cast_le (α := ℚ), mul_comm]; push_cast; rw [mul_comm]
  have hi : (n : ℚ) / d < 2 ^ ((n.log2 : Int) - d.log2 + 1) := by
    rw [div_lt_iff₀ hdq]
    have a1 : (n : ℚ) < 2 ^ (n.log2 + 1) := by exact_mod_cast n2
    have a2 : (2 : ℚ) ^ d.log2 ≤ d := by exact_mod_cast d1
    have e : (2 : ℚ) ^ (n.log2 + 1) = 2 ^ ((n.log2 : Int) - d.log2 + 1) * 2 ^ d.log2 := by
      rw [← zpow_natCast, ← zpow_natCast, ← zpow_add₀ two_ne_zero]; congr 1; push_cast; ring
    calc (n : ℚ) < _ := a1
      _ = _ := e
      _ ≤ _ := mul_le_mul_of_nonneg_left a2 (by positivity)
  have lo : (2 : ℚ) ^ ((n.log2 : Int) - d.log2 - 1) ≤ (n : ℚ) / d := by
    rw [le_div_iff₀ hdq]
    have a1 : (2 : ℚ) ^ n.log2 ≤ n := by exact_mod_cast n1
    have a2 : (d : ℚ) ≤ 2 ^ (d.log2 + 1) := by exact_mod_cast d2.le
    have e : (2 : ℚ) ^ ((n.log2 : Int) - d.log2 - 1) * 2 ^ (d.log2 + 1) = 2 ^ n.log2 := by
      rw [← zpow_natCast, ← zpow_natCast, ← zpow_add₀ two_ne_zero]; congr 1; push_cast; ring
    calc _ ≤ _ := mul_le_mul_of_nonneg_left a2 (by positivity)
      _ = _ := e
      _ ≤ _ := a1
  unfold floorLog2
  simp only
  split
  · rename_i h
    exact ⟨(key _).mp h, hi⟩
  · rename_i h
    refine ⟨lo, ?_⟩
    rw [sub_add_cancel]
    by_contra hc
    exact h ((key _).mpr (not_lt.mp hc))

/-- What `f64RoundLow` rounds to: the integer `s` nearest the value in units of `2^k`, ties to even, where the value lies
in the binade of `k`. All in units of `2^-1074`. -/
theorem f64RoundLow_spec {n d : Nat} (hn : 0 < n) (hd : 0 < d) :
    ∃ k s : Nat, f64RoundLow n d = min f64InfinityLow (k * 2 ^ 52 + s) ∧
      |(s : ℚ) * 2 ^ k - (n : ℚ) / d * 2 ^ 1074| ≤ 2 ^ k / 2 ∧
      (|(s : ℚ) * 2 ^ k - (n : ℚ) / d * 2 ^ 1074| = 2 ^ k / 2 → s % 2 = 0) ∧
      (n : ℚ) / d * 2 ^ 1074 < 2 ^ (53 + k) ∧ (k = 0 ∨ (2 : ℚ) ^ (52 + k) ≤ (n : ℚ) / d * 2 ^ 1074) := by
  obtain ⟨l1, l2⟩ := floorLog2_spec hn hd
  have hdq : (0 : ℚ) < d := by exact_mod_cast hd
  generalize hL : floorLog2 n d = L at l1 l2
  generalize hu : max (L - 52) (-1074) = u
  obtain ⟨k, hk⟩ := Int.eq_ofNat_of_zero_le (show 0 ≤ u + 1074 by omega)
  have hk' : (u + 1074).toNat = k := by omega
  have huk : u = (k : Int) - 1074 := by omega
  set N := n * 2 ^ (-u).toNat with hN
  set D := d * 2 ^ u.toNat with hD
  have hDp : 0 < D := Nat.mul_pos hd (Nat.two_pow_pos _)
  have hDq : (0 : ℚ) < D := by exact_mod_cast hDp
  have hND : (n : ℚ) / d * 2 ^ 1074 = (N : ℚ) / D * 2 ^ k := by
    have e : (2 : ℚ) ^ (-u).toNat * 2 ^ k = 2 ^ u.toNat * 2 ^ 1074 := by
      rw [← pow_add, ← pow_add]; congr 1; omega
    rw [hN, hD]; push_cast
    rw [div_mul_eq_mul_div, div_mul_eq_mul_div, div_eq_div_iff hdq.ne' (by positivity)]
    generalize (2 : ℚ) ^ (-u).toNat = p at e ⊢
    generalize (2 : ℚ) ^ u.toNat = q at e ⊢
    generalize (2 : ℚ) ^ k = r at e ⊢
    generalize (2 : ℚ) ^ 1074 = t at e ⊢
    linear_combination (-(n : ℚ) * d) * e
  obtain ⟨s1, s2, s3⟩ := divRoundEven_spec (n := N) hDp
  refine ⟨k, divRoundEven N D, ?_, ?_, ?_, ?_, ?_⟩
  · unfold f64RoundLow
    rw [hL]; simp only
    rw [hu, hk']
  all_goals generalize divRoundEven N D = s at s1 s2 s3
  · rw [hND, ← sub_mul, abs_mul, abs_of_pos (show (0 : ℚ) < 2 ^ k by positivity),
      show (2 : ℚ) ^ k / 2 = 1 / 2 * 2 ^ k by ring]
    apply mul_le_mul_of_nonneg_right _ (by positivity)
    rw [abs_le]
    have a1 : 2 * (N : ℚ) ≤ 2 * (s * D) + D := by exact_mod_cast s1
    have a2 : 2 * ((s : ℚ) * D) ≤ 2 * N + D := by exact_mod_cast s2
    constructor
    · rw [le_sub_iff_add_le, add_comm, ← sub_eq_add_neg, sub_le_iff_le_add, div_le_iff₀ hDq]
      linarith
    · rw [sub_le_iff_le_add, ← sub_le_iff_le_add', le_div_iff₀ hDq]
      linarith
  · intro h
    rw [hND, ← sub_mul, abs_mul, abs_of_pos (show (0 : ℚ) < 2 ^ k by positivity),
      show (2 : ℚ) ^ k / 2 = 1 / 2 * 2 ^ k by ring] at h
    have h := mul_right_cancel₀ (show (2 : ℚ) ^ k ≠ 0 by positivity) h
    apply s3
    have e : (s : ℚ) - N / D = (s * D - N) / D := by field_simp
    rw [e] at h
    rcases abs_eq (by norm_num) |>.mp h with h | h
    · right
      rw [div_eq_iff hDq.ne'] at h
      have : 2 * ((s : ℚ) * D) = 2 * N + D := by linarith
      exact_mod_cast this
    · left
      rw [div_eq_iff hDq.ne'] at h
      have : 2 * (N : ℚ) = 2 * (s * D) + D := by linarith
      exact_mod_cast this
  · have : (n : ℚ) / d < 2 ^ ((k : Int) + 53 - 1074) := l2.trans_le (zpow_le_zpow_right₀ (by norm_num) (by omega))
    have e : (2 : ℚ) ^ ((k : Int) + 53 - 1074) * 2 ^ 1074 = 2 ^ (53 + k) := by
      rw [← zpow_natCast, ← zpow_natCast, ← zpow_add₀ two_ne_zero]; congr 1; push_cast; ring
    rw [← e]
    exact mul_lt_mul_of_pos_right this (by positivity)
  · rcases Nat.eq_zero_or_pos k with h | h
    · exact .inl h
    · right
      have : (2 : ℚ) ^ ((k : Int) + 52 - 1074) ≤ (n : ℚ) / d := (zpow_le_zpow_right₀ (by norm_num) (by omega)).trans l1
      have e : (2 : ℚ) ^ ((k : Int) + 52 - 1074) * 2 ^ 1074 = 2 ^ (52 + k) := by
        rw [← zpow_natCast, ← zpow_natCast, ← zpow_add₀ two_ne_zero]; congr 1; push_cast; ring
      rw [← e]
      exact mul_le_mul_of_nonneg_right this (by positivity)

/-- The pattern `k * 2^52 + s` has magnitude `s * 2^k`, also where `s` has reached the next binade. -/
theorem f64Units_low {k s : Nat} (h1 : s ≤ 2 ^ 53) (h2 : k = 0 ∨ 2 ^ 52 ≤ s) :
    f64Units ((k * 2 ^ 52 + s) / 2 ^ 52) ((k * 2 ^ 52 + s) % 2 ^ 52) = s * 2 ^ k := by
  have hd := Nat.div_add_mod s (2 ^ 52)
  rw [show (k * 2 ^ 52 + s) / 2 ^ 52 = k + s / 2 ^ 52 by omega, show (k * 2 ^ 52 + s) % 2 ^ 52 = s % 2 ^ 52 by omega]
  have hc : s / 2 ^ 52 = 0 ∨ s / 2 ^ 52 = 1 ∨ s / 2 ^ 52 = 2 := by omega
  unfold f64Units
  rcases hc with h | h | h
  · obtain rfl : k = 0 := by omega
    rw [h, if_pos rfl, pow_zero, mul_one]; omega
  · rw [h, if_neg (by omega), Nat.add_sub_cancel]; congr 1; omega
  · rw [h, if_neg (by omega), show k + 2 - 1 = k + 1 by omega, show s % 2 ^ 52 = 0 by omega,
      show s = 2 ^ 52 * 2 by omega, Nat.add_zero, pow_succ]
    ring

/-- A finite magnitude is a multiple of `2^k`, or lies below the binade of `k`. -/
theorem f64Units_cases {e f : Nat} (hf : f < 2 ^ 52) (k : Nat) :
    (∃ j, f64Units e f = j * 2 ^ k) ∨ (0 < k ∧ f64Units e f < 2 ^ (52 + k)) := by
  by_cases hk : k = 0
  · left; exact ⟨f64Units e f, by rw [hk, pow_zero, mul_one]⟩
  by_cases he : e = 0
  · right; refine ⟨by omega, ?_⟩
    unfold f64Units; rw [if_pos he]
    exact hf.trans_le (Nat.pow_le_pow_right (by decide) (by omega))
  unfold f64Units; rw [if_neg he]
  by_cases h : k ≤ e - 1
  · left
    refine ⟨(2 ^ 52 + f) * 2 ^ (e - 1 - k), ?_⟩
    rw [mul_assoc, ← pow_add]; congr 2; omega
  · right; refine ⟨by omega, ?_⟩
    calc (2 ^ 52 + f) * 2 ^ (e - 1) < 2 ^ 53 * 2 ^ (e - 1) := Nat.mul_lt_mul_of_pos_right (by omega) (Nat.two_pow_pos _)
      _ = 2 ^ (53 + (e - 1)) := (pow_add _ _ _).symm
      _ ≤ _ := Nat.pow_le_pow_right (by decide) (by omega)

/-- No finite magnitude is nearer than the integer that `f64RoundLow` takes; another as near leaves it even. -/
theorem f64Units_nearest {e f k s : Nat} {Q : ℚ} (hf : f < 2 ^ 52) (h1 : |(s : ℚ) * 2 ^ k - Q| ≤ 2 ^ k / 2)
    (h2 : |(s : ℚ) * 2 ^ k - Q| = 2 ^ k / 2 → s % 2 = 0) (h3 : k = 0 ∨ (2 : ℚ) ^ (52 + k) ≤ Q) :
    |(s : ℚ) * 2 ^ k - Q| ≤ |(f64Units e f : ℚ) - Q| ∧
      (|(s : ℚ) * 2 ^ k - Q| = |(f64Units e f : ℚ) - Q| → f64Units e f = s * 2 ^ k ∨ s % 2 = 0) := by
  have hp : (0 : ℚ) < 2 ^ k := by positivity
  have far : ∀ j : Nat, j ≠ s → 2 ^ k - |(s : ℚ) * 2 ^ k - Q| ≤ |(j : ℚ) * 2 ^ k - Q| := by
    intro j hj
    have a : (1 : ℚ) ≤ |(j : ℚ) - s| := by
      have : (1 : Int) ≤ |(j : Int) - s| := Int.one_le_abs (by omega)
      exact_mod_cast this
    have b : |((j : ℚ) - s) * 2 ^ k| ≤ |(j : ℚ) * 2 ^ k - Q| + |(s : ℚ) * 2 ^ k - Q| := by
      rw [show ((j : ℚ) - s) * 2 ^ k = ((j : ℚ) * 2 ^ k - Q) - ((s : ℚ) * 2 ^ k - Q) by ring]
      exact abs_sub _ _
    rw [abs_mul, abs_of_pos hp] at b
    nlinarith
  rcases f64Units_cases (e := e) hf k with ⟨j, hj⟩ | ⟨hk, hlt⟩
  · rw [hj]; push_cast
    by_cases hjs : j = s
    · subst hjs; exact ⟨le_refl _, fun _ => .inl rfl⟩
    · have := far j hjs
      exact ⟨by linarith, fun h => .inr (h2 (by linarith))⟩
  · have h3 := h3.resolve_left (by omega)
    have hlt' : (f64Units e f : ℚ) < 2 ^ (52 + k) := by exact_mod_cast hlt
    have strict : |(s : ℚ) * 2 ^ k - Q| < |(f64Units e f : ℚ) - Q| := by
      have c : |((2 ^ 52 : Nat) : ℚ) * 2 ^ k - Q| < |(f64Units e f : ℚ) - Q| := by
        have e1 : ((2 ^ 52 : Nat) : ℚ) * 2 ^ k = 2 ^ (52 + k) := by rw [pow_add]; push_cast; rfl
        rw [e1, abs_of_nonpos (by linarith), abs_of_neg (by linarith)]
        linarith
      by_cases hs : 2 ^ 52 = s
      · subst hs; exact c
      · have := far _ hs; linarith
    exact ⟨strict.le, fun h => absurd h strict.ne⟩

/-- The same with the sign of the other value free. -/
theorem f64Units_nearest_signed {e f k s : Nat} {Q : ℚ} {δ : ℚ} (hδ : δ = 1 ∨ δ = -1) (hQ : 0 < Q) (hf : f < 2 ^ 52)
    (h1 : |(s : ℚ) * 2 ^ k - Q| ≤ 2 ^ k / 2)
    (h2 : |(s : ℚ) * 2 ^ k - Q| = 2 ^ k / 2 → s % 2 = 0) (h3 : k = 0 ∨ (2 : ℚ) ^ (52 + k) ≤ Q) :
    |(s : ℚ) * 2 ^ k - Q| ≤ |δ * (f64Units e f : ℚ) - Q| ∧
      (|(s : ℚ) * 2 ^ k - Q| = |δ * (f64Units e f : ℚ) - Q| → δ * (f64Units e f : ℚ) = s * 2 ^ k ∨ s % 2 = 0) := by
  rcases hδ with rfl | rfl
  · obtain ⟨a, b⟩ := f64Units_nearest (e := e) hf h1 h2 h3
    rw [one_mul]
    exact ⟨a, fun h => (b h).imp (fun h => by rw [h]; push_cast; rfl) id⟩
  · obtain ⟨a, b⟩ := f64Units_nearest (e := 0) (f := 0) (by decide) h1 h2 h3
    have z : f64Units 0 0 = 0 := rfl
    rw [z, Nat.cast_zero, zero_sub, abs_neg, abs_of_pos hQ] at a b
    have u : (0 : ℚ) ≤ f64Units e f := Nat.cast_nonneg _
    have e' : |-1 * (f64Units e f : ℚ) - Q| = f64Units e f + Q := by
      rw [abs_of_neg (by linarith)]; ring
    rw [e']
    refine ⟨by linarith, fun h => ?_⟩
    have h0 : (f64Units e f : ℚ) = 0 := by linarith
    rw [h0] at h ⊢
    rcases b (by linarith) with b | b
    · left; rw [mul_zero]; exact_mod_cast b
    · exact .inr b

/-- A fraction has 52 bits (R48). -/
theorem f64Fraction_lt (b : F64) : f64Fraction b < 2 ^ 52 := (b.extractLsb' 0 52).isLt

/-- The value of a finite pattern as a signed count of units. -/
theorem f64Value_eq (b : F64) :
    f64Value b = (if f64Sign b then -1 else 1) * (f64Units (f64Exponent b) (f64Fraction b) : ℚ) / 2 ^ 1074 := by
  unfold f64Value signedRat
  rw [f64Magnitude_eq]
  split
  · ring
  · ring

/-- R16: `f64Round` rounds to the nearest binary64, ties to even. -/
theorem f64Round_nearest (zeroNegative : Bool) (q : ℚ) : NearestBinary64 q zeroNegative (f64Round zeroNegative q) := by
  unfold f64Round
  by_cases hq : q = 0
  · subst hq
    rw [if_pos rfl]
    obtain ⟨a, b, c⟩ := f64Pattern_fields (s := zeroNegative) (low := 0) (by decide)
    have v : f64Value (f64Pattern zeroNegative 0) = 0 := by
      rw [f64Value_eq, b, c]; simp [f64Units]
    refine ⟨by rw [a, if_pos rfl], fun h => ?_, fun _ => by rw [b]; decide, fun _ d _ => ?_, fun _ _ _ _ => ?_⟩
    · rw [abs_zero] at h
      have : (2 : ℚ) ^ 970 < 2 ^ 1024 := pow_lt_pow_right₀ (by norm_num) (by norm_num)
      exact absurd h (not_le.mpr (sub_pos.mpr this))
    · rw [v, sub_zero, abs_zero]; exact abs_nonneg _
    · right; rw [c]; rfl
  rw [if_neg hq]
  have hn : 0 < q.num.natAbs := by
    have := Rat.num_ne_zero.mpr hq; omega
  obtain ⟨k, s, e1, h1, h2, h3, h4⟩ := f64RoundLow_spec hn q.den_pos
  have habs : (q.num.natAbs : ℚ) / q.den = |q| := by
    conv_rhs => rw [← Rat.num_div_den q]
    rw [abs_div, abs_of_pos (show (0 : ℚ) < q.den by exact_mod_cast q.den_pos)]
    congr 1
    rw [Nat.cast_natAbs, Int.cast_abs]
  rw [habs] at h1 h2 h3 h4
  rw [e1]
  clear e1 habs hn
  set Q := |q| * 2 ^ 1074 with hQ
  have hQ0 : 0 < Q := mul_pos (abs_pos.mpr hq) (by positivity)
  have hp : (0 : ℚ) < 2 ^ k := by positivity
  have hs : s ≤ 2 ^ 53 := by
    have := (abs_le.mp h1).2
    rw [pow_add] at h3
    have : (s : ℚ) * 2 ^ k < (2 ^ 53 + 1) * 2 ^ k := by linarith
    have : (s : ℚ) < 2 ^ 53 + 1 := lt_of_mul_lt_mul_right this hp.le
    have : s < 2 ^ 53 + 1 := by exact_mod_cast this
    omega
  have hs' : k = 0 ∨ 2 ^ 52 ≤ s := by
    refine h4.imp id fun h4 => ?_
    have := (abs_le.mp h1).1
    rw [pow_add] at h4
    have : ((2 : ℚ) ^ 52) * 2 ^ k < (s + 1) * 2 ^ k := by linarith
    have : (2 : ℚ) ^ 52 < s + 1 := lt_of_mul_lt_mul_right this hp.le
    have : 2 ^ 52 < s + 1 := by exact_mod_cast this
    omega
  have hov : (2 : ℚ) ^ 1024 - 2 ^ 970 ≤ |q| ↔ f64InfinityLow ≤ k * 2 ^ 52 + s := by
    have e : (2 : ℚ) ^ 1024 - 2 ^ 970 ≤ |q| ↔ (2 : ℚ) ^ 2098 - 2 ^ 2044 ≤ Q := by
      rw [hQ, show (2 : ℚ) ^ 2098 - 2 ^ 2044 = (2 ^ 1024 - 2 ^ 970) * 2 ^ 1074 by rw [sub_mul, ← pow_add, ← pow_add]]
      exact (mul_le_mul_iff_left₀ (by positivity)).symm
    rw [e]
    unfold f64InfinityLow
    rcases Nat.lt_trichotomy k 2045 with hk | hk | hk
    · constructor
      · intro h
        have a : (2 : ℚ) ^ (53 + k) ≤ 2 ^ 2097 := pow_le_pow_right₀ (by norm_num) (by omega)
        have b : (2 : ℚ) ^ 2098 = 2 ^ 2097 * 2 := pow_succ _ _
        have c : (2 : ℚ) ^ 2044 ≤ 2 ^ 2097 := pow_le_pow_right₀ (by norm_num) (by omega)
        clear_value Q
        generalize (2 : ℚ) ^ 2098 = p98 at *
        generalize (2 : ℚ) ^ 2097 = p97 at *
        generalize (2 : ℚ) ^ 2044 = p44 at *
        linarith
      · intro h; omega
    · subst hk
      have e98 : (2 : ℚ) ^ 2098 = 2 ^ 53 * 2 ^ 2045 := by rw [← pow_add]
      have e45 : (2 : ℚ) ^ 2045 = 2 ^ 2044 * 2 := pow_succ _ _
      have hpp : (0 : ℚ) < 2 ^ 2044 := by positivity
      rw [e98]
      clear h3 h4 hs' hQ e98
      clear_value Q
      clear e
      generalize (2 : ℚ) ^ 2045 = p45 at *
      generalize (2 : ℚ) ^ 2044 = p44 at *
      subst e45
      constructor
      · intro h
        by_contra hc
        have hs2 : s + 1 ≤ 2 ^ 53 := by omega
        have hsq : (s : ℚ) + 1 ≤ 2 ^ 53 := by exact_mod_cast hs2
        have a := abs_le.mp h1
        have b : ((s : ℚ) + 1) * (p44 * 2) ≤ 2 ^ 53 * (p44 * 2) := mul_le_mul_of_nonneg_right hsq hp.le
        have hQe : Q = (s : ℚ) * (p44 * 2) + p44 := by linarith [a.1]
        have hse : ((s : ℚ) + 1) * (p44 * 2) = 2 ^ 53 * (p44 * 2) := by linarith [a.1]
        have hs3 : (s : ℚ) + 1 = 2 ^ 53 := mul_right_cancel₀ hp.ne' hse
        have hs3 : s + 1 = 2 ^ 53 := by exact_mod_cast hs3
        have := h2 (by rw [hQe, abs_of_neg (by linarith)]; linarith)
        omega
      · intro h
        have hs2 : s = 2 ^ 53 := by omega
        have a := (abs_le.mp h1).2
        have : (s : ℚ) = 2 ^ 53 := by exact_mod_cast hs2
        rw [this] at a
        linarith
    · constructor
      · intro _; omega
      · intro _
        have a := h4.resolve_left (by omega)
        have b : (2 : ℚ) ^ 2098 ≤ 2 ^ (52 + k) := pow_le_pow_right₀ (by norm_num) (by omega)
        have c : (0 : ℚ) < 2 ^ 2044 := by positivity
        clear_value Q
        generalize (2 : ℚ) ^ 2098 = p98 at *
        generalize (2 : ℚ) ^ 2044 = p44 at *
        linarith
  by_cases ho : f64InfinityLow ≤ k * 2 ^ 52 + s
  · rw [Nat.min_eq_left ho]
    obtain ⟨a, b, c⟩ := f64Pattern_fields (s := decide (q < 0)) (low := f64InfinityLow) (by decide)
    have hno : ¬ |q| < (2 : ℚ) ^ 1024 - 2 ^ 970 := not_lt.mpr (hov.mpr ho)
    exact ⟨by rw [a, if_neg hq], fun _ => ⟨by rw [b]; rfl, by rw [c]; rfl⟩, fun h => absurd h hno,
      fun h => absurd h hno, fun h => absurd h hno⟩
  · have ho' := ho
    unfold f64InfinityLow at ho'
    rw [Nat.min_eq_right (by omega)]
    obtain ⟨a, b, c⟩ := f64Pattern_fields (s := decide (q < 0)) (low := k * 2 ^ 52 + s) (by omega)
    have hu := f64Units_low hs hs'
    have hpow : (0 : ℚ) < 2 ^ 1074 := by positivity
    have value := f64Value_eq
    have hno := fun h => ho (hov.mp h)
    clear_value Q
    clear hov
    generalize (2 : ℚ) ^ 1074 = T at *
    have dist : ∀ x : ℚ, ∀ τ : ℚ, (τ = 1 ∨ τ = -1) →
        |τ * x / T - q| = |(if q < 0 then -1 else 1) * τ * x - Q| / T := by
      intro x τ hτ
      rw [eq_div_iff hpow.ne', ← abs_of_pos hpow, ← abs_mul, abs_of_pos hpow, sub_mul, div_mul_cancel₀ _ hpow.ne', hQ]
      split
      · rename_i h
        rw [abs_of_neg h, ← abs_neg]; congr 1; ring
      · rename_i h
        rw [abs_of_nonneg (not_lt.mp h)]; congr 1; ring
    have vr : f64Value (f64Pattern (decide (q < 0)) (k * 2 ^ 52 + s)) =
        (if q < 0 then -1 else 1) * ((s : ℚ) * 2 ^ k) / T := by
      rw [value, a, b, c, hu]; simp only [decide_eq_true_eq]; push_cast; rfl
    have dr : |f64Value (f64Pattern (decide (q < 0)) (k * 2 ^ 52 + s)) - q| = |(s : ℚ) * 2 ^ k - Q| / T := by
      rw [vr, dist _ _ (by split <;> simp)]
      congr 3
      split <;> ring
    have near : ∀ d : F64, _ := fun d => f64Units_nearest_signed (e := f64Exponent d) (f := f64Fraction d)
      (δ := (if q < 0 then -1 else 1) * (if f64Sign d then -1 else 1)) (by split <;> split <;> simp) hQ0
      (f64Fraction_lt d) h1 h2 h4
    have dd : ∀ d : F64, |f64Value d - q| = |(if q < 0 then -1 else 1) * (if f64Sign d then -1 else 1) *
        (f64Units (f64Exponent d) (f64Fraction d) : ℚ) - Q| / T := by
      intro d; rw [value, dist _ _ (by split <;> simp)]
    refine ⟨by rw [a, if_neg hq], fun h => absurd h hno, fun _ => by rw [b]; omega, fun _ d _ => ?_,
      fun _ d _ h => ?_⟩
    · rw [dr, dd]
      exact div_le_div_of_nonneg_right (near d).1 hpow.le
    · rw [dr, dd, div_left_inj' hpow.ne'] at h
      refine ((near d).2 h).imp (fun h => ?_) (fun h => by rw [c]; omega)
      rw [vr, value]
      congr 1
      rw [← h]
      split <;> split <;> ring

/-- The datum of a finite pattern. -/
theorem binary64_finite {a : F64} (h : f64Exponent a ≠ 2047) : binary64 a = .finite (f64Sign a) (f64Magnitude a) := by
  unfold binary64; rw [if_neg h]

/-- The three kinds of datum, by the fields of the pattern. -/
theorem binary64_cases (a : F64) :
    (f64IsNaN a = true ∧ binary64 a = .nan ∧ f64Exponent a = 2047 ∧ f64Fraction a ≠ 0) ∨
    (f64IsNaN a = false ∧ binary64 a = .infinity (f64Sign a) ∧ f64Exponent a = 2047 ∧ f64Fraction a = 0) ∨
    (f64IsNaN a = false ∧ binary64 a = .finite (f64Sign a) (f64Magnitude a) ∧ f64Exponent a ≠ 2047) := by
  unfold binary64 f64IsNaN
  by_cases h : f64Exponent a = 2047 <;> by_cases h' : f64Fraction a = 0 <;> simp [h, h']

/-- A NaN result is a NaN, of whichever pattern (assumption 4). -/
theorem nanResult_isNaN (op : FloatOp) (a b : F64) : f64IsNaN (nanResult op a b) = true := by
  unfold nanResult; split
  · assumption
  · decide

/-- The fields of an infinity. -/
theorem f64Infinity_spec (s : Bool) : (f64Exponent (f64Infinity s) = 2047 ∧ f64Fraction (f64Infinity s) = 0) ∧
    f64Sign (f64Infinity s) = s := by cases s <;> decide

end Sys2Proof.Machine
end

