-- ==== Sys2Proof/Laws/PerInstr.lean ====
section
/-! SUPPORT. Laws/PerInstr.lean: the per-instruction family: the encoded word of a well-formed instruction is a
well-formed command word (R111, R116). -/

namespace Sys2Proof.Laws.EncodedWordIsWellFormed

/-- The word `OP | (OPT << 8)` of a well-formed instruction is one R111 admits. -/
def Statement (i : Instr) : Prop := i.wellFormed = true → wordWellFormed (encode i) = true

theorem nop : Statement .nop := by unfold Statement; decide

theorem gb7Dec : Statement .gb7Dec := by unfold Statement; decide

theorem gb7DecPlane : Statement .gb7DecPlane := by unfold Statement; decide

theorem gb7Enc (fm : Bool) : Statement (.gb7Enc fm) := by cases fm <;> (unfold Statement; decide)

theorem gb7EncInline (fm : Bool) : Statement (.gb7EncInline fm) := by cases fm <;> (unfold Statement; decide)

theorem gb7Render (d8 : Bool) : Statement (.gb7Render d8) := by cases d8 <;> (unfold Statement; decide)

theorem ccSrgbToLin : Statement .ccSrgbToLin := by unfold Statement; decide

theorem ccLinToSrgb : Statement .ccLinToSrgb := by unfold Statement; decide

theorem ccLinToXyz : Statement .ccLinToXyz := by unfold Statement; decide

theorem ccXyzToLin : Statement .ccXyzToLin := by unfold Statement; decide

theorem ccRgb8ToXyz : Statement .ccRgb8ToXyz := by unfold Statement; decide

theorem ccXyzToRgb8 : Statement .ccXyzToRgb8 := by unfold Statement; decide

theorem ccXyzToLab : Statement .ccXyzToLab := by unfold Statement; decide

theorem ccLabToXyz : Statement .ccLabToXyz := by unfold Statement; decide

theorem ccLabToLch : Statement .ccLabToLch := by unfold Statement; decide

theorem ccLchToLab : Statement .ccLchToLab := by unfold Statement; decide

theorem ccLinToOklab : Statement .ccLinToOklab := by unfold Statement; decide

theorem ccOklabToLin : Statement .ccOklabToLin := by unfold Statement; decide

theorem ccRgb8ToOklab : Statement .ccRgb8ToOklab := by unfold Statement; decide

theorem ccOklabToRgb8 : Statement .ccOklabToRgb8 := by unfold Statement; decide

theorem ccOklabToOklch : Statement .ccOklabToOklch := by unfold Statement; decide

theorem ccOklchToOklab : Statement .ccOklchToOklab := by unfold Statement; decide

theorem ccGb7ToRgb8 : Statement .ccGb7ToRgb8 := by unfold Statement; decide

theorem ccRgb8ToGb7 : Statement .ccRgb8ToGb7 := by unfold Statement; decide

theorem composite : Statement .composite := by unfold Statement; decide

theorem rsRgbaNearest : Statement .rsRgbaNearest := by unfold Statement; decide

theorem rsRgbaBilinear : Statement .rsRgbaBilinear := by unfold Statement; decide

theorem rsGrayNearest (d8 : Bool) : Statement (.rsGrayNearest d8) := by cases d8 <;> (unfold Statement; decide)

theorem rsGrayBilinear (d8 : Bool) : Statement (.rsGrayBilinear d8) := by cases d8 <;> (unfold Statement; decide)

theorem lutBuildRamp : Statement .lutBuildRamp := by unfold Statement; decide

theorem lutBuildFlat : Statement .lutBuildFlat := by unfold Statement; decide

theorem lutApply (ta hr hg hb ha : Bool) : Statement (.lutApply ta hr hg hb ha) := by
  unfold Statement; revert ta hr hg hb ha; decide

theorem conv3x3 (tgt norm : BitVec 2) (apass : Bool) : Statement (.conv3x3 tgt norm apass) := by
  unfold Statement; revert tgt norm apass; decide

end Sys2Proof.Laws.EncodedWordIsWellFormed
end

