-- ==== Sys2Proof/Laws/Port.lean ====
section
/-! SUPPORT. Laws/Port.lean: what an access to the register window does, said once. -/

namespace Sys2Proof.Machine
set_option maxRecDepth 100000

/-- A 32-bit write at a word-aligned offset reaches the register there, unless the reset input is asserted (R52, R371). -/
theorem busWrite_at {s : State} {off : Nat} {v : Word} (h : off < 0x100) (h4 : off % 4 = 0) :
    busWrite (s.platform.base + off) 32 v s = if s.inReset then .next s else .next (s.writeReg (regAt off) v) := by
  unfold busWrite
  have h1 : s.inWindow (s.platform.base + off) = true := by simp [State.inWindow, h]
  have h2 : s.wordAccess (s.platform.base + off) 32 = true := by simp [State.wordAccess, h4]
  have h3 : s.regOf (s.platform.base + off) = regAt off := by simp [State.regOf]
  simp [h1, h2, h3]

/-- A 32-bit read at a word-aligned offset returns the register there (R52). -/
theorem busRead_at {s : State} {off : Nat} (h : off < 0x100) (h4 : off % 4 = 0) :
    busRead (s.platform.base + off) 32 s = .next { s with readData := s.readReg (regAt off) } := by
  unfold busRead
  have h1 : s.inWindow (s.platform.base + off) = true := by simp [State.inWindow, h]
  have h2 : s.wordAccess (s.platform.base + off) 32 = true := by simp [State.wordAccess, h4]
  have h3 : s.regOf (s.platform.base + off) = regAt off := by simp [State.regOf]
  simp [h1, h2, h3]

/-- The same write with the reset input released. -/
theorem busWrite_on {s : State} {off : Nat} {v : Word} (h : off < 0x100) (h4 : off % 4 = 0) (hr : s.inReset = false) :
    busWrite (s.platform.base + off) 32 v s = .next (s.writeReg (regAt off) v) := by
  rw [busWrite_at h h4]; simp [hr]

/-- What a successful bus write is. -/
theorem busWrite_next {s t : State} {a w : Nat} {v : Word} (h : busWrite a w v s = .next t) :
    ∃ off, off < 0x100 ∧ off % 4 = 0 ∧ a = s.platform.base + off ∧ w = 32 ∧
      ((s.inReset = true ∧ t = s) ∨ (s.inReset = false ∧ t = s.writeReg (regAt off) v)) := by
  unfold busWrite at h
  split at h; · simp at h
  rename_i h1
  split at h; · simp at h
  rename_i h2
  simp [State.inWindow] at h1
  simp [State.wordAccess] at h2
  refine ⟨a - s.platform.base, by omega, h2.2, by omega, h2.1, ?_⟩
  split at h <;> injection h with h
  · left; exact ⟨by assumption, h.symm⟩
  · right; exact ⟨by simp_all, h.symm⟩

/-- CMD, CTRL and STATUS have one offset each (R30). -/
theorem off_cmd {off : Nat} (h : off < 0x100) (h4 : off % 4 = 0) (hr : regAt off = .cmd) : off = 0x10 := by
  have : ∀ o : Fin 256, o.val % 4 = 0 → regAt o.val = .cmd → o.val = 0x10 := by decide
  exact this ⟨off, h⟩ h4 hr
theorem off_ctrl {off : Nat} (h : off < 0x100) (h4 : off % 4 = 0) (hr : regAt off = .ctrl) : off = 0x4 := by
  have : ∀ o : Fin 256, o.val % 4 = 0 → regAt o.val = .ctrl → o.val = 0x4 := by decide
  exact this ⟨off, h⟩ h4 hr
theorem off_status {off : Nat} (h : off < 0x100) (h4 : off % 4 = 0) (hr : regAt off = .status) : off = 0x8 := by
  have : ∀ o : Fin 256, o.val % 4 = 0 → regAt o.val = .status → o.val = 0x8 := by decide
  exact this ⟨off, h⟩ h4 hr

end Sys2Proof.Machine
end

