-- ==== Sys2Proof/Tests/Slice0.lean ====
section
/-! SUPPORT. Tests/Slice0.lean: the model's own tests. Expected values come from the worked vectors of
95_test_vectors.md, from the examples of the rules, or from hand calculation with the encoding tables (R109, R112).
A theorem named witness_<Statement> shows a concrete state and operands that meet the hypotheses of that statement. -/

namespace Sys2Proof.Tests
open Sys2Proof Sys2Proof.Machine

-- The theorems are checked one after another: many kernel evaluations at once would need a thread each.
set_option Elab.async false

/-! ## Helpers -/

/-- Bytes stored from an address on. -/
def stored (a : Nat) : List Byte → Memory → Memory
  | [], m => m
  | b :: rest, m => stored (a + 1) rest (m.write a b)

/-- The reset state with the first argument registers and data memory set. -/
def bench (args : List Word) (m : Memory) : State :=
  { State.reset with args := Vector.ofFn (fun k => args.getD k.val 0#32), mem := m }

/-- The state after one completion step. -/
def after (i : Instr) (s : State) : State := s.complete (commandOf i s)

/-- The bytes of data memory from an address on. -/
def look (s : State) (a n : Nat) : List Byte := (List.range n).map (fun k => s.mem.read (a + k))

/-- STATUS and ERRINFO after one completion step. -/
def ends (i : Instr) (s : State) : Word × Word := ((after i s).statusWord, (after i s).errinfo)

/-- Every ninth weight as given. -/
def kernelOf (l : List Word) : Vector Word 9 := Vector.ofFn (fun k => l.getD k.val 0#32)

/-- A step's next state, where it has one. -/
def nextOf (o : Host.Outcome State Fault Refusal) : Option State :=
  match o with
  | .next t => some t
  | .fault _ => none
  | .refused _ => none

theorem exec_after (i : Instr) (s : State) : exec i s = .next (after i s) := exec_eq i s

theorem not_decoded {w : Word} {e : DecodeError} (h : decode w = .error e) : ∀ i, decode w ≠ .ok i := by
  simp [h]

theorem all_respond {s : State} (h : s.platform.holes = []) (a : Nat) : s.responds a = true := by
  simp [State.responds, Platform.memOK, h]

theorem responds_on {s : State} (h : s.platform.holes = []) (a n : Nat) : s.respondsOn a n :=
  fun k _ => all_respond h (a + k)

theorem checked {a n b m : Nat} (h : a + n ≤ dataSpace ∧ b + m ≤ dataSpace ∧ (a + n ≤ b ∨ b + m ≤ a)) :
    checkedBuffers a n b m := by
  refine ⟨h.1, h.2.1, ?_⟩
  intro k j hk hj
  omega

/-! ## WellFormed: each check, with a term or a word it refuses (R102, R109, R111) -/

theorem test_wellFormed_refuses_reserved_tgt : (Instr.conv3x3 0b11#2 0b00#2 false).wellFormed = false := by decide

theorem test_wellFormed_refuses_reserved_norm : (Instr.conv3x3 0b10#2 0b11#2 true).wellFormed = false := by decide

theorem test_wellFormed_admits_defined_fields : (Instr.conv3x3 0b10#2 0b10#2 true).wellFormed = true := by decide

/-- A RES bit, an OP outside the table, an undefined OPT bit, TGT = 11 and NORM = 11. -/
theorem test_wordWellFormed_refuses :
    wordWellFormed 0x00010000#32 = false ∧ wordWellFormed 0x00000015#32 = false ∧
    wordWellFormed 0x00000240#32 = false ∧ wordWellFormed 0x00000370#32 = false ∧
    wordWellFormed 0x00000C70#32 = false := by decide

/-! ## Decode: one word written out for every constructor (R112, R116) -/

theorem test_decode_control_and_gb7 :
    decode 0x00000000#32 = .ok .nop ∧ decode 0x00000010#32 = .ok .gb7Dec ∧
    decode 0x00000011#32 = .ok .gb7DecPlane ∧ decode 0x00000112#32 = .ok (.gb7Enc true) ∧
    decode 0x00000013#32 = .ok (.gb7EncInline false) ∧ decode 0x00000114#32 = .ok (.gb7Render true) := by decide

theorem test_decode_colour :
    decode 0x00000020#32 = .ok .ccSrgbToLin ∧ decode 0x00000021#32 = .ok .ccLinToSrgb ∧
    decode 0x00000022#32 = .ok .ccLinToXyz ∧ decode 0x00000023#32 = .ok .ccXyzToLin ∧
    decode 0x00000024#32 = .ok .ccRgb8ToXyz ∧ decode 0x00000025#32 = .ok .ccXyzToRgb8 ∧
    decode 0x00000026#32 = .ok .ccXyzToLab ∧ decode 0x00000027#32 = .ok .ccLabToXyz ∧
    decode 0x00000028#32 = .ok .ccLabToLch ∧ decode 0x00000029#32 = .ok .ccLchToLab := by decide

theorem test_decode_oklab :
    decode 0x0000002A#32 = .ok .ccLinToOklab ∧ decode 0x0000002B#32 = .ok .ccOklabToLin ∧
    decode 0x0000002C#32 = .ok .ccRgb8ToOklab ∧ decode 0x0000002D#32 = .ok .ccOklabToRgb8 ∧
    decode 0x0000002E#32 = .ok .ccOklabToOklch ∧ decode 0x0000002F#32 = .ok .ccOklchToOklab ∧
    decode 0x00000030#32 = .ok .ccGb7ToRgb8 ∧ decode 0x00000031#32 = .ok .ccRgb8ToGb7 := by decide

theorem test_decode_buffers :
    decode 0x00000040#32 = .ok .composite ∧ decode 0x00000050#32 = .ok .rsRgbaNearest ∧
    decode 0x00000051#32 = .ok .rsRgbaBilinear ∧ decode 0x00000052#32 = .ok (.rsGrayNearest false) ∧
    decode 0x00000153#32 = .ok (.rsGrayBilinear true) ∧ decode 0x00000060#32 = .ok .lutBuildRamp ∧
    decode 0x00000061#32 = .ok .lutBuildFlat := by decide

/-- The assembler encodings of section 2.1 with several OPT fields. -/
theorem test_decode_option_fields :
    decode 0x00000E62#32 = .ok (.lutApply false true true true false) ∧
    decode 0x00001162#32 = .ok (.lutApply true false false false true) ∧
    decode 0x00000670#32 = .ok (.conv3x3 0b10#2 0b01#2 false) ∧
    decode 0x00001A70#32 = .ok (.conv3x3 0b10#2 0b10#2 true) := by decide

/-- The BAD_CMD words of section 2.1. -/
theorem test_decode_refuses :
    [0x00000100#32, 0x00010000#32, 0x000000FF#32, 0x00000015#32, 0x00000032#32, 0x0000001F#32, 0x00000212#32,
      0x00000240#32, 0x00002062#32, 0x00000370#32, 0x00000C70#32, 0x00002070#32].all
      (fun w => match decode w with | .ok _ => false | .error _ => true) = true := by decide

theorem test_decode_table_word :
    decodeTableWord 32 0x00001A70 = some (.conv3x3 0b10#2 0b10#2 true) ∧ decodeTableWord 32 0x00000370 = none ∧
    decodeTableWord 64 0x100000000 = none := by decide

/-! ## The register window (R30) -/

theorem test_register_offsets :
    [0x00, 0x04, 0x08, 0x0C, 0x10, 0x14, 0x18, 0x1C].map regAt =
      [Reg.id, .ctrl, .status, .errinfo, .cmd, .result0, .result1, .reserved] ∧
    [0x20, 0x3C, 0x40, 0x60, 0x64, 0x7C].map regAt =
      [Reg.arg 0, .arg 7, .kernel 0, .kernel 8, .reserved, .reserved] ∧
    [0x80, 0x84, 0x88, 0x8C, 0x9C, 0xA0, 0xB4, 0xB8, 0xFC].map regAt =
      [Reg.pixin, .pixout, .fin 0 false, .fin 0 true, .fin 2 true, .fout 0 false, .fout 2 true, .reserved,
        .reserved] := by decide

/-- Steps 3 to 9 of section 2.2 as STATUS words, with irq at the end of each. -/
theorem test_status_sequence :
    let s3 := State.reset.issue 0#32
    let s4 := s3.writeReg .cmd 0x10#32
    let s6 := (s4.writeReg (.arg 0) 5#32).writeReg .ctrl 1#32
    let s7 := after .nop s6
    let s8 := s7.writeReg .status 2#32
    let s9 := s8.writeReg .status 8#32
    (s3.statusWord, s4.statusWord, s4.cmd, s6.args[0], s6.ctrlWord, s6.irq) = (1#32, 9#32, 0#32, 0#32, 1#32, false) ∧
    (s7.statusWord, s7.irq, s8.statusWord, s8.irq, s9.statusWord) = (0xA#32, true, 8#32, false, 0#32) := by decide

/-- Step 14 of section 2.2, and the 64-bit halves. -/
theorem test_soft_reset_and_halves :
    let s := (((State.reset.writeReg (.arg 3) 7#32).writeReg (.kernel 4) 0x3F800000#32).writeReg .pixin 0x1234#32)
    let f := (State.reset.writeReg (.fin 0 false) 0x11111111#32).writeReg (.fin 0 true) 0x3FF00000#32
    s.writeReg .ctrl 0x80000001#32 = State.reset ∧ f.fin[0] = 0x3FF0000011111111#64 ∧
    (f.writeReg (.fin 0 false) 0#32).fin[0] = 0x3FF0000000000000#64 := by decide

/-! ## One step per instruction: the vectors of sections 1 and 2 -/

/-- `H(W, H, F)` of section 2.3. -/
def header (width height : Nat) (flags : Byte) : List Byte :=
  [0x47#8, 0x42#8, 0x37#8, 0x1D#8, 0x01#8, flags, BitVec.ofNat 8 (width / 256), BitVec.ofNat 8 width,
    BitVec.ofNat 8 (height / 256), BitVec.ofNat 8 height, 0x00#8, 0x00#8]

/-- A decoder's set-up: the stream at 0x1000, the destination at 0x2000. -/
def decoding (stream : List Byte) (length capacity : Word) : State :=
  bench [0x1000#32, length, 0x2000#32, capacity] (stored 0x1000 stream [])

/-- GB7_DEC vectors 11 and 12. -/
theorem test_gb7Dec :
    let v11 := after .gb7Dec (decoding
      [0x47, 0x42, 0x37, 0x1D, 0xAB, 0xFE, 0x00, 0x02, 0x00, 0x01, 0x00, 0x00, 0x81, 0x7F] 14#32 64#32)
    let v12 := after .gb7Dec (decoding (header 2 1 1#8 ++ [0x81, 0x7F]) 14#32 64#32)
    (v11.statusWord, v11.result0, v11.result1, look v11 0x2000 3) = (2#32, 0x00010002#32, 0x00FEAB07#32, [0x01, 0x7F, 0]) ∧
    (v12.statusWord, v12.result1, look v12 0x2000 3) = (2#32, 0x00010108#32, [0x81, 0x7F, 0]) := by decide +kernel

/-- The plane decode of section 2.3, and GB7_DEC of the same stream. -/
def planeStream : List Byte :=
  header 9 1 1#8 ++ [0x85, 0x01, 0x02, 0x03, 0x04, 0x05, 0x06, 0x07, 0x08, 0xA0, 0x80]

theorem test_gb7DecPlane :
    let t := after .gb7DecPlane (decoding planeStream 23#32 64#32)
    (t.statusWord, t.result0, t.result1) = (2#32, 0x00010009#32, 0x00010108#32) ∧
    look t 0x2000 10 = [0x85, 0x01, 0x82, 0x03, 0x04, 0x05, 0x06, 0x07, 0x88, 0] ∧
    ends .gb7DecPlane (decoding planeStream 22#32 64#32) = (0x1204#32, 0x17#32) ∧
    look (after .gb7Dec (decoding planeStream 23#32 64#32)) 0x2000 9 =
      [0x85, 0x01, 0x02, 0x03, 0x04, 0x05, 0x06, 0x07, 0x08] := by decide +kernel

/-- `p9` of section 2.3 at 0x100, the stream at 0x400. -/
def encoding (pixels : List Byte) (width height capacity threshold : Word) : State :=
  bench [0x100#32, width, height, 0x400#32, capacity, threshold] (stored 0x100 pixels [])

/-- Pixel `i` is (30i, 30i, 30i), opaque for even `i`, alpha 100 for odd `i`. -/
def p9 : List Byte :=
  (List.range 9).flatMap (fun i =>
    let v := BitVec.ofNat 8 (30 * i)
    [v, v, v, if i % 2 = 0 then 255#8 else 100#8])

/-- GB7_ENC vectors 1 and 4, and E11. -/
theorem test_gb7Enc :
    let v1 := after (.gb7Enc false) (encoding p9 9#32 1#32 64#32 128#32)
    let v4 := after (.gb7Enc true) (encoding [0xFF, 0xFF, 0xFF, 0xFF] 1#32 1#32 64#32 128#32)
    let e11 := after (.gb7Enc false) (encoding [0xFF, 0xFF, 0xFF, 0xFF] 1#32 1#32 64#32 128#32)
    (v1.statusWord, v1.result0, v1.result1) = (2#32, 23#32, 1#32) ∧
    look v1 0x400 24 = header 9 1 1#8 ++ [0x00, 0x0F, 0x1E, 0x2D, 0x3C, 0x4B, 0x5A, 0x69, 0x78, 0xAA, 0x80, 0] ∧
    (v4.result0, v4.result1, look v4 0x400 14) = (14#32, 1#32, header 1 1 1#8 ++ [0x7F, 0x80]) ∧
    (e11.result0, e11.result1, look e11 0x400 14) = (13#32, 0#32, header 1 1 0#8 ++ [0x7F, 0]) := by decide +kernel

/-- GB7_ENC vectors 3 and 10: the threshold. -/
theorem test_gb7Enc_threshold :
    look (after (.gb7Enc false) (encoding p9 9#32 1#32 64#32 0#32)) 0x415 2 = [0xFF, 0x80] ∧
    look (after (.gb7Enc false)
      (encoding [0, 0, 0, 0xFE, 0, 0, 0, 0xFF] 2#32 1#32 64#32 255#32)) 0x40E 1 = [0x40] := by decide +kernel

/-- GB7_ENC_INLINE vectors 2 and 9. -/
theorem test_gb7EncInline :
    let v2 := after (.gb7EncInline false) (encoding p9 9#32 1#32 64#32 128#32)
    let v9 := after (.gb7EncInline false) (encoding
      [0xFF, 0, 0, 0xFF, 0, 0xFF, 0, 0xFF, 0, 0, 0xFF, 0xFF, 0x80, 0x80, 0x80, 0xFF] 4#32 1#32 64#32 128#32)
    (v2.result0, v2.result1) = (21#32, 1#32) ∧
    look v2 0x40C 10 = [0x80, 0x0F, 0x9E, 0x2D, 0xBC, 0x4B, 0xDA, 0x69, 0xF8, 0] ∧
    (v9.result0, v9.result1, look v9 0x40C 4) = (16#32, 0#32, [0x1B, 0x5B, 0x09, 0x40]) := by decide +kernel

/-- The render vectors of section 2.3, at both depths. -/
theorem test_gb7Render :
    let s := bench [0x100#32, 6#32, 1#32, 0x200#32] (stored 0x100 [0x00, 0x40, 0x7F, 0x80, 0xC0, 0xFF] [])
    look (after (.gb7Render true) s) 0x200 24 =
      [0, 0, 0, 0, 0x81, 0x81, 0x81, 0, 0xFF, 0xFF, 0xFF, 0, 0, 0, 0, 0xFF, 0x81, 0x81, 0x81, 0xFF, 0xFF, 0xFF,
        0xFF, 0xFF] ∧
    look (after (.gb7Render false) s) 0x200 8 = [0, 0, 0, 0xFF, 0x81, 0x81, 0x81, 0xFF] := by decide +kernel

/-- The reset state with the colour inputs set. -/
def colours (a b c : F64) (pixel : Word) : State := { State.reset with fin := #v[a, b, c], pixin := pixel }

theorem test_nop :
    let t := after .nop { State.reset with ovr := true, result0 := 5#32 }
    (t.statusWord, t.result0, t.draws) = (0xA#32, 0#32, 1) := by decide

/-- The linear branch at its branch point, 0.04045. -/
theorem test_ccSrgbToLin :
    (after .ccSrgbToLin (colours 0#64 0x3FA4B5DCC63F1412#64 0#64 0#32)).fout[1] = 0x3F69A5C61C57A062#64 := by
  decide +kernel

/-- T_INV gives 0.04045 and -0.01 gives -0.1292. -/
theorem test_ccLinToSrgb :
    let t := after .ccLinToSrgb (colours 0x3F69A5C61C57A062#64 (fl (-1 / 100)) 0#64 0#32)
    t.fout[0] = 0x3FA4B5DCC63F1412#64 ∧ t.fout[1] = 0xBFC089A027525461#64 ∧ t.fout[2] = 0#64 := by decide +kernel

/-- White: `Y` is 1.0000001. -/
theorem test_ccLinToXyz :
    let one := 0x3FF0000000000000#64
    let t := after .ccLinToXyz (colours one one one 0#32)
    t.fout[0] = fl (95047 / 100000) ∧ t.fout[1] = 0x3FF000001AD7F29B#64 ∧ t.fout[2] = fl (108883 / 100000) := by
  decide +kernel

/-- Red: 0.9999999999999999 is the pattern below 1. -/
theorem test_ccXyzToLin :
    let t := after .ccXyzToLin (colours 0x3FDA65AF8741A841#64 0x3FCB38DD971F6BD6#64 0x3F93CC4410D1089C#64 0#32)
    t.fout[0] = 0x3FEFFFFFFFFFFFFF#64 ∧ t.pixout = 0#32 ∧ t.statusWord = 2#32 := by decide +kernel

theorem test_ccRgb8ToXyz_black :
    (after .ccRgb8ToXyz (colours 1#64 1#64 1#64 0xFF000000#32)).fout = #v[0#64, 0#64, 0#64] := by decide +kernel

theorem test_ccXyzToRgb8_black :
    let t := after .ccXyzToRgb8 (colours 0#64 0#64 0#64 0x12#32)
    (t.pixout, t.pixin, t.statusWord) = (0xFF000000#32, 0x12#32, 2#32) := by decide +kernel

/-- Black has L = 0, a = 0, b = 0. -/
theorem test_ccXyzToLab_black :
    (after .ccXyzToLab (colours 0#64 0#64 0#64 0#32)).fout[1] = 0#64 ∧
    (after .ccXyzToLab (colours 0#64 0#64 0#64 0#32)).fout[2] = 0#64 := by decide +kernel

/-- (100, 0, 0) gives the reference white. -/
theorem test_ccLabToXyz_white :
    let t := after .ccLabToXyz (colours (fl 100) 0#64 0#64 0#32)
    t.fout[0] = fl (95047 / 100000) ∧ t.fout[1] = 0x3FF0000000000000#64 ∧ t.fout[2] = fl (108883 / 100000) := by
  decide +kernel

/-- The L of both polar forms passes through unchanged. -/
theorem test_polar_lightness :
    let s := colours (fl 50) (fl 1) (fl 2) 0#32
    [Instr.ccLabToLch, .ccOklabToOklch, .ccLchToLab, .ccOklchToOklab].all
      (fun i => (after i s).fout[0] == fl 50 && (after i s).statusWord == 2#32) = true := by decide +kernel

/-- The hue folds of R190: 180 stays, a value below 0 that rounds up to 360 becomes 0. -/
theorem test_foldHue :
    foldHue (fl 180) = fl 180 ∧ foldHue (fl (-90)) = fl 270 ∧ foldHue (fl (-1 / 10 ^ 30)) = 0#64 ∧
    foldHue (fl 360) = 0#64 := by decide +kernel

/-- (0, 0, 0) gives (0, 0, 0), and (1, 0, 0) gives (1, 1, 1) exactly. -/
theorem test_ccOklabToLin :
    let one := 0x3FF0000000000000#64
    (after .ccOklabToLin (colours 0#64 0#64 0#64 0#32)).fout = #v[0#64, 0#64, 0#64] ∧
    (after .ccOklabToLin (colours one 0#64 0#64 0#32)).fout = #v[one, one, one] := by decide +kernel

theorem test_ccOklabToRgb8_black :
    (after .ccOklabToRgb8 (colours 0#64 0#64 0#64 0#32)).pixout = 0xFF000000#32 := by decide +kernel

/-- CC_LIN_TO_OKLAB and CC_RGB8_TO_OKLAB write CC_FOUT alone. -/
theorem test_oklab_leaves_pixout :
    let s := { colours 1#64 2#64 3#64 4#32 with pixout := 5#32, result0 := 6#32 }
    ((after .ccLinToOklab s).pixout, (after .ccLinToOklab s).result0) = (5#32, 0#32) ∧
    ((after .ccRgb8ToOklab s).pixout, (after .ccRgb8ToOklab s).fin) = (5#32, s.fin) := by decide +kernel

theorem test_ccGb7ToRgb8 :
    [0x00#32, 0x01#32, 0x3F#32, 0x40#32, 0x7F#32, 0xFFFFFF80#32, 0xFFFFFFC0#32].map
      (fun w => (after .ccGb7ToRgb8 (colours 0#64 0#64 0#64 w)).pixout) =
      [0xFF000000#32, 0xFF020202#32, 0xFF7E7E7E#32, 0xFF818181#32, 0xFFFFFFFF#32, 0xFF000000#32, 0xFF818181#32] := by
  decide +kernel

theorem test_ccRgb8ToGb7 :
    [0xFF#32, 0xFF00#32, 0xFF0000#32, 0x808080#32, 0xFF010101#32, 0x020202#32].map
      (fun w => (after .ccRgb8ToGb7 (colours 0#64 0#64 0#64 w)).pixout) =
      [0x1B#32, 0x5B#32, 0x09#32, 0x40#32, 0x00#32, 0x01#32] := by decide +kernel

/-- A 32-byte Color descriptor `C(flags, blend, opacity, rgba)` of section 2.5. -/
def colorLayer (flags blend : Byte) (opacity : Word) (rgba : List Byte) : List Byte :=
  [flags, blend, 0, 0, opacity.extractLsb' 0 8, opacity.extractLsb' 8 8, opacity.extractLsb' 16 8,
    opacity.extractLsb' 24 8, 0, 0, 0, 0, 0, 0, 0, 0] ++ rgba ++ [0, 0, 0, 0, 0, 0, 0, 0, 0, 0, 0, 0]

/-- An Image descriptor `I(flags, blend, opacity, lw, lh, addr)`. -/
def imageLayer (flags blend : Byte) (opacity lw lh address : Word) : List Byte :=
  [flags, blend, 0, 0] ++ [opacity, lw, lh, address].flatMap
    (fun w => [w.extractLsb' 0 8, w.extractLsb' 8 8, w.extractLsb' 16 8, w.extractLsb' 24 8]) ++
    [0, 0, 0, 0, 0, 0, 0, 0, 0, 0, 0, 0]

/-- The table at 0x100, the destination at 0x800, an image at 0x400. -/
def stack (count width height : Word) (table image : List Byte) : State :=
  bench [0x100#32, count, width, height, 0x800#32] (stored 0x400 image (stored 0x100 table []))

/-- The blend modes at opacity 1 and 0.5. -/
theorem test_composite_blends :
    let base := colorLayer 5 0 0x3F800000#32 [100, 150, 200, 255]
    let run := fun (blend : Byte) (opacity : Word) =>
      look (after .composite (stack 2#32 1#32 1#32 (base ++ colorLayer 5 blend opacity [200, 50, 128, 255]) [])) 0x800 4
    [0, 1, 2, 3].map (fun m => run m 0x3F800000#32) =
      [[0xC8, 0x32, 0x80, 0xFF], [0x4E, 0x1D, 0x64, 0xFF], [0xDE, 0xAB, 0xE4, 0xFF], [0x9D, 0x56, 0xC8, 0xFF]] ∧
    [0, 1, 2, 3].map (fun m => run m 0x3F000000#32) =
      [[0x96, 0x64, 0xA4, 0xFF], [0x59, 0x5A, 0x96, 0xFF], [0xA1, 0xA0, 0xD6, 0xFF], [0x80, 0x76, 0xC8, 0xFF]] := by
  decide +kernel

/-- The image layers of section 2.5: plain, with AHID, and with another size. -/
theorem test_composite_images :
    let image : List Byte := [0xFF, 0, 0, 0x80, 0, 0xFF, 0, 0]
    let run := fun (d : List Byte) => after .composite (stack 1#32 2#32 1#32 d image)
    let plain := run (imageLayer 1 0 0x3F800000#32 2#32 1#32 0x400#32)
    let hidden := run (imageLayer 3 0 0x3F800000#32 2#32 1#32 0x400#32)
    let other := run (imageLayer 1 0 0x3F800000#32 3#32 1#32 0x400#32)
    (plain.result0, look plain 0x800 8) = (1#32, [0xFF, 0, 0, 0x80, 0, 0, 0, 0]) ∧
    (hidden.result0, look hidden 0x800 8) = (1#32, [0xFF, 0, 0, 0xFF, 0, 0xFF, 0, 0xFF]) ∧
    (other.result0, look other 0x800 8) = (0#32, [0, 0, 0, 0, 0, 0, 0, 0]) := by decide +kernel

/-- A resampling set-up: the source at 0x100, the destination at 0x200. -/
def resampling (source : List Byte) (sw sh dw dh : Word) : State :=
  bench [0x100#32, sw, sh, 0x200#32, dw, dh] (stored 0x100 source [])

/-- `Q` of section 2.6: black, red / green, blue. -/
def quad : List Byte := [0, 0, 0, 0xFF, 0xFF, 0, 0, 0xFF, 0, 0xFF, 0, 0xFF, 0, 0, 0xFF, 0xFF]

/-- Q to 3 by 3: the first row is black, red, red and the last green, blue, blue. -/
theorem test_rsRgbaNearest :
    let t := after .rsRgbaNearest (resampling quad 2#32 2#32 3#32 3#32)
    look t 0x200 12 = [0, 0, 0, 0xFF, 0xFF, 0, 0, 0xFF, 0xFF, 0, 0, 0xFF] ∧
    look t 0x218 12 = [0, 0xFF, 0, 0xFF, 0, 0, 0xFF, 0xFF, 0, 0, 0xFF, 0xFF] := by decide +kernel

theorem test_rsRgbaBilinear :
    look (after .rsRgbaBilinear (resampling quad 2#32 2#32 3#32 3#32)) 0x20C 12 =
      [0, 0x80, 0, 0xFF, 0x40, 0x40, 0x40, 0xFF, 0x80, 0, 0x80, 0xFF] ∧
    look (after .rsRgbaBilinear (resampling [0xFF, 0, 0, 0, 0, 0, 0xFF, 0xFF] 2#32 1#32 3#32 1#32)) 0x200 12 =
      [0xFF, 0, 0, 0, 0x80, 0, 0x80, 0x80, 0, 0, 0xFF, 0xFF] := by decide +kernel

theorem test_rsGrayNearest :
    look (after (.rsGrayNearest false) (resampling [0x0A, 0x14, 0x1E, 0x28] 4#32 1#32 2#32 1#32)) 0x200 3 =
      [0x0A, 0x1E, 0] ∧
    look (after (.rsGrayNearest false) (resampling [0x85] 1#32 1#32 2#32 1#32)) 0x200 2 = [0x05, 0x05] ∧
    look (after (.rsGrayNearest true) (resampling [0x85] 1#32 1#32 2#32 1#32)) 0x200 2 = [0x85, 0x85] := by
  decide +kernel

theorem test_rsGrayBilinear :
    look (after (.rsGrayBilinear true) (resampling [0x80, 0x7F] 2#32 1#32 4#32 1#32)) 0x200 4 =
      [0x80, 0xAA, 0x55, 0x7F] ∧
    look (after (.rsGrayBilinear true) (resampling [0x80, 0x7F] 2#32 1#32 3#32 1#32)) 0x200 3 = [0x80, 0xC0, 0x7F] ∧
    look (after (.rsGrayBilinear false) (resampling [0x80, 0x7F] 2#32 1#32 3#32 1#32)) 0x200 3 =
      [0x00, 0x40, 0x7F] := by decide +kernel

/-- A LUT build at 0x1000 from two points (input, output). -/
def curveBench (i1 o1 i2 o2 : Nat) : State :=
  bench [0x1000#32, BitVec.ofNat 32 (i1 + 256 * o1), BitVec.ofNat 32 (i2 + 256 * o2)] []

/-- The indices that section 2.7 shows. -/
def curveIndices : List Nat := [0, 1, 32, 63, 64, 65, 127, 128, 129, 191, 192, 193, 224, 254, 255]

/-- The bytes that a build writes at those indices. -/
def curveRow (i : Instr) (s : State) : List Nat :=
  match (commandOf i s).outcome with
  | .ok e => curveIndices.map (fun k => (e.value k).toNat)
  | .error _ => []

theorem test_lutBuildRamp :
    curveRow .lutBuildRamp (curveBench 64 32 192 224) =
      [0, 1, 16, 32, 32, 34, 127, 128, 130, 223, 224, 224, 240, 255, 255] ∧
    curveRow .lutBuildRamp (curveBench 200 100 50 150) =
      [0, 1, 16, 32, 32, 33, 64, 64, 65, 96, 96, 97, 239, 254, 255] := by decide +kernel

theorem test_lutBuildFlat :
    curveRow .lutBuildFlat (curveBench 64 32 192 224) =
      [32, 32, 32, 32, 32, 34, 127, 128, 130, 223, 224, 224, 224, 224, 224] ∧
    curveRow .lutBuildFlat (curveBench 0 100 255 0) =
      [100, 100, 87, 75, 75, 75, 50, 50, 49, 25, 25, 24, 12, 0, 0] := by decide +kernel

/-- The LUT_APPLY set-up of section 2.7, with only the LUT entries that the source uses. -/
def lutBench : State :=
  bench [0x100#32, 2#32, 1#32, 0x200#32, 0x1000#32, 0x1100#32, 0x1200#32, 0x1300#32]
    (stored 0x100 [0x0A, 0x14, 0x1E, 0x28, 0xC8, 0x64, 0x96, 0xFA]
      ([(0x100A, 0xF5), (0x10C8, 0x37), (0x1114, 0x0A), (0x1164, 0x32), (0x121E, 0x3C), (0x1296, 0xFF), (0x1328, 0xD7),
        (0x13FA, 0x05)]))

theorem test_lutApply :
    look (after (.lutApply false true true true false) lutBench) 0x200 8 =
      [0xF5, 0x0A, 0x3C, 0x28, 0x37, 0x32, 0xFF, 0xFA] ∧
    look (after (.lutApply true true true true true) lutBench) 0x200 8 =
      [0x0A, 0x14, 0x1E, 0xD7, 0xC8, 0x64, 0x96, 0x05] ∧
    look (after (.lutApply false true false false true) lutBench) 0x200 8 =
      [0xF5, 0x14, 0x1E, 0x28, 0x37, 0x64, 0x96, 0xFA] := by decide +kernel

/-- A convolution set-up: the source at 0x100, the destination at 0x200. -/
def convolving (weights : List Word) (source : List Byte) (width height : Word) : State :=
  { bench [0x100#32, width, height, 0x200#32] (stored 0x100 source []) with kernel := kernelOf weights }

/-- Nine weights of 1. -/
def box : List Word := List.replicate 9 0x3F800000#32

/-- The target table of section 2.8: rgb, alpha, rgba, and rgba with APASS. -/
theorem test_conv3x3_targets :
    let s := convolving box [0, 0, 0, 0, 0x5A, 0x5A, 0x5A, 0x5A, 0xB4, 0xB4, 0xB4, 0xB4] 3#32 1#32
    look (after (.conv3x3 0b00#2 0b00#2 false) s) 0x200 12 =
      [0x1E, 0x1E, 0x1E, 0, 0x5A, 0x5A, 0x5A, 0x5A, 0x96, 0x96, 0x96, 0xB4] ∧
    look (after (.conv3x3 0b01#2 0b00#2 false) s) 0x200 12 =
      [0, 0, 0, 0x1E, 0x5A, 0x5A, 0x5A, 0x5A, 0xB4, 0xB4, 0xB4, 0x96] ∧
    look (after (.conv3x3 0b10#2 0b00#2 false) s) 0x200 4 = [0x1E, 0x1E, 0x1E, 0x1E] ∧
    look (after (.conv3x3 0b10#2 0b00#2 true) s) 0x200 4 = [0x1E, 0x1E, 0x1E, 0] := by decide +kernel

/-- f32(0.1) nine times, as given and normalised; and K0 alone takes the upper left pixel (R292). -/
theorem test_conv3x3_weights :
    let s := convolving (List.replicate 9 0x3DCCCCCD#32) [0x64, 0x64, 0x64, 0x64] 1#32 1#32
    let corner := convolving [0x3F800000#32] [10, 0, 0, 0, 20, 0, 0, 0, 30, 0, 0, 0, 40, 0, 0, 0] 2#32 2#32
    look (after (.conv3x3 0b00#2 0b01#2 false) s) 0x200 4 = [0x5A, 0x5A, 0x5A, 0x64] ∧
    look (after (.conv3x3 0b00#2 0b00#2 false) s) 0x200 4 = [0x64, 0x64, 0x64, 0x64] ∧
    [0, 4, 8, 12].map (fun k => (after (.conv3x3 0b00#2 0b00#2 false) corner).mem.read (0x200 + k)) =
      [10, 10, 10, 10] := by decide +kernel

/-! ## Witnesses: states and operands that meet the hypotheses of each statement -/

/-- An idle RIC and one with the command word `w` in flight. -/
def busyWith (w : Word) : State := State.reset.issue w

theorem witness_WordDecodesExactlyWhenAdmitted :
    (∀ i, decode 0x00010000#32 ≠ .ok i) ∧ (busyWith 0x00010000#32).cmd = 0x00010000#32 ∧
    (∀ i, decode 0x00000C70#32 ≠ .ok i) ∧ decode 0x00000A70#32 = .ok (.conv3x3 0b10#2 0b10#2 false) :=
  ⟨not_decoded (e := .reservedBits) (by decide), rfl, not_decoded (e := .reservedField) (by decide), by decide⟩

theorem witness_StepRunsDecodedCommand :
    (busyWith 0x112#32).busy = true ∧ decode (busyWith 0x112#32).cmd = .ok (.gb7Enc true) ∧
    (busyWith 0x112#32).events = [] ∧
    (State.reset.placeCommand 0x112#32).busy = true ∧
    (State.reset.placeCommand 0x112#32).events = .engine :: [] ∧ decode 0x112#32 = .ok (.gb7Enc true) := by decide

/-- Each of the four ways not to decode. -/
theorem witness_UndecodableWordEndsWithBadCmd :
    State.reset.inReset = false ∧ State.reset.busy = false ∧ (∀ i, decode 0x80000000#32 ≠ .ok i) ∧
    (∀ i, decode 0x000000FF#32 ≠ .ok i) ∧ (∀ i, decode 0x00008070#32 ≠ .ok i) ∧ ∀ i, decode 0x00000F70#32 ≠ .ok i :=
  ⟨rfl, rfl, not_decoded (e := .reservedBits) (by decide), not_decoded (e := .illegalOpcode) (by decide),
    not_decoded (e := .undefinedOption) (by decide), not_decoded (e := .reservedField) (by decide)⟩

theorem witness_CmdWriteIssuesWhenIdle :
    (State.reset.inReset = false ∧ State.reset.busy = false) ∧ (busyWith 0#32).inReset = false ∧
    (busyWith 0#32).busy = true := by decide

/-- OVR set by a CMD write while busy, and cleared in each of the three ways. -/
theorem witness_OverrunIsSetAndClearedOnlyAsSaid :
    let s := busyWith 0#32
    let late := { s with ovr := true }
    (runEvent (.busWrite 0x10 32 5#32) s = .next late ∧ s.ovr = false ∧ late.ovr = true) ∧
    (runEvent (.busWrite 0x08 32 8#32) late = .next (late.clearStatus 8#32) ∧ (late.clearStatus 8#32).ovr = false) ∧
    (runEvent (.busWrite 0x04 32 0x80000000#32) late = .next (late.writeCtrl 0x80000000#32) ∧
      (late.writeCtrl 0x80000000#32).ovr = false) ∧
    runEvent .resetAssert late = .next (assertReset late) ∧ (assertReset late).ovr = false :=
  ⟨⟨rfl, rfl, rfl⟩, ⟨rfl, rfl⟩, ⟨rfl, rfl⟩, rfl, rfl⟩

/-- BUSY raised by a CMD write; lowered by the engine, by a soft reset and by the reset input; DONE by NOP, ERR by an
undecodable word. -/
theorem witness_PhaseFlagsChangeOnlyAsSaid :
    let s := busyWith 0#32
    let bad := busyWith 0xFF#32
    (runEvent (.busWrite 0x10 32 0#32) State.reset = .next s ∧ State.reset.busy = false ∧ s.busy = true) ∧
    (runEvent .engine s = .next (after .nop s) ∧ (after .nop s).busy = false ∧ (after .nop s).done = true) ∧
    (runEvent .engine bad = .next (bad.complete (badCommand 0xFF#32)) ∧ bad.err = false ∧
      (bad.complete (badCommand 0xFF#32)).err = true) ∧
    (runEvent (.busWrite 0x04 32 0x80000000#32) s = .next (s.writeCtrl 0x80000000#32) ∧
      (s.writeCtrl 0x80000000#32).busy = false) ∧
    (runEvent .resetAssert s = .next (assertReset s) ∧ (assertReset s).busy = false) ∧
    (runEvent (.busWrite 0x08 32 6#32) (after .nop s) = .next ((after .nop s).clearStatus 6#32) ∧
      (after .nop s).inReset = false ∧ (6#32 : Word).getLsbD 1 = true ∧ (6#32 : Word).getLsbD 2 = true) :=
  ⟨⟨rfl, rfl, rfl⟩, ⟨rfl, rfl, rfl⟩, ⟨rfl, rfl, rfl⟩, ⟨rfl, rfl⟩, ⟨rfl, rfl⟩, rfl, rfl, by decide, by decide⟩

/-- The first and the last operand register of each group, and a host access that leaves the command in flight. -/
theorem witness_BusyDropsOperandWrites :
    let s := busyWith 0#32
    (s.inReset = false ∧ s.busy = true ∧ (0 < 8 ∧ 7 < 8) ∧ (0 < 9 ∧ 8 < 9) ∧ (0 < 6 ∧ 5 < 6)) ∧
    runEvent (.busWrite 0x9C 32 7#32) s = .next s ∧ runEvent (.busWrite 0x20 32 7#32) s = .next s ∧ s.busy = true :=
  ⟨by decide, rfl, rfl, rfl⟩

theorem witness_StatusAndInterruptLine :
    State.reset.inReset = false ∧ (1#32 : Word).getLsbD 31 = false ∧ (0x7FFFFFFF#32 : Word).getLsbD 31 = false := by
  decide

/-- A narrow access at each end of the window, a misaligned one, ordinary registers, and the reserved ranges' ends. -/
theorem witness_PortAccessesHaveOnlyTheirSideEffects :
    (0x00 < 0x100 ∧ (8 ≠ 32 ∨ 0x00 % 4 ≠ 0)) ∧ (0xFF < 0x100 ∧ (32 ≠ 32 ∨ 0xFF % 4 ≠ 0)) ∧
    [0x00, 0x0C, 0x14, 0x20, 0xFC].all (fun o => o < 0x100 && o % 4 == 0 && o != 0x04 && o != 0x08 && o != 0x10) ∧
    [0x1C, 0x64, 0x7C, 0xB8, 0xFC].all
      (fun o => o < 0x100 && o % 4 == 0 && (o == 0x1C || (0x64 ≤ o && o ≤ 0x7C) || 0xB8 ≤ o)) := by decide

/-- Each kind of register, and the first and the last offset of each range. -/
theorem witness_ReadAfterWriteReturnsWhatAccessRulesGive :
    State.reset.busy = false ∧ State.reset.inReset = false ∧ (Reg.cmd = .cmd) ∧ (∃ k, Reg.arg 7 = .arg k) ∧
    (∃ k, Reg.kernel 8 = .kernel k) ∧ (∃ j high, Reg.fin 2 true = .fin j high) ∧
    (∃ j high, Reg.fout 0 false = .fout j high) ∧
    [0x10, 0x20, 0x60, 0x80, 0x88, 0x9C].all
      (fun o => o % 4 == 0 && (o == 0x10 || (0x20 ≤ o && o < 0x64) || o == 0x80 || (0x88 ≤ o && o < 0xA0))) :=
  ⟨rfl, rfl, rfl, ⟨7, rfl⟩, ⟨8, rfl⟩, ⟨2, true, rfl⟩, ⟨0, false, rfl⟩, by decide⟩

theorem witness_EveryRegisterHasItsResetValue :
    (busyWith 0x40#32).softReset = (busyWith 0x40#32).softReset ∧ assertReset (busyWith 0x40#32) ≠ State.reset ∧
    State.reset = State.reset := by decide +kernel

/-- GB7_RENDER of two pixels in flight. -/
def rendering : State := (bench [0x100#32, 2#32, 1#32, 0x200#32] (stored 0x100 [0x40, 0xC0] [])).issue 0x14#32

theorem witness_SoftResetAbandonsCommand :
    rendering.inReset = false ∧ (0x80000000#32 : Word).getLsbD 31 = true ∧ rendering.busy = true ∧ rendering.orderly ∧
    rendering.inFlight.namedBytes.contains 0x200 = true ∧ rendering.inFlight.namedBytes.contains 0x207 = true ∧
    rendering.inFlight.namedBytes.contains 0x208 = false ∧ rendering.inFlight.destination.contains 0x1FF = false ∧
    (∃ r ∈ rendering.inFlight.sources, r.contains 0x101 = true) ∧ State.reset.busy = false :=
  ⟨rfl, by decide, rfl, rfl, by decide +kernel, by decide +kernel, by decide +kernel, by decide +kernel,
    ⟨⟨0x100, 2⟩, by decide +kernel, by decide⟩, rfl⟩

/-- Idle, and a command in flight: bytes it names, bytes outside them, and a source byte. -/
theorem witness_HardwareResetHoldsRegisters :
    State.reset.busy = false ∧ rendering.busy = true ∧ rendering.orderly ∧
    rendering.inFlight.namedBytes.contains 0x207 = true ∧ rendering.inFlight.namedBytes.contains 0x208 = false ∧
    (∃ r ∈ rendering.inFlight.sources, r.contains 0x101 = true) ∧
    rendering.inFlight.destination.contains 0x208 = false ∧
    (assertReset rendering).inReset = true ∧ (assertReset rendering).resetRegisters = assertReset rendering ∧
    (0xFC < 0x100 ∧ 0xFC % 4 = 0) :=
  ⟨rfl, rfl, rfl, by decide +kernel, by decide +kernel, ⟨⟨0x100, 2⟩, by decide +kernel, by decide⟩, by decide +kernel,
    rfl, rfl, by decide⟩

theorem reset_inv : State.reset.Inv where
  mem_wf := by decide
  mem_space := by simp [State.memInSpace, State.reset]
  race_wf := by simp [State.reset]
  done_err := by decide
  busy_clear := by decide
  done_code := by decide
  err_code := by decide
  code_defined := by decide
  in_reset := by decide

/-- An idle machine goes on, and a placed command runs. -/
theorem witness_EveryStepKeepsInvariant :
    State.reset.Inv ∧ step State.reset = .next State.reset ∧
    ∃ t, step (State.reset.withFetchWord 32 0) = .next t ∧ t.done = true :=
  ⟨reset_inv, rfl, _, rfl, rfl⟩

/-- A completion that changes a destination byte, and a host write. -/
theorem witness_MemoryChangesOnlyByHostOrCompletion :
    (runEvent .engine rendering = .next (after (.gb7Render false) rendering) ∧
      (after (.gb7Render false) rendering).mem.read 0x200 ≠ rendering.mem.read 0x200) ∧
    ∃ t, runEvent (.memWrite 5 7#8) State.reset = .next t ∧ t.mem.read 5 ≠ State.reset.mem.read 5 := by
  refine ⟨⟨rfl, by decide +kernel⟩, _, rfl, by decide⟩

/-- A run to the end, and one that each kind of host access stops. -/
theorem witness_CommandInFlightEnds :
    let s := busyWith 0x40#32
    let after := fun (e : Event) => { s with events := [e] }
    s.busy = true ∧ (∃ t, Sys2Proof.core.run 1 s = .next t) ∧
    Sys2Proof.core.run 1 (after (.memRead dataSpace)) = .fault (Fault.noDataByte dataSpace) ∧
    Sys2Proof.core.run 1 (after (.busRead 0x100 32)) = .refused (Refusal.outsideWindow 0x100) ∧
    Sys2Proof.core.run 1 (after (.busWrite 0xFE 16 0#32)) = .refused (Refusal.portAccess 0xFE 16) :=
  ⟨rfl, ⟨_, rfl⟩, rfl, rfl, rfl⟩

theorem witness_SourceBuffersAreNeverWritten :
    rendering.orderly ∧ exec (.gb7Render false) rendering = .next (after (.gb7Render false) rendering) ∧
    (commandOf (.gb7Render false) rendering).namedBytes.contains 0x200 = true ∧
    (commandOf (.gb7Render false) rendering).namedBytes.contains 0x208 = false ∧
    ∃ r ∈ (commandOf (.gb7Render false) rendering).sources, r.contains 0x100 = true :=
  ⟨rfl, rfl, by decide +kernel, by decide +kernel, ⟨⟨0x100, 2⟩, by decide +kernel, by decide⟩⟩

/-- A zero-area resampling. -/
theorem witness_UpFrontErrorsChangeNoMemory :
    State.reset.orderly ∧ (commandOf .rsRgbaNearest State.reset).outcome = .error .zeroArea ∧
    (after .rsRgbaNearest State.reset).err = true ∧ (after .rsRgbaNearest State.reset).errcode ≠ 0x09#8 :=
  ⟨rfl, rfl, by decide +kernel, by decide +kernel⟩

/-- A platform on which the bytes of one range do not respond. -/
def holed (s : State) (a n : Nat) : State := { s with platform := ⟨0, [(a, n)]⟩ }

/-- The outcome's accesses, where it is an effect. -/
def accessesOf (c : Command) : List Nat :=
  match c.outcome with
  | .ok e => e.accesses
  | .error _ => []

theorem witness_DataPhaseBusErrorLeavesNamedBytesOpen :
    let s := holed (bench [0x100#32, 2#32, 1#32, 0x200#32] []) 0x101 1
    s.orderly ∧ (∃ e, (commandOf (.gb7Render false) s).outcome = .ok e ∧ 0x101 ∈ e.accesses ∧
      e.written.contains 0x200 = true ∧ e.written.contains 0x208 = false) ∧ s.responds 0x101 = false :=
  ⟨rfl, ⟨_, rfl, by decide +kernel, by decide +kernel, by decide +kernel⟩, by decide⟩

/-- Two states that differ in a byte no source holds, in DONE and in the reset input's last read. -/
theorem witness_CompletionDependsOnlyOnSources :
    let s := rendering
    let u := { s with mem := s.mem.write 0x900 3#8, readData := 9#32, ovr := true }
    s.orderly ∧ u.orderly ∧ u.args = s.args ∧ u.kernel = s.kernel ∧ u.pixin = s.pixin ∧ u.fin = s.fin ∧
    u.cmd = s.cmd ∧ u.platform = s.platform ∧ u.draws = s.draws ∧ sameColorOutputs s u ∧
    (∀ r ∈ (commandOf (.gb7Render false) s).sources, ∀ a, r.contains a = true → u.mem.read a = s.mem.read a) ∧
    (commandOf (.gb7Render false) s).namedBytes.contains 0x207 = true := by
  refine ⟨rfl, rfl, rfl, rfl, rfl, rfl, rfl, rfl, rfl, ⟨rfl, rfl⟩, ?_, by decide +kernel⟩
  intro r hr a ha
  have h : r = ⟨0x100, 2⟩ := by
    have : (commandOf (.gb7Render false) rendering).sources = [⟨0x100, 2⟩] := by decide +kernel
    simpa [this] using hr
  subst h
  have hb := contains_iff.mp ha
  have h9 : a ≠ 0x900 := by
    have := hb.2
    dsimp only at this
    omega
  show (rendering.mem.write 0x900 3#8).read a = rendering.mem.read a
  exact read_write_other h9

/-- GB7_RENDER in flight whose regions overlap, so that it will end with OVERLAP. -/
def overlapping : State := (bench [0x100#32, 2#32, 1#32, 0x100#32] (stored 0x100 [0x40, 0xC0] [])).issue 0x14#32

/-- A command that will complete, and one that will end in an error; the last address of the data space. -/
theorem witness_HostAccessDuringCommand :
    let c := commandOf (.gb7Render false) rendering
    rendering.phase = .busy none ∧ decode rendering.cmd = .ok (.gb7Render false) ∧
    (0x200 < dataSpace ∧ c.dest.contains 0x200 = true) ∧
    (0x101 < dataSpace ∧ ∃ r ∈ c.dest :: c.sources, r.contains 0x101 = true) ∧
    (dataSpace - 1 < dataSpace ∧ c.dest.contains (dataSpace - 1) = false ∧
      (c.dest :: c.sources).any (fun r => r.contains (dataSpace - 1)) = false) ∧
    overlapping.phase = .busy none ∧ decode overlapping.cmd = .ok (.gb7Render false) ∧
    (commandOf (.gb7Render false) overlapping).outcome = .error (.overlap .src) ∧
    (commandOf (.gb7Render false) overlapping).dest.contains 0x101 = true :=
  ⟨rfl, by decide, by decide +kernel, ⟨by decide, ⟨0x100, 2⟩, by decide +kernel, by decide⟩, by decide +kernel, rfl,
    by decide, by rfl, by decide +kernel⟩

/-- R56 makes no exception for a command that will end in an error: its destination reads as any value. -/
theorem test_hidden_destination_of_error :
    overlapping.hidden 0x101 = true ∧ overlapping.hidden 0x108 = false ∧
    ends (.gb7Render false) overlapping = (0x504#32, 0#32) := by decide +kernel

/-- The buffer of a contributing Image layer is a source of a COMPOSITE that ends with BAD_DESC at a later layer. -/
theorem test_sources_of_failing_composite :
    let s := stack 2#32 1#32 1#32
      (imageLayer 1 0 0x3F800000#32 1#32 1#32 0x400#32 ++ colorLayer 5 9 0x3F800000#32 [1, 2, 3, 4]) []
    ends .composite s = (0x704#32, 1#32) ∧ (commandOf .composite s).sources = [⟨0x100, 64⟩, ⟨0x400, 4⟩] := by
  decide +kernel

theorem witness_HostMemoryAccessWhenIdle :
    State.reset.busy = false ∧ dataSpace ≤ 0x100000000 ∧ 0xFFFFFFFF < dataSpace := by decide

theorem witness_NopOnlyCompletes :
    State.reset.orderly ∧ State.reset.ovr = false ∧ opField 0x00000100#32 = 0x00#8 ∧ 0x00000100#32 ≠ 0x00000000#32 := by
  simp only [State.orderly]
  decide

/-- SrgbTransferCommands, XyzMatrixCommands, LabCommands, PolarCommands, OklabCommands and GrayColourCommands have the
one hypothesis that no race has taken place. -/
theorem witness_colour_statements : (colours 0#64 0#64 0#64 0#32).orderly ∧ (0x7F#8 : Byte).toNat < 128 :=
  ⟨rfl, by decide⟩

/-- The patterns of the binary64 clauses of SrgbTransferCommands: finite, a NaN, an infinity, a zero and an invalid
operation. -/
theorem witness_SrgbTransferCommands :
    (f64Exponent 0x3FF0000000000000#64 ≠ 2047 ∧ f64Exponent 0x0000000000000001#64 = 0 ∧
      f64Magnitude 0x3FF0000000000000#64 ≠ 0) ∧
    f64IsNaN 0x7FF0000000000001#64 = true ∧ f64IsNaN 0x3FF0000000000000#64 = false ∧
    (f64Exponent 0xFFF0000000000000#64 = 2047 ∧ f64Fraction 0xFFF0000000000000#64 = 0 ∧
      f64Sign 0xFFF0000000000000#64 ≠ f64Sign 0x7FF0000000000000#64) ∧
    (f64Exponent 0x8000000000000000#64 = 0 ∧ f64Fraction 0x8000000000000000#64 = 0) := by decide +kernel

/-- Rounding by hand: 1 + 2^-53 is halfway and goes to the even 1; 1 + 3 * 2^-53 goes to 1 + 2^-51; half the smallest
value goes to 0; the largest value plus half a unit goes to infinity; -0 compares equal to +0, and a NaN with nothing. -/
theorem test_binary64_rounding :
    fadd 0x3FF0000000000000#64 0x3CA0000000000000#64 = 0x3FF0000000000000#64 ∧
    fadd 0x3FF0000000000001#64 0x3CA0000000000000#64 = 0x3FF0000000000002#64 ∧
    fmul 0x0000000000000001#64 0x3FE0000000000000#64 = 0#64 ∧
    fadd 0x7FEFFFFFFFFFFFFF#64 0x7C90000000000000#64 = 0x7FF0000000000000#64 ∧
    fsub 0x3FF0000000000000#64 0x3FF0000000000000#64 = 0#64 ∧
    fle 0#64 0x8000000000000000#64 = true ∧ flt 0x8000000000000000#64 0#64 = false ∧
    fle 0x7FF8000000000000#64 0x7FF8000000000000#64 = false ∧ fge 0x7FF8000000000000#64 0#64 = false := by
  decide +kernel

/-- Each class of pattern, and an exact half (128 / 256), which rounds up. -/
theorem witness_EightBitColourCommands :
    (f64Exponent 0x7FF8000000000000#64 = 2047 ∧ f64Fraction 0x7FF8000000000000#64 ≠ 0) ∧
    (f64Exponent 0x7FF0000000000000#64 = 2047 ∧ f64Fraction 0xFFF0000000000000#64 = 0) ∧
    (f64Exponent (fl (1 / 2)) ≠ 2047 ∧
      (((1 : Int) : ℚ) ≤ signedRat ((fl (1 / 2)).getLsbD 63) (f64Magnitude (fl (1 / 2))) + 1 / 2 ∧
        signedRat ((fl (1 / 2)).getLsbD 63) (f64Magnitude (fl (1 / 2))) + 1 / 2 < ((1 : Int) : ℚ) + 1)) ∧
    (colours 0#64 0#64 0#64 0#32).orderly :=
  ⟨by decide +kernel, by decide +kernel, by decide +kernel, rfl⟩

/-! ### GB7 -/

theorem witness_InlineDecodeWritesGrayBuffer :
    let s := decoding (header 2 1 1#8 ++ [0x81, 0x7F]) 14#32 2#32
    s.orderly ∧ Gb7HeaderAt s.mem (s.arg 0) 0x01#8 0x01#8 2 1 ∧
    checkedBuffers (s.arg 0) (s.arg 1) (s.arg 2) (s.arg 3) ∧ 12 + 2 * 1 ≤ s.arg 1 ∧ 2 * 1 ≤ s.arg 3 ∧
    s.respondsOn (s.arg 0) (12 + 2 * 1) ∧ s.respondsOn (s.arg 2) (2 * 1) :=
  ⟨rfl, ⟨by decide, by decide, by decide, by decide, by decide, by decide⟩, checked (by decide), by decide, by decide,
    responds_on rfl _ _, responds_on rfl _ _⟩

theorem witness_PlaneDecodeWritesGrayBuffer :
    let s := decoding planeStream 23#32 9#32
    s.orderly ∧ Gb7HeaderAt s.mem (s.arg 0) 0x01#8 0x01#8 9 1 ∧
    checkedBuffers (s.arg 0) (s.arg 1) (s.arg 2) (s.arg 3) ∧ 12 + 9 * 1 + 1 * ((9 + 7) / 8) ≤ s.arg 1 ∧
    9 * 1 ≤ s.arg 3 ∧ s.respondsOn (s.arg 0) 23 ∧ s.respondsOn (s.arg 2) 9 :=
  ⟨rfl, ⟨by decide, by decide, by decide, by decide, by decide, by decide⟩, checked (by decide), by decide, by decide,
    responds_on rfl _ _, responds_on rfl _ _⟩

/-- `hasAlpha` by FM, by a transparent pixel, and not at all; the widest admitted width. -/
theorem witness_streamHasAlpha :
    let s := encoding [1, 2, 3, 0xFE] 1#32 1#32 14#32 0#32
    let solid := encoding [1, 2, 3, 0xFF] 1#32 1#32 13#32 0#32
    streamHasAlpha s.mem true (s.arg 0) (s.arg 1) (s.arg 2) true ∧
    streamHasAlpha s.mem false (s.arg 0) (s.arg 1) (s.arg 2) true ∧
    streamHasAlpha solid.mem false (solid.arg 0) (solid.arg 1) (solid.arg 2) false := by
  refine ⟨by simp [streamHasAlpha], ?_, ?_⟩
  · exact ⟨fun _ => .inr ⟨0, 0, by decide, by decide, by decide⟩, fun _ => rfl⟩
  · constructor
    · intro h
      cases h
    · rintro (h | ⟨x, y, hx, hy, h⟩)
      · cases h
      · have hx0 : x = 0 := by
          have : x < 1 := hx
          omega
        have hy0 : y = 0 := by
          have : y < 1 := hy
          omega
        subst hx0 hy0
        revert h
        decide

/-- EncodeWritesStreamWithMaskPlane and InlineEncodeWritesStream, with and without a mask (see the witness above). -/
theorem witness_encoders_write :
    let s := encoding [1, 2, 3, 0xFE] 1#32 1#32 14#32 0#32
    let solid := encoding [1, 2, 3, 0xFF] 1#32 1#32 13#32 0#32
    (s.orderly ∧ s.arg 1 ≤ 65535 ∧ s.arg 2 ≤ 65535 ∧
      checkedBuffers (s.arg 0) (4 * s.arg 1 * s.arg 2) (s.arg 3) (s.arg 4) ∧
      12 + s.arg 1 * s.arg 2 + s.arg 2 * ((s.arg 1 + 7) / 8) ≤ s.arg 4 ∧
      s.respondsOn (s.arg 0) 4 ∧ s.respondsOn (s.arg 3) 14) ∧
    solid.orderly ∧ solid.arg 1 ≤ 65535 ∧ solid.arg 2 ≤ 65535 ∧
      checkedBuffers (solid.arg 0) (4 * solid.arg 1 * solid.arg 2) (solid.arg 3) (solid.arg 4) ∧
      12 + solid.arg 1 * solid.arg 2 ≤ solid.arg 4 ∧ solid.respondsOn (solid.arg 0) 4 ∧
      solid.respondsOn (solid.arg 3) 13 :=
  ⟨⟨rfl, by decide, by decide, checked (by decide), by decide, responds_on rfl _ _, responds_on rfl _ _⟩, rfl,
    by decide, by decide, checked (by decide), by decide, responds_on rfl _ _, responds_on rfl _ _⟩

theorem witness_RenderWritesPixelBuffer :
    rendering.orderly ∧
    checkedBuffers (rendering.arg 0) (rendering.arg 1 * rendering.arg 2) (rendering.arg 3)
      (4 * rendering.arg 1 * rendering.arg 2) ∧
    rendering.respondsOn (rendering.arg 0) 2 ∧ rendering.respondsOn (rendering.arg 3) 8 :=
  ⟨rfl, checked (by decide), responds_on rfl _ _, responds_on rfl _ _⟩

/-- Two pixels, one of them transparent, encoded inline; the decoder is given the stream. -/
theorem witness_DecodeReadsBackInlineEncode :
    let s := encoding [0xFF, 0xFF, 0xFF, 0xFF, 9, 9, 9, 0] 2#32 1#32 64#32 128#32
    let t := after (.gb7EncInline false) s
    let u := bench [0x400#32, 14#32, 0x500#32, 2#32] t.mem
    s.orderly ∧ exec (.gb7EncInline false) s = .next t ∧ t.done = true ∧ u.orderly ∧
    (∀ a, u.mem.read a = t.mem.read a) ∧ u.platform = s.platform ∧ u.arg 0 = s.arg 3 ∧
    u.arg 1 = t.result0.toNat ∧ checkedBuffers (u.arg 0) (u.arg 1) (u.arg 2) (u.arg 3) ∧
    s.arg 1 * s.arg 2 ≤ u.arg 3 ∧ u.respondsOn (u.arg 2) (s.arg 1 * s.arg 2) ∧
    (after .gb7Dec u).statusWord = 2#32 ∧ look (after .gb7Dec u) 0x500 2 = [0xFF, 0x04] := by
  refine ⟨rfl, rfl, by decide +kernel, rfl, fun _ => rfl, rfl, by decide, by decide +kernel,
    checked (by decide), by decide, responds_on rfl _ _, by decide +kernel, by decide +kernel⟩

theorem witness_DecodersAgreeWithoutMask :
    let s := decoding (header 2 1 0#8 ++ [0x81, 0x7F]) 14#32 64#32
    s.orderly ∧ (s.mem.read (s.arg 0 + 5)).getLsbD 0 = false := ⟨rfl, by decide⟩

/-- Each error of GB7_DEC: the rows of section 2.3 that show it; and a stream without its last mask-plane byte. -/
theorem witness_DecodeErrorsInOrder :
    let bad := fun (stream : List Byte) (length capacity : Word) => ends .gb7Dec (decoding stream length capacity)
    (decoding (header 2 2 0#8) 12#32 64#32).orderly ∧
    ends .gb7Dec (bench [0xFFFFFFF0#32, 0x20#32, 0x2000#32, 64#32] []) = (0x404#32, 0#32) ∧
    ends .gb7Dec (bench [0x1000#32, 16#32, 0xFFFFFFFE#32, 4#32] []) = (0x404#32, 1#32) ∧
    ends .gb7Dec (bench [0x1000#32, 16#32, 0x100A#32, 64#32] []) = (0x504#32, 0#32) ∧
    bad [0x47, 0x41, 0x37] 3#32 64#32 = (0x1004#32, 0#32) ∧ bad [0x47, 0x42, 0x37] 3#32 64#32 = (0x1204#32, 12#32) ∧
    bad ((header 2 2 0#8).take 10 ++ [0x01, 0x02]) 16#32 64#32 = (0x1104#32, 0x102#32) ∧
    bad (header 2 2 0#8) 15#32 64#32 = (0x1204#32, 0x10#32) ∧ bad (header 2 2 0#8) 16#32 3#32 = (0x804#32, 4#32) ∧
    (decoding planeStream 22#32 64#32).orderly ∧
    ends .gb7DecPlane (decoding planeStream 22#32 64#32) = (0x1204#32, 0x17#32) :=
  ⟨rfl, by decide +kernel, by decide +kernel, by decide +kernel, by decide +kernel,
    by decide +kernel, by decide +kernel, by decide +kernel, by decide +kernel, rfl, by decide +kernel⟩

/-- Header bytes that do not respond: the MAGIC rows of section 2.9; MAGIC byte 3 of a stream of 3 bytes is not read; the
last reserved byte is, before the length that the dimensions need. -/
theorem test_header_bus_errors :
    let stream := header 2 1 0#8 ++ [0x81, 0x7F]
    let bad := fun (stream : List Byte) (length : Word) (a : Nat) =>
      ends .gb7Dec (holed (decoding stream length 64#32) a 1)
    bad stream 14#32 0x1002 = (0x904#32, 0x1002#32) ∧ bad (0x00 :: stream.tail) 14#32 0x1002 = (0x1004#32, 0#32) ∧
    bad stream 3#32 0x1003 = (0x1204#32, 12#32) ∧ bad stream 12#32 0x100B = (0x904#32, 0x100B#32) := by
  decide +kernel

/-- Each error of GB7_ENC, with the dimensions at the limit and beyond. -/
theorem witness_EncodeErrorsInOrder :
    let s := encoding p9 9#32 1#32 22#32 128#32
    let deaf := holed (encoding [0, 0, 0, 0xFF, 0, 0, 0, 0xFF] 2#32 1#32 64#32 0#32) 0x107 1
    s.orderly ∧ alphaScanFailsAt deaf (deaf.arg 0) (deaf.arg 1 * deaf.arg 2) 1 ∧
    streamHasAlpha s.mem true (s.arg 0) (s.arg 1) (s.arg 2) true ∧
    ends (.gb7Enc true) s = (0x804#32, 0x17#32) ∧
    ends (.gb7Enc true) (bench [0xFFFFFFFF#32, 65536#32] []) = (0x304#32, 0#32) ∧
    ends (.gb7Enc true) (bench [0xFFFFFFFF#32, 65535#32, 1#32] []) = (0x404#32, 0#32) ∧
    ends (.gb7EncInline true) (bench [0#32, 1#32, 1#32, 0xFFFFFFFF#32, 2#32] []) = (0x404#32, 1#32) ∧
    ends (.gb7EncInline true) (bench [0#32, 1#32, 1#32, 3#32, 64#32] []) = (0x504#32, 0#32) :=
  ⟨rfl, ⟨by decide, by decide, by decide⟩, by simp [streamHasAlpha], by decide +kernel, by decide +kernel,
    by decide +kernel, by decide +kernel, by decide +kernel⟩

/-- The alpha byte of the first and of the last pixel does not respond (the last row is of section 2.9). And after a
transparent pixel the scan stops: the failing alpha byte of the next one gives DST_SMALL where the capacity is short, and a
BUS_ERROR of the data phase where it is not. -/
theorem witness_AlphaScanReportsFirstFailingByte :
    let s := encoding [0, 0, 0, 0xFF, 0, 0, 0, 0xFF] 2#32 1#32 64#32 0#32
    let last := holed s 0x107 1
    let stops := fun (capacity : Word) => holed (encoding [0, 0, 0, 0xFE, 0, 0, 0, 0xFF] 2#32 1#32 capacity 0#32) 0x107 1
    (last.orderly ∧ last.arg 1 ≤ 65535 ∧ last.arg 2 ≤ 65535 ∧
      checkedBuffers (last.arg 0) (4 * last.arg 1 * last.arg 2) (last.arg 3) (last.arg 4) ∧ 1 < last.arg 1 * last.arg 2 ∧
      (∀ q, q < 1 → last.responds (last.arg 0 + 4 * q + 3) = true ∧
        last.mem.read (last.arg 0 + 4 * q + 3) = 255#8) ∧
      last.responds (last.arg 0 + 4 * 1 + 3) = false) ∧
    (holed s 0x103 1).responds ((holed s 0x103 1).arg 0 + 4 * 0 + 3) = false ∧
    ends (.gb7Enc false) last = (0x904#32, 0x107#32) ∧
    ((stops 14#32).orderly ∧
      checkedBuffers ((stops 14#32).arg 0) (4 * (stops 14#32).arg 1 * (stops 14#32).arg 2) ((stops 14#32).arg 3)
        ((stops 14#32).arg 4) ∧
      (stops 14#32).responds ((stops 14#32).arg 0 + 4 * 0 + 3) = true ∧
      ((stops 14#32).mem.read ((stops 14#32).arg 0 + 4 * 0 + 3)).toNat < 255) ∧
    ends (.gb7Enc false) (stops 14#32) = (0x804#32, 15#32) ∧ (after (.gb7Enc false) (stops 15#32)).statusWord = 0x904#32 ∧
    (commandOf (.gb7Enc false) (stops 15#32)).namedBytes = ⟨0x400, 15⟩ ∧
    ends (.gb7EncInline false) (stops 13#32) = (0x804#32, 14#32) ∧
    (commandOf (.gb7EncInline false) (stops 14#32)).namedBytes = ⟨0x400, 14⟩ :=
  ⟨⟨rfl, by decide, by decide, checked (by decide), by decide, by decide, by decide⟩, by decide, by decide +kernel,
    ⟨rfl, checked (by decide), by decide, by decide⟩, by decide +kernel, by decide +kernel, by decide +kernel,
    by decide +kernel, by decide +kernel⟩

/-! ### Resampling and tone curves -/

theorem witness_RgbaResampleWritesPixels :
    let s := resampling quad 2#32 2#32 3#32 3#32
    s.orderly ∧ 0 < s.arg 1 ∧ 0 < s.arg 2 ∧ 0 < s.arg 4 ∧ 0 < s.arg 5 ∧
    checkedBuffers (s.arg 0) (4 * s.arg 1 * s.arg 2) (s.arg 3) (4 * s.arg 4 * s.arg 5) ∧
    s.respondsOn (s.arg 0) 16 ∧ s.respondsOn (s.arg 3) 36 :=
  ⟨rfl, by decide, by decide, by decide, by decide, checked (by decide), responds_on rfl _ _, responds_on rfl _ _⟩

theorem witness_GrayResampleWritesSamples :
    let s := resampling [0x80, 0x7F] 2#32 1#32 4#32 1#32
    s.orderly ∧ 0 < s.arg 1 ∧ 0 < s.arg 2 ∧ 0 < s.arg 4 ∧ 0 < s.arg 5 ∧
    checkedBuffers (s.arg 0) (s.arg 1 * s.arg 2) (s.arg 3) (s.arg 4 * s.arg 5) ∧
    s.respondsOn (s.arg 0) 2 ∧ s.respondsOn (s.arg 3) 4 :=
  ⟨rfl, by decide, by decide, by decide, by decide, checked (by decide), responds_on rfl _ _, responds_on rfl _ _⟩

theorem witness_EqualSizeResampleCopies :
    let s := resampling [0x85, 0x01, 0x02, 0x03] 1#32 1#32 1#32 1#32
    s.orderly ∧ s.arg 4 = s.arg 1 ∧ s.arg 5 = s.arg 2 ∧ 0 < s.arg 1 ∧ 0 < s.arg 2 ∧
    (∀ i ∈ [Instr.rsRgbaNearest, .rsRgbaBilinear, .rsGrayNearest true, .rsGrayBilinear false],
      exec i s = .next (after i s)) ∧
    (after .rsRgbaNearest s).done = true ∧ (after .rsRgbaBilinear s).done = true ∧
    (after (.rsGrayNearest true) s).done = true ∧ (after (.rsGrayBilinear false) s).done = true :=
  ⟨rfl, by decide, by decide, by decide, by decide, fun i _ => exec_after i _, by decide +kernel, by decide +kernel,
    by decide +kernel, by decide +kernel⟩

/-- The error rows of section 2.6, and the overlap of a render. -/
theorem witness_ResampleAndRenderErrorsInOrder :
    State.reset.orderly ∧
    ends .rsRgbaNearest (resampling [] 0#32 1#32 1#32 1#32) = (0x204#32, 0#32) ∧
    ends (.rsGrayBilinear true) (resampling [] 1#32 1#32 1#32 0#32) = (0x204#32, 0#32) ∧
    ends .rsRgbaBilinear (bench [0xFFFFFFFF#32, 1#32, 1#32, 0xFFFFFFFF#32, 1#32, 1#32] []) = (0x404#32, 0#32) ∧
    ends .rsRgbaBilinear (bench [0xFFFFFFFC#32, 1#32, 1#32, 0xFFFFFFFD#32, 1#32, 1#32] []) = (0x404#32, 1#32) ∧
    ends (.gb7Render true) (bench [0x100#32, 6#32, 1#32, 0x101#32] []) = (0x504#32, 0#32) :=
  ⟨rfl, by decide +kernel, by decide +kernel, by decide +kernel, by decide +kernel, by decide +kernel⟩

/-- The last 256 bytes of the address space, and the region one byte higher. -/
theorem witness_LutBuildsFollowTheirCurves :
    let s := bench [0xFFFFFF00#32, 0x2040#32, 0xE0C0#32] []
    let past := bench [0xFFFFFF01#32, 0x2040#32, 0xE0C0#32] []
    s.orderly ∧ inDataSpace (s.arg 0) 256 ∧ s.respondsOn (s.arg 0) 256 ∧ past.orderly ∧ ¬ inDataSpace (past.arg 0) 256 :=
  ⟨rfl, by unfold inDataSpace; decide, responds_on rfl _ _, rfl, by unfold inDataSpace; decide⟩

/-- A LUT that maps every value to itself. -/
def identityLut : Memory := (List.range 255).map (fun k => (0x1001 + k, BitVec.ofNat 8 (k + 1)))

theorem identityLut_reads : ∀ x, x < 256 → identityLut.read (0x1000 + x) = BitVec.ofNat 8 x := by
  have h : ((List.range 256).all (fun x => identityLut.read (0x1000 + x) == BitVec.ofNat 8 x)) = true := by
    decide +kernel
  simpa [List.all_eq_true] using h

/-- The identity points; an identity LUT in use; and a ramp whose ends are both below 255. -/
theorem witness_IdentityLutsLeaveChannels :
    let s := bench [0x1000#32, 0x0000#32, 0xFFFF#32] []
    let u := bench [0x100#32, 1#32, 1#32, 0x200#32, 0x1000#32] identityLut
    let ramp := bench [0x1000#32, 0x2040#32, 0xE0C0#32] []
    (s.orderly ∧ s.args[1] = 0x0000#32 ∧ s.args[2] = 0xFFFF#32 ∧
      exec .lutBuildFlat s = .next (after .lutBuildFlat s) ∧ (after .lutBuildFlat s).done = true) ∧
    (u.orderly ∧ (∀ x, x < 256 → u.mem.read (u.arg 4 + x) = BitVec.ofNat 8 x) ∧
      exec (.lutApply false true false false false) u = .next (after (.lutApply false true false false false) u) ∧
      (after (.lutApply false true false false false) u).done = true) ∧
    ramp.orderly ∧ exec .lutBuildRamp ramp = .next (after .lutBuildRamp ramp) ∧
      (after .lutBuildRamp ramp).done = true ∧ (ramp.args[1]).toNat % 256 < 255 ∧ (ramp.args[2]).toNat % 256 < 255 :=
  ⟨⟨rfl, by decide, by decide, rfl, by decide +kernel⟩, ⟨rfl, identityLut_reads, rfl, by decide +kernel⟩, rfl, rfl,
    by decide +kernel, by decide, by decide⟩

/-- LUT_APPLY with the red LUT in use, and the alpha LUT. -/
theorem witness_LutApplyMapsChannels :
    let s := lutBench
    s.orderly ∧ checkedBuffers (s.arg 0) (4 * s.arg 1 * s.arg 2) (s.arg 3) (4 * s.arg 1 * s.arg 2) ∧
    checkedBuffers (s.arg 4) 256 (s.arg 3) (4 * s.arg 1 * s.arg 2) ∧
    checkedBuffers (s.arg 7) 256 (s.arg 3) (4 * s.arg 1 * s.arg 2) ∧
    s.respondsOn (s.arg 4) 256 ∧ s.respondsOn (s.arg 0) 8 ∧ s.respondsOn (s.arg 3) 8 :=
  ⟨rfl, checked (by decide), checked (by decide), checked (by decide), responds_on rfl _ _, responds_on rfl _ _,
    responds_on rfl _ _⟩

/-- The LUT_APPLY error rows of section 2.7. -/
theorem witness_LutApplyErrorsInOrder :
    let run := fun (i : Instr) (s d r g b a : Word) => ends i (bench [s, 2#32, 1#32, d, r, g, b, a] [])
    let rgb := Instr.lutApply false true true true false
    let alpha := Instr.lutApply true false false false true
    State.reset.orderly ∧
    run rgb 0x100#32 0x200#32 0x1000#32 0x204#32 0x1200#32 0x1300#32 = (0x504#32, 4#32) ∧
    run alpha 0x100#32 0x200#32 0x1000#32 0x1100#32 0x1200#32 0xFFFFFF80#32 = (0x404#32, 6#32) ∧
    run rgb 0x100#32 0x200#32 0x1000#32 0x1100#32 0x1200#32 0xFFFFFF80#32 = (2#32, 0#32) ∧
    run rgb 0x100#32 0x200#32 0xFFFFFF80#32 0x1100#32 0xFFFFFF80#32 0#32 = (0x404#32, 3#32) ∧
    run rgb 0xFFFFFFFF#32 0x200#32 0xFFFFFF80#32 0#32 0#32 0#32 = (0x404#32, 0#32) ∧
    run rgb 0x100#32 0x200#32 0x100#32 0x1100#32 0x1200#32 0#32 = (2#32, 0#32) ∧
    run rgb 0x100#32 0x200#32 0x200#32 0x1100#32 0x1200#32 0#32 = (0x504#32, 3#32) :=
  ⟨rfl, by decide +kernel, by decide +kernel, by decide +kernel, by decide +kernel, by decide +kernel,
    by decide +kernel, by decide +kernel⟩

/-! ### Convolution and compositing -/

/-- A box kernel; and the values of a normal, a subnormal and a negative word (R15). -/
theorem witness_ConvolutionWritesPixels :
    ((0x3FC00000#32 : Word).extractLsb' 23 8 ≠ 0xFF#8 ∧ binary32Value 0x3FC00000#32 = 3 / 2) ∧
    ((0x807FFFFF#32 : Word).extractLsb' 23 8 ≠ 0xFF#8 ∧ binary32Value 0x807FFFFF#32 = -(2 ^ 23 - 1) / 2 ^ 149) ∧
    ((0x7F7FFFFF#32 : Word).extractLsb' 23 8 ≠ 0xFF#8 ∧ binary32Value 0x7F7FFFFF#32 = (2 ^ 24 - 1) * 2 ^ 104) ∧
    let s := convolving box [0, 0, 0, 0, 0x5A, 0x5A, 0x5A, 0x5A, 0xB4, 0xB4, 0xB4, 0xB4] 3#32 1#32
    s.orderly ∧ (0b10#2 ≠ 0b11#2 ∧ 0b00#2 ≠ 0b11#2) ∧ 0 < s.arg 1 ∧ 0 < s.arg 2 ∧
    (∀ k : Fin 9, (s.kernel[k].extractLsb' 23 8) ≠ 0xFF#8) ∧
    checkedBuffers (s.arg 0) (4 * s.arg 1 * s.arg 2) (s.arg 3) (4 * s.arg 1 * s.arg 2) ∧
    s.respondsOn (s.arg 0) 12 ∧ s.respondsOn (s.arg 3) 12 :=
  ⟨by decide +kernel, by decide +kernel, by decide +kernel, rfl, by decide, by decide, by decide, by decide +kernel, checked (by decide), responds_on rfl _ _,
    responds_on rfl _ _⟩

/-- The error rows of section 2.8. -/
theorem witness_ConvolutionErrorsInOrder :
    let i := Instr.conv3x3 0b00#2 0b00#2 false
    let run := fun (weights : List Word) (s w d : Word) =>
      ends i { bench [s, w, 1#32, d] [] with kernel := kernelOf weights }
    State.reset.orderly ∧
    run [0, 0, 0, 0x7F800000#32, 0, 0x7FC00000#32] 0x100#32 3#32 0x200#32 = (0x604#32, 3#32) ∧
    run [0, 0, 0, 0, 0xFFC00000#32] 0x100#32 3#32 0xFFFFFFF8#32 = (0x604#32, 4#32) ∧
    run (List.replicate 9 0x7F800000#32) 0x100#32 0#32 0x200#32 = (0x204#32, 0#32) ∧
    run box 0x100#32 3#32 0xFFFFFFF8#32 = (0x404#32, 1#32) ∧
    run box 0xFFFFFFFF#32 1#32 0xFFFFFFFF#32 = (0x404#32, 0#32) ∧
    run box 0x100#32 3#32 0x108#32 = (0x504#32, 0#32) :=
  ⟨rfl, by decide +kernel, by decide +kernel, by decide +kernel, by decide +kernel, by decide +kernel,
    by decide +kernel⟩

/-- A kernel with one weight. -/
def unitKernel (k : Nat) : List Word := (List.range 9).map (fun j => if j = k then 0x3F800000#32 else 0#32)

/-- The identity, the right and the lower neighbour, and box kernels of weight 1 and 2. -/
theorem witness_ConvolutionProperties :
    let run := fun (k : Nat) => convolving (unitKernel k) [10, 0, 0, 0, 20, 0, 0, 0] 2#32 1#32
    let all := Instr.conv3x3 0b10#2 0b00#2 false
    let s := convolving box [0x5A, 0, 0, 0] 1#32 1#32
    let u := { s with kernel := kernelOf (List.replicate 9 0x40000000#32) }
    ((run 4).orderly ∧ (∀ k : Fin 9, (run 4).kernel[k] = if k = 4 then 0x3F800000#32 else 0#32) ∧
      exec all (run 4) = .next (after all (run 4)) ∧ (after all (run 4)).done = true) ∧
    ((∀ k : Fin 9, (run 5).kernel[k] = if k = 5 then 0x3F800000#32 else 0#32) ∧ (after all (run 5)).done = true) ∧
    ((∀ k : Fin 9, (run 7).kernel[k] = if k = 7 then 0x3F800000#32 else 0#32) ∧ (after all (run 7)).done = true) ∧
    s.orderly ∧ (0b00#2 ≠ 0b01#2) ∧ (2 : ℚ) ≠ 0 ∧ u = { s with kernel := u.kernel } ∧
      (∀ k : Fin 9, binary32NonFinite u.kernel[k] = false) ∧
      (∀ k : Fin 9, binary32Value u.kernel[k] = 2 * binary32Value s.kernel[k]) ∧
      (binary32Value s.kernel[0] + binary32Value s.kernel[1] + binary32Value s.kernel[2] +
        binary32Value s.kernel[3] + binary32Value s.kernel[4] + binary32Value s.kernel[5] +
        binary32Value s.kernel[6] + binary32Value s.kernel[7] + binary32Value s.kernel[8] ≠ 0) ∧
      exec all s = .next (after all s) ∧ (after all s).done = true ∧ exec all u = .next (after all u) :=
  ⟨⟨rfl, by decide +kernel, rfl, by decide +kernel⟩, ⟨by decide +kernel, by decide +kernel⟩,
    ⟨by decide +kernel, by decide +kernel⟩, rfl, by decide, by norm_num, rfl, by decide +kernel, by decide +kernel,
    by decide +kernel, rfl, by decide +kernel, rfl⟩

/-- A table of one Image layer and one layer that is not visible. -/
def twoLayers : State :=
  stack 2#32 1#32 1#32
    (imageLayer 1 0 0x3F800000#32 1#32 1#32 0x400#32 ++ colorLayer 4 9 0x3F800000#32 [1, 2, 3, 4]) [9, 8, 7, 6]

theorem witness_CompositeFlattensContributingLayers :
    twoLayers.orderly ∧ checkedBuffers (twoLayers.arg 0) (32 * twoLayers.arg 1) (twoLayers.arg 4)
      (4 * twoLayers.arg 2 * twoLayers.arg 3) ∧
    (∀ i, i < twoLayers.arg 1 → descriptorValid twoLayers (twoLayers.arg 0 + 32 * i) (twoLayers.arg 2)
      (twoLayers.arg 3) (twoLayers.arg 4)) ∧
    twoLayers.respondsOn (twoLayers.arg 4) 4 := by
  refine ⟨rfl, checked (by decide), ?_, responds_on rfl _ _⟩
  have h0 : contributingLayer twoLayers.mem 0x100 1 1 = some ⟨false, .normal, 1, .image 0x400⟩ := by decide +kernel
  have h1 : contributingLayer twoLayers.mem 0x120 1 1 = none := by decide +kernel
  intro i hi
  have hi' : i < 2 := hi
  have hcase : i = 0 ∨ i = 1 := by omega
  refine ⟨fun a _ => all_respond rfl a, ?_⟩
  rcases hcase with rfl | rfl
  · refine ⟨⟨fun _ => by decide, fun l base hl hs => ?_⟩,
      fun l base _ => ⟨fun _ => responds_on rfl _ _, fun _ => responds_on rfl _ _⟩⟩
    have : some (⟨false, .normal, 1, .image 0x400⟩ : Layer) = some l := h0.symm.trans hl
    cases this
    cases hs
    exact checked (by decide)
  · have none_here : ∀ l, contributingLayer twoLayers.mem 0x120 1 1 = some l → False := by
      intro l hl
      rw [h1] at hl
      cases hl
    exact ⟨⟨fun h => absurd h.1 (by decide), fun l _ hl _ => (none_here l hl).elim⟩,
      fun l _ hl => (none_here l hl).elim⟩

/-- The bytes that the pre-pass reads of a layer that is not visible, of a Color layer, of an Image layer of another width,
of another height, and of the same size (R238); and a table whose reserved byte 2 does not respond is readable. -/
theorem test_prepassReads :
    let reads := fun (d : List Byte) => prepassReads (stack 1#32 2#32 1#32 d []).mem 0x100 2 1
    let field := fun (k : Nat) => [0x100 + k, 0x101 + k, 0x102 + k, 0x103 + k]
    reads (colorLayer 4 0 0x3F800000#32 [1, 2, 3, 4]) = 0x100 :: field 4 ∧
    reads (colorLayer 5 0 0x3F800000#32 [1, 2, 3, 4]) = 0x100 :: field 4 ++ [0x101] ∧
    reads (imageLayer 1 0 0x3F800000#32 3#32 1#32 0x400#32) = 0x100 :: field 4 ++ [0x101] ++ field 8 ∧
    reads (imageLayer 1 0 0x3F800000#32 2#32 2#32 0x400#32) = 0x100 :: field 4 ++ [0x101] ++ field 8 ++ field 12 ∧
    reads (imageLayer 1 0 0x3F800000#32 2#32 1#32 0x400#32) =
      0x100 :: field 4 ++ [0x101] ++ field 8 ++ field 12 ++ field 16 := by
  decide +kernel

/-- The COMPOSITE rows of section 2.9: a descriptor byte that does not respond, read or not. -/
theorem test_descriptor_bus_errors :
    let run := fun (w : Word) (d : List Byte) (a : Nat) => ends .composite (holed (stack 1#32 w 1#32 d [1, 2, 3, 4]) a 1)
    let status := fun (d : List Byte) (a : Nat) =>
      (after .composite (holed (stack 1#32 1#32 1#32 d [1, 2, 3, 4]) a 1)).statusWord
    let color := colorLayer 5 0 0x3F800000#32 [1, 2, 3, 4]
    [0x100, 0x106, 0x101].map (run 1#32 color) =
      [(0x904#32, 0x100#32), (0x904#32, 0x106#32), (0x904#32, 0x101#32)] ∧ status color 0x111 = 0x904#32 ∧
    [0x102, 0x114].map (run 1#32 color) = [(0x2#32, 0#32), (0x2#32, 0#32)] ∧
    run 1#32 (colorLayer 4 0 0x3F800000#32 [1, 2, 3, 4]) 0x101 = (0x2#32, 0#32) ∧
    run 2#32 (imageLayer 1 0 0x3F800000#32 3#32 1#32 0x400#32) 0x10C = (0x2#32, 0#32) ∧
    run 2#32 (imageLayer 1 0 0x3F800000#32 2#32 1#32 0x400#32) 0x10C = (0x904#32, 0x10C#32) ∧
    run 1#32 (imageLayer 1 0 0x3F800000#32 1#32 1#32 0x400#32) 0x112 = (0x904#32, 0x112#32) ∧
    status (imageLayer 1 0 0x3F800000#32 1#32 1#32 0x400#32) 0x402 = 0x904#32 := by
  decide +kernel

/-- The error rows of section 2.5 on a stack of two layers. -/
theorem witness_CompositeErrorsInOrder :
    let first := colorLayer 5 0 0x3F800000#32 [1, 2, 3, 4]
    let run := fun (second : List Byte) => ends .composite (stack 2#32 1#32 1#32 (first ++ second) [])
    (stack 1#32 1#32 1#32 (colorLayer 5 7 0x3F800000#32 [1, 2, 3, 4]) []).orderly ∧
    run (colorLayer 5 4 0x3F800000#32 [1, 2, 3, 4]) = (0x704#32, 1#32) ∧
    run (imageLayer 1 0 0x3F800000#32 1#32 1#32 0x802#32) = (0x504#32, 0x107#32) ∧
    run (imageLayer 1 0 0x3F800000#32 1#32 1#32 0xFFFFFFFE#32) = (0x404#32, 0x107#32) ∧
    ends .composite (bench [0x100#32, 1#32, 1#32, 1#32, 0x110#32] []) = (0x504#32, 2#32) ∧
    ends .composite (bench [0xFFFFFFF0#32, 1#32, 1#32, 1#32, 0xFFFFFFFF#32] []) = (0x404#32, 2#32) ∧
    ends .composite (bench [0x100#32, 1#32, 1#32, 1#32, 0xFFFFFFFE#32] []) = (0x404#32, 1#32) :=
  ⟨rfl, by decide +kernel, by decide +kernel, by decide +kernel, by decide +kernel, by decide +kernel,
    by decide +kernel⟩

/-- Both ends of the opacity range, over an opaque pixel. -/
theorem witness_BlendFollowsPixelAlgebra :
    (0 ≤ (⟨true, .overlay, 1, .color 0⟩ : Layer).opacity ∧ (⟨true, .overlay, 1, .color 0⟩ : Layer).opacity ≤ 1) ∧
    (0 ≤ (⟨true, .overlay, 0, .color 0⟩ : Layer).opacity ∧ (⟨true, .overlay, 0, .color 0⟩ : Layer).opacity ≤ 1) := by
  norm_num

theorem witness_LayerProperties :
    let l : Layer := ⟨false, .normal, 1, .color 0⟩
    let unseen := holed (stack 1#32 1#32 1#32 (colorLayer 5 9 0x7FC00000#32 [1, 2, 3, 4]) []) 0x101 3
    (l.blend = .normal ∧ l.hideAlpha = false ∧ l.opacity = 1) ∧ sourceAlpha l 255#8 = 1 ∧
    ((0x7FC00000#32 : Word).extractLsb' 23 8 = 0xFF#8 ∧ (0x7FC00000#32 : Word).extractLsb' 0 23 ≠ 0#23) ∧
    ((0xFF800000#32 : Word).extractLsb' 23 8 = 0xFF#8 ∧ (0xFF800000#32 : Word).extractLsb' 0 23 = 0#23) ∧
    [0x00000000#32, 0x3F000000#32, 0x40000000#32, 0xBF000000#32].all (fun w => w.extractLsb' 23 8 != 0xFF#8) ∧
    unseen.orderly ∧ (∀ k ∈ [0, 4, 5, 6, 7], unseen.responds (0x100 + 32 * 0 + k) = true) ∧
    ¬ descriptorActive unseen.mem (0x100 + 32 * 0) := by
  refine ⟨⟨rfl, rfl, rfl⟩, by decide +kernel, by decide, by decide, by decide, rfl, by decide, ?_⟩
  unfold descriptorActive
  decide +kernel

/-! ### Bus errors, per family: a source byte that does not respond, and the command that reads it -/

/-- The command ends with BUS_ERROR. -/
def busErrs (i : Instr) (s : State) : Bool := (after i s).statusWord == 0x904#32

/-- The command ends with BUS_ERROR at `a`, and memory is as it was. -/
def busErrsUpFront (i : Instr) (s : State) (a : Word) : Bool :=
  ends i s == (0x904#32, a) && (after i s).mem == s.mem

/-- A byte that is read before the first `MemWrite` is an up-front BUS_ERROR (R333), by hand from the pseudocode: pixel 0
of the decoders and of GB7_RENDER, and mask byte 0. The next pixel's byte is of the data phase (section 2.9). -/
theorem test_gb7_first_reads :
    busErrsUpFront .gb7Dec (holed (decoding planeStream 23#32 9#32) 0x100C 1) 0x100C#32 = true ∧
    busErrsUpFront .gb7DecPlane (holed (decoding planeStream 23#32 9#32) 0x1015 1) 0x1015#32 = true ∧
    busErrsUpFront (.gb7Render true) (holed rendering 0x100 2) 0x100#32 = true ∧
    (commandOf .gb7Dec (holed (decoding planeStream 23#32 9#32) 0x100D 1)).namedBytes = ⟨0x2000, 9⟩ := by
  decide +kernel

/-- The same for resampling: channel 0 of the nearest pixel, and the first of the neighbours that does not respond. A byte
of channel 2 is of the data phase (section 2.9: RS_RGBA_NEAREST of 1×1 with 0x102). -/
theorem test_resample_first_reads :
    busErrsUpFront .rsRgbaNearest (holed (resampling quad 1#32 1#32 1#32 1#32) 0x100 1) 0x100#32 = true ∧
    (commandOf .rsRgbaNearest (holed (resampling quad 1#32 1#32 1#32 1#32) 0x102 1)).namedBytes = ⟨0x200, 4⟩ ∧
    busErrs .rsRgbaNearest (holed (resampling quad 1#32 1#32 1#32 1#32) 0x102 1) = true ∧
    busErrsUpFront .rsRgbaBilinear (holed (resampling quad 2#32 2#32 1#32 1#32) 0x104 5) 0x104#32 = true ∧
    busErrsUpFront (.rsGrayNearest true) (holed (resampling [1, 2, 3, 4] 4#32 1#32 2#32 1#32) 0x100 1) 0x100#32 = true ∧
    busErrsUpFront (.rsGrayBilinear false) (holed (resampling [1, 2, 3, 4] 2#32 2#32 1#32 1#32) 0x101 3) 0x101#32 = true := by
  decide +kernel

/-- The same for LUT_APPLY, the first source byte and its entry, and for CONV3X3, the right neighbour of a convolved
channel 0 and the byte of a copied one. -/
theorem test_lut_and_convolution_first_reads :
    busErrsUpFront (.lutApply false true false false false) (holed lutBench 0x100 1) 0x100#32 = true ∧
    busErrsUpFront (.lutApply false true false false false) (holed lutBench 0x100A 1) 0x100A#32 = true ∧
    (commandOf (.lutApply false true false false false) (holed lutBench 0x10C8 1)).namedBytes = ⟨0x200, 8⟩ ∧
    busErrsUpFront (.conv3x3 0b00#2 0b00#2 false)
      (holed (convolving box [0, 0, 0, 0, 90, 90, 90, 90] 2#32 1#32) 0x104 4) 0x104#32 = true ∧
    busErrsUpFront (.conv3x3 0b01#2 0b00#2 false)
      (holed (convolving box [0, 0, 0, 0, 90, 90, 90, 90] 2#32 1#32) 0x100 8) 0x100#32 = true ∧
    (commandOf (.conv3x3 0b01#2 0b00#2 false)
      (holed (convolving box [0, 0, 0, 0, 90, 90, 90, 90] 2#32 1#32) 0x104 4)).namedBytes = ⟨0x200, 8⟩ := by
  decide +kernel

/-- The decoders and encoders of AccessedBytesDecideBusError: the last mask-plane byte, and the R of a pixel. -/
theorem witness_AccessedBytes_gb7 :
    let s := holed (decoding planeStream 23#32 9#32) 0x1016 1
    let u := holed (encoding [1, 2, 3, 0xFE] 1#32 1#32 14#32 0#32) 0x100 1
    (s.orderly ∧ Gb7HeaderAt s.mem (s.arg 0) 0x01#8 0x01#8 9 1 ∧ s.respondsOn (s.arg 0) 12 ∧
      checkedBuffers (s.arg 0) (s.arg 1) (s.arg 2) (s.arg 3) ∧ 9 * 1 ≤ s.arg 3 ∧
      12 + 9 * 1 + 1 * ((9 + 7) / 8) ≤ s.arg 1 ∧ s.responds 0x1016 = false ∧ busErrs .gb7DecPlane s = true ∧
      busErrs .gb7Dec s = false) ∧
    (u.orderly ∧ u.arg 1 ≤ 65535 ∧ u.arg 2 ≤ 65535 ∧
      checkedBuffers (u.arg 0) (4 * u.arg 1 * u.arg 2) (u.arg 3) (u.arg 4) ∧
      streamHasAlpha u.mem true (u.arg 0) (u.arg 1) (u.arg 2) true ∧
      (∀ q, ¬ alphaScanFailsAt u (u.arg 0) (u.arg 1 * u.arg 2) q) ∧
      12 + u.arg 1 * u.arg 2 + u.arg 2 * ((u.arg 1 + 7) / 8) ≤ u.arg 4 ∧ u.responds 0x100 = false ∧
      busErrs (.gb7Enc false) u = true ∧ busErrs (.gb7EncInline true) u = true) :=
  ⟨⟨rfl, ⟨by decide, by decide, by decide, by decide, by decide, by decide⟩,
      (by decide : ∀ k, k < 12 → (holed (decoding planeStream 23#32 9#32) 0x1016 1).responds (0x1000 + k) = true),
      checked (by decide), by decide, by decide, by decide, by decide +kernel, by decide +kernel⟩,
    rfl, by decide, by decide, checked (by decide), by simp [streamHasAlpha],
    fun q h => absurd h.2.1 (by rw [(by have : q < 1 := h.1; omega : q = 0)]; decide), by decide, by decide,
    by decide +kernel, by decide +kernel⟩

/-- Rendering and resampling: the last gray byte, and a neighbour that only the bilinear commands read. -/
theorem witness_AccessedBytes_pixels :
    let s := holed rendering 0x101 1
    let u := holed (resampling quad 2#32 2#32 1#32 1#32) 0x100 1
    let v := holed (resampling [0x85, 0x01, 0x02, 0x03] 4#32 1#32 1#32 1#32) 0x100 1
    (s.orderly ∧ checkedBuffers (s.arg 0) (s.arg 1 * s.arg 2) (s.arg 3) (4 * s.arg 1 * s.arg 2) ∧
      busErrs (.gb7Render true) s = true) ∧
    (u.orderly ∧ 0 < u.arg 1 ∧ 0 < u.arg 2 ∧ 0 < u.arg 4 ∧ 0 < u.arg 5 ∧
      checkedBuffers (u.arg 0) (4 * u.arg 1 * u.arg 2) (u.arg 3) (4 * u.arg 4 * u.arg 5) ∧
      busErrs .rsRgbaBilinear u = true ∧ busErrs .rsRgbaNearest u = false) ∧
    v.orderly ∧ 0 < v.arg 1 ∧ 0 < v.arg 2 ∧ 0 < v.arg 4 ∧ 0 < v.arg 5 ∧
      checkedBuffers (v.arg 0) (v.arg 1 * v.arg 2) (v.arg 3) (v.arg 4 * v.arg 5) ∧
      busErrs (.rsGrayNearest true) v = true ∧ busErrs (.rsGrayBilinear false) v = true :=
  ⟨⟨rfl, checked (by decide), by decide +kernel⟩,
    ⟨rfl, by decide, by decide, by decide, by decide, checked (by decide), by decide +kernel, by decide +kernel⟩,
    rfl, by decide, by decide, by decide, by decide, checked (by decide), by decide +kernel, by decide +kernel⟩

/-- Tone curves and convolution: a LUT's own byte, a used and an unused LUT entry, and a neighbour. -/
theorem witness_AccessedBytes_luts_and_weights :
    let b := holed (bench [0xFFFFFF00#32, 0x2040#32, 0xE0C0#32] []) 0xFFFFFFFF 1
    let s := holed lutBench 0x10C8 1
    let u := holed (convolving box [0, 0, 0, 0, 90, 90, 90, 90] 2#32 1#32) 0x104 1
    (b.orderly ∧ inDataSpace (b.arg 0) 256 ∧ busErrs .lutBuildRamp b = true ∧ busErrs .lutBuildFlat b = true) ∧
    (s.orderly ∧ checkedBuffers (s.arg 0) (4 * s.arg 1 * s.arg 2) (s.arg 3) (4 * s.arg 1 * s.arg 2) ∧
      checkedBuffers (s.arg 4) 256 (s.arg 3) (4 * s.arg 1 * s.arg 2) ∧
      busErrs (.lutApply false true false false false) s = true ∧
      busErrs (.lutApply false false true true false) s = false) ∧
    u.orderly ∧ (0b00#2 ≠ 0b11#2) ∧ 0 < u.arg 1 ∧ 0 < u.arg 2 ∧
      (∀ k : Fin 9, (u.kernel[k].extractLsb' 23 8) ≠ 0xFF#8) ∧
      checkedBuffers (u.arg 0) (4 * u.arg 1 * u.arg 2) (u.arg 3) (4 * u.arg 1 * u.arg 2) ∧
      busErrs (.conv3x3 0b00#2 0b00#2 false) u = true :=
  ⟨⟨rfl, by unfold inDataSpace; decide, by decide +kernel, by decide +kernel⟩,
    ⟨rfl, checked (by decide), checked (by decide), by decide +kernel, by decide +kernel⟩,
    rfl, by decide, by decide, by decide, by decide +kernel, checked (by decide), by decide +kernel⟩

/-- COMPOSITE: a byte of a contributing Image layer, with only the descriptor's read bytes asked to respond; and a byte of a
Color layer's pixel. -/
theorem witness_AccessedBytes_composite :
    let s := holed (stack 1#32 1#32 1#32 (imageLayer 1 0 0x3F800000#32 1#32 1#32 0x400#32) [9, 8, 7, 6]) 0x403 1
    let c := holed (stack 1#32 1#32 1#32 (colorLayer 5 0 0x3F800000#32 [1, 2, 3, 4]) []) 0x110 16
    s.orderly ∧ checkedBuffers (s.arg 0) (32 * s.arg 1) (s.arg 4) (4 * s.arg 2 * s.arg 3) ∧
    (∀ i, i < s.arg 1 → descriptorReadable s (s.arg 0 + 32 * i) (s.arg 2) (s.arg 3) ∧
      descriptorPasses s.mem (s.arg 0 + 32 * i) (s.arg 2) (s.arg 3) (s.arg 4)) ∧
    busErrs .composite s = true ∧ descriptorReadable c (c.arg 0) (c.arg 2) (c.arg 3) ∧ busErrs .composite c = true := by
  intro s c
  have hc : (prepassReads c.mem (c.arg 0) (c.arg 2) (c.arg 3)).all c.responds = true := by decide +kernel
  have hs : (prepassReads s.mem (s.arg 0) (s.arg 2) (s.arg 3)).all s.responds = true := by decide +kernel
  refine ⟨rfl, checked (by decide), ?_, by decide +kernel, List.all_eq_true.mp hc, by decide +kernel⟩
  have h0 : contributingLayer s.mem 0x100 1 1 = some ⟨false, .normal, 1, .image 0x400⟩ := by decide +kernel
  intro i hi
  have hi' : i < 1 := hi
  have hcase : i = 0 := by omega
  subst hcase
  refine ⟨List.all_eq_true.mp hs, fun _ => by decide, fun l base hl hs => ?_⟩
  have : some (⟨false, .normal, 1, .image 0x400⟩ : Layer) = some l := h0.symm.trans hl
  cases this
  cases hs
  exact checked (by decide)

end Sys2Proof.Tests
end

section
/-! SUPPORT. The rules of binary64 arithmetic (R16) by the kind of each operand, and the completion of a colour command
that writes CC_FOUT (R180), from which SrgbTransferCommands (O28) is assembled. -/

namespace Sys2Proof.Machine

/-! ## The kinds of pattern (R48) -/

/-- The pattern is an infinity. -/
def f64IsInfinity (v : F64) : Prop := f64Exponent v = 2047 ∧ f64Fraction v = 0

/-- The pattern is a zero, of either sign. -/
def f64IsZero (v : F64) : Prop := f64Exponent v = 0 ∧ f64Fraction v = 0

/-- The pattern is neither an infinity nor a NaN. -/
def f64IsFinite (v : F64) : Prop := f64Exponent v ≠ 2047

/-- One of two operands is a NaN. -/
def f64EitherNaN (a b : F64) : Prop := f64IsNaN a = true ∨ f64IsNaN b = true

theorem f64_not_nan_cases {a : F64} (h : ¬ f64IsNaN a = true) : f64IsInfinity a ∨ f64IsFinite a := by
  rcases binary64_cases a with ⟨hn, -⟩ | ⟨-, -, he, hf⟩ | ⟨-, -, he⟩
  · exact absurd hn h
  · exact .inl ⟨he, hf⟩
  · exact .inr he

theorem binary64_of_nan {a : F64} (h : f64IsNaN a = true) : binary64 a = .nan := by
  rcases binary64_cases a with ⟨-, hb, -⟩ | ⟨hn, -⟩ | ⟨hn, -⟩
  · exact hb
  · exact absurd h (by simp [hn])
  · exact absurd h (by simp [hn])

theorem binary64_of_infinity {a : F64} (h : f64IsInfinity a) : binary64 a = .infinity (f64Sign a) := by
  unfold binary64
  rw [if_pos h.1, if_pos h.2]

theorem f64IsInfinity.not_finite {a : F64} (h : f64IsInfinity a) : ¬ f64IsFinite a := fun hf => hf h.1

theorem f64IsInfinity.not_zero {a : F64} (h : f64IsInfinity a) : ¬ f64IsZero a := fun hz => by
  have := h.1.symm.trans hz.1
  omega

theorem f64IsZero.finite {a : F64} (h : f64IsZero a) : f64IsFinite a := fun he => by
  have := he.symm.trans h.1
  omega

/-- Sign, exponent and fraction are the whole pattern. -/
theorem f64_ext {a b : F64} (hs : f64Sign a = f64Sign b) (he : f64Exponent a = f64Exponent b)
    (hf : f64Fraction a = f64Fraction b) : a = b := by
  have ha := a.isLt
  have hb := b.isLt
  simp only [f64Sign, ← BitVec.testBit_toNat, Nat.testBit_eq_decide_div_mod_eq, decide_eq_decide] at hs
  simp only [f64Exponent, BitVec.extractLsb'_toNat, Nat.shiftRight_eq_div_pow] at he
  simp only [f64Fraction, BitVec.extractLsb'_toNat, Nat.shiftRight_zero] at hf
  apply BitVec.eq_of_toNat_eq
  omega

/-- An infinity is the pattern that its sign gives. -/
theorem f64Infinity_sign {a : F64} (h : f64IsInfinity a) : f64Infinity (f64Sign a) = a := by
  obtain ⟨⟨he, hf⟩, hs⟩ := f64Infinity_spec (f64Sign a)
  exact f64_ext hs (he.trans h.1.symm) (hf.trans h.2.symm)

theorem f64Pattern_zero_spec (s : Bool) : f64IsZero (f64Pattern s 0) ∧ f64Sign (f64Pattern s 0) = s := by
  obtain ⟨hs, he, hf⟩ := f64Pattern_fields (s := s) (low := 0) (by decide)
  exact ⟨⟨he, hf⟩, hs⟩

/-! ## The value of a finite pattern -/

theorem f64Magnitude_eq_zero_iff {a : F64} : f64Magnitude a = 0 ↔ f64IsZero a := by
  unfold f64Magnitude f64IsZero
  split
  · rename_i h
    simp [h]
  · rename_i h
    have : ((2 ^ 52 + f64Fraction a) * 2 ^ f64Exponent a : Nat) ≠ 0 := by positivity
    simp only [h, false_and, iff_false]
    exact div_ne_zero (Nat.cast_ne_zero.mpr this) (by positivity)

theorem f64Magnitude_ne_zero {a : F64} (h : f64Value a ≠ 0) : f64Magnitude a ≠ 0 := fun h0 => by
  apply h
  unfold f64Value signedRat
  rw [h0]
  split
  · exact neg_zero
  · rfl

/-- R48: a normal magnitude by its significand and the exponent's bias of 1023. -/
theorem f64Magnitude_normal {a : F64} (h : f64Exponent a ≠ 0) :
    f64Magnitude a = (1 + (f64Fraction a : ℚ) / 2 ^ 52) * (2 : ℚ) ^ ((f64Exponent a : Int) - 1023) := by
  have hpow : (2 : ℚ) ^ ((f64Exponent a : Int) - 1023) = 2 ^ 52 * 2 ^ f64Exponent a / 2 ^ 1075 := by
    rw [eq_div_iff (by positivity), ← zpow_natCast, ← zpow_natCast, ← zpow_natCast, ← zpow_add₀ two_ne_zero,
      ← zpow_add₀ two_ne_zero]
    congr 1
    push_cast
    ring
  have hsig : (1 + (f64Fraction a : ℚ) / 2 ^ 52) * 2 ^ 52 = 2 ^ 52 + f64Fraction a := by
    rw [add_mul, one_mul, div_mul_cancel₀ _ (by positivity)]
  unfold f64Magnitude
  rw [if_neg h, hpow, mul_div_assoc', ← mul_assoc, hsig]
  push_cast
  rfl

/-- R48: the value of a finite pattern, by its fields. -/
theorem f64Value_by_fields (a : F64) : f64Value a = (if a.getLsbD 63 then -1 else 1) *
    if f64Exponent a = 0 then (f64Fraction a : ℚ) / 2 ^ 1074
    else (1 + (f64Fraction a : ℚ) / 2 ^ 52) * (2 : ℚ) ^ ((f64Exponent a : Int) - 1023) := by
  have hm : f64Magnitude a = if f64Exponent a = 0 then (f64Fraction a : ℚ) / 2 ^ 1074
      else (1 + (f64Fraction a : ℚ) / 2 ^ 52) * (2 : ℚ) ^ ((f64Exponent a : Int) - 1023) := by
    split
    · rename_i h
      unfold f64Magnitude
      rw [if_pos h]
    · rename_i h
      exact f64Magnitude_normal h
  rw [← hm]
  show signedRat (a.getLsbD 63) (f64Magnitude a) = _
  unfold signedRat
  split
  · rw [neg_one_mul]
  · rw [one_mul]

/-! ## The operations on finite patterns (R16) -/

section
variable {a b : F64}

theorem fadd_finite (ha : f64IsFinite a) (hb : f64IsFinite b) :
    fadd a b = f64Round (f64Sign a && f64Sign b) (f64Value a + f64Value b) := by
  simp only [fadd, binary64_finite ha, binary64_finite hb, f64Value]

theorem fsub_finite (ha : f64IsFinite a) (hb : f64IsFinite b) :
    fsub a b = f64Round (f64Sign a && !f64Sign b) (f64Value a - f64Value b) := by
  simp only [fsub, binary64_finite ha, binary64_finite hb, f64Value]

theorem fmul_finite (ha : f64IsFinite a) (hb : f64IsFinite b) :
    fmul a b = f64Round (f64Sign a != f64Sign b) (f64Value a * f64Value b) := by
  simp only [fmul, binary64_finite ha, binary64_finite hb, f64Value]

theorem fdiv_finite (ha : f64IsFinite a) (hb : f64IsFinite b) (h0 : f64Value b ≠ 0) :
    fdiv a b = f64Round (f64Sign a != f64Sign b) (f64Value a / f64Value b) := by
  simp only [fdiv, binary64_finite ha, binary64_finite hb, if_neg (f64Magnitude_ne_zero h0), f64Value]

/-! ## The operations on a NaN -/

theorem fadd_nan (h : f64EitherNaN a b) : fadd a b = nanResult .add a b := by
  rcases h with h | h
  · simp only [fadd, binary64_of_nan h]
  · cases ha : binary64 a <;> simp only [fadd, ha, binary64_of_nan h]

theorem fsub_nan (h : f64EitherNaN a b) : fsub a b = nanResult .sub a b := by
  rcases h with h | h
  · simp only [fsub, binary64_of_nan h]
  · cases ha : binary64 a <;> simp only [fsub, ha, binary64_of_nan h]

theorem fmul_nan (h : f64EitherNaN a b) : fmul a b = nanResult .mul a b := by
  rcases h with h | h
  · simp only [fmul, binary64_of_nan h]
  · cases ha : binary64 a <;> simp only [fmul, ha, binary64_of_nan h]

theorem fdiv_nan (h : f64EitherNaN a b) : fdiv a b = nanResult .div a b := by
  rcases h with h | h
  · simp only [fdiv, binary64_of_nan h]
  · cases ha : binary64 a <;> simp only [fdiv, ha, binary64_of_nan h]

/-! ## The operations on infinities and by zero -/

theorem fadd_infinities (ha : f64IsInfinity a) (hb : f64IsInfinity b) :
    fadd a b = if f64Sign a = f64Sign b then a else nanResult .add a b := by
  simp only [fadd, binary64_of_infinity ha, binary64_of_infinity hb, f64Infinity_sign ha]

theorem fadd_infinity_finite (ha : f64IsInfinity a) (hb : f64IsFinite b) : fadd a b = a := by
  simp only [fadd, binary64_of_infinity ha, binary64_finite hb, f64Infinity_sign ha]

theorem fadd_finite_infinity (ha : f64IsFinite a) (hb : f64IsInfinity b) : fadd a b = b := by
  simp only [fadd, binary64_finite ha, binary64_of_infinity hb, f64Infinity_sign hb]

theorem fsub_infinities (ha : f64IsInfinity a) (hb : f64IsInfinity b) :
    fsub a b = if f64Sign a = !f64Sign b then a else nanResult .sub a b := by
  simp only [fsub, binary64_of_infinity ha, binary64_of_infinity hb, f64Infinity_sign ha]

theorem fsub_infinity_finite (ha : f64IsInfinity a) (hb : f64IsFinite b) : fsub a b = a := by
  simp only [fsub, binary64_of_infinity ha, binary64_finite hb, f64Infinity_sign ha]

theorem fsub_finite_infinity (ha : f64IsFinite a) (hb : f64IsInfinity b) : fsub a b = f64Infinity (!f64Sign b) := by
  simp only [fsub, binary64_finite ha, binary64_of_infinity hb]

theorem fmul_infinities (ha : f64IsInfinity a) (hb : f64IsInfinity b) :
    fmul a b = f64Infinity (f64Sign a != f64Sign b) := by
  simp only [fmul, binary64_of_infinity ha, binary64_of_infinity hb]

theorem fmul_infinity_finite (ha : f64IsInfinity a) (hb : f64IsFinite b) :
    fmul a b = if f64Magnitude b = 0 then nanResult .mul a b else f64Infinity (f64Sign a != f64Sign b) := by
  simp only [fmul, binary64_of_infinity ha, binary64_finite hb]

theorem fmul_finite_infinity (ha : f64IsFinite a) (hb : f64IsInfinity b) :
    fmul a b = if f64Magnitude a = 0 then nanResult .mul a b else f64Infinity (f64Sign a != f64Sign b) := by
  simp only [fmul, binary64_finite ha, binary64_of_infinity hb]

theorem fdiv_infinities (ha : f64IsInfinity a) (hb : f64IsInfinity b) : fdiv a b = nanResult .div a b := by
  simp only [fdiv, binary64_of_infinity ha, binary64_of_infinity hb]

theorem fdiv_infinity_finite (ha : f64IsInfinity a) (hb : f64IsFinite b) :
    fdiv a b = f64Infinity (f64Sign a != f64Sign b) := by
  simp only [fdiv, binary64_of_infinity ha, binary64_finite hb]

theorem fdiv_finite_infinity (ha : f64IsFinite a) (hb : f64IsInfinity b) :
    fdiv a b = f64Pattern (f64Sign a != f64Sign b) 0 := by
  simp only [fdiv, binary64_finite ha, binary64_of_infinity hb]

theorem fdiv_finite_zero (ha : f64IsFinite a) (hb : f64IsZero b) :
    fdiv a b = if f64Magnitude a = 0 then nanResult .div a b else f64Infinity (f64Sign a != f64Sign b) := by
  simp only [fdiv, binary64_finite ha, binary64_finite hb.finite, if_pos (f64Magnitude_eq_zero_iff.mpr hb)]

end

/-! ## Which operations are invalid, and what the others give (IEEE 754; log entries 21 and 4) -/

theorem fadd_special (a b : F64) :
    whenElse (f64EitherNaN a b ∨ (f64IsInfinity a ∧ f64IsInfinity b ∧ f64Sign a ≠ f64Sign b))
      (f64IsNaN (fadd a b) = true) ((f64IsInfinity a → fadd a b = a) ∧ (f64IsInfinity b → fadd a b = b)) := by
  constructor
  · rintro (hn | ⟨ha, hb, hs⟩)
    · rw [fadd_nan hn]; exact nanResult_isNaN _ a b
    · rw [fadd_infinities ha hb, if_neg hs]; exact nanResult_isNaN _ a b
  · intro h
    obtain ⟨hn, hv⟩ := not_or.mp h
    obtain ⟨hna, hnb⟩ := not_or.mp hn
    rcases f64_not_nan_cases hna with ha | ha <;> rcases f64_not_nan_cases hnb with hb | hb
    · have hs : f64Sign a = f64Sign b := by_contra fun hs => hv ⟨ha, hb, hs⟩
      have hab : a = b := f64_ext hs (ha.1.trans hb.1.symm) (ha.2.trans hb.2.symm)
      rw [fadd_infinities ha hb, if_pos hs]
      exact ⟨fun _ => rfl, fun _ => hab⟩
    · exact ⟨fun _ => fadd_infinity_finite ha hb, fun hb' => absurd hb hb'.not_finite⟩
    · exact ⟨fun ha' => absurd ha ha'.not_finite, fun _ => fadd_finite_infinity ha hb⟩
    · exact ⟨fun ha' => absurd ha ha'.not_finite, fun hb' => absurd hb hb'.not_finite⟩

theorem fsub_special (a b : F64) :
    whenElse (f64EitherNaN a b ∨ (f64IsInfinity a ∧ f64IsInfinity b ∧ f64Sign a = f64Sign b))
      (f64IsNaN (fsub a b) = true)
      ((f64IsInfinity a → fsub a b = a) ∧
        (f64IsInfinity b → f64IsInfinity (fsub a b) ∧ f64Sign (fsub a b) = !f64Sign b)) := by
  constructor
  · rintro (hn | ⟨ha, hb, hs⟩)
    · rw [fsub_nan hn]; exact nanResult_isNaN _ a b
    · rw [fsub_infinities ha hb, if_neg (by simp [hs])]; exact nanResult_isNaN _ a b
  · intro h
    obtain ⟨hn, hv⟩ := not_or.mp h
    obtain ⟨hna, hnb⟩ := not_or.mp hn
    rcases f64_not_nan_cases hna with ha | ha <;> rcases f64_not_nan_cases hnb with hb | hb
    · have hs : f64Sign a = !f64Sign b := Bool.eq_not.mpr fun hs => hv ⟨ha, hb, hs⟩
      rw [fsub_infinities ha hb, if_pos hs]
      exact ⟨fun _ => rfl, fun _ => ⟨ha, hs⟩⟩
    · exact ⟨fun _ => fsub_infinity_finite ha hb, fun hb' => absurd hb hb'.not_finite⟩
    · rw [fsub_finite_infinity ha hb]
      exact ⟨fun ha' => absurd ha ha'.not_finite, fun _ => f64Infinity_spec _⟩
    · exact ⟨fun ha' => absurd ha ha'.not_finite, fun hb' => absurd hb hb'.not_finite⟩

theorem fmul_special (a b : F64) :
    whenElse (f64EitherNaN a b ∨ ((f64IsInfinity a ∧ f64IsZero b) ∨ (f64IsZero a ∧ f64IsInfinity b)))
      (f64IsNaN (fmul a b) = true)
      (f64IsInfinity a ∨ f64IsInfinity b →
        f64IsInfinity (fmul a b) ∧ f64Sign (fmul a b) = (f64Sign a != f64Sign b)) := by
  constructor
  · rintro (hn | ⟨ha, hb⟩ | ⟨ha, hb⟩)
    · rw [fmul_nan hn]; exact nanResult_isNaN _ a b
    · rw [fmul_infinity_finite ha hb.finite, if_pos (f64Magnitude_eq_zero_iff.mpr hb)]; exact nanResult_isNaN _ a b
    · rw [fmul_finite_infinity ha.finite hb, if_pos (f64Magnitude_eq_zero_iff.mpr ha)]; exact nanResult_isNaN _ a b
  · intro h hi
    obtain ⟨hn, hv⟩ := not_or.mp h
    obtain ⟨hna, hnb⟩ := not_or.mp hn
    have hmul : fmul a b = f64Infinity (f64Sign a != f64Sign b) := by
      rcases f64_not_nan_cases hna with ha | ha <;> rcases f64_not_nan_cases hnb with hb | hb
      · exact fmul_infinities ha hb
      · rw [fmul_infinity_finite ha hb, if_neg fun hz => hv (.inl ⟨ha, f64Magnitude_eq_zero_iff.mp hz⟩)]
      · rw [fmul_finite_infinity ha hb, if_neg fun hz => hv (.inr ⟨f64Magnitude_eq_zero_iff.mp hz, hb⟩)]
      · exact (hi.elim (·.not_finite ha) (·.not_finite hb)).elim
    rw [hmul]
    exact f64Infinity_spec _

theorem fdiv_special (a b : F64) :
    whenElse (f64EitherNaN a b ∨ ((f64IsInfinity a ∧ f64IsInfinity b) ∨ (f64IsZero a ∧ f64IsZero b)))
      (f64IsNaN (fdiv a b) = true)
      ((f64IsInfinity a ∨ f64IsZero b →
          f64IsInfinity (fdiv a b) ∧ f64Sign (fdiv a b) = (f64Sign a != f64Sign b)) ∧
        (f64IsInfinity b → f64IsZero (fdiv a b) ∧ f64Sign (fdiv a b) = (f64Sign a != f64Sign b))) := by
  constructor
  · rintro (hn | ⟨ha, hb⟩ | ⟨ha, hb⟩)
    · rw [fdiv_nan hn]; exact nanResult_isNaN _ a b
    · rw [fdiv_infinities ha hb]; exact nanResult_isNaN _ a b
    · rw [fdiv_finite_zero ha.finite hb, if_pos (f64Magnitude_eq_zero_iff.mpr ha)]; exact nanResult_isNaN _ a b
  · intro h
    obtain ⟨hn, hv⟩ := not_or.mp h
    obtain ⟨hna, hnb⟩ := not_or.mp hn
    rcases f64_not_nan_cases hna with ha | ha <;> rcases f64_not_nan_cases hnb with hb | hb
    · exact absurd (.inl ⟨ha, hb⟩) hv
    · rw [fdiv_infinity_finite ha hb]
      exact ⟨fun _ => f64Infinity_spec _, fun hb' => absurd hb hb'.not_finite⟩
    · rw [fdiv_finite_infinity ha hb]
      exact ⟨fun hc => (hc.elim (·.not_finite ha) hb.not_zero).elim, fun _ => f64Pattern_zero_spec _⟩
    · refine ⟨fun hc => ?_, fun hb' => absurd hb hb'.not_finite⟩
      have hz : f64IsZero b := hc.resolve_left (·.not_finite ha)
      rw [fdiv_finite_zero ha hz, if_neg fun h0 => hv (.inr ⟨f64Magnitude_eq_zero_iff.mp h0, hz⟩)]
      exact f64Infinity_spec _

/-! ## Comparisons (R16) -/

theorem f64Extended_infinity {a : F64} (h : f64IsInfinity a) :
    f64Extended a = if f64Sign a then ⊥ else ((⊤ : WithTop ℚ) : WithBot (WithTop ℚ)) := by
  unfold f64Extended
  rw [if_pos h.1]

theorem f64Extended_finite {a : F64} (h : f64IsFinite a) :
    f64Extended a = ((f64Value a : WithTop ℚ) : WithBot (WithTop ℚ)) := by
  unfold f64Extended
  rw [if_neg h]

theorem not_flt_of_nan {a b : F64} (h : f64EitherNaN a b) : flt a b = false := by
  rcases h with h | h
  · simp only [flt, binary64_of_nan h]
  · cases ha : binary64 a <;> simp only [flt, ha, binary64_of_nan h]

theorem not_fle_of_nan {a b : F64} (h : f64EitherNaN a b) : fle a b = false := by
  rcases h with h | h
  · simp only [fle, binary64_of_nan h]
  · cases ha : binary64 a <;> simp only [fle, ha, binary64_of_nan h]

theorem flt_iff_of_not_nan {a b : F64} (h : ¬ f64EitherNaN a b) : flt a b = true ↔ f64Extended a < f64Extended b := by
  obtain ⟨hna, hnb⟩ := not_or.mp h
  rcases f64_not_nan_cases hna with ha | ha <;> rcases f64_not_nan_cases hnb with hb | hb
  · simp only [flt, binary64_of_infinity ha, binary64_of_infinity hb, f64Extended_infinity ha, f64Extended_infinity hb]
    cases f64Sign a <;> cases f64Sign b <;> simp
  · simp only [flt, binary64_of_infinity ha, binary64_finite hb, f64Extended_infinity ha, f64Extended_finite hb]
    cases f64Sign a <;> simp
  · have htop := WithBot.coe_lt_coe.mpr (WithTop.coe_lt_top (f64Value a))
    simp only [flt, binary64_finite ha, binary64_of_infinity hb, f64Extended_finite ha, f64Extended_infinity hb]
    cases f64Sign b
    · simpa using htop
    · simp
  · simp only [flt, binary64_finite ha, binary64_finite hb, f64Extended_finite ha, f64Extended_finite hb,
      decide_eq_true_eq, WithBot.coe_lt_coe, WithTop.coe_lt_coe, f64Value]

theorem fle_iff_of_not_nan {a b : F64} (h : ¬ f64EitherNaN a b) : fle a b = true ↔ f64Extended a ≤ f64Extended b := by
  obtain ⟨hna, hnb⟩ := not_or.mp h
  rcases f64_not_nan_cases hna with ha | ha <;> rcases f64_not_nan_cases hnb with hb | hb
  · simp only [fle, binary64_of_infinity ha, binary64_of_infinity hb, f64Extended_infinity ha, f64Extended_infinity hb]
    cases f64Sign a <;> cases f64Sign b <;> simp
  · simp only [fle, binary64_of_infinity ha, binary64_finite hb, f64Extended_infinity ha, f64Extended_finite hb]
    cases f64Sign a <;> simp
  · simp only [fle, binary64_finite ha, binary64_of_infinity hb, f64Extended_finite ha, f64Extended_infinity hb]
    cases f64Sign b <;> simp
  · simp only [fle, binary64_finite ha, binary64_finite hb, f64Extended_finite ha, f64Extended_finite hb,
      decide_eq_true_eq, WithBot.coe_le_coe, WithTop.coe_le_coe, f64Value]

theorem flt_iff (a b : F64) : flt a b = true ↔ ¬ f64EitherNaN a b ∧ f64Extended a < f64Extended b := by
  by_cases h : f64EitherNaN a b
  · simp [h, not_flt_of_nan h]
  · simp [h, flt_iff_of_not_nan h]

theorem fle_iff (a b : F64) : fle a b = true ↔ ¬ f64EitherNaN a b ∧ f64Extended a ≤ f64Extended b := by
  by_cases h : f64EitherNaN a b
  · simp [h, not_fle_of_nan h]
  · simp [h, fle_iff_of_not_nan h]

theorem f64EitherNaN_comm {a b : F64} : f64EitherNaN a b ↔ f64EitherNaN b a := or_comm

theorem fgt_iff (a b : F64) : fgt a b = true ↔ ¬ f64EitherNaN a b ∧ f64Extended b < f64Extended a := by
  rw [f64EitherNaN_comm]
  exact flt_iff b a

theorem fge_iff (a b : F64) : fge a b = true ↔ ¬ f64EitherNaN a b ∧ f64Extended b ≤ f64Extended a := by
  rw [f64EitherNaN_comm]
  exact fle_iff b a

/-! ## The transfer functions and their commands (R180, R183, R200, R201) -/

/-- R183: the pattern of `T_INV`. -/
theorem tInv_eq : tInv = 0x3F69A5C61C57A062#64 := by decide +kernel

/-- R183: the pattern of `E_INV`. -/
theorem eInv_eq : eInv = 0x3FDAAAAAAAAAAAAB#64 := by decide +kernel

theorem linToSrgb_eq (l : F64) :
    linToSrgb l = if fle l 0x3F69A5C61C57A062#64 then fmul l (fl (1292 / 100))
      else fsub (fmul (fl (1055 / 1000)) (Config.pow l 0x3FDAAAAAAAAAAAAB#64)) (fl (55 / 1000)) := by
  rw [linToSrgb, tInv_eq, eInv_eq]

/-- R180: a colour command accesses no data byte, so it always succeeds; it leaves memory and CC_PIXOUT. -/
theorem exec_colorOut {i : Instr} {s : State} {v : Triple} (ho : s.orderly) (hc : commandOf i s = colorOut v) :
    ∃ t, exec i s = .next t ∧ colorCompleted s t ∧ t.fout = v := by
  obtain ⟨t, hx, hdone, hmem, hpix, hfout⟩ := exec_register ho hc rfl rfl
  exact ⟨t, hx, ⟨hdone, hmem, hpix⟩, hfout⟩

/-- A colour command that applies one function to each CC_FIN (R200, R201). -/
theorem exec_colorOut_map {i : Instr} {s : State} {f : F64 → F64} (ho : s.orderly)
    (hc : commandOf i s = colorOut (s.colorIn.map f)) :
    ∃ t, exec i s = .next t ∧ colorCompleted s t ∧ ∀ j : Fin 3, t.fout[j] = f s.fin[j] := by
  obtain ⟨t, hx, hdone, hfout⟩ := exec_colorOut ho hc
  refine ⟨t, hx, hdone, fun j => ?_⟩
  rw [hfout]
  exact Vector.getElem_map f j.isLt

/-- Settles O28: `fl` and the operations by `f64Round_nearest`, the other operands by the four `_special` lemmas, and the
commands by `exec_colorOut_map`. -/
theorem srgbTransferCommands : Obligations.SrgbTransferCommands := by
  unfold Obligations.SrgbTransferCommands
  refine ⟨f64Round_nearest false, fun a _ => f64Value_by_fields a, fun a b ha hb => ?_,
    fun a b => ⟨flt_iff a b, fle_iff a b, fgt_iff a b, fge_iff a b⟩,
    fun a b => ⟨fadd_special a b, fsub_special a b, fmul_special a b, fdiv_special a b⟩,
    tInv_eq, eInv_eq, fun s ho => ⟨exec_colorOut_map (f := srgbToLin) ho rfl, ?_⟩⟩
  · rw [fadd_finite ha hb, fsub_finite ha hb, fmul_finite ha hb]
    refine ⟨f64Round_nearest _ _, f64Round_nearest _ _, f64Round_nearest _ _, fun h0 => ?_⟩
    rw [fdiv_finite ha hb h0]
    exact f64Round_nearest _ _
  · simp only [← linToSrgb_eq]
    exact exec_colorOut_map (f := linToSrgb) ho rfl

end Sys2Proof.Machine
end

section
/-! SUPPORT. The register window (R30 to R52), the flags and the resets: the bits of STATUS, which registers an offset
names, what a write to an ordinary register does, what every register reads after a reset; and the statements that rest
on these rules alone (O10, O11, O13). -/

namespace Sys2Proof.Machine

/-! ## BUSY after each update (R36, R56) -/

@[simp] theorem issue_busy (s : State) (w : Word) : (s.issue w).busy = true := rfl

@[simp] theorem setOverrun_busy (s : State) : s.setOverrun.busy = s.busy := rfl

@[simp] theorem setIE_busy (s : State) (v : Word) : (s.setIE v).busy = s.busy := rfl

@[simp] theorem clearStatus_busy (s : State) (v : Word) : (s.clearStatus v).busy = s.busy := rfl

@[simp] theorem releaseReset_busy (s : State) : (releaseReset s).busy = s.busy := rfl

theorem busy_of_phase_idle {s : State} (h : s.phase = .idle) : s.busy = false := by
  rw [State.busy, h]

@[simp] theorem complete_busy (c : Command) (s : State) : (s.complete c).busy = false :=
  busy_of_phase_idle (complete_phase c s)

/-! ## The flags after a soft reset and after the reset input is asserted (R58, R371, R372) -/

@[simp] theorem softReset_done (s : State) : s.softReset.done = false := rfl

@[simp] theorem softReset_err (s : State) : s.softReset.err = false := rfl

@[simp] theorem softReset_ovr (s : State) : s.softReset.ovr = false := rfl

@[simp] theorem softReset_busy (s : State) : s.softReset.busy = false := rfl

@[simp] theorem assertReset_busy (s : State) : (assertReset s).busy = false := rfl

theorem softReset_resetRegisters (s : State) : s.softReset.resetRegisters = s.softReset := rfl

theorem assertReset_resetRegisters (s : State) : (assertReset s).resetRegisters = assertReset s := rfl

/-- Releasing the reset input leaves every register as it is (R371). -/
theorem releaseReset_resetRegisters {s : State} (h : s.resetRegisters = s) :
    (releaseReset s).resetRegisters = releaseReset s :=
  congrArg releaseReset h

/-- R35, R58: STATUS is 0 at reset. -/
theorem statusWord_reset : State.reset.statusWord = 0#32 := by decide

/-- R30, R31, R58: what each register reads when all of them have been reset. -/
theorem readReg_resetRegisters (s : State) (r : Reg) :
    s.resetRegisters.readReg r = if r = .id then 0x52494331#32 else 0#32 := by
  cases r with
  | arg k => simp [State.readReg]
  | kernel k => simp [State.readReg]
  | fin j high => cases high <;> simp [State.readReg, half]
  | fout j high => cases high <;> simp [State.readReg, half]
  | status => exact statusWord_reset
  | _ => rfl

/-- Settles O13: each of the four states is one whose registers have been reset. -/
theorem everyRegisterHasItsResetValue : Obligations.EveryRegisterHasItsResetValue := by
  unfold Obligations.EveryRegisterHasItsResetValue
  intro s t ht
  have hreset : t.resetRegisters = t := by
    rcases ht with rfl | rfl | rfl | rfl
    · exact softReset_resetRegisters s
    · exact assertReset_resetRegisters s
    · exact releaseReset_resetRegisters (assertReset_resetRegisters s)
    · rfl
  rw [← hreset]
  exact ⟨readReg_resetRegisters t, rfl, rfl⟩

/-! ## STATUS and CTRL, bit by bit (R32, R33, R35) -/

theorem flagBit_getLsbD (b : Bool) {p : Nat} (hp : p < 32) (i : Nat) :
    (flagBit b p).getLsbD i = (b && decide (i = p)) := by
  cases b
  · simp [flagBit]
  · have : (1#32).getLsbD (i - p) = decide (i - p = 0) := by simp
    simp only [flagBit, if_true, BitVec.getLsbD_shiftLeft, this, Bool.true_and]
    by_cases h : i = p
    · simp [h, hp]
    · simp only [h, decide_false]
      grind

theorem statusWord_getLsbD (s : State) {i : Nat} (hi : i < 32) :
    s.statusWord.getLsbD i = ((s.busy && decide (i = 0)) || (s.done && decide (i = 1)) || (s.err && decide (i = 2)) ||
      (s.ovr && decide (i = 3)) || (decide (8 ≤ i) && s.errcode.getLsbD (i - 8))) := by
  have hcode : (s.errcode.setWidth 32 <<< 8).getLsbD i = (decide (8 ≤ i) && s.errcode.getLsbD (i - 8)) := by
    rw [BitVec.getLsbD_shiftLeft, BitVec.getLsbD_setWidth]
    grind
  simp [State.statusWord, flagBit_getLsbD, hcode]

theorem statusWord_busy (s : State) : s.statusWord.getLsbD 0 = s.busy := by
  rw [statusWord_getLsbD s (by decide)]
  simp

theorem statusWord_done (s : State) : s.statusWord.getLsbD 1 = s.done := by
  rw [statusWord_getLsbD s (by decide)]
  simp

theorem statusWord_err (s : State) : s.statusWord.getLsbD 2 = s.err := by
  rw [statusWord_getLsbD s (by decide)]
  simp

theorem statusWord_ovr (s : State) : s.statusWord.getLsbD 3 = s.ovr := by
  rw [statusWord_getLsbD s (by decide)]
  simp

theorem ctrlWord_getLsbD (s : State) : s.ctrlWord.getLsbD 0 = s.ie := by
  rw [State.ctrlWord, flagBit_getLsbD _ (by decide), decide_eq_true rfl, Bool.and_true]

theorem statusWord_unused_low (s : State) : s.statusWord.extractLsb' 4 4 = 0#4 := by
  refine BitVec.eq_of_getLsbD_eq fun i hi => ?_
  rw [BitVec.getLsbD_extractLsb', statusWord_getLsbD s (by omega)]
  grind

theorem statusWord_errcode (s : State) : s.statusWord.extractLsb' 8 8 = s.errcode := by
  refine BitVec.eq_of_getLsbD_eq fun i hi => ?_
  rw [BitVec.getLsbD_extractLsb', statusWord_getLsbD s (by omega)]
  grind

theorem statusWord_unused_high (s : State) : s.statusWord.extractLsb' 16 16 = 0#16 := by
  refine BitVec.eq_of_getLsbD_eq fun i hi => ?_
  have hcode : s.errcode.getLsbD (16 + i - 8) = false := BitVec.getLsbD_of_ge _ _ (by omega)
  rw [BitVec.getLsbD_extractLsb', statusWord_getLsbD s (by omega), hcode]
  grind

/-- R33: the interrupt line, by the bits the host reads. -/
theorem irq_iff (s : State) : s.irq = true ↔ s.ctrlWord.getLsbD 0 = true ∧
    (s.statusWord.getLsbD 1 = true ∨ s.statusWord.getLsbD 2 = true) := by
  rw [ctrlWord_getLsbD, statusWord_done, statusWord_err]
  simp [State.irq]

theorem writeCtrl_of_bit31_clear {s : State} {v : Word} (h : v.getLsbD 31 = false) : s.writeCtrl v = s.setIE v := by
  rw [State.writeCtrl, if_neg (Bool.eq_false_iff.mp h)]

theorem writeCtrl_of_bit31_set {s : State} {v : Word} (h : v.getLsbD 31 = true) :
    s.writeCtrl v = (s.setIE v).softReset := by
  rw [State.writeCtrl, if_pos h]

theorem writeCmd_idle {s : State} (hb : s.busy = false) (v : Word) : s.writeCmd v = s.issue v := by
  rw [State.writeCmd, if_neg (Bool.eq_false_iff.mp hb)]

theorem writeCmd_busy {s : State} (hb : s.busy = true) (v : Word) : s.writeCmd v = s.setOverrun := by
  rw [State.writeCmd, if_pos hb]

section
variable {s : State} (hr : s.inReset = false) (v : Word)
include hr

theorem busWrite_ctrl : busWrite (s.platform.base + 0x04) 32 v s = .next (s.writeCtrl v) :=
  busWrite_on (by decide) (by decide) hr

theorem busWrite_status : busWrite (s.platform.base + 0x08) 32 v s = .next (s.clearStatus v) :=
  busWrite_on (by decide) (by decide) hr

theorem busWrite_cmd_idle (hb : s.busy = false) : busWrite (s.platform.base + 0x10) 32 v s = .next (s.issue v) := by
  rw [busWrite_on (by decide) (by decide) hr, ← writeCmd_idle hb]
  rfl

theorem busWrite_cmd_busy (hb : s.busy = true) : busWrite (s.platform.base + 0x10) 32 v s = .next s.setOverrun := by
  rw [busWrite_on (by decide) (by decide) hr, ← writeCmd_busy hb v]
  rfl

end

/-- Settles O10: the bits by `statusWord_getLsbD`, the writes by the rules of the port. -/
theorem statusAndInterruptLine : Obligations.StatusAndInterruptLine := by
  unfold Obligations.StatusAndInterruptLine
  refine ⟨statusWord_reset, fun s => ⟨busRead_at (by decide) (by decide), statusWord_busy s, statusWord_done s,
    statusWord_err s, statusWord_ovr s, statusWord_unused_low s, statusWord_errcode s, statusWord_unused_high s,
    fun hr v => busWrite_status hr v, irq_iff s, fun v hr hv => ⟨?_, rfl⟩⟩⟩
  rw [busWrite_ctrl hr v, writeCtrl_of_bit31_clear hv]
  rfl

/-! ## Which register an offset names (R30) -/

/-- The operand registers: ARG, K, CC_PIXIN and CC_FIN, whose writes are ignored while BUSY is 1 (R51). -/
def Reg.isOperand : Reg → Bool
  | .arg _ => true
  | .kernel _ => true
  | .pixin => true
  | .fin _ _ => true
  | _ => false

theorem regAt_arg {off : Nat} (h : 0x20 ≤ off) (h' : off < 0x40) : ∃ k, regAt off = .arg k := by
  rw [regAt, if_neg (by omega), if_pos h']
  exact ⟨_, rfl⟩

theorem regAt_kernel {off : Nat} (h : 0x40 ≤ off) (h' : off < 0x64) : ∃ k, regAt off = .kernel k := by
  rw [regAt, if_neg (by omega), if_neg (by omega), if_pos h']
  exact ⟨_, rfl⟩

theorem regAt_fin {off : Nat} (h : 0x88 ≤ off) (h' : off < 0xA0) : ∃ j high, regAt off = .fin j high := by
  rw [regAt, if_neg (by omega), if_neg (by omega), if_neg (by omega), if_neg (by omega), if_neg (by omega),
    if_neg (by omega), if_pos h']
  exact ⟨_, _, rfl⟩

/-- R50: the three reserved ranges. -/
theorem regAt_reserved {off : Nat} (h4 : off % 4 = 0) (h : off = 0x1C ∨ (0x64 ≤ off ∧ off ≤ 0x7C) ∨ 0xB8 ≤ off) :
    regAt off = .reserved := by
  rcases h with rfl | ⟨h, h'⟩ | h
  · rfl
  · rw [regAt, if_neg (by omega), if_neg (by omega), if_neg (by omega), if_pos (by omega)]
  · rw [regAt, if_neg (by omega), if_neg (by omega), if_neg (by omega), if_neg (by omega), if_neg (by omega),
      if_neg (by omega), if_neg (by omega), if_neg (by omega)]

/-! ## Writes to a register other than CMD, CTRL and STATUS (R44 to R51) -/

/-- The operand registers written and everything else as it was. -/
def State.withOperands (s : State) (args : Vector Word 8) (kernel : Vector Word 9) (pixin : Word) (fin : Vector F64 3) :
    State :=
  { s with args, kernel, pixin, fin }

section
variable (s : State) (args : Vector Word 8) (kernel : Vector Word 9) (pixin : Word) (fin : Vector F64 3)

@[simp] theorem withOperands_done : (s.withOperands args kernel pixin fin).done = s.done := rfl

@[simp] theorem withOperands_err : (s.withOperands args kernel pixin fin).err = s.err := rfl

@[simp] theorem withOperands_ovr : (s.withOperands args kernel pixin fin).ovr = s.ovr := rfl

end

theorem whenIdle_busy {s : State} (h : s.busy = true) (update : State → State) : s.whenIdle update = s := by
  simp [State.whenIdle, h]

theorem whenIdle_idle {s : State} (h : s.busy = false) (update : State → State) :
    s.whenIdle update = update s := by
  simp [State.whenIdle, h]

/-- R51: an operand write is ignored while BUSY is 1. -/
theorem writeReg_operand_busy {s : State} {r : Reg} (h : r.isOperand = true) (hb : s.busy = true) (v : Word) :
    s.writeReg r v = s := by
  cases r with
  | arg k => rw [State.writeReg, whenIdle_busy hb]
  | kernel k => rw [State.writeReg, whenIdle_busy hb]
  | pixin => rw [State.writeReg, whenIdle_busy hb]
  | fin j high => rw [State.writeReg, whenIdle_busy hb]
  | _ => cases h

/-- R44 to R48: while BUSY is 0 it changes the operand registers alone. -/
theorem writeReg_operand_idle {s : State} {r : Reg} (h : r.isOperand = true) (hb : s.busy = false) (v : Word) :
    ∃ args kernel pixin fin, s.writeReg r v = s.withOperands args kernel pixin fin := by
  cases r with
  | arg k => exact ⟨_, _, _, _, by rw [State.writeReg, whenIdle_idle hb]; rfl⟩
  | kernel k => exact ⟨_, _, _, _, by rw [State.writeReg, whenIdle_idle hb]; rfl⟩
  | pixin => exact ⟨_, _, _, _, by rw [State.writeReg, whenIdle_idle hb]; rfl⟩
  | fin j high => exact ⟨_, _, _, _, by rw [State.writeReg, whenIdle_idle hb]; rfl⟩
  | _ => cases h

/-- R31, R41, R43, R47, R49, R50: every other register but CMD, CTRL and STATUS ignores writes. -/
theorem writeReg_readOnly {s : State} {r : Reg} (hcmd : r ≠ .cmd) (hctrl : r ≠ .ctrl) (hstatus : r ≠ .status)
    (h : r.isOperand = false) (v : Word) : s.writeReg r v = s := by
  cases r with
  | cmd => exact absurd rfl hcmd
  | ctrl => exact absurd rfl hctrl
  | status => exact absurd rfl hstatus
  | arg k => cases h
  | kernel k => cases h
  | pixin => cases h
  | fin j high => cases h
  | _ => rfl

/-- A write to a register other than CMD, CTRL and STATUS is ignored, or the engine is idle and it changes the operand
registers alone. -/
theorem writeReg_ordinary {s : State} {r : Reg} (hcmd : r ≠ .cmd) (hctrl : r ≠ .ctrl) (hstatus : r ≠ .status)
    (v : Word) : s.writeReg r v = s ∨
      (s.busy = false ∧ ∃ args kernel pixin fin, s.writeReg r v = s.withOperands args kernel pixin fin) := by
  cases ho : r.isOperand
  · exact .inl (writeReg_readOnly hcmd hctrl hstatus ho v)
  · cases hb : s.busy
    · exact .inr ⟨rfl, writeReg_operand_idle ho hb v⟩
    · exact .inl (writeReg_operand_busy ho hb v)

/-- R52: such a write changes neither data memory nor the phase. -/
theorem writeReg_ordinary_frame {s : State} {r : Reg} (hcmd : r ≠ .cmd) (hctrl : r ≠ .ctrl) (hstatus : r ≠ .status)
    (v : Word) : (s.writeReg r v).mem = s.mem ∧ (s.writeReg r v).phase = s.phase := by
  obtain heq | ⟨-, _, _, _, _, heq⟩ := writeReg_ordinary (s := s) hcmd hctrl hstatus v
  · exact ⟨by rw [heq], by rw [heq]⟩
  · rw [heq]
    exact ⟨rfl, rfl⟩

/-- R48: writing one half of a colour register leaves the other half. -/
theorem half_withHalf_other (x : F64) {high high' : Bool} (h : high' ≠ high) (w : Word) :
    half (withHalf x high w) high' = half x high' := by
  cases high <;> cases high'
  · exact absurd rfl h
  · exact BitVec.extractLsb'_append_eq_left
  · exact BitVec.extractLsb'_append_eq_right
  · exact absurd rfl h

/-- R52: an operand write changes no register but its own. -/
theorem readReg_writeReg_operand {s : State} {r q : Reg} (h : r.isOperand = true) (hq : q ≠ r) (v : Word) :
    (s.writeReg r v).readReg q = s.readReg q := by
  cases hb : s.busy
  case true => rw [writeReg_operand_busy h hb]
  case false =>
    cases r with
    | arg k =>
      rw [State.writeReg, whenIdle_idle hb]
      cases q with
      | arg j =>
        have hj : k.val ≠ j.val := fun he => hq (congrArg Reg.arg (Fin.ext he.symm))
        exact Vector.getElem_set_ne k.isLt j.isLt hj
      | _ => rfl
    | kernel k =>
      rw [State.writeReg, whenIdle_idle hb]
      cases q with
      | kernel j =>
        have hj : k.val ≠ j.val := fun he => hq (congrArg Reg.kernel (Fin.ext he.symm))
        exact Vector.getElem_set_ne k.isLt j.isLt hj
      | _ => rfl
    | pixin =>
      rw [State.writeReg, whenIdle_idle hb]
      cases q with
      | pixin => exact absurd rfl hq
      | _ => rfl
    | fin k high =>
      rw [State.writeReg, whenIdle_idle hb]
      cases q with
      | fin j high' =>
        show half (s.fin.set k (withHalf s.fin[k] high v))[j] high' = half s.fin[j] high'
        by_cases hj : k = j
        · subst hj
          have hh : high' ≠ high := fun he => hq (by rw [he])
          have hset : (s.fin.set k (withHalf s.fin[k] high v))[k] = withHalf s.fin[k] high v :=
            Vector.getElem_set_self k.isLt
          rw [hset, half_withHalf_other _ hh]
        · have hset : (s.fin.set k (withHalf s.fin[k] high v))[j] = s.fin[j] :=
            Vector.getElem_set_ne k.isLt j.isLt fun he => hj (Fin.ext he)
          rw [hset]
      | _ => rfl
    | _ => cases h

/-- R52: a write to a register other than CMD, CTRL and STATUS changes no other register. -/
theorem readReg_writeReg_other {s : State} {r q : Reg} (hcmd : r ≠ .cmd) (hctrl : r ≠ .ctrl) (hstatus : r ≠ .status)
    (hq : q ≠ r) (v : Word) : (s.writeReg r v).readReg q = s.readReg q := by
  cases ho : r.isOperand
  · rw [writeReg_readOnly hcmd hctrl hstatus ho]
  · exact readReg_writeReg_operand ho hq v

/-! ## Accesses that R52 gives no meaning, and the statement about all accesses -/

theorem inWindow_offset (s : State) {off : Nat} (h : off < 0x100) : s.inWindow (s.platform.base + off) = true := by
  simp [State.inWindow, h]

theorem wordAccess_offset_false (s : State) {off width : Nat} (h : width ≠ 32 ∨ off % 4 ≠ 0) :
    s.wordAccess (s.platform.base + off) width = false := by
  simpa [State.wordAccess, Classical.or_iff_not_imp_left] using h

theorem busRead_refused {s : State} {off width : Nat} (hw : off < 0x100) (h : width ≠ 32 ∨ off % 4 ≠ 0) :
    busRead (s.platform.base + off) width s = .refused (.portAccess (s.platform.base + off) width) := by
  simp [busRead, inWindow_offset s hw, wordAccess_offset_false s h]

theorem busWrite_refused {s : State} {off width : Nat} (hw : off < 0x100) (h : width ≠ 32 ∨ off % 4 ≠ 0) (v : Word) :
    busWrite (s.platform.base + off) width v s = .refused (.portAccess (s.platform.base + off) width) := by
  simp [busWrite, inWindow_offset s hw, wordAccess_offset_false s h]

/-- A write at an aligned offset whose register ignores it. -/
theorem busWrite_ignored {s : State} {off : Nat} {v : Word} (hw : off < 0x100) (h4 : off % 4 = 0)
    (h : s.writeReg (regAt off) v = s) : busWrite (s.platform.base + off) 32 v s = .next s := by
  rw [busWrite_at hw h4, h, ite_self]

/-- Settles O11: accesses with no meaning by `busRead_refused` and `busWrite_refused`, ordinary writes by
`writeReg_ordinary_frame` and `readReg_writeReg_other`, reserved offsets by `regAt_reserved`. -/
theorem portAccessesHaveOnlyTheirSideEffects : Obligations.PortAccessesHaveOnlyTheirSideEffects := by
  unfold Obligations.PortAccessesHaveOnlyTheirSideEffects
  intro s off width v hw
  refine ⟨fun h => ⟨busRead_refused hw h, busWrite_refused hw h v⟩, fun h4 => ⟨_, busRead_at hw h4⟩,
    fun h4 hctrl hstatus hcmd => ?_, fun h4 hres => ?_⟩
  · have hctrl' : regAt off ≠ .ctrl := fun h => hctrl (off_ctrl hw h4 h)
    have hstatus' : regAt off ≠ .status := fun h => hstatus (off_status hw h4 h)
    have hcmd' : regAt off ≠ .cmd := fun h => hcmd (off_cmd hw h4 h)
    cases hr : s.inReset
    · obtain ⟨hmem, hphase⟩ := writeReg_ordinary_frame (s := s) hcmd' hctrl' hstatus' v
      exact ⟨_, busWrite_on hw h4 hr, hmem, hphase, fun r hne => readReg_writeReg_other hcmd' hctrl' hstatus' hne v⟩
    · exact ⟨s, by rw [busWrite_at hw h4, if_pos hr], rfl, rfl, fun _ _ => rfl⟩
  · have hreg := regAt_reserved h4 hres
    refine ⟨?_, busWrite_ignored hw h4 (by rw [hreg]; rfl)⟩
    rw [busRead_at hw h4, hreg]
    rfl

end Sys2Proof.Machine
end

section
/-! SUPPORT. What one event can do, said once (R318): the relation `Transition`, to which every answering event belongs
(`runEvent_transition`). The statements that bound what an event changes (O7, O8, O9) are read off its cases; what an
event must do comes from the rules of the register port and the engine's turn. -/

namespace Sys2Proof.Machine

/-! ## Transitions -/

/-- What an event does to a state: one case per transition of R318, with the guard under which it is taken. -/
inductive Transition (s : State) : Event → State → Prop
  /-- An idle engine does nothing (R347). -/
  | idleEngine (hb : s.busy = false) : Transition s .engine s
  /-- The command in flight completes (R311, R312). -/
  | completion (hb : s.busy = true) : Transition s .engine (s.complete s.inFlight)
  /-- A register write that changes nothing (R50, R51, R371). -/
  | ignoredWrite (address width : Nat) (v : Word) : Transition s (.busWrite address width v) s
  /-- An accepted CMD write (R310). -/
  | issue (v : Word) (hr : s.inReset = false) (hb : s.busy = false) :
      Transition s (.busWrite (s.platform.base + 0x10) 32 v) (s.issue v)
  /-- A CMD write while BUSY is 1 (R39). -/
  | overrun (v : Word) (hb : s.busy = true) : Transition s (.busWrite (s.platform.base + 0x10) 32 v) s.setOverrun
  /-- A CTRL write without SRST (R32). -/
  | interruptEnable (v : Word) (hr : s.inReset = false) (hv : v.getLsbD 31 = false) :
      Transition s (.busWrite (s.platform.base + 0x04) 32 v) (s.setIE v)
  /-- A soft reset (R34, R372). -/
  | softReset (v : Word) (hv : v.getLsbD 31 = true) :
      Transition s (.busWrite (s.platform.base + 0x04) 32 v) (s.setIE v).softReset
  /-- A STATUS write (R35). -/
  | statusWrite (v : Word) : Transition s (.busWrite (s.platform.base + 0x08) 32 v) (s.clearStatus v)
  /-- An operand write to an idle RIC (R44 to R48). -/
  | operandWrite (address : Nat) (v : Word) (args : Vector Word 8) (kernel : Vector Word 9) (pixin : Word)
      (fin : Vector F64 3) (hr : s.inReset = false) (hb : s.busy = false) :
      Transition s (.busWrite address 32 v) (s.withOperands args kernel pixin fin)
  /-- A register read (R52). -/
  | busRead (address width : Nat) (value : Word) :
      Transition s (.busRead address width) { s with readData := value }
  /-- A host write of a data byte (R87). -/
  | memWrite (a : Nat) (b : Byte) (ha : a < dataSpace) :
      Transition s (.memWrite a b) { s with mem := s.mem.write a b }
  /-- The first host write that breaks R89: the memory before it is kept. -/
  | firstRace (a : Nat) (b : Byte) (ha : a < dataSpace) (hp : s.phase = .busy none) :
      Transition s (.memWrite a b) { s with phase := .busy (some s.mem), mem := s.mem.write a b }
  /-- A host read of a data byte (R88). -/
  | memRead (a : Nat) (value : Word) (draws : Nat) :
      Transition s (.memRead a) { s with readData := value, draws := draws }
  /-- The reset input is asserted (R371). -/
  | resetAssert : Transition s .resetAssert (assertReset s)
  /-- The reset input is released (R371). -/
  | resetRelease : Transition s .resetRelease (releaseReset s)

theorem engineTurn_transition {s t : State} (h : engineTurn s = .next t) : Transition s .engine t := by
  rw [engineTurn_eq] at h
  split at h
  · cases h
    exact .completion ‹_›
  · cases h
    exact .idleEngine (Bool.eq_false_iff.mpr ‹_›)

theorem busWrite_transition {s t : State} {address width : Nat} {v : Word} (h : busWrite address width v s = .next t) :
    Transition s (.busWrite address width v) t := by
  obtain ⟨off, hoff, h4, rfl, rfl, ⟨-, rfl⟩ | ⟨hr, rfl⟩⟩ := busWrite_next h
  · exact .ignoredWrite _ _ _
  by_cases hcmd : regAt off = .cmd
  · obtain rfl := off_cmd hoff h4 hcmd
    show Transition s _ (s.writeCmd v)
    cases hb : s.busy
    · rw [writeCmd_idle hb]
      exact .issue v hr hb
    · rw [writeCmd_busy hb]
      exact .overrun v hb
  by_cases hctrl : regAt off = .ctrl
  · obtain rfl := off_ctrl hoff h4 hctrl
    show Transition s _ (s.writeCtrl v)
    cases hv : v.getLsbD 31
    · rw [writeCtrl_of_bit31_clear hv]
      exact .interruptEnable v hr hv
    · rw [writeCtrl_of_bit31_set hv]
      exact .softReset v hv
  by_cases hstatus : regAt off = .status
  · obtain rfl := off_status hoff h4 hstatus
    exact .statusWrite v
  obtain heq | ⟨hb, args, kernel, pixin, fin, heq⟩ := writeReg_ordinary (s := s) hcmd hctrl hstatus v
  · rw [heq]
    exact .ignoredWrite _ _ _
  · rw [heq]
    exact .operandWrite _ _ _ _ _ _ hr hb

theorem busRead_transition {s t : State} {address width : Nat} (h : busRead address width s = .next t) :
    Transition s (.busRead address width) t := by
  unfold busRead at h
  split at h
  · cases h
  · split at h
    · cases h
    · cases h
      exact .busRead _ _ _

/-- A race is noted once: the first time, with memory as it stands (R89). -/
theorem noteRace_cases (s : State) :
    s.noteRace = s ∨ (s.phase = .busy none ∧ s.noteRace = { s with phase := .busy (some s.mem) }) := by
  unfold State.noteRace
  split
  · exact .inl rfl
  · exact .inr ⟨‹_›, rfl⟩
  · exact .inl rfl

theorem hostMemWrite_transition {s t : State} {a : Nat} {b : Byte} (h : hostMemWrite a b s = .next t) :
    Transition s (.memWrite a b) t := by
  unfold hostMemWrite at h
  split at h
  · cases h
  · have ha : a < dataSpace := Nat.lt_of_not_le ‹_›
    cases h
    split
    · obtain heq | ⟨hp, heq⟩ := noteRace_cases s <;> rw [heq]
      · exact .memWrite a b ha
      · exact .firstRace a b ha hp
    · exact .memWrite a b ha

theorem hostMemRead_transition {s t : State} {a : Nat} (h : hostMemRead a s = .next t) :
    Transition s (.memRead a) t := by
  unfold hostMemRead at h
  split at h
  · cases h
  · split at h
    · cases h
      exact .memRead _ _ _
    · cases h
      exact .memRead _ _ s.draws

/-- Every event that answers a next state is one of the transitions. -/
theorem runEvent_transition {s t : State} {e : Event} (h : runEvent e s = .next t) : Transition s e t := by
  cases e with
  | engine => exact engineTurn_transition h
  | busWrite address width v => exact busWrite_transition h
  | busRead address width => exact busRead_transition h
  | memWrite a b => exact hostMemWrite_transition h
  | memRead a => exact hostMemRead_transition h
  | resetAssert =>
    cases h
    exact .resetAssert
  | resetRelease =>
    cases h
    exact .resetRelease

/-! ## OVR (R39) -/

section
variable {s t : State} {e : Event}

theorem Transition.ovr_rises (h : Transition s e t) (h0 : s.ovr = false) (h1 : t.ovr = true) :
    s.busy = true ∧ ∃ v, e = .busWrite (s.platform.base + 0x10) 32 v := by
  cases h with
  | overrun v hb => exact ⟨hb, v, rfl⟩
  | _ => simp_all

theorem Transition.ovr_falls (h : Transition s e t) (h1 : s.ovr = true) (h0 : t.ovr = false) :
    (∃ v, e = .busWrite (s.platform.base + 0x08) 32 v ∧ v.getLsbD 3 = true) ∨
      (∃ v, e = .busWrite (s.platform.base + 0x04) 32 v ∧ v.getLsbD 31 = true) ∨ e = .resetAssert := by
  cases h with
  | statusWrite v =>
    rw [clearStatus_ovr, h1, Bool.true_and, Bool.not_eq_false'] at h0
    exact .inl ⟨v, rfl, h0⟩
  | softReset v hv => exact .inr (.inl ⟨v, rfl, hv⟩)
  | resetAssert => exact .inr (.inr rfl)
  | _ => simp_all

end

/-- Settles O7: what may change OVR by the cases of `Transition`, what a CMD write must do by `busWrite_cmd_busy`. -/
theorem overrunIsSetAndClearedOnlyAsSaid : Obligations.OverrunIsSetAndClearedOnlyAsSaid := by
  unfold Obligations.OverrunIsSetAndClearedOnlyAsSaid
  intro s e t h
  have ht := runEvent_transition h
  refine ⟨ht.ovr_rises, ht.ovr_falls, ?_, fun b => rfl⟩
  rintro v rfl hb hr
  cases h.symm.trans (busWrite_cmd_busy hr v hb)
  rfl

/-! ## BUSY, DONE and ERR (R36 to R38) -/

section
variable {s t : State} {e : Event}

theorem Transition.busy_rises (h : Transition s e t) (h0 : s.busy = false) (h1 : t.busy = true) :
    ∃ v, e = .busWrite (s.platform.base + 0x10) 32 v := by
  cases h with
  | issue v => exact ⟨v, rfl⟩
  | firstRace a b ha hp => simp [State.busy, hp] at h0
  | completion hb => exact absurd hb (Bool.eq_false_iff.mp h0)
  | softReset v hv => simp at h1
  | resetAssert => simp at h1
  | _ => exact absurd (h0.symm.trans h1) Bool.false_ne_true

theorem Transition.busy_falls (h : Transition s e t) (h1 : s.busy = true) (h0 : t.busy = false) :
    e = .engine ∨ (∃ v, e = .busWrite (s.platform.base + 0x04) 32 v ∧ v.getLsbD 31 = true) ∨ e = .resetAssert := by
  cases h with
  | completion hb => exact .inl rfl
  | softReset v hv => exact .inr (.inl ⟨v, rfl, hv⟩)
  | resetAssert => exact .inr (.inr rfl)
  | issue v hr hb => simp at h0
  | firstRace a b ha hp => cases h0
  | _ => exact absurd (h0.symm.trans h1) Bool.false_ne_true

theorem Transition.done_rises (h : Transition s e t) (h0 : s.done = false) (h1 : t.done = true) :
    e = .engine ∧ s.busy = true ∧ t.errcode = 0#8 := by
  cases h with
  | completion hb =>
    obtain ⟨-, -, hcode, -⟩ | ⟨hdone, -⟩ := completes_shape s.inFlight s
    · exact ⟨rfl, hb, hcode⟩
    · exact absurd h1 (Bool.eq_false_iff.mp hdone)
  | _ => simp_all

theorem Transition.err_rises (h : Transition s e t) (h0 : s.err = false) (h1 : t.err = true) :
    e = .engine ∧ s.busy = true ∧ t.errcode ≠ 0#8 := by
  cases h with
  | completion hb =>
    obtain ⟨-, herr, -⟩ | ⟨-, -, hcode, -⟩ := completes_shape s.inFlight s
    · exact absurd h1 (Bool.eq_false_iff.mp herr)
    · exact ⟨rfl, hb, hcode⟩
  | _ => simp_all

end

/-- R312, R330: a completion sets DONE or ERR, and not both. -/
theorem complete_done_xor_err (c : Command) (s : State) :
    ((s.complete c).done = true ∨ (s.complete c).err = true) ∧
      ¬ ((s.complete c).done = true ∧ (s.complete c).err = true) := by
  obtain ⟨hd, he, -⟩ | ⟨hd, he, -⟩ := completes_shape c s <;> simp [hd, he]

/-- R38: DONE and ERR stay exclusive. -/
theorem Transition.done_err {s t : State} {e : Event} (h : Transition s e t) (h0 : ¬ (s.done = true ∧ s.err = true)) :
    ¬ (t.done = true ∧ t.err = true) := by
  cases h with
  | completion hb => exact (complete_done_xor_err s.inFlight s).2
  | statusWrite v =>
    rw [clearStatus_done, clearStatus_err, Bool.and_eq_true, Bool.and_eq_true]
    exact fun ⟨⟨hd, _⟩, he, _⟩ => h0 ⟨hd, he⟩
  | issue v hr hb => simp
  | softReset v hv => simp
  | resetAssert => simp
  | _ => exact h0

/-- Settles O8: what may change a flag by the cases of `Transition`, what an access or the engine's turn must do by the
rules of the port and `engineTurn_eq`. -/
theorem phaseFlagsChangeOnlyAsSaid : Obligations.PhaseFlagsChangeOnlyAsSaid := by
  unfold Obligations.PhaseFlagsChangeOnlyAsSaid
  intro s e t h
  have ht := runEvent_transition h
  refine ⟨ht.busy_rises, ht.busy_falls, ?_, ?_, ?_, ?_, ?_, ht.done_rises, ht.err_rises, ht.done_err⟩
  · rintro hb rfl
    have heng := engineTurn_eq s
    rw [if_pos hb] at heng
    cases h.symm.trans heng
    exact ⟨complete_busy _ s, (complete_done_xor_err _ s).1⟩
  · rintro rfl
    cases h
    exact ⟨rfl, rfl, rfl⟩
  · rintro v rfl hv hr
    have hctrl := busWrite_ctrl hr v
    rw [writeCtrl_of_bit31_set hv] at hctrl
    cases h.symm.trans hctrl
    exact ⟨rfl, rfl, rfl⟩
  · rintro v rfl hb hr
    cases h.symm.trans (busWrite_cmd_idle hr v hb)
    exact ⟨rfl, rfl, rfl, rfl⟩
  · rintro v rfl hr
    cases h.symm.trans (busWrite_status hr v)
    exact ⟨fun hv => by rw [clearStatus_done, hv, Bool.not_true, Bool.and_false],
      fun hv => by rw [clearStatus_err, hv, Bool.not_true, Bool.and_false]⟩

/-! ## Operands while BUSY is 1 (R51) -/

/-- R51: an event that leaves the command in flight leaves its operands and CMD. -/
theorem Transition.operands_kept {s t : State} {e : Event} (h : Transition s e t) (hs : s.busy = true)
    (ht : t.busy = true) :
    t.args = s.args ∧ t.kernel = s.kernel ∧ t.pixin = s.pixin ∧ t.fin = s.fin ∧ t.cmd = s.cmd := by
  cases h with
  | completion hb => simp at ht
  | issue v hr hb => exact absurd hs (Bool.eq_false_iff.mp hb)
  | operandWrite address v args kernel pixin fin hr hb => exact absurd hs (Bool.eq_false_iff.mp hb)
  | softReset v hv => simp at ht
  | resetAssert => simp at ht
  | _ => exact ⟨rfl, rfl, rfl, rfl, rfl⟩

/-- R51: a write at the offset of an operand register is dropped while BUSY is 1. -/
theorem busWrite_operand_busy {s : State} {off : Nat} {v : Word} (hoff : off < 0x100) (h4 : off % 4 = 0)
    (ho : (regAt off).isOperand = true) (hb : s.busy = true) :
    busWrite (s.platform.base + off) 32 v s = .next s :=
  busWrite_ignored hoff h4 (writeReg_operand_busy ho hb v)

/-- Settles O9: the dropped writes by `busWrite_operand_busy`, the constancy by `Transition.operands_kept`. -/
theorem busyDropsOperandWrites : Obligations.BusyDropsOperandWrites := by
  unfold Obligations.BusyDropsOperandWrites
  refine ⟨fun s v hr hb => ⟨busWrite_cmd_busy hr v hb, fun k hk => ?_, fun k hk => ?_, ?_, fun k hk => ?_,
    busWrite_ctrl hr v, busWrite_status hr v⟩, fun s e t h hs ht => (runEvent_transition h).operands_kept hs ht⟩
  · obtain ⟨j, hj⟩ := regAt_arg (off := 0x20 + 4 * k) (by omega) (by omega)
    rw [Nat.add_assoc]
    exact busWrite_operand_busy (by omega) (by omega) (by rw [hj]; rfl) hb
  · obtain ⟨j, hj⟩ := regAt_kernel (off := 0x40 + 4 * k) (by omega) (by omega)
    rw [Nat.add_assoc]
    exact busWrite_operand_busy (by omega) (by omega) (by rw [hj]; rfl) hb
  · exact busWrite_operand_busy (by decide) (by decide) rfl hb
  · obtain ⟨j, high, hj⟩ := regAt_fin (off := 0x88 + 4 * k) (by omega) (by omega)
    rw [Nat.add_assoc]
    exact busWrite_operand_busy (by omega) (by omega) (by rw [hj]; rfl) hb

end Sys2Proof.Machine
end

section
/-! SUPPORT. The machine invariant `State.Inv`: it holds of every state whose registers have been reset, each transition
of `Transition` keeps it, and so does every step (O16, O17). -/

namespace Sys2Proof.Machine

/-! ## Memory stays in the data address space (R70, R71) -/

theorem memInSpace_write {s t : State} {a : Nat} {b : Byte} (h : s.memInSpace) (ha : a < dataSpace)
    (ht : t.mem = s.mem.write a b) : t.memInSpace := by
  intro c hc
  rw [ht] at hc
  obtain rfl | hc := mem_write hc
  · exact ha
  · exact h c hc

/-- Filling a region of data bytes lists no address outside the space. -/
theorem memInSpace_fill {s t : State} {r : Region} {f : Nat → Byte} (h : s.memInSpace)
    (hr : ∀ a, r.contains a = true → a < dataSpace) (ht : t.mem = s.mem.fill r.base r.len f) : t.memInSpace := by
  intro c hc
  rw [ht] at hc
  obtain hc | hc := mem_fill hc
  · exact hr c.1 (contains_iff.mpr hc)
  · exact h c hc

theorem complete_mem_wf {s : State} (h : s.mem.wf) (c : Command) : (s.complete c).mem.wf := by
  obtain heq | ⟨r, f, heq, -⟩ := complete_mem_cases c s
  · rwa [heq]
  · rw [heq]
    exact wf_fill h _ _ _

/-- R77, R90: a sound command writes data bytes only. -/
theorem complete_memInSpace {s : State} {c : Command} (hc : c.Sound) (h : s.memInSpace) :
    (s.complete c).memInSpace := by
  obtain heq | ⟨r, f, heq, hr⟩ := complete_mem_cases c s
  · exact fun cell hcell => h cell (heq ▸ hcell)
  · exact memInSpace_fill h (fun a ha => dest_in_range (region_in_dest hc hr ha)) heq

theorem softReset_mem_wf {s : State} (h : s.mem.wf) : s.softReset.mem.wf := by
  obtain heq | ⟨-, heq⟩ := softReset_mem s <;> rw [heq]
  · exact h
  · exact wf_scatter h _ _

theorem softReset_memInSpace {s : State} (h : s.memInSpace) : s.softReset.memInSpace := by
  obtain heq | ⟨-, heq⟩ := softReset_mem s
  · exact fun cell hcell => h cell (heq ▸ hcell)
  · exact memInSpace_fill h (fun a ha => dest_in_range (abandoned_in_dest (sound_word s.cmd s) ha)) heq

/-! ## States whose registers have been reset (R58, R371) -/

theorem busy_of_resetRegisters {s : State} (h : s.resetRegisters = s) : s.busy = false :=
  busy_of_phase_idle (congrArg State.phase h).symm

/-- Reset registers meet every clause of the invariant but the two about memory. -/
theorem inv_of_resetRegisters {s : State} (h : s.resetRegisters = s) (hw : s.mem.wf) (hm : s.memInSpace) : s.Inv := by
  have hdone : s.done = false := (congrArg State.done h).symm
  have herr : s.err = false := (congrArg State.err h).symm
  have hcode : s.errcode = 0#8 := (congrArg State.errcode h).symm
  have hphase : s.phase = .idle := (congrArg State.phase h).symm
  exact {
    mem_wf := hw
    mem_space := hm
    race_wf := by simp [hphase]
    done_err := by simp [hdone]
    busy_clear := by simp [busy_of_resetRegisters h]
    done_code := by simp [hdone]
    err_code := by simp [herr]
    code_defined := by simp [hcode, definedCodes]
    in_reset := fun _ => h }

/-- Settles O16: the reset state's registers are reset, and its memory lists nothing. -/
theorem invariantHoldsAtReset : Obligations.InvariantHoldsAtReset := by
  unfold Obligations.InvariantHoldsAtReset
  exact inv_of_resetRegisters rfl wf_reset (fun _ hc => absurd hc List.not_mem_nil)

/-! ## Each transition keeps the invariant -/

section
variable {s : State} (h : s.Inv)
include h

/-- While the reset input is asserted no command is in flight. -/
theorem State.Inv.inReset_of_busy (hb : s.busy = true) : s.inReset = false :=
  Bool.eq_false_iff.mpr fun hr => Bool.eq_false_iff.mp (busy_of_resetRegisters (h.in_reset hr)) hb

/-- The queue of events, the value last read and the count of draws are the MODEL's own: the invariant says nothing of
them. -/
theorem State.Inv.model_fields (events : List Event) (readData : Word) (draws : Nat) :
    State.Inv { s with events := events, readData := readData, draws := draws } :=
  { h with
    in_reset := fun hr =>
      congrArg (fun u : State => { u with events := events, readData := readData, draws := draws }) (h.in_reset hr) }

/-- R311, R312, R330, R331: the completion of a sound command. -/
theorem State.Inv.complete {c : Command} (hc : c.Sound) (hb : s.busy = true) : (s.complete c).Inv where
  mem_wf := complete_mem_wf h.mem_wf c
  mem_space := complete_memInSpace hc h.mem_space
  race_wf := by simp
  done_err := (complete_done_xor_err c s).2
  busy_clear := by simp
  done_code := by
    obtain ⟨-, -, hcode, hinfo⟩ | ⟨hdone, -⟩ := completes_shape c s
    · exact fun _ => ⟨hcode, hinfo⟩
    · simp [hdone]
  err_code := by
    obtain ⟨-, herr, -⟩ | ⟨-, -, hcode, -⟩ := completes_shape c s
    · simp [herr]
    · exact fun _ => hcode
  code_defined := complete_code c s
  in_reset := by simp [h.inReset_of_busy hb]

/-- R310: issue. -/
theorem State.Inv.issue (hr : s.inReset = false) (w : Word) : (s.issue w).Inv where
  mem_wf := h.mem_wf
  mem_space := h.mem_space
  race_wf := by simp
  done_err := by simp
  busy_clear := by simp
  done_code := by simp
  err_code := by simp
  code_defined := by simp [definedCodes]
  in_reset := by simp [hr]

/-- R39: an overrun. -/
theorem State.Inv.setOverrun (hb : s.busy = true) : s.setOverrun.Inv :=
  { h with in_reset := by simp [h.inReset_of_busy hb] }

/-- R32: a write of CTRL.IE. -/
theorem State.Inv.setIE (hr : s.inReset = false) (v : Word) : (s.setIE v).Inv :=
  { h with in_reset := by simp [hr] }

/-- R35: a STATUS write clears flags and sets none. -/
theorem State.Inv.clearStatus (v : Word) : (s.clearStatus v).Inv where
  mem_wf := h.mem_wf
  mem_space := h.mem_space
  race_wf := h.race_wf
  done_err := by
    rw [clearStatus_done, clearStatus_err, Bool.and_eq_true, Bool.and_eq_true]
    exact fun ⟨⟨hd, _⟩, he, _⟩ => h.done_err ⟨hd, he⟩
  busy_clear := fun hb => by
    obtain ⟨hdone, herr, hcode, hinfo⟩ := h.busy_clear hb
    exact ⟨by simp [hdone], by simp [herr], hcode, hinfo⟩
  done_code := fun hd => h.done_code (Bool.and_eq_true_iff.mp hd).1
  err_code := fun he => h.err_code (Bool.and_eq_true_iff.mp he).1
  code_defined := h.code_defined
  in_reset := fun hr => by
    have hreset := h.in_reset hr
    rw [← hreset]
    simp [State.clearStatus, State.resetRegisters, State.reset]

/-- R44 to R48: an operand write. -/
theorem State.Inv.withOperands (hr : s.inReset = false) (args : Vector Word 8) (kernel : Vector Word 9) (pixin : Word)
    (fin : Vector F64 3) : (s.withOperands args kernel pixin fin).Inv :=
  { h with in_reset := fun hr' => absurd hr' (Bool.eq_false_iff.mp hr) }

/-- R87: a host write of a data byte. -/
theorem State.Inv.memWrite {a : Nat} (ha : a < dataSpace) (b : Byte) : State.Inv { s with mem := s.mem.write a b } :=
  { h with
    mem_wf := wf_write h.mem_wf a b
    mem_space := memInSpace_write h.mem_space ha rfl
    in_reset := fun hr => congrArg (fun u : State => { u with mem := s.mem.write a b }) (h.in_reset hr) }

/-- R89: noting a race keeps memory as it stands. -/
theorem State.Inv.noteMemory (hp : s.phase = .busy none) : State.Inv { s with phase := .busy (some s.mem) } := by
  have hb : s.busy = true := by rw [State.busy, hp]
  exact { h with
    race_wf := by
      intro m hm
      cases hm
      exact h.mem_wf
    busy_clear := fun _ => h.busy_clear hb
    in_reset := fun hr => absurd hr (Bool.eq_false_iff.mp (h.inReset_of_busy hb)) }

/-- R34, R372: the soft reset of a CTRL write, after IE has taken bit 0. -/
theorem State.Inv.softReset (v : Word) : (s.setIE v).softReset.Inv :=
  inv_of_resetRegisters (softReset_resetRegisters _) (softReset_mem_wf (s := s.setIE v) h.mem_wf)
    (softReset_memInSpace (s := s.setIE v) h.mem_space)

/-- R371: the reset input is asserted. -/
theorem State.Inv.assertReset : (assertReset s).Inv :=
  inv_of_resetRegisters (assertReset_resetRegisters s) (softReset_mem_wf h.mem_wf) (softReset_memInSpace h.mem_space)

/-- R371: the reset input is released. -/
theorem State.Inv.releaseReset : (releaseReset s).Inv :=
  { h with in_reset := by simp }

/-- Every transition keeps the invariant. -/
theorem State.Inv.transition {t : State} {e : Event} (ht : Transition s e t) : t.Inv := by
  cases ht with
  | idleEngine hb => exact h
  | completion hb => exact h.complete (sound_word s.cmd s) hb
  | ignoredWrite address width v => exact h
  | issue v hr hb => exact h.issue hr v
  | overrun v hb => exact h.setOverrun hb
  | interruptEnable v hr hv => exact h.setIE hr v
  | softReset v hv => exact h.softReset v
  | statusWrite v => exact h.clearStatus v
  | operandWrite address v args kernel pixin fin hr hb => exact h.withOperands hr args kernel pixin fin
  | busRead address width value => exact h.model_fields s.events value s.draws
  | memWrite a b ha => exact h.memWrite ha b
  | firstRace a b ha hp => exact (h.noteMemory hp).memWrite ha b
  | memRead a value draws => exact h.model_fields s.events value draws
  | resetAssert => exact h.assertReset
  | resetRelease => exact h.releaseReset

end

/-- A step is one transition: the oldest event's, taken off the queue, or the engine's where none waits (R318). -/
theorem step_transition {s t : State} (h : step s = .next t) :
    ∃ (e : Event) (rest : List Event), Transition { s with events := rest } e t := by
  unfold step nextTransition at h
  split at h
  · exact ⟨.engine, s.events, engineTurn_transition h⟩
  · rename_i e rest _
    exact ⟨e, rest, runEvent_transition h⟩

/-- Settles O17: a step is a transition, and every transition keeps the invariant. -/
theorem everyStepKeepsInvariant : Obligations.EveryStepKeepsInvariant := by
  unfold Obligations.EveryStepKeepsInvariant
  intro s t h hstep
  obtain ⟨e, rest, ht⟩ := step_transition hstep
  exact (h.model_fields rest s.readData s.draws).transition ht

end Sys2Proof.Machine
end

section
/-! SUPPORT. The host's own accesses to data memory (R70, R71, R87 to R89): the two ways a read and the two ways a write
can go, and what a completion leaves once R89 is broken; with the statements that rest on them (O25, O26). -/

namespace Sys2Proof.Machine

/-- What a write does to every address (R71). -/
theorem read_write (m : Memory) (a : Nat) (b : Byte) (d : Nat) :
    (m.write a b).read d = if d = a then b else m.read d := by
  split
  · next h => rw [h, read_write_same]
  · next h => exact read_write_other h

/-! ## Host accesses -/

section
variable {s : State} {a : Nat}

theorem hostMemRead_fault (h : dataSpace ≤ a) : hostMemRead a s = .fault (.noDataByte a) := by
  rw [hostMemRead, if_pos h]

theorem hostMemWrite_fault (h : dataSpace ≤ a) (b : Byte) : hostMemWrite a b s = .fault (.noDataByte a) := by
  rw [hostMemWrite, if_pos h]

theorem hostMemRead_hidden (ha : a < dataSpace) (h : s.hidden a = true) :
    hostMemRead a s = .next { s with readData := (Config.freeByte s.draws a).setWidth 32, draws := s.draws + 1 } := by
  rw [hostMemRead, if_neg (Nat.not_le_of_lt ha), if_pos h]

theorem hostMemRead_plain (ha : a < dataSpace) (h : s.hidden a = false) :
    hostMemRead a s = .next { s with readData := (s.mem.read a).setWidth 32 } := by
  rw [hostMemRead, if_neg (Nat.not_le_of_lt ha), if_neg (Bool.eq_false_iff.mp h)]

theorem hostMemWrite_plain (ha : a < dataSpace) (h : s.protects a = false) (b : Byte) :
    hostMemWrite a b s = .next { s with mem := s.mem.write a b } := by
  simp only [hostMemWrite, if_neg (Nat.not_le_of_lt ha), if_neg (Bool.eq_false_iff.mp h)]

/-- The state after the host's first write into a region of the command in flight: the phase keeps memory as it was. -/
def State.raceBy (s : State) (a : Nat) (b : Byte) : State :=
  { s with phase := .busy (some s.mem), mem := s.mem.write a b }

theorem hostMemWrite_race (ha : a < dataSpace) (hp : s.phase = .busy none) (h : s.protects a = true) (b : Byte) :
    hostMemWrite a b s = .next (s.raceBy a b) := by
  simp only [hostMemWrite, if_neg (Nat.not_le_of_lt ha), if_pos h, State.noteRace, hp, State.raceBy]

theorem hidden_of_idle (h : s.busy = false) : s.hidden a = false := by
  rw [State.hidden, h, Bool.false_and]

theorem protects_of_idle (h : s.busy = false) : s.protects a = false := by
  rw [State.protects, h, Bool.false_and]

end

/-- Settles O26: while no command is in flight no address is hidden or protected. -/
theorem hostMemoryAccessWhenIdle : Obligations.HostMemoryAccessWhenIdle := by
  unfold Obligations.HostMemoryAccessWhenIdle
  intro s a b hb
  refine ⟨fun ha => ⟨hostMemRead_fault ha, hostMemWrite_fault ha b⟩, fun ha => ⟨?_, ?_⟩⟩
  · exact hostMemRead_plain ha (hidden_of_idle hb)
  · exact ⟨_, hostMemWrite_plain ha (protects_of_idle hb) b, rfl, read_write s.mem a b⟩

/-! ## The regions of the command in flight -/

section
variable {s : State} {i : Instr} {a : Nat}

theorem inFlight_of_decode (hd : decode s.cmd = .ok i) : s.inFlight = commandOf i s := by
  rw [State.inFlight, commandOfWord, hd]

theorem hidden_of_decode (hb : s.busy = true) (hd : decode s.cmd = .ok i) :
    s.hidden a = (commandOf i s).destination.contains a := by
  rw [State.hidden, hb, inFlight_of_decode hd, Bool.true_and]

theorem protects_of_decode (hb : s.busy = true) (hd : decode s.cmd = .ok i) :
    s.protects a = (commandOf i s).footprint.any (fun r => r.contains a) := by
  rw [State.protects, hb, inFlight_of_decode hd, Bool.true_and]

end

/-! ## Completion once R89 is broken -/

/-- A scatter leaves a free value in every byte of its region (R89). -/
theorem read_scatter_inside {m : Memory} {draw a : Nat} {r : Region} (h : r.contains a = true) :
    (m.scatter draw r).read a = Config.freeByte draw a := by
  obtain ⟨hlo, hhi⟩ := contains_iff.mp h
  rw [Memory.scatter, read_fill, if_pos ⟨hlo, hhi⟩, Nat.add_sub_cancel' hlo]

theorem complete_raced {c : Command} {s : State} (h : s.raced = true) :
    s.complete c = { State.spoil c s (s.settle c) with draws := s.draws + 1 } := by
  rw [State.complete, if_pos h]

/-- The command in flight is still the one that memory at issue gives (R91, assumption 8). -/
theorem commandOf_raceBy {s : State} (hp : s.phase = .busy none) (i : Instr) (a : Nat) (b : Byte) :
    commandOf i (s.raceBy a b) = commandOf i s := by
  have hmem : s.sourceMem = s.mem := by rw [State.sourceMem, hp]
  exact commandOf_congr (by rw [State.view, State.view, hmem]; rfl)

/-- R89: what the completion leaves after the host's write into a region of the command. -/
theorem exec_raceBy {s : State} {i : Instr} (hp : s.phase = .busy none) (a : Nat) (b : Byte) :
    ∃ t, exec i (s.raceBy a b) = .next t ∧
      t.mem = (s.mem.write a b).scatter s.draws (commandOf i s).destination ∧
      t.result0 = Config.freeWord s.draws 0 ∧ t.result1 = Config.freeWord s.draws 1 := by
  refine ⟨_, exec_eq i _, ?_⟩
  rw [complete_raced rfl, commandOf_raceBy hp]
  exact ⟨rfl, rfl, rfl⟩

/-- Settles O25: the reads by whether the address is hidden, the writes by whether it is protected, the completion after
such a write by `exec_raceBy`. -/
theorem hostAccessDuringCommand : Obligations.HostAccessDuringCommand := by
  unfold Obligations.HostAccessDuringCommand
  intro s i hp hd c
  have hb : s.busy = true := by rw [State.busy, hp]
  refine ⟨fun a ha hin => ?_, fun a b ha hin => ?_, fun a ha hout => ?_, fun a b ha hout => ?_⟩
  · have hhid : s.hidden a = true := by rw [hidden_of_decode hb hd]; exact destination_contains.mpr ⟨hin, ha⟩
    exact ⟨_, hostMemRead_hidden ha hhid, rfl⟩
  · have hprot : s.protects a = true := by rw [protects_of_decode hb hd]; exact List.any_eq_true.mpr hin
    obtain ⟨t, hx, hmem, h0, h1⟩ := exec_raceBy (i := i) hp a b
    refine ⟨_, t, hostMemWrite_race ha hp hprot b, rfl, hx, fun d hds hdd => ?_, h0, h1, fun d hdd => ?_⟩
    · rw [hmem]
      exact read_scatter_inside (destination_contains.mpr ⟨hdd, hds⟩)
    · have hnot := destination_not_contains.mpr hdd
      rw [hmem]
      exact read_scatter_outside fun h => Bool.eq_false_iff.mp hnot (contains_iff.mpr h)
  · have hplain : s.hidden a = false := by rw [hidden_of_decode hb hd]; exact destination_not_contains.mpr (.inl hout)
    exact hostMemRead_plain ha hplain
  · have hplain : s.protects a = false := by
      rw [protects_of_decode hb hd]
      exact List.any_eq_false.mpr fun r hr => Bool.eq_false_iff.mp (hout r hr)
    exact hostMemWrite_plain ha hplain b

end Sys2Proof.Machine
end

section
/-! SUPPORT. What a completion that keeps R89 does to memory (R90), and the error chain of a command with one source
(R77, R78, R250, R336); with the statements that rest on them (O21, O48). -/

namespace Sys2Proof.Machine

/-! ## The named bytes of a command (R90) -/

theorem namedBytes_of_ok {c : Command} {e : Effect} (h : c.outcome = .ok e) : c.namedBytes = e.written := by
  rw [Command.namedBytes, h]

theorem namedBytes_of_error {c : Command} {e : CmdError} (h : c.outcome = .error e) : c.namedBytes = Region.empty := by
  rw [Command.namedBytes, h]

/-- A command names bytes only where its validation passes. -/
theorem outcome_of_namedBytes {c : Command} {a : Nat} (h : c.namedBytes.contains a = true) :
    ∃ e, c.outcome = .ok e ∧ e.written.contains a = true := by
  cases ho : c.outcome with
  | ok e => exact ⟨e, rfl, by rwa [namedBytes_of_ok ho] at h⟩
  | error e =>
    rw [namedBytes_of_error ho, contains_empty] at h
    exact absurd h Bool.false_ne_true

theorem read_fill_of_not_contains {m : Memory} {r : Region} {f : Nat → Byte} {a : Nat} (h : r.contains a = false) :
    (m.fill r.base r.len f).read a = m.read a :=
  read_fill_outside fun hin => Bool.eq_false_iff.mp h (contains_iff.mpr hin)

/-- R90: where R89 was kept, a completion leaves every byte that its rule does not name. -/
theorem complete_mem_unnamed {c : Command} {s : State} (ho : s.orderly) {a : Nat}
    (h : c.namedBytes.contains a = false) :
    (s.complete c).mem.read a = s.mem.read a := by
  rw [complete_orderly ho]
  obtain ⟨e, -, hs⟩ | ⟨e, hc, -, hs⟩ | ⟨e, hc, -, hs⟩ := settle_cases c s
  · rw [hs, raise_mem]
  · rw [hs, succeed_mem]
    exact read_fill_of_not_contains (namedBytes_of_ok hc ▸ h)
  · rw [hs, dataBusError_mem]
    exact read_fill_of_not_contains (namedBytes_of_ok hc ▸ h)

/-- Settles O21: only named bytes change (`complete_mem_unnamed`), and those of a sound command lie in its destination
and outside its sources. -/
theorem sourceBuffersAreNeverWritten : Obligations.SourceBuffersAreNeverWritten := by
  unfold Obligations.SourceBuffersAreNeverWritten
  intro i s t ho hx
  rw [exec_eq] at hx
  cases hx
  refine ⟨fun a => complete_mem_unnamed ho, fun a ha => ?_, fun r hr a ha => complete_mem_unnamed ho ?_⟩
  · obtain ⟨e, hc, hw⟩ := outcome_of_namedBytes ha
    exact (sound i s).within e hc a hw
  · refine Bool.eq_false_iff.mpr fun hn => ?_
    obtain ⟨e, hc, hw⟩ := outcome_of_namedBytes hn
    exact Bool.eq_false_iff.mp ((sound i s).apart e hc r hr a ha) hw

/-! ## Errors in order (R77, R78, R250, R336) -/

/-- How a command with one source ends, by its range and overlap checks: with the first one that fails, and past them
with no other error than a BUS_ERROR. -/
def endsByBufferChecks (s t : State) (source n dest m : Nat) : Prop :=
  whenElse (¬ inDataSpace source n) (rejectedWith s t 0x04#8 0#32) <|
    whenElse (¬ inDataSpace dest m) (rejectedWith s t 0x04#8 1#32) <|
    whenElse (¬ disjointRegions source n dest m) (rejectedWith s t 0x05#8 0#32) (t.err = true → t.errcode = 0x09#8)

theorem endsByBufferChecks_of_errorsAs {s t : State} {a n b m : Nat} {first : List Nat} {e : Effect}
    (h : errorsAs s t ((do checkRange ⟨a, n⟩ .src; checkRange ⟨b, m⟩ .dst; checkOverlap ⟨a, n⟩ ⟨b, m⟩ .src) >>=
      fun _ => s.checkedReads first >>= fun _ => .ok e)) : endsByBufferChecks s t a n b m := by
  rw [bind_assoc] at h
  refine errorsAs_checkRange h fun _ h => ?_
  rw [bind_assoc] at h
  exact errorsAs_checkRange h fun _ h => errorsAs_checkOverlap h fun _ h => errorsAs_checkedReads h

/-- R250: a resampling command tests the dimensions before its regions. -/
theorem exec_resample_errors {i : Instr} {s : State} {sw sh dw dh a n b m : Nat} {first : List Nat} {e : Effect}
    (ho : s.orderly) (hargs : (commandOf i s).args = resampleArgs sw sh dw dh ⟨a, n⟩ ⟨b, m⟩)
    (hbody : (commandOf i s).body = (s.checkedReads first >>= fun _ => .ok e)) :
    ∃ t, exec i s = .next t ∧
      whenElse (sw = 0 ∨ sh = 0 ∨ dw = 0 ∨ dh = 0) (rejectedWith s t 0x02#8 0#32) (endsByBufferChecks s t a n b m) := by
  obtain ⟨t, hx, h⟩ := exec_errorsAs i ho
  rw [Command.outcome, hargs, hbody, resampleArgs, bind_assoc] at h
  exact ⟨t, hx, errorsAs_raiseIf (by simp [or_assoc]) h fun _ h => endsByBufferChecks_of_errorsAs h⟩

/-- Settles O48: GB7_RENDER by the checks of a command with one source, the others by the prologue of R250. -/
theorem resampleAndRenderErrorsInOrder : Obligations.ResampleAndRenderErrorsInOrder := by
  unfold Obligations.ResampleAndRenderErrorsInOrder
  intro s d8 ho
  refine ⟨?_, fun i hi => ?_, fun i hi => ?_⟩
  · obtain ⟨t, hx, h⟩ := exec_errorsAs (.gb7Render d8) ho
    exact ⟨t, hx, endsByBufferChecks_of_errorsAs h⟩
  · rcases List.mem_pair.mp hi with rfl | rfl
    · exact exec_resample_errors ho rfl rfl
    · exact exec_resample_errors ho rfl rfl
  · rcases List.mem_pair.mp hi with rfl | rfl
    · exact exec_resample_errors ho rfl rfl
    · exact exec_resample_errors ho rfl rfl

end Sys2Proof.Machine
end

section
/-! SUPPORT. What the outcome of a command depends on (R91, R379). `OutcomesAgree` relates two outcomes that name the
same bytes and values; it is composed along the validation phase and shown family by family for a state and the same
state with another memory that holds the same bytes in the command's sources. CompletionDependsOnlyOnSources (O24)
rests on it. -/

namespace Sys2Proof.Machine

/-! ## Effects and outcomes that agree -/

/-- The effects write the same region with the same values, read the same bytes and give the same results; what their
value functions are past the end of the region does not matter. -/
structure EffectsAgree (e f : Effect) : Prop where
  value : ∀ k, k < e.written.len → f.value k = e.value k
  written : f.written = e.written := by rfl
  reads : f.reads = e.reads := by rfl
  result0 : f.result0 = e.result0 := by rfl
  result1 : f.result1 = e.result1 := by rfl
  pixout : f.pixout = e.pixout := by rfl
  fout : f.fout = e.fout := by rfl

/-- The validation phases end with the same error, or with effects that agree. -/
inductive OutcomesAgree : Except CmdError Effect → Except CmdError Effect → Prop
  | error (e : CmdError) : OutcomesAgree (.error e) (.error e)
  | ok {e f : Effect} (h : EffectsAgree e f) : OutcomesAgree (.ok e) (.ok f)

theorem OutcomesAgree.refl (x : Except CmdError Effect) : OutcomesAgree x x := by
  cases x with
  | error e => exact .error e
  | ok e => exact .ok { value := fun _ _ => rfl }

/-- A test or a read that both pass with the same answer, or both fail. -/
theorem OutcomesAgree.bind {α : Type} {x : Except CmdError α} {f g : α → Except CmdError Effect}
    (h : ∀ a, x = .ok a → OutcomesAgree (f a) (g a)) : OutcomesAgree (x >>= f) (x >>= g) := by
  cases x with
  | error e => exact .error e
  | ok a => exact h a rfl

/-- The register checks, then the rest of the validation phase. -/
theorem OutcomesAgree.command {c d : Command} (ha : d.args = c.args)
    (hb : c.args = .ok () → OutcomesAgree c.body d.body) : OutcomesAgree c.outcome d.outcome := by
  rw [Command.outcome, Command.outcome, ha]
  exact .bind fun _ h => hb h

/-! ## The same completion -/

theorem failing_of_effectsAgree {s u : State} {e f : Effect} (hp : u.platform = s.platform) (h : EffectsAgree e f) :
    u.failing f = s.failing e := by
  rw [State.failing, State.failing, Effect.accesses, Effect.accesses, h.reads, h.written]
  simp only [State.responds, hp]

/-- The completions set the same flags, code, information, results and colour outputs, name the same bytes and leave the
same values in them. -/
def sameCompletion (c d : Command) (t v : State) : Prop :=
  v.done = t.done ∧ v.err = t.err ∧ v.errcode = t.errcode ∧ v.errinfo = t.errinfo ∧
    v.result0 = t.result0 ∧ v.result1 = t.result1 ∧ sameColorOutputs t v ∧ d.namedBytes = c.namedBytes ∧
    ∀ a, c.namedBytes.contains a = true → v.mem.read a = t.mem.read a

section
variable {s u : State} {c d : Command}

theorem read_fill_of_contains {m : Memory} {r : Region} {f : Nat → Byte} {a : Nat} (h : r.contains a = true) :
    (m.fill r.base r.len f).read a = f (a - r.base) := by
  rw [read_fill, if_pos (contains_iff.mp h)]

/-- Agreeing outcomes complete alike where R89 was kept, at the same draw (log entry 5). -/
theorem sameCompletion_of_outcomesAgree (hs : s.orderly) (hu : u.orderly) (hp : u.platform = s.platform)
    (hd : u.draws = s.draws) (hout : sameColorOutputs s u) (h : OutcomesAgree c.outcome d.outcome) :
    sameCompletion c d (s.complete c) (u.complete d) := by
  generalize hx : c.outcome = x at h
  generalize hy : d.outcome = y at h
  obtain ⟨hpix, hfout⟩ := hout
  cases h with
  | error e =>
    rw [complete_raise hs hx, complete_raise hu hy]
    refine ⟨rfl, rfl, rfl, by simp [hd], rfl, rfl, ⟨hpix, hfout⟩, ?_, fun a ha => ?_⟩
    · rw [namedBytes_of_error hx, namedBytes_of_error hy]
    · rw [namedBytes_of_error hx, contains_empty] at ha
      exact absurd ha Bool.false_ne_true
  | @ok e f he =>
    have hfail := failing_of_effectsAgree hp he
    have hnamed : d.namedBytes = c.namedBytes := by rw [namedBytes_of_ok hx, namedBytes_of_ok hy, he.written]
    by_cases hf : s.failing e = []
    · rw [complete_succeed hs hx hf, complete_succeed hu hy (hfail.trans hf)]
      refine ⟨rfl, rfl, rfl, rfl, he.result0, he.result1, ⟨?_, ?_⟩, hnamed, fun a ha => ?_⟩
      · simp [he.pixout, hpix]
      · simp [he.fout, hfout]
      · rw [namedBytes_of_ok hx] at ha
        have hk : a - e.written.base < e.written.len := by
          have := contains_iff.mp ha
          omega
        simp only [succeed_mem, he.written, read_fill_of_contains ha, he.value _ hk]
    · rw [complete_dataBusError hs hx hf, complete_dataBusError hu hy (hfail ▸ hf), hfail]
      refine ⟨rfl, rfl, rfl, by simp [hd], rfl, rfl, ⟨hpix, hfout⟩, hnamed, fun a ha => ?_⟩
      rw [namedBytes_of_ok hx] at ha
      simp only [dataBusError_mem, he.written, hd, read_scatter_inside ha]

end

/-! ## The same state with another memory -/

/-- The state with its data memory replaced: registers, platform and phase are definitionally those of the state. -/
def State.withMem (s : State) (m : Memory) : State := { s with mem := m }

/-- The replaced memory gives the command the bytes of a region that it had. -/
def State.agreesOn (s : State) (m : Memory) (r : Region) : Prop := AgreeOn s (s.withMem m) r.base r.len

theorem agreesOn_of_reads {s : State} {m : Memory} {r : Region} (ho : s.orderly)
    (h : ∀ a, r.contains a = true → m.read a = s.mem.read a) : s.agreesOn m r := by
  intro k hk
  rw [byteAt_of_not_raced ho, byteAt_of_not_raced (s := s.withMem m) ho]
  exact h _ (contains_iff.mpr ⟨by omega, by omega⟩)

/-- A region within another one. -/
theorem AgreeOn.mono {s u : State} {b n b' n' : Nat} (h : AgreeOn s u b n) (hlo : b ≤ b') (hhi : b' + n' ≤ b + n) :
    AgreeOn s u b' n' := by
  intro k hk
  have := h (b' + k - b) (by omega)
  rwa [show b + (b' + k - b) = b' + k by omega] at this

section
variable {s : State} {m : Memory}

theorem withMem_arg (k : Fin 8) : (s.withMem m).arg k = s.arg k := rfl

/-- Whether a byte responds does not depend on what memory holds (R72). -/
theorem withMem_checkedReads (l : List Nat) : (s.withMem m).checkedReads l = s.checkedReads l :=
  checkedReads_of_agree (s := s) (u := s.withMem m) rfl l

/-! ## Buffers -/

/-- Writing a PixelBuffer takes only the values at its pixels (R79, R80). -/
theorem EffectsAgree.pixels {b w h : Nat} {f g : Nat → Nat → Nat → Byte} {q r : List Nat} (hr : r = q)
    (hfg : ∀ x y c, x < w → y < h → c < 4 → g x y c = f x y c) :
    EffectsAgree (writePixels b w h f q) (writePixels b w h g r) where
  value := fun k hk => by
    obtain ⟨hx, hy, hc⟩ := pixel_position hk
    exact hfg _ _ _ hx hy hc
  reads := hr

/-- Writing a GrayBuffer takes only the values at its pixels (R79, R81). -/
theorem EffectsAgree.gray {b w h : Nat} {f g : Nat → Nat → Byte} {r : List Nat}
    (hfg : ∀ x y, x < w → y < h → g x y = f x y) : EffectsAgree (writeGray b w h f r) (writeGray b w h g r) where
  value := fun k hk => by
    obtain ⟨hx, hy⟩ := gray_position hk
    exact hfg _ _ hx hy

/-- Writing a stream takes only the values within its length (R153). -/
theorem EffectsAgree.encoder {b total : Nat} {al : Bool} {f g : Nat → Byte} {r : List Nat}
    (hfg : ∀ k, k < total → g k = f k) :
    EffectsAgree (encoderEffect b total al f r) (encoderEffect b total al g r) where
  value := hfg

/-- Agreeing effects with RESULT0 set to the same word (R239). -/
theorem EffectsAgree.withResult0 {e f : Effect} (h : EffectsAgree e f) (r0 : Word) :
    EffectsAgree { e with result0 := r0 } { f with result0 := r0 } where
  value := h.value
  written := h.written
  reads := h.reads
  result1 := h.result1
  pixout := h.pixout
  fout := h.fout

/-- Agreeing effects with both results set to the same words (R151). -/
theorem EffectsAgree.withResults {e f : Effect} (h : EffectsAgree e f) (r0 r1 : Word) :
    EffectsAgree { e with result0 := r0, result1 := r1 } { f with result0 := r0, result1 := r1 } where
  value := h.value
  written := h.written
  reads := h.reads
  pixout := h.pixout
  fout := h.fout

/-- A channel of a pixel of an agreeing PixelBuffer. -/
theorem px_withMem {b w h x y c : Nat} (ha : s.agreesOn m (pixelRegion b w h)) (hx : x < w) (hy : y < h) (hc : c < 4) :
    (s.withMem m).px b w x y c = s.px b w x y c := px_of_agree ha hx hy hc

/-- A pixel of an agreeing GrayBuffer. -/
theorem gx_withMem {b w h x y : Nat} (ha : s.agreesOn m (grayRegion b w h)) (hx : x < w) (hy : y < h) :
    (s.withMem m).gx b w x y = s.gx b w x y := gx_of_agree ha hx hy

/-! ## Decoders (R151, R152) -/

theorem readGb7Header_withMem {b n : Nat} (ha : s.agreesOn m ⟨b, n⟩) :
    readGb7Header (s.withMem m) b n = readGb7Header s b n := 
    readGb7Header_of_agree (s := s) (u := s.withMem m) rfl ha

/-- The gray plane of a stream long enough to hold it. -/
theorem agreesOn_grayPlane {b n w h : Nat} (ha : s.agreesOn m ⟨b, n⟩) (hn : 12 + w * h ≤ n) :
    s.agreesOn m (grayRegion (b + 12) w h) :=
  ha.mono (Nat.le_add_right _ _) (by show b + 12 + w * h ≤ b + n; omega)

/-- A mask-plane byte of a stream long enough to hold the plane (R148). -/
theorem planeOpacity_withMem {b n w h x y : Nat} (ha : s.agreesOn m ⟨b, n⟩)
    (hn : 12 + w * h + h * maskRowBytes w ≤ n) (hx : x < w) (hy : y < h) :
    planeOpacity (s.withMem m) b w h x y = planeOpacity s b w h x y := by
  have hrow : y * maskRowBytes w + x / 8 < h * maskRowBytes w := by
    have hcol : x / 8 < maskRowBytes w := by
      unfold maskRowBytes
      omega
    have := gray_offset_lt (x := x / 8) hcol hy
    rwa [Nat.mul_comm (maskRowBytes w)] at this
  have hbyte := ha (12 + w * h + (y * maskRowBytes w + x / 8)) (by show _ < n; omega)
  have haddr : maskAddress b w h x y = b + (12 + w * h + (y * maskRowBytes w + x / 8)) := by
    unfold maskAddress
    omega
  rw [planeOpacity, planeOpacity, haddr]
  exact congrArg (fun v : Byte => v.getLsbD (7 - x % 8)) hbyte

theorem gb7Dec_outcomesAgree (ha : s.agreesOn m ⟨s.arg 0, s.arg 1⟩) :
    OutcomesAgree (cmdGb7Dec s).outcome (cmdGb7Dec (s.withMem m)).outcome := by
  refine .command rfl fun _ => ?_
  simp only [cmdGb7Dec, withMem_arg, withMem_checkedReads, readGb7Header_withMem ha]
  refine .bind fun hd _ => .bind fun _ hlen => .bind fun _ _ => .bind fun _ _ =>
    .ok (.withResults (.gray fun x y hx hy => ?_) _ _)
  have hn : 12 + hd.width * hd.height ≤ s.arg 1 := by simpa [raiseIf_ok_iff] using hlen
  simp only [gx_withMem (agreesOn_grayPlane ha hn) hx hy]

theorem gb7DecPlane_outcomesAgree (ha : s.agreesOn m ⟨s.arg 0, s.arg 1⟩) :
    OutcomesAgree (cmdGb7DecPlane s).outcome (cmdGb7DecPlane (s.withMem m)).outcome := by
  refine .command rfl fun _ => ?_
  simp only [cmdGb7DecPlane, withMem_arg, withMem_checkedReads, readGb7Header_withMem ha]
  refine .bind fun hd _ => .bind fun _ hlen => .bind fun _ _ => .bind fun _ _ =>
    .ok (.withResults (.gray fun x y hx hy => ?_) _ _)
  have hn : 12 + hd.width * hd.height + (if hd.hasMask then hd.height * maskRowBytes hd.width else 0) ≤ s.arg 1 := by
    simpa [raiseIf_ok_iff] using hlen
  simp only [gx_withMem (agreesOn_grayPlane ha (le_of_add_le_left hn)) hx hy]
  split
  · next hmask =>
    rw [if_pos hmask] at hn
    rw [planeOpacity_withMem ha hn hx hy]
  · rfl

/-! ## Encoders (R153, R154) -/

theorem encoderHasAlpha_withMem {b w h : Nat} (ha : s.agreesOn m (pixelRegion b w h)) (fm : Bool) :
    encoderHasAlpha (s.withMem m) fm b w h = encoderHasAlpha s fm b w h := by
  have hscan : alphaScan (s.withMem m) b 0 (w * h) = alphaScan s b 0 (w * h) := by
    refine alphaScan_of_agree (s := s) (u := s.withMem m) rfl fun q _ hq => ?_
    have hlt : 4 * q + 3 < 4 * w * h := by
      rw [Nat.mul_assoc]
      omega
    exact ha (4 * q + 3) hlt
  rw [encoderHasAlpha, encoderHasAlpha, hscan]

theorem pixelGray_withMem {b w h x y : Nat} (ha : s.agreesOn m (pixelRegion b w h)) (hx : x < w) (hy : y < h) :
    pixelGray (s.withMem m) b w x y = pixelGray s b w x y := by
  simp only [pixelGray, px_withMem ha hx hy (by decide : 0 < 4), px_withMem ha hx hy (by decide : 1 < 4),
    px_withMem ha hx hy (by decide : 2 < 4)]

theorem pixelMaskBit_withMem {b w h x y : Nat} (ha : s.agreesOn m (pixelRegion b w h)) (hx : x < w) (hy : y < h) :
    pixelMaskBit (s.withMem m) b w x y = pixelMaskBit s b w x y := by
  rw [pixelMaskBit, pixelMaskBit, px_withMem ha hx hy (by decide)]
  rfl

/-- A mask-plane byte takes the mask bits of the pixels of its row alone (R148, R153). -/
theorem maskPlaneByte_withMem {b w h y : Nat} (ha : s.agreesOn m (pixelRegion b w h)) (hy : y < h) (j : Nat) :
    maskPlaneByte (s.withMem m) b w y j = maskPlaneByte s b w y j := by
  refine List.foldl_ext _ _ _ fun byte t _ => ?_
  split
  · next hx => rw [pixelMaskBit_withMem ha hx hy]
  · rfl

theorem gb7Enc_outcomesAgree {fm : Bool} (ha : s.agreesOn m (pixelRegion (s.arg 0) (s.arg 1) (s.arg 2))) :
    OutcomesAgree (cmdGb7Enc fm s).outcome (cmdGb7Enc fm (s.withMem m)).outcome := by
  refine .command rfl fun _ => ?_
  simp only [cmdGb7Enc, withMem_arg, encoderHasAlpha_withMem ha]
  refine .bind fun al _ => .bind fun _ _ => .ok (.encoder fun k hk => ?_)
  by_cases hhead : k < 12
  · simp only [if_pos hhead]
  by_cases hgray : k < 12 + s.arg 1 * s.arg 2
  · obtain ⟨hx, hy⟩ := gray_position (w := s.arg 1) (h := s.arg 2) (k := k - 12) (by omega)
    simp only [if_neg hhead, if_pos hgray, pixelGray_withMem ha hx hy]
  · have hplane : k - 12 - s.arg 1 * s.arg 2 < maskRowBytes (s.arg 1) * s.arg 2 := by
      rw [Nat.mul_comm (maskRowBytes _)]
      unfold planeStreamLength at hk
      split at hk <;> omega
    simp only [if_neg hhead, if_neg hgray, maskPlaneByte_withMem ha (Nat.div_lt_of_lt_mul hplane)]

theorem gb7EncInline_outcomesAgree {fm : Bool} (ha : s.agreesOn m (pixelRegion (s.arg 0) (s.arg 1) (s.arg 2))) :
    OutcomesAgree (cmdGb7EncInline fm s).outcome (cmdGb7EncInline fm (s.withMem m)).outcome := by
  refine .command rfl fun _ => ?_
  simp only [cmdGb7EncInline, withMem_arg, encoderHasAlpha_withMem ha]
  refine .bind fun al _ => .bind fun _ _ => .ok (.encoder fun k hk => ?_)
  split
  · rfl
  · obtain ⟨hx, hy⟩ := gray_position (w := s.arg 1) (h := s.arg 2) (k := k - 12) (by omega)
    rw [pixelGray_withMem ha hx hy, pixelMaskBit_withMem ha hx hy]

/-! ## Render and resampling (R156, R250 to R258) -/

theorem gb7Render_outcomesAgree {d8 : Bool} (ha : s.agreesOn m (grayRegion (s.arg 0) (s.arg 1) (s.arg 2))) :
    OutcomesAgree (cmdGb7Render d8 s).outcome (cmdGb7Render d8 (s.withMem m)).outcome := by
  refine .command rfl fun _ => .bind fun _ _ => .ok (.pixels rfl ?_)
  intro x y c hx hy hc
  simp only [withMem_arg, gx_withMem ha hx hy]

/-- R250: past its register checks a resampling command has a source that is not empty. -/
theorem resampleArgs_source_pos {sw sh dw dh : Nat} {source dest : Region}
    (h : resampleArgs sw sh dw dh source dest = .ok ()) : 0 < sw ∧ 0 < sh := by
  obtain ⟨_, hz, -⟩ := bind_ok_iff.mp h
  rw [raiseIf_ok_iff] at hz
  simp at hz
  omega

theorem rgbaResample_outcomesAgree {first : List Nat} {e f : Effect}
    (h : 0 < s.arg 1 → 0 < s.arg 2 → EffectsAgree e f) :
    OutcomesAgree (rgbaResample s first e).outcome (rgbaResample (s.withMem m) first f).outcome := by
  refine .command rfl fun hargs => .bind fun _ _ => .ok ?_
  obtain ⟨hw, hh⟩ := resampleArgs_source_pos hargs
  exact h hw hh

theorem grayResample_outcomesAgree {first : List Nat} {e f : Effect}
    (h : 0 < s.arg 1 → 0 < s.arg 2 → EffectsAgree e f) :
    OutcomesAgree (grayResample s first e).outcome (grayResample (s.withMem m) first f).outcome := by
  refine .command rfl fun hargs => .bind fun _ _ => .ok ?_
  obtain ⟨hw, hh⟩ := resampleArgs_source_pos hargs
  exact h hw hh

/-- A bilinear sample within the source reads four samples of it (R252). -/
theorem bilinearAt_congr {p q : Nat → Nat → ℚ} {sw sh : Nat} {u v : ℚ}
    (h : ∀ i j, i < sw → j < sh → p i j = q i j)
    (hu : 0 ≤ u ∧ u ≤ (sw : ℚ) - 1) (hv : 0 ≤ v ∧ v ≤ (sh : ℚ) - 1) (hw : 0 < sw) (hh : 0 < sh) :
    bilinearAt p sw sh u v = bilinearAt q sw sh u v := by
  have xlo := lowIndex_lt hu.1 hu.2
  have ylo := lowIndex_lt hv.1 hv.2
  have xhi := highIndex_lt hu.1 hw
  have yhi := highIndex_lt hv.1 hh
  simp only [bilinearAt, h _ _ xlo ylo, h _ _ xhi ylo, h _ _ xlo yhi, h _ _ xhi yhi]

theorem rsRgbaNearest_outcomesAgree (ha : s.agreesOn m (pixelRegion (s.arg 0) (s.arg 1) (s.arg 2))) :
    OutcomesAgree (cmdRsRgbaNearest s).outcome (cmdRsRgbaNearest (s.withMem m)).outcome := by
  refine rgbaResample_outcomesAgree fun hw hh => .pixels rfl ?_
  intro x y c _ _ hc
  exact px_withMem ha (rgbaNearestMap_lt hw) (rgbaNearestMap_lt hh) hc

theorem rsRgbaBilinear_outcomesAgree (ha : s.agreesOn m (pixelRegion (s.arg 0) (s.arg 1) (s.arg 2))) :
    OutcomesAgree (cmdRsRgbaBilinear s).outcome (cmdRsRgbaBilinear (s.withMem m)).outcome := by
  refine rgbaResample_outcomesAgree fun hw hh => .pixels rfl ?_
  intro x y c _ _ hc
  refine congrArg u8 (bilinearAt_congr (fun i j hi hj => ?_) (halfPixelMap_bounds hw) (halfPixelMap_bounds hh) hw hh)
  exact congrArg byteRat (px_withMem ha hi hj hc)

theorem rsGrayNearest_outcomesAgree {d8 : Bool} (ha : s.agreesOn m (grayRegion (s.arg 0) (s.arg 1) (s.arg 2))) :
    OutcomesAgree (cmdRsGrayNearest d8 s).outcome (cmdRsGrayNearest d8 (s.withMem m)).outcome := by
  refine grayResample_outcomesAgree fun hw hh => .gray ?_
  intro x y _ _
  simp only [withMem_arg, gx_withMem ha (grayNearestMap_lt hw) (grayNearestMap_lt hh)]

theorem rsGrayBilinear_outcomesAgree {d8 : Bool} (ha : s.agreesOn m (grayRegion (s.arg 0) (s.arg 1) (s.arg 2))) :
    OutcomesAgree (cmdRsGrayBilinear d8 s).outcome (cmdRsGrayBilinear d8 (s.withMem m)).outcome := by
  refine grayResample_outcomesAgree fun hw hh => .gray ?_
  intro x y hx hy
  have hu := grayLinearMap_bounds hw hx
  have hv := grayLinearMap_bounds hh hy
  have hgray := bilinearAt_congr (p := fun i j => byteRat (graySample ((s.withMem m).gx (s.arg 0) (s.arg 1) i j)))
    (fun i j hi hj => by rw [gx_withMem ha hi hj]) hu hv hw hh
  have hmask := bilinearAt_congr (p := fun i j => maskRat ((s.withMem m).gx (s.arg 0) (s.arg 1) i j))
    (fun i j hi hj => by rw [gx_withMem ha hi hj]) hu hv hw hh
  simp only [withMem_arg, grayBilinearByte, hgray, hmask]

/-! ## Convolution (R290 to R295) -/

theorem convolutionSum_withMem {b w h x y c : Nat} (norm : ConvNorm) (ha : s.agreesOn m (pixelRegion b w h))
    (hw : 0 < w) (hh : 0 < h) (hc : c < 4) :
    convolutionSum norm (s.withMem m) b w h x y c = convolutionSum norm s b w h x y c := by
  refine congrArg List.sum (List.map_congr_left fun k _ => ?_)
  have hsample : sample (s.withMem m) b w h x y c k = sample s b w h x y c k :=
    px_withMem ha (edgeClamp_lt hw) (edgeClamp_lt hh) hc
  rw [hsample]
  rfl

theorem convolveCommand_outcomesAgree {target : ConvTarget} {norm : ConvNorm} {apass : Bool}
    (ha : s.agreesOn m (pixelRegion (s.arg 0) (s.arg 1) (s.arg 2))) :
    OutcomesAgree (convolveCommand target norm apass s).outcome
      (convolveCommand target norm apass (s.withMem m)).outcome := by
  refine .command rfl fun _ => .bind fun _ _ => .ok (.pixels rfl ?_)
  intro x y c hx hy hc
  simp only [withMem_arg, px_withMem ha hx hy hc,
    convolutionSum_withMem norm ha (Nat.zero_lt_of_lt hx) (Nat.zero_lt_of_lt hy) hc]

theorem conv3x3_outcomesAgree {tgt norm : BitVec 2} {apass : Bool} :
    (∀ r ∈ (cmdConv3x3 tgt norm apass s).sources, s.agreesOn m r) →
    OutcomesAgree (cmdConv3x3 tgt norm apass s).outcome (cmdConv3x3 tgt norm apass (s.withMem m)).outcome := by
  unfold cmdConv3x3
  cases convTarget tgt with
  | none => exact fun _ => .refl _
  | some target =>
    cases convNorm norm with
    | none => exact fun _ => .refl _
    | some n => exact fun h => convolveCommand_outcomesAgree (h _ (List.mem_singleton_self _))

/-! ## LUT application (R275) -/

theorem withMem_lutOf (ta hr hg hb ha : Bool) : lutOf ta hr hg hb ha (s.withMem m) = lutOf ta hr hg hb ha s := rfl

theorem lutPixelReads_withMem {lut : Nat → Option Nat} {b w h x y c : Nat} (hs : s.agreesOn m (pixelRegion b w h))
    (hx : x < w) (hy : y < h) (hc : c < 4) :
    lutPixelReads (s.withMem m) lut b w x y c = lutPixelReads s lut b w x y c := by
  have hbyte : (s.withMem m).byteAt (pixelAddress b w x y c) = s.byteAt (pixelAddress b w x y c) :=
    px_withMem hs hx hy hc
  simp only [lutPixelReads, lutEntryRead, hbyte]
  rfl

/-- The first pixel's reads: none where there is no pixel (R275, R333). -/
theorem lutFirstReads_withMem {lut : Nat → Option Nat} {b w h : Nat} (hs : s.agreesOn m (pixelRegion b w h)) :
    beforeFirstWrite (w * h) (lutPixelReads (s.withMem m) lut b w 0 0 0) =
      beforeFirstWrite (w * h) (lutPixelReads s lut b w 0 0 0) := by
  unfold beforeFirstWrite
  split
  · rfl
  · next hne =>
    exact lutPixelReads_withMem hs (Nat.pos_of_ne_zero (left_ne_zero_of_mul hne))
      (Nat.pos_of_ne_zero (right_ne_zero_of_mul hne)) (by decide)

theorem mapThroughLut_withMem {lut : Option Nat}
    (hl : ∀ base, lut = some base → s.agreesOn m (lutRegion base)) (v : Byte) :
    mapThroughLut (s.withMem m) lut v = mapThroughLut s lut v := by
  cases lut with
  | none => rfl
  | some base => exact hl base rfl v.toNat v.isLt

theorem lutApply_outcomesAgree {ta hr hg hb ha : Bool}
    (hs : s.agreesOn m (pixelRegion (s.arg 0) (s.arg 1) (s.arg 2)))
    (hl : ∀ l ∈ usedLuts ta hr hg hb ha s, s.agreesOn m (lutRegion l.base)) :
    OutcomesAgree (cmdLutApply ta hr hg hb ha s).outcome (cmdLutApply ta hr hg hb ha (s.withMem m)).outcome := by
  refine .command rfl fun _ => ?_
  simp only [cmdLutApply, withMem_arg, withMem_lutOf, withMem_checkedReads, lutFirstReads_withMem hs]
  refine .bind fun _ _ => .ok (.pixels ?_ ?_)
  · refine List.flatMap_congr fun p hp => List.flatMap_congr fun c hc => ?_
    obtain ⟨hx, hy⟩ := mem_rasterPositions.mp hp
    have hc : c < 4 := by simp at hc; omega
    exact lutPixelReads_withMem hs hx hy hc
  · intro x y c hx hy hc
    have hlut : ∀ base, lutOf ta hr hg hb ha s c = some base → s.agreesOn m (lutRegion base) := fun base h =>
      hl ⟨⟨c, hc⟩, base⟩ ((mem_usedLuts ta hr hg hb ha s _).mpr h)
    rw [px_withMem hs hx hy hc, mapThroughLut_withMem hlut]

/-! ## Composition (R230 to R239) -/

theorem prepass_withMem {table n w h : Nat} {dest : Region} (ht : s.agreesOn m ⟨table, 32 * n⟩) :
    prepass (s.withMem m) table w h dest 0 n = prepass s table w h dest 0 n := by
  refine prepass_of_agree (s := s) (u := s.withMem m) rfl n 0 fun j _ hj => ?_
  refine AgreeOn.mono ht (Nat.le_add_right _ _) ?_
  show table + 32 * j + 32 ≤ table + 32 * n
  omega

/-- The bytes that a layer's pixels come from: an Image layer's buffer, a Color layer's four bytes (R234). -/
def Layer.bytes (l : Layer) (width height : Nat) : Region :=
  match l.source with
  | .image base => pixelRegion base width height
  | .color base => ⟨base, 4⟩

theorem layerChannel_withMem {l : Layer} {w h x y c : Nat} (hl : s.agreesOn m (l.bytes w h)) (hx : x < w) (hy : y < h)
    (hc : c < 4) : l.channel (s.withMem m) w x y c = l.channel s w x y c := by
  unfold Layer.bytes at hl
  unfold Layer.channel LayerSource.address
  cases hsrc : l.source with
  | image base =>
    rw [hsrc] at hl
    exact px_withMem hl hx hy hc
  | color base =>
    rw [hsrc] at hl
    exact hl c hc

theorem compositePixel_withMem {ls : List Layer} {w h x y : Nat} (hl : ∀ l ∈ ls, s.agreesOn m (l.bytes w h))
    (hx : x < w) (hy : y < h) : compositePixel (s.withMem m) ls w x y = compositePixel s ls w x y := by
  refine List.foldl_ext _ _ _ fun d l hmem => ?_
  have hch : ∀ c, c < 4 → l.channel (s.withMem m) w x y c = l.channel s w x y c := fun c hc =>
    layerChannel_withMem (hl l hmem) hx hy hc
  simp only [Layer.pixel, hch 0 (by decide), hch 1 (by decide), hch 2 (by decide), hch 3 (by decide)]

/-- The layers of a pre-pass stand in the table or in the buffers that are sources (R233, R234, R238). -/
theorem agreesOn_layerBytes {table n w h : Nat} {dest : Region} {ls : List Layer}
    (ht : s.agreesOn m ⟨table, 32 * n⟩) (hp : prepass s table w h dest 0 n = .ok ls)
    (hr : ∀ r ∈ layerRegions w h ls, s.agreesOn m r) :
    ∀ l ∈ ls, s.agreesOn m (l.bytes w h) := by
  intro l hl
  unfold Layer.bytes
  cases hsrc : l.source with
  | image base => exact hr _ (List.mem_filterMap.mpr ⟨l, hl, by rw [hsrc]⟩)
  | color base =>
    obtain ⟨j, -, hj, rfl⟩ := prepass_color hp l hl base hsrc
    refine AgreeOn.mono ht (by show table ≤ table + 32 * j + 16; omega) ?_
    show table + 32 * j + 16 + 4 ≤ table + 32 * n
    omega

theorem composite_outcomesAgree (ht : s.agreesOn m ⟨s.arg 0, 32 * s.arg 1⟩)
    (hr : ∀ ls,
      prepass s (s.arg 0) (s.arg 2) (s.arg 3) (pixelRegion (s.arg 4) (s.arg 2) (s.arg 3)) 0 (s.arg 1) = .ok ls →
      ∀ r ∈ layerRegions (s.arg 2) (s.arg 3) ls, s.agreesOn m r) :
    OutcomesAgree (cmdComposite s).outcome (cmdComposite (s.withMem m)).outcome := by
  refine .command rfl fun _ => ?_
  simp only [cmdComposite, withMem_arg, prepass_withMem ht]
  refine .bind fun ls hls => .ok (.withResult0 (.pixels rfl fun x y c hx hy _ => ?_) _)
  rw [compositePixel_withMem (agreesOn_layerBytes ht hls (hr ls hls)) hx hy]

/-! ## Every command -/

/-- R91: the outcome of a command depends on the bytes of its sources alone. -/
theorem outcomesAgree_withMem (i : Instr) (h : ∀ r ∈ (commandOf i s).sources, s.agreesOn m r) :
    OutcomesAgree (commandOf i s).outcome (commandOf i (s.withMem m)).outcome := by
  cases i with
  | gb7Dec => exact gb7Dec_outcomesAgree (h _ (List.mem_singleton_self _))
  | gb7DecPlane => exact gb7DecPlane_outcomesAgree (h _ (List.mem_singleton_self _))
  | gb7Enc fm => exact gb7Enc_outcomesAgree (h _ (List.mem_singleton_self _))
  | gb7EncInline fm => exact gb7EncInline_outcomesAgree (h _ (List.mem_singleton_self _))
  | gb7Render d8 => exact gb7Render_outcomesAgree (h _ (List.mem_singleton_self _))
  | composite =>
    refine composite_outcomesAgree (h _ List.mem_cons_self) fun ls hls r hr => h r (List.mem_cons_of_mem _ ?_)
    simp only [hls]
    exact hr
  | rsRgbaNearest => exact rsRgbaNearest_outcomesAgree (h _ (List.mem_singleton_self _))
  | rsRgbaBilinear => exact rsRgbaBilinear_outcomesAgree (h _ (List.mem_singleton_self _))
  | rsGrayNearest d8 => exact rsGrayNearest_outcomesAgree (h _ (List.mem_singleton_self _))
  | rsGrayBilinear d8 => exact rsGrayBilinear_outcomesAgree (h _ (List.mem_singleton_self _))
  | lutApply ta hr hg hb ha =>
    exact lutApply_outcomesAgree (h _ List.mem_cons_self) fun l hl =>
      h _ (List.mem_cons_of_mem _ (List.mem_map_of_mem hl))
  | conv3x3 tgt norm apass => exact conv3x3_outcomesAgree h
  | _ => exact .refl _

end

/-- Settles O24: the second state's command is that of the first with the second's memory, whose outcome agrees
(`outcomesAgree_withMem`), and agreeing outcomes complete alike. -/
theorem completionDependsOnlyOnSources : Obligations.CompletionDependsOnlyOnSources := by
  unfold Obligations.CompletionDependsOnlyOnSources
  intro i s u hs hu hargs hkernel hpixin hfin hcmd hplat hdraws hout hmem
  have hview : u.view = (s.withMem u.mem).view := by
    have hsrc : (s.withMem u.mem).sourceMem = u.mem := sourceMem_of_not_raced (s := s.withMem u.mem) hs
    simp only [State.view, sourceMem_of_not_raced hu, hsrc, hargs, hkernel, hpixin, hfin, hcmd, hplat]
    rfl
  have hagree : OutcomesAgree (commandOf i s).outcome (commandOf i u).outcome := by
    rw [commandOf_congr hview]
    exact outcomesAgree_withMem i fun r hr => agreesOn_of_reads hs (hmem r hr)
  exact ⟨_, _, exec_eq i s, exec_eq i u, sameCompletion_of_outcomesAgree hs hu hplat hdraws hout hagree⟩

end Sys2Proof.Machine
end

section
/-! SUPPORT. The decoder and the encoder field by field (R100 to R103, R109, R112, R116): what each option decoder
answers, which fields a row of the opcode table fixes, and that decode and encode are inverse on the well-formed
instructions (O1, O2, O3). -/

namespace Sys2Proof

/-! ## The fields of a command word (R101 to R103) -/

/-- A command word is its RES, OPT and OP fields, one after the other. -/
theorem append_fields (w : Word) : resField w ++ (optField w ++ opField w) = w := by
  have hlow : optField w ++ opField w = w.extractLsb' 0 16 :=
    BitVec.extractLsb'_append_extractLsb'_eq_extractLsb' rfl
  rw [hlow]
  exact BitVec.extractLsb'_append_extractLsb' (w := 16) (len := 16)

theorem word_eq_of_fields {w v : Word} (hres : resField w = resField v) (hopt : optField w = optField v)
    (hop : opField w = opField v) : w = v := by
  rw [← append_fields w, ← append_fields v, hres, hopt, hop]

theorem resField_and (w v : Word) : resField (w &&& v) = resField w &&& resField v := BitVec.extractLsb'_and ..

theorem optField_and (w v : Word) : optField (w &&& v) = optField w &&& optField v := BitVec.extractLsb'_and ..

theorem opField_and (w v : Word) : opField (w &&& v) = opField w &&& opField v := BitVec.extractLsb'_and ..

/-- A field of OPT is a field of the word (R109). -/
theorem optField_extractLsb' (w : Word) {start len : Nat} (h : start + len ≤ 8) :
    (optField w).extractLsb' start len = w.extractLsb' (8 + start) len := by
  refine BitVec.eq_of_getLsbD_eq fun i hi => ?_
  have hbyte : start + i < 8 := by omega
  simp only [optField, BitVec.getLsbD_extractLsb', hi, hbyte, decide_true, Bool.true_and, Nat.add_assoc]

/-! ## The option decoders (R109) -/

theorem withoutOption_ok_iff {i j : Instr} {opt : Byte} : withoutOption j opt = .ok i ↔ opt = 0#8 ∧ j = i := by
  unfold withoutOption
  split <;> simp [*]

theorem withOptionBit_ok_iff {i : Instr} {f : Bool → Instr} {opt : Byte} :
    withOptionBit f opt = .ok i ↔ opt &&& 0xFE#8 = 0#8 ∧ f (opt.getLsbD 0) = i := by
  unfold withOptionBit
  split <;> simp [*]

theorem decodeLutApply_ok_iff {i : Instr} {opt : Byte} :
    decodeLutApply opt = .ok i ↔ opt &&& 0xE0#8 = 0#8 ∧
      .lutApply (opt.getLsbD 0) (opt.getLsbD 1) (opt.getLsbD 2) (opt.getLsbD 3) (opt.getLsbD 4) = i := by
  unfold decodeLutApply
  split <;> simp [*]

theorem decodeConv3x3_ok_iff {i : Instr} {opt : Byte} :
    decodeConv3x3 opt = .ok i ↔ opt &&& 0xE0#8 = 0#8 ∧
      (tgtDefined (opt.extractLsb' 0 2) && normDefined (opt.extractLsb' 2 2)) = true ∧
      .conv3x3 (opt.extractLsb' 0 2) (opt.extractLsb' 2 2) (opt.getLsbD 4) = i := by
  unfold decodeConv3x3
  split
  · split <;> simp [*]
  · simp [*]

/-! ## The fields of an encoded instruction (R116) -/

/-- The instruction is well-formed, and its word holds this OP and this OPT. -/
structure Instr.HasFields (i : Instr) (op opt : Byte) : Prop where
  wellFormed : i.wellFormed = true
  op : opField (encode i) = op
  opt : optField (encode i) = opt

/-- A command with no OPT field. -/
theorem withoutOption_hasFields {i j : Instr} {op opt : Byte} (h : withoutOption j opt = .ok i)
    (hj : j.HasFields op 0#8) : i.HasFields op opt := by
  obtain ⟨rfl, rfl⟩ := withoutOption_ok_iff.mp h
  exact hj

/-- A byte with no bit above bit 0 is 0 or 1. -/
theorem optionByte_cases {opt : Byte} (h : opt &&& 0xFE#8 = 0#8) : opt = 0#8 ∨ opt = 1#8 := by
  revert opt; decide

/-- A command with the one OPT bit 0. -/
theorem withOptionBit_hasFields {i : Instr} {f : Bool → Instr} {op opt : Byte} (h : withOptionBit f opt = .ok i)
    (hclear : (f false).HasFields op 0#8) (hset : (f true).HasFields op 1#8) : i.HasFields op opt := by
  obtain ⟨hopt, rfl⟩ := withOptionBit_ok_iff.mp h
  obtain rfl | rfl := optionByte_cases hopt
  · exact hclear
  · exact hset

theorem decodeLutApply_hasFields {i : Instr} {opt : Byte} (h : decodeLutApply opt = .ok i) :
    i.HasFields 0x62#8 opt := by
  obtain ⟨hopt, rfl⟩ := decodeLutApply_ok_iff.mp h
  refine ⟨rfl, ?_, ?_⟩ <;> (revert opt; decide)

theorem decodeConv3x3_hasFields {i : Instr} {opt : Byte} (h : decodeConv3x3 opt = .ok i) :
    i.HasFields 0x70#8 opt := by
  obtain ⟨hopt, hdefined, rfl⟩ := decodeConv3x3_ok_iff.mp h
  refine ⟨hdefined, ?_, ?_⟩ <;> (clear hdefined; revert opt; decide)

/-- What the opcode map answers is well-formed, and is encoded with the OP and the OPT it was read from (R112). -/
theorem decodeOp_hasFields {op opt : Byte} {i : Instr} (h : decodeOp op opt = .ok i) : i.HasFields op opt := by
  unfold decodeOp at h
  split at h
  -- The arms in the order of R112: GB7_ENC, GB7_ENC_INLINE, GB7_RENDER and RS_GRAY_* have the one bit; then LUT_APPLY,
  -- CONV3X3 and no command; every other arm has no OPT field.
  case h_4 | h_5 | h_6 | h_28 | h_29 => exact withOptionBit_hasFields h ⟨rfl, rfl, rfl⟩ ⟨rfl, rfl, rfl⟩
  case h_32 => exact decodeLutApply_hasFields h
  case h_33 => exact decodeConv3x3_hasFields h
  case h_34 => cases h
  all_goals exact withoutOption_hasFields h ⟨rfl, rfl, rfl⟩

/-! ## The rows of the opcode table (R111, R112) -/

/-- A row fixes all of RES to 0 and all of OP, and the OPT bits of its mask to 0. -/
theorem commandRows_fixed : ∀ r ∈ commandRows, resField r.mask = BitVec.allOnes 16 ∧
    opField r.mask = BitVec.allOnes 8 ∧ resField r.bits = 0#16 ∧ optField r.bits = 0#8 := by decide

theorem accepts_iff {r : CommandRow} {w : Word} : r.accepts w = true ↔ w &&& r.mask = r.bits := beq_iff_eq

/-- The fields of a word that a row accepts. -/
theorem accepts_fields {r : CommandRow} (hr : r ∈ commandRows) {w : Word} (h : r.accepts w = true) :
    resField w = 0#16 ∧ opField w = opField r.bits ∧ optField w &&& optField r.mask = 0#8 := by
  obtain ⟨hres, hop, hres0, hopt0⟩ := commandRows_fixed r hr
  rw [← hres0, ← hopt0, ← accepts_iff.mp h, resField_and, opField_and, optField_and, hres, hop]
  exact ⟨BitVec.and_allOnes.symm, BitVec.and_allOnes.symm, rfl⟩

/-- The word of a well-formed instruction is one that R111 admits. -/
theorem wordWellFormed_encode {i : Instr} (h : i.wellFormed = true) : wordWellFormed (encode i) = true := by
  cases i with
  | gb7Enc fm => exact Laws.EncodedWordIsWellFormed.gb7Enc fm h
  | gb7EncInline fm => exact Laws.EncodedWordIsWellFormed.gb7EncInline fm h
  | gb7Render d8 => exact Laws.EncodedWordIsWellFormed.gb7Render d8 h
  | rsGrayNearest d8 => exact Laws.EncodedWordIsWellFormed.rsGrayNearest d8 h
  | rsGrayBilinear d8 => exact Laws.EncodedWordIsWellFormed.rsGrayBilinear d8 h
  | lutApply ta hr hg hb ha => exact Laws.EncodedWordIsWellFormed.lutApply ta hr hg hb ha h
  | conv3x3 tgt norm apass => exact Laws.EncodedWordIsWellFormed.conv3x3 tgt norm apass h
  | _ => rfl

/-- R111 on the word, with the reserved values of CONV3X3 written out. -/
theorem wordWellFormed_iff {w : Word} : wordWellFormed w = true ↔ (∃ r ∈ commandRows, r.accepts w = true) ∧
    ¬ (opField w = 0x70#8 ∧ (w.extractLsb' 8 2 = 0b11#2 ∨ w.extractLsb' 10 2 = 0b11#2)) := by
  simp [wordWellFormed, opField, tgtDefined, normDefined, imp_iff_not_or]

theorem resField_of_wordWellFormed {w : Word} (h : wordWellFormed w = true) : resField w = 0#16 := by
  obtain ⟨⟨r, hr, haccepts⟩, -⟩ := wordWellFormed_iff.mp h
  exact (accepts_fields hr haccepts).1

theorem resField_encode {i : Instr} (h : i.wellFormed = true) : resField (encode i) = 0#16 :=
  resField_of_wordWellFormed (wordWellFormed_encode h)

/-! ## Decode and encode -/

theorem decode_ok_iff {w : Word} {i : Instr} :
    decode w = .ok i ↔ resField w = 0#16 ∧ decodeOp (opField w) (optField w) = .ok i := by
  unfold decode
  split <;> simp [*]

/-- A well-formed instruction is decoded from its word. -/
theorem decode_encode {i : Instr} (h : i.wellFormed = true) : decode (encode i) = .ok i := by
  cases i with
  | gb7Enc fm | gb7EncInline fm | gb7Render fm | rsGrayNearest fm | rsGrayBilinear fm => cases fm <;> rfl
  | lutApply ta hr hg hb ha => revert ta hr hg hb ha; decide
  | conv3x3 tgt norm apass => revert tgt norm apass; decide
  | _ => rfl

/-- A word is decoded to nothing but the well-formed instruction that it encodes. -/
theorem eq_encode_of_decode {w : Word} {i : Instr} (h : decode w = .ok i) : i.wellFormed = true ∧ w = encode i := by
  obtain ⟨hres, hdecode⟩ := decode_ok_iff.mp h
  obtain ⟨hwf, hop, hopt⟩ := decodeOp_hasFields hdecode
  exact ⟨hwf, word_eq_of_fields (hres.trans (resField_encode hwf).symm) hopt.symm hop.symm⟩

/-- Settles O1: the opcode map answers an instruction with the OP and OPT of its encoding (`decodeOp_hasFields`), RES is
0 on both sides, and the fields make up the word. -/
theorem decodeInvertsEncode : Obligations.DecodeInvertsEncode := by
  unfold Obligations.DecodeInvertsEncode
  refine fun w i => ⟨eq_encode_of_decode, ?_⟩
  rintro ⟨hwf, rfl⟩
  exact decode_encode hwf

/-- Settles O3: the decoder evaluated on each of the thirteen words. -/
theorem writtenOutWordsDecode : Obligations.WrittenOutWordsDecode := by
  unfold Obligations.WrittenOutWordsDecode
  decide

/-! ## Which words decode (R111) -/

/-- The three shapes of a row's OPT: no option bit, the bit 0, or the bits 4:0 of LUT_APPLY or CONV3X3 (R109). -/
theorem commandRows_option_cases : ∀ r ∈ commandRows, optField r.mask = 0xFF#8 ∨ optField r.mask = 0xFE#8 ∨
    optField r.mask = 0xE0#8 ∧ (opField r.bits = 0x62#8 ∨ opField r.bits = 0x70#8) := by decide

/-- The opcode map answers an instruction for the OP of every row with OPT 0. -/
theorem decodeOp_zero_isOk : ∀ r ∈ commandRows, (decodeOp (opField r.bits) 0#8).isOk = true := by decide

/-- The opcode map answers an instruction where the one option bit of a row is set. -/
theorem decodeOp_one_isOk : ∀ r ∈ commandRows, optField r.mask = 0xFE#8 →
    (decodeOp (opField r.bits) 1#8).isOk = true := by decide

theorem exists_ok_of_isOk {ε α : Type} {x : Except ε α} (h : x.isOk = true) : ∃ a, x = .ok a := by
  cases x with
  | ok a => exact ⟨a, rfl⟩
  | error _ => cases h

/-- The opcode map answers an instruction for the OP of every row, with each option bit outside the row's mask at each
value; for CONV3X3 where neither field is reserved. -/
theorem decodeOp_of_row {r : CommandRow} (hr : r ∈ commandRows) {opt : Byte} (hopt : opt &&& optField r.mask = 0#8)
    (hdefined : opField r.bits = 0x70#8 → (tgtDefined (opt.extractLsb' 0 2) && normDefined (opt.extractLsb' 2 2))) :
    ∃ i, decodeOp (opField r.bits) opt = .ok i := by
  obtain hmask | hmask | ⟨hmask, hop | hop⟩ := commandRows_option_cases r hr <;> rw [hmask] at hopt
  · obtain rfl : opt = 0#8 := BitVec.and_allOnes.symm.trans hopt
    exact exists_ok_of_isOk (decodeOp_zero_isOk r hr)
  · obtain rfl | rfl := optionByte_cases hopt
    · exact exists_ok_of_isOk (decodeOp_zero_isOk r hr)
    · exact exists_ok_of_isOk (decodeOp_one_isOk r hr hmask)
  · rw [hop]
    exact ⟨_, decodeLutApply_ok_iff.mpr ⟨hopt, rfl⟩⟩
  · rw [hop]
    exact ⟨_, decodeConv3x3_ok_iff.mpr ⟨hopt, hdefined hop, rfl⟩⟩

/-- TGT and NORM of a CONV3X3 word are defined where neither holds its reserved value (R109). -/
theorem convFields_defined {w : Word} (h : ¬ (w.extractLsb' 8 2 = 0b11#2 ∨ w.extractLsb' 10 2 = 0b11#2)) :
    (tgtDefined ((optField w).extractLsb' 0 2) && normDefined ((optField w).extractLsb' 2 2)) = true := by
  rw [optField_extractLsb' w (by decide), optField_extractLsb' w (by decide)]
  simpa [tgtDefined, normDefined] using h

/-- R111: a word decodes exactly when it is one that R111 admits. -/
theorem decodes_iff_wordWellFormed {w : Word} : (∃ i, decode w = .ok i) ↔ wordWellFormed w = true := by
  constructor
  · rintro ⟨i, h⟩
    obtain ⟨hwf, rfl⟩ := eq_encode_of_decode h
    exact wordWellFormed_encode hwf
  · intro h
    obtain ⟨⟨r, hr, haccepts⟩, hreserved⟩ := wordWellFormed_iff.mp h
    obtain ⟨hres, hop, hopt⟩ := accepts_fields hr haccepts
    obtain ⟨i, hi⟩ := decodeOp_of_row hr hopt fun hconv =>
      convFields_defined fun hfield => hreserved ⟨hop.trans hconv, hfield⟩
    exact ⟨i, decode_ok_iff.mpr ⟨hres, hop ▸ hi⟩⟩

/-- R337: the command of a word that does not decode is BAD_CMD with the word. -/
theorem outcome_commandOfWord_of_not_decodes {w : Word} (h : ∀ i, decode w ≠ .ok i) (s : Machine.State) :
    (Machine.commandOfWord w s).outcome = .error (.badCmd w) := by
  unfold Machine.commandOfWord
  cases hd : decode w with
  | ok i => exact absurd hd (h i)
  | error _ => rfl

/-- Settles O2: the words that decode are those that R111 admits (`decodes_iff_wordWellFormed`), whose RES is 0; any
other word's command is BAD_CMD. -/
theorem wordDecodesExactlyWhenAdmitted : Obligations.WordDecodesExactlyWhenAdmitted := by
  unfold Obligations.WordDecodesExactlyWhenAdmitted
  refine ⟨fun w => ?_, ?_⟩
  · rw [decodes_iff_wordWellFormed, ← wordWellFormed_iff]
    exact ⟨fun h => ⟨resField_of_wordWellFormed h, h⟩, And.right⟩
  · rintro w s hundecodable rfl
    exact outcome_commandOfWord_of_not_decodes hundecodable s

end Sys2Proof
end

section
/-! SUPPORT. What a LUT build does with its curve (R273, R274). -/

namespace Sys2Proof.Machine

section
variable {i : Instr} {s : State} {curve : CurvePoint → CurvePoint → Nat → Byte}

/-- A LUT build past the end of the address space is rejected with the destination's code (R77, R335). -/
theorem exec_lutBuild_range (ho : s.orderly) (hc : commandOf i s = lutBuild s curve)
    (hd : ¬ inDataSpace (s.arg 0) 256) : ∃ t, exec i s = .next t ∧ rejectedWith s t 0x04#8 1#32 :=
  exec_rejects (e := .addrRange .dst) ho (by rw [hc]; exact outcome_args_error (checkRange_error hd))

/-- A LUT build within responding data memory writes byte `x` of its curve at every `x`, and nothing else (R273, R274). -/
theorem exec_lutBuild (ho : s.orderly) (hc : commandOf i s = lutBuild s curve) (hd : inDataSpace (s.arg 0) 256)
    (hr : s.respondsOn (s.arg 0) 256) :
    ∃ t, exec i s = .next t ∧ bufferCompleted s t 0#32 0#32 (s.arg 0) 256 ∧
      ∀ x, x < 256 → t.mem.read (s.arg 0 + x) = curve (curvePoint s.args[1]) (curvePoint s.args[2]) x := by
  have hout : (commandOf i s).outcome = (lutBuild s curve).body := by
    rw [hc]
    exact outcome_ok_iff.mpr ⟨checkRange_ok hd, rfl⟩
  obtain ⟨t, hexec, hdone, hmem⟩ := exec_buffer ho hout (by rintro a ⟨⟩) hr rfl rfl
  exact ⟨t, hexec, hdone, fun x hx => by rw [hmem]; exact read_fill_inside hx⟩

end

/-- Settles O49: both builds are `lutBuild` of their curve, whose tests are those of the statement at the points of R105. -/
theorem lutBuildsFollowTheirCurves : Obligations.LutBuildsFollowTheirCurves := by
  unfold Obligations.LutBuildsFollowTheirCurves
  intro s ho
  simp only [← curvePoint_input, ← curvePoint_output]
  refine ⟨fun hd i hi => ?_, fun hd hr => ⟨?_, ?_⟩⟩
  · obtain rfl | rfl : i = .lutBuildRamp ∨ i = .lutBuildFlat := by simpa using hi
    · exact exec_lutBuild_range (curve := ramp) ho rfl hd
    · exact exec_lutBuild_range (curve := flat) ho rfl hd
  · exact exec_lutBuild (curve := ramp) ho rfl hd hr
  · exact exec_lutBuild (curve := flat) ho rfl hd hr

end Sys2Proof.Machine
end

section
/-! SUPPORT. Gray samples in integers (R149, R155), the two gray colour commands (R216, R217) and GB7_RENDER (R156). -/

namespace Sys2Proof.Machine

/-! ## Gray samples (R81, R149, R155) -/

/-- R149 in integers: the weights over 10000 and the scale 127 / 255 are one quotient, which never reaches 127 1/2. -/
theorem gray7_toNat (r g b : Byte) : (gray7 r g b).toNat =
    (2 * 127 * (2126 * r.toNat + 7152 * g.toNat + 722 * b.toNat) + 2550000) / 5100000 := by
  have hquot : (2126 * byteRat r + 7152 * byteRat g + 722 * byteRat b) / 10000 * 127 / 255 =
      ((127 * (2126 * r.toNat + 7152 * g.toNat + 722 * b.toNat) : Nat) : ℚ) / ((2550000 : Nat) : ℚ) := by
    simp only [byteRat]
    push_cast
    ring
  rw [gray7, hquot, u7_nat _ _ (by decide)]
  have hr := r.isLt
  have hg := g.isLt
  have hb := b.isLt
  omega

/-- The gray sample of a byte is its value modulo 128 (R81). -/
@[simp] theorem graySample_toNat (b : Byte) : (graySample b).toNat = b.toNat % 128 := by
  rw [graySample, BitVec.toNat_and]
  exact Nat.and_two_pow_sub_one_eq_mod _ 7

/-- R155: a 7-bit sample doubled, plus its top bit. -/
theorem gb7to8_toNat {v : Byte} (h : v.toNat < 128) : (gb7to8 v).toNat = 2 * v.toNat + v.toNat / 64 := by
  have hquot : byteRat v * 255 / 127 = ((255 * v.toNat : Nat) : ℚ) / ((127 : Nat) : ℚ) := by
    simp only [byteRat]
    push_cast
    ring
  have hdiv : (2 * (255 * v.toNat) + 127) / (2 * 127) = 2 * v.toNat + v.toNat / 64 :=
    Nat.div_eq_of_lt_le (by omega) (by omega)
  rw [gb7to8, hquot, u8_nat _ _ (by decide), hdiv]
  omega

/-- Shifting a 7-bit sample left and putting its top bit in the free place, in integers. -/
theorem replicatedTopBit_toNat {v : Byte} (h : v.toNat < 128) :
    ((v <<< 1) ||| (v >>> 6)).toNat = 2 * v.toNat + v.toNat / 64 := by
  have hshift : (v <<< 1).toNat = 2 ^ 1 * v.toNat := by
    rw [BitVec.toNat_shiftLeft, Nat.shiftLeft_eq]
    omega
  rw [BitVec.toNat_or, hshift, BitVec.toNat_ushiftRight, Nat.shiftRight_eq_div_pow,
    ← Nat.two_pow_add_eq_or_of_lt (by omega)]

theorem gb7to8_eq_replicated {v : Byte} (h : v.toNat < 128) : gb7to8 v = (v <<< 1) ||| (v >>> 6) :=
  BitVec.eq_of_toNat_eq (by rw [gb7to8_toNat h, replicatedTopBit_toNat h])

/-- The 8-bit value of a byte's gray sample (R81, R155). -/
theorem gb7to8_graySample_toNat (b : Byte) :
    (gb7to8 (graySample b)).toNat = 2 * (b.toNat % 128) + b.toNat % 128 / 64 := by
  rw [gb7to8_toNat (by rw [graySample_toNat]; omega), graySample_toNat]

/-! ## The gray colour commands (R216, R217) -/

/-- The value of a packed pixel by its fields (R46, R181). -/
theorem packPixel_toNat (r g b : Byte) :
    (packPixel r g b).toNat = r.toNat + 0x100 * g.toNat + 0x10000 * b.toNat + 0xFF000000 := by
  obtain ⟨hr, hg, hb, ha⟩ := packPixel_fields r g b
  have field (k : Nat) {v : Byte} (h : (packPixel r g b).extractLsb' k 8 = v) :
      (packPixel r g b).toNat / 2 ^ k % 256 = v.toNat := by
    rw [← h, BitVec.extractLsb'_toNat, Nat.shiftRight_eq_div_pow]
  have hr := field 0 hr
  have hg := field 8 hg
  have hb := field 16 hb
  have ha := field 24 ha
  have hlt := (packPixel r g b).isLt
  simp only [BitVec.toNat_ofNat] at ha
  omega

/-- R180: a command that writes CC_PIXOUT accesses no data byte, so it always succeeds; it leaves memory and CC_FOUT. -/
theorem exec_pixelOut {i : Instr} {s : State} {w : Word} (ho : s.orderly) (hc : commandOf i s = pixelOut w) :
    ∃ t, exec i s = .next t ∧ pixelCompleted s t ∧ t.pixout = w := by
  obtain ⟨t, hx, hdone, hmem, hpix, hfout⟩ := exec_register ho hc rfl rfl
  exact ⟨t, hx, ⟨hdone, hmem, hfout⟩, hpix⟩

/-- CC_PIXIN bits 6:0 as the gray sample of its low byte (R46, R216). -/
theorem graySample_pixelRed_toNat (w : Word) : (graySample (pixelRed w)).toNat = (w.extractLsb' 0 7).toNat := by
  rw [graySample_toNat, pixelRed, BitVec.extractLsb'_toNat, BitVec.extractLsb'_toNat]
  exact Nat.mod_mod_of_dvd _ (by decide)

/-- Settles O34: the integer forms of `gray7` and `gb7to8`, and both commands by `exec_pixelOut`. -/
theorem grayColourCommands : Obligations.GrayColourCommands := by
  unfold Obligations.GrayColourCommands
  refine ⟨fun r g b => ⟨gray7_toNat r g b, gray7_lt r g b⟩, fun v => gb7to8_eq_replicated,
    fun s ho => ⟨?_, exec_pixelOut ho rfl⟩⟩
  obtain ⟨t, hx, hdone, hpix⟩ := exec_pixelOut (i := .ccGb7ToRgb8) ho rfl
  refine ⟨t, hx, hdone, ?_⟩
  have hlt : (graySample (pixelRed s.pixin)).toNat < 128 := by
    rw [graySample_toNat]
    omega
  rw [hpix, packPixel_toNat, gb7to8_toNat hlt, graySample_pixelRed_toNat]
  ring

/-! ## GB7_RENDER (R156) -/

theorem renderedChannel_colour {d8 : Bool} {b : Byte} {c : Nat} (h : c < 3) :
    renderedChannel d8 b c = gb7to8 (graySample b) := by
  rw [renderedChannel, if_pos h]

theorem renderedChannel_alpha (d8 : Bool) (b : Byte) :
    renderedChannel d8 b 3 = if d8 && !b.getLsbD 7 then 0x00#8 else 0xFF#8 := by
  unfold renderedChannel
  cases d8 <;> cases b.getLsbD 7 <;> rfl

/-- Every byte that a command over a GrayBuffer reads responds where the buffer does (R79). -/
theorem responds_grayReads {s : State} {b w h : Nat} (hr : s.respondsOn b (w * h)) :
    ∀ a ∈ (rasterPositions w h).map (fun (x, y) => grayAddress b w x y), s.responds a = true := by
  intro a ha
  obtain ⟨⟨x, y⟩, hxy, rfl⟩ := List.mem_map.mp ha
  obtain ⟨hx, hy⟩ := mem_rasterPositions.mp hxy
  exact responds_grayAddress hr hx hy

/-- Where a buffer responds, so do the bytes of its pixel 0, if it has one (R333). -/
theorem responds_firstGrayRead {s : State} {b w h : Nat} (hr : s.respondsOn b (w * h)) :
    ∀ a ∈ beforeFirstWrite (w * h) [grayAddress b w 0 0], s.responds a = true := by
  intro a ha
  obtain ⟨hpos, hmem⟩ := mem_beforeFirstWrite.mp ha
  obtain rfl := List.mem_singleton.mp hmem
  obtain ⟨hw, hh⟩ := CanonicallyOrderedAdd.mul_pos.mp hpos
  exact responds_grayAddress hr hw hh

/-- Settles O39: a command that writes a PixelBuffer (`exec_pixels`), channel by channel. -/
theorem renderWritesPixelBuffer : Obligations.RenderWritesPixelBuffer := by
  unfold Obligations.RenderWritesPixelBuffer
  intro s d8 ho W H hbuf hsrc hdst
  obtain ⟨t, hx, hdone, hpix⟩ := exec_pixels (i := .gb7Render d8) ho
    (outcome_of_reads_ok (bufferChecks_ok hbuf) rfl (responds_firstGrayRead hsrc)) (responds_grayReads hsrc) hdst
  refine ⟨t, hx, hdone, fun x y hxW hyH => ?_⟩
  have hbyte : s.gx (s.arg 0) W x y = s.mem.read (grayAddress (s.arg 0) W x y) := byteAt_of_not_raced ho _
  refine ⟨fun c hc => ?_, ?_⟩
  · rw [hpix x y c hxW hyH (by omega), hbyte, renderedChannel_colour hc, gb7to8_graySample_toNat]
  · rw [hpix x y 3 hxW hyH (by omega), hbyte, renderedChannel_alpha]

end Sys2Proof.Machine
end

section
/-! SUPPORT. The two GB7 decoders (R151, R152) as one validation phase, which differs in the length it asks for and in what
it makes of a pixel: its errors in order, its result on a well-formed stream, and that the two decoders are the same
command where hasMask is clear. -/

namespace Sys2Proof.Machine

/-! ## The validation phase of a decoder (R151, R152) -/

/-- A decoder's rule past its register checks: `need` is the stream length it asks for, `firstReads` and `reads` the bytes
it reads for pixel 0 and for all pixels, `pixel` the byte it writes for a pixel; each by the header. -/
def decoderBody (s : State) (need : Gb7Header → Nat) (firstReads : Gb7Header → List Nat)
    (reads : Gb7Header → List Nat) (pixel : Gb7Header → Nat → Nat → Byte) : Except CmdError Effect := do
  let h ← readGb7Header s (s.arg 0) (s.arg 1)
  raiseIf (decide (s.arg 1 < need h)) (.gb7Trunc (need h))
  raiseIf (decide (s.arg 3 < h.width * h.height)) (.dstSmall (h.width * h.height))
  s.checkedReads (beforeFirstWrite (h.width * h.height) (firstReads h))
  .ok { writeGray (s.arg 2) h.width h.height (pixel h) (reads h) with result0 := h.result0, result1 := h.result1 }

/-- An instruction whose command is a decoder. -/
structure Decodes (i : Instr) (s : State) (need : Gb7Header → Nat) (firstReads reads : Gb7Header → List Nat)
    (pixel : Gb7Header → Nat → Nat → Byte) : Prop where
  args : (commandOf i s).args = gb7DecodeArgs ⟨s.arg 0, s.arg 1⟩ ⟨s.arg 2, s.arg 3⟩
  body : (commandOf i s).body = decoderBody s need firstReads reads pixel

/-- The bytes of the separate mask plane of a header's stream: none where hasMask is clear (R144, R148). -/
def Gb7Header.planeBytes (h : Gb7Header) : Nat := if h.hasMask then h.height * maskRowBytes h.width else 0

/-- The byte GB7_DEC writes for a pixel (R151). -/
def inlinePixel (s : State) (h : Gb7Header) (x y : Nat) : Byte :=
  let b := s.gx (s.arg 0 + 12) h.width x y
  if h.hasMask then b else graySample b

/-- The byte GB7_DEC_PLANE writes for a pixel (R152). -/
def planePixel (s : State) (h : Gb7Header) (x y : Nat) : Byte :=
  let g := graySample (s.gx (s.arg 0 + 12) h.width x y)
  if h.hasMask then withOpacity g (planeOpacity s (s.arg 0) h.width h.height x y) else g

theorem decodes_gb7Dec (s : State) : Decodes .gb7Dec s (fun h => 12 + h.width * h.height)
    (fun h => [grayAddress (s.arg 0 + 12) h.width 0 0])
    (fun h => (rasterPositions h.width h.height).map (fun (x, y) => grayAddress (s.arg 0 + 12) h.width x y))
    (inlinePixel s) := ⟨rfl, rfl⟩

theorem decodes_gb7DecPlane (s : State) : Decodes .gb7DecPlane s (fun h => 12 + h.width * h.height + h.planeBytes)
    (fun h => planePixelReads (s.arg 0) h 0 0)
    (fun h => (rasterPositions h.width h.height).flatMap (fun (x, y) => planePixelReads (s.arg 0) h x y))
    (planePixel s) := ⟨rfl, rfl⟩

/-! ## The errors in order (R336) -/

section
variable {s t : State} {i : Instr} {need : Gb7Header → Nat} {firstReads reads : Gb7Header → List Nat}
  {pixel : Gb7Header → Nat → Nat → Byte}

/-- The link of one MAGIC byte: skipped where the stream ends before it (R151). -/
theorem errorsAs_checkMagic {S L k : Nat} {m : Byte} {l : List Byte} {f : Unit → Except CmdError Effect} {rest : Prop}
    (ho : s.orderly) (h : errorsAs s t (checkMagic s (S + k) ((m :: l).take (L - k)) >>= f))
    (hr : errorsAs s t (checkMagic s (S + (k + 1)) (l.take (L - (k + 1))) >>= f) → rest) :
    whenElse (L ≤ k) rest <| readsThen s t S [k] <|
      whenElse (s.mem.read (S + k) ≠ m) (rejectedWith s t 0x10#8 0#32) rest := by
  obtain hlt | hend := Nat.lt_or_ge k L
  · rw [show L - k = L - (k + 1) + 1 by omega, List.take_succ_cons, checkMagic, bind_assoc] at h
    refine whenElse_no (by omega) (errorsAs_checkedByte ho h fun h => ?_)
    rw [bind_assoc] at h
    exact errorsAs_raiseIf bne_iff_ne h fun _ h => hr h
  · refine whenElse_yes hend (hr ?_)
    rw [show L - (k + 1) = 0 by omega]
    rwa [show L - k = 0 by omega] at h

/-- The link of a big-endian 16-bit field, its high byte first (R141, log entry 23). -/
theorem errorsAs_checkedBigEndian16 {a k : Nat} {f : Nat → Except CmdError Effect} {rest : Prop} (ho : s.orderly)
    (h : errorsAs s t (checkedBigEndian16 s (a + k) >>= f))
    (hr : errorsAs s t (f ((s.mem.read (a + k)).toNat * 256 + (s.mem.read (a + (k + 1))).toNat)) → rest) :
    readsThen s t a [k, k + 1] rest := by
  rw [checkedBigEndian16, bind_assoc] at h
  refine errorsAs_checkedByte (rest := readsThen s t a [k + 1] rest) ho h fun h => ?_
  rw [bind_assoc] at h
  exact errorsAs_checkedByte ho h hr

/-- The header that stands at `a`, whatever its MAGIC is (R141). -/
def headerAt (m : Memory) (a : Nat) : Gb7Header where
  version := m.read (a + 4)
  flags := m.read (a + 5)
  width := (m.read (a + 6)).toNat * 256 + (m.read (a + 7)).toNat
  height := (m.read (a + 8)).toNat * 256 + (m.read (a + 9)).toNat

/-- R151, R336: the checks of a decoder's header, up to GB7_RESERVED. -/
theorem errorsAs_readGb7Header {S L : Nat} {f : Gb7Header → Except CmdError Effect} {rest : Prop} (ho : s.orderly)
    (h : errorsAs s t (readGb7Header s S L >>= f)) (hr : errorsAs s t (f (headerAt s.mem S)) → rest) :
    let magic := fun (k : Nat) (expected : Byte) (rest : Prop) =>
      whenElse (L ≤ k) rest <| readsThen s t S [k] <|
      whenElse (s.mem.read (S + k) ≠ expected) (rejectedWith s t 0x10#8 0#32) rest
    let reserved := (s.mem.read (S + 10)).toNat * 256 + (s.mem.read (S + 11)).toNat
    magic 0 0x47#8 <| magic 1 0x42#8 <| magic 2 0x37#8 <| magic 3 0x1D#8 <|
      whenElse (L < 12) (rejectedWith s t 0x12#8 12#32) <|
      readsThen s t S [4, 5, 6, 7, 8, 9, 10, 11] <|
      whenElse (reserved ≠ 0) (rejectedWith s t 0x11#8 (BitVec.ofNat 32 reserved)) rest := by
  rw [readGb7Header, bind_assoc] at h
  refine errorsAs_checkMagic ho h fun h => errorsAs_checkMagic ho h fun h => errorsAs_checkMagic ho h fun h =>
    errorsAs_checkMagic ho h fun h => ?_
  rw [List.take_nil, checkMagic, ok_bind, bind_assoc] at h
  refine errorsAs_raiseIf decide_eq_true_iff h fun _ h => ?_
  rw [bind_assoc] at h
  refine errorsAs_checkedByte (rest := readsThen s t S [5, 6, 7, 8, 9, 10, 11] _) ho h fun h => ?_
  rw [bind_assoc] at h
  refine errorsAs_checkedByte (rest := readsThen s t S [6, 7, 8, 9, 10, 11] _) ho h fun h => ?_
  rw [bind_assoc] at h
  refine errorsAs_checkedBigEndian16 (rest := readsThen s t S [8, 9, 10, 11] _) ho h fun h => ?_
  rw [bind_assoc] at h
  refine errorsAs_checkedBigEndian16 (rest := readsThen s t S [10, 11] _) ho h fun h => ?_
  rw [bind_assoc] at h
  refine errorsAs_checkedBigEndian16 ho h fun h => ?_
  rw [bind_assoc] at h
  exact errorsAs_raiseIf bne_iff_ne h fun _ h => hr h

end

/-- Settles O42: both decoders run the same chain of checks, each with the length that it needs. -/
theorem decodeErrorsInOrder : Obligations.DecodeErrorsInOrder := by
  unfold Obligations.DecodeErrorsInOrder
  rintro s ho S L byte W H plane ⟨i, n⟩ hi
  have hdecodes : ∃ need firstReads reads pixel, Decodes i s need firstReads reads pixel ∧
      n = need (headerAt s.mem S) := by
    obtain h | h := List.mem_pair.mp hi
    · obtain ⟨rfl, rfl⟩ := Prod.mk.inj h
      exact ⟨_, _, _, _, decodes_gb7Dec s, rfl⟩
    · obtain ⟨rfl, rfl⟩ := Prod.mk.inj h
      exact ⟨_, _, _, _, decodes_gb7DecPlane s, rfl⟩
  obtain ⟨need, firstReads, reads, pixel, hd, rfl⟩ := hdecodes
  obtain ⟨t, hx, h⟩ := exec_errorsAs i ho
  rw [Command.outcome, hd.args, hd.body, gb7DecodeArgs, bind_assoc] at h
  refine ⟨t, hx, errorsAs_checkRange h fun _ h => ?_⟩
  rw [bind_assoc] at h
  exact errorsAs_checkRange h fun _ h => errorsAs_checkOverlap h fun _ h => errorsAs_readGb7Header ho h fun h =>
    errorsAs_raiseIf decide_eq_true_iff h fun _ h => errorsAs_raiseIf decide_eq_true_iff h fun _ h =>
    errorsAs_checkedReads h

/-! ## Well-formed streams (R151, R152) -/

section
variable {s : State} {i : Instr} {need : Gb7Header → Nat} {firstReads reads : Gb7Header → List Nat}
  {pixel : Gb7Header → Nat → Nat → Byte}

/-- A decoder whose checks pass and whose bytes respond writes the pixels of its stream, and nothing else. -/
theorem exec_decoder {h : Gb7Header} (ho : s.orderly) (hd : Decodes i s need firstReads reads pixel)
    (hbuf : checkedBuffers (s.arg 0) (s.arg 1) (s.arg 2) (s.arg 3))
    (hheader : readGb7Header s (s.arg 0) (s.arg 1) = .ok h) (hneed : need h ≤ s.arg 1)
    (hcap : h.width * h.height ≤ s.arg 3)
    (hfirst : ∀ a ∈ beforeFirstWrite (h.width * h.height) (firstReads h), s.responds a = true)
    (hreads : ∀ a ∈ reads h, s.responds a = true) (hdst : s.respondsOn (s.arg 2) (h.width * h.height)) :
    ∃ t, exec i s = .next t ∧ bufferCompleted s t h.result0 h.result1 (s.arg 2) (h.width * h.height) ∧
      ∀ x y, x < h.width → y < h.height → t.mem.read (grayAddress (s.arg 2) h.width x y) = pixel h x y := by
  have hbody : (commandOf i s).body = .ok { writeGray (s.arg 2) h.width h.height (pixel h) (reads h) with
      result0 := h.result0, result1 := h.result1 } := by
    rw [hd.body, decoderBody, hheader, ok_bind, decide_eq_false (by omega), raiseIf_false, ok_bind,
      decide_eq_false (by omega), raiseIf_false, ok_bind, checkedReads_ok hfirst, ok_bind]
  obtain ⟨t, hx, hdone, hmem⟩ :=
    exec_buffer ho (outcome_ok_iff.mpr ⟨hd.args.trans (bufferChecks_ok hbuf), hbody⟩) hreads hdst rfl rfl
  exact ⟨t, hx, hdone, fun x y hxW hyH => by rw [hmem]; exact read_writeGray (reads := reads h) hxW hyH⟩

end

/-- The responding gray plane of a responding stream (R147). -/
theorem respondsOn_grayPlane {s : State} {S n N : Nat} (h : s.respondsOn S N) (hn : 12 + n ≤ N) :
    s.respondsOn (S + 12) n := by
  intro k hk
  rw [Nat.add_assoc]
  exact h _ (by omega)

/-- Settles O35: a decoder that asks for the header and the pixels; the pixel is the byte, without bit 7 where hasMask is
clear. -/
theorem inlineDecodeWritesGrayBuffer : Obligations.InlineDecodeWritesGrayBuffer := by
  unfold Obligations.InlineDecodeWritesGrayBuffer
  intro s version flags W H ho hh hbuf hlen hcap hsrc hdst
  have hgray : s.respondsOn (s.arg 0 + 12) (W * H) := respondsOn_grayPlane hsrc le_rfl
  obtain ⟨t, hx, hdone, hpix⟩ := exec_decoder ho (decodes_gb7Dec s) hbuf
    (readGb7Header_ok ho hh (by omega) (by omega) hsrc) hlen hcap (responds_firstGrayRead hgray)
    (responds_grayReads hgray) hdst
  refine ⟨t, hx, hdone, fun x y hxW hyH => (hpix x y hxW hyH).trans ?_⟩
  have hbyte : s.gx (s.arg 0 + 12) W x y = s.mem.read (s.arg 0 + 12 + y * W + x) := byteAt_of_not_raced ho _
  rw [inlinePixel, hbyte]
  rfl

/-! ## The mask plane (R148, R152) -/

/-- Byte `j` of row `y` of the mask plane lies in the plane (R148). -/
theorem maskOffset_lt {W H y j : Nat} (hj : j < maskRowBytes W) (hy : y < H) :
    y * maskRowBytes W + j < H * maskRowBytes W := by
  rw [Nat.mul_comm H]
  exact gray_offset_lt hj hy

/-- Every column of a row has its byte in that row of the mask plane (R148). -/
theorem maskByte_lt {W x : Nat} (hx : x < W) : x / 8 < maskRowBytes W := by
  unfold maskRowBytes
  omega

/-- The bytes GB7_DEC_PLANE reads for a pixel respond where the stream does. -/
theorem responds_planePixelReads {s : State} {S x y : Nat} {h : Gb7Header}
    (hr : s.respondsOn S (12 + h.width * h.height + h.planeBytes)) (hx : x < h.width) (hy : y < h.height) :
    ∀ a ∈ planePixelReads S h x y, s.responds a = true := by
  intro a ha
  rw [planePixelReads, List.mem_cons] at ha
  obtain rfl | ha := ha
  · exact responds_grayAddress (respondsOn_grayPlane hr (Nat.le_add_right _ _)) hx hy
  · split at ha
    · next hmask =>
      obtain rfl := List.mem_singleton.mp ha
      rw [Gb7Header.planeBytes, if_pos hmask] at hr
      have := hr (12 + h.width * h.height + (y * maskRowBytes h.width + x / 8))
        (Nat.add_lt_add_left (maskOffset_lt (maskByte_lt hx) hy) _)
      rw [maskAddress]
      simpa only [Nat.add_assoc] using this
    · cases ha

/-- The opacity flag leaves bits 6:0 of a sample (R81). -/
theorem withOpacity_sample (b : Byte) (o : Bool) :
    (withOpacity (graySample b) o).extractLsb' 0 7 = b.extractLsb' 0 7 := by
  revert b o
  decide

/-- The opacity flag of a sample stands in bit 7 (R81). -/
theorem withOpacity_flag (b : Byte) (o : Bool) : (withOpacity (graySample b) o).getLsbD 7 = o := by
  revert b o
  decide

/-- The byte GB7_DEC_PLANE writes is the sample with the mask-plane bit, a clear bit where there is no plane. -/
theorem planePixel_eq (s : State) (h : Gb7Header) (x y : Nat) :
    planePixel s h x y = withOpacity (graySample (s.gx (s.arg 0 + 12) h.width x y))
      (h.hasMask && planeOpacity s (s.arg 0) h.width h.height x y) := by
  unfold planePixel
  cases h.hasMask
  · exact (BitVec.or_zero).symm
  · rfl

/-- Settles O36: a decoder that asks for the mask plane too where hasMask is set, and puts its bit over the sample. -/
theorem planeDecodeWritesGrayBuffer : Obligations.PlaneDecodeWritesGrayBuffer := by
  unfold Obligations.PlaneDecodeWritesGrayBuffer
  intro s version flags W H ho hh hbuf total hlen hcap hsrc hdst
  obtain ⟨t, hx, hdone, hpix⟩ := exec_decoder ho (decodes_gb7DecPlane s) hbuf
    (readGb7Header_ok ho hh (by omega) (by omega) hsrc) hlen hcap
    (fun a ha => by
      obtain ⟨hpos, hmem⟩ := mem_beforeFirstWrite.mp ha
      obtain ⟨hWpos, hHpos⟩ := CanonicallyOrderedAdd.mul_pos.mp hpos
      exact responds_planePixelReads hsrc hWpos hHpos a hmem)
    (fun a ha => by
      obtain ⟨⟨x, y⟩, hxy, hmem⟩ := List.mem_flatMap.mp ha
      obtain ⟨hxW, hyH⟩ := mem_rasterPositions.mp hxy
      exact responds_planePixelReads hsrc hxW hyH a hmem) hdst
  refine ⟨t, hx, hdone, fun x y hxW hyH => ?_⟩
  have hgray : s.gx (s.arg 0 + 12) W x y = s.mem.read (s.arg 0 + 12 + y * W + x) := byteAt_of_not_raced ho _
  have hmask : s.byteAt (maskAddress (s.arg 0) W H x y) =
      s.mem.read (s.arg 0 + 12 + W * H + y * ((W + 7) / 8) + x / 8) := byteAt_of_not_raced ho _
  have hbyte : t.mem.read (s.arg 2 + y * W + x) = withOpacity (graySample (s.mem.read (s.arg 0 + 12 + y * W + x)))
      (flags.getLsbD 0 &&
        (s.mem.read (s.arg 0 + 12 + W * H + y * ((W + 7) / 8) + x / 8)).getLsbD (7 - x % 8)) := by
    rw [← hgray, ← hmask]
    exact (hpix x y hxW hyH).trans (planePixel_eq s _ x y)
  rw [hbyte]
  exact ⟨withOpacity_sample _ _, withOpacity_flag _ _⟩

/-! ## Streams without a mask (R157) -/

/-- Where R89 was kept, a completion depends on the outcome of the command alone. -/
theorem complete_of_outcome_eq {c d : Command} {s : State} (ho : s.orderly) (h : c.outcome = d.outcome) :
    s.complete c = s.complete d := by
  rw [complete_orderly ho, complete_orderly ho, State.settle, State.settle, h]

/-- The FLAGS that the validation phase finds are the byte at offset 5 (R141). -/
theorem flags_of_readGb7Header {s : State} {S L : Nat} {h : Gb7Header} (hh : readGb7Header s S L = .ok h) :
    h.flags = s.byteAt (S + 5) := by
  simp only [readGb7Header, bind_ok_iff, checkedByte_ok_iff, Except.ok.injEq] at hh
  obtain ⟨_, -, _, -, version, -, flags, ⟨-, hflags⟩, width, -, height, -, reserved, -, _, -, rfl⟩ := hh
  exact hflags

/-- Settles O41: without a mask the decoders ask for the same length, read the same bytes and write the same pixels, so
that their validation phases have the same outcome. -/
theorem decodersAgreeWithoutMask : Obligations.DecodersAgreeWithoutMask := by
  unfold Obligations.DecodersAgreeWithoutMask
  intro s ho hclear
  rw [exec_eq, exec_eq]
  refine congrArg _ (complete_of_outcome_eq ho ?_)
  rw [Command.outcome, Command.outcome, (decodes_gb7Dec s).args, (decodes_gb7DecPlane s).args,
    (decodes_gb7Dec s).body, (decodes_gb7DecPlane s).body, decoderBody, decoderBody]
  cases hh : readGb7Header s (s.arg 0) (s.arg 1) with
  | error e => rfl
  | ok h =>
    have hmask : h.hasMask = false := by
      rw [Gb7Header.hasMask, flags_of_readGb7Header hh, byteAt_of_not_raced ho, hclear]
    have hplane : h.planeBytes = 0 := by rw [Gb7Header.planeBytes, hmask]; rfl
    have hreads (x y : Nat) : planePixelReads (s.arg 0) h x y = [grayAddress (s.arg 0 + 12) h.width x y] := by
      rw [planePixelReads, hmask]
      rfl
    have hpixel : planePixel s h = inlinePixel s h := by
      funext x y
      rw [planePixel, inlinePixel, hmask]
      rfl
    simp only [hplane, hreads, hpixel, ok_bind, Nat.add_zero, List.map_eq_flatMap]

end Sys2Proof.Machine
end

section
/-! SUPPORT. The two GB7 encoders (R153, R154) as one validation phase, which differs in the length of the stream and in
the bytes past the header: the errors in order, the alpha scan, the stream written on success, and its decoding (R157). -/

namespace Sys2Proof.Machine

/-! ## The validation phase of an encoder (R153, R154) -/

/-- An encoder's rule past its register checks: `length` is the length of the stream and `byte` its bytes, by `hasAlpha`. -/
def encoderBody (s : State) (fm : Bool) (length : Bool → Nat) (byte : Bool → Nat → Byte) : Except CmdError Effect := do
  let hasAlpha ← encoderHasAlpha s fm (s.arg 0) (s.arg 1) (s.arg 2)
  raiseIf (decide (s.arg 4 < length hasAlpha)) (.dstSmall (length hasAlpha))
  .ok (encoderEffect (s.arg 3) (length hasAlpha) hasAlpha (byte hasAlpha)
    (encoderReads (s.arg 0) (s.arg 1) (s.arg 2) hasAlpha))

/-- An instruction whose command is an encoder. -/
structure Encodes (i : Instr) (s : State) (fm : Bool) (length : Bool → Nat) (byte : Bool → Nat → Byte) : Prop where
  args : (commandOf i s).args =
    gb7EncodeArgs (s.arg 1) (s.arg 2) (pixelRegion (s.arg 0) (s.arg 1) (s.arg 2)) ⟨s.arg 3, s.arg 4⟩
  body : (commandOf i s).body = encoderBody s fm length byte

/-- Byte `k` of the stream that GB7_ENC writes (R153). -/
def planeStreamByte (s : State) (hasAlpha : Bool) (k : Nat) : Byte :=
  if k < 12 then (gb7HeaderBytes hasAlpha (s.arg 1) (s.arg 2)).getD k 0#8
  else if k < 12 + s.arg 1 * s.arg 2 then
    pixelGray s (s.arg 0) (s.arg 1) (grayColumn (s.arg 1) (k - 12)) (grayRow (s.arg 1) (k - 12))
  else
    let q := k - 12 - s.arg 1 * s.arg 2
    maskPlaneByte s (s.arg 0) (s.arg 1) (q / maskRowBytes (s.arg 1)) (q % maskRowBytes (s.arg 1))

/-- Byte `k` of the stream that GB7_ENC_INLINE writes (R154). -/
def inlineStreamByte (s : State) (hasAlpha : Bool) (k : Nat) : Byte :=
  if k < 12 then (gb7HeaderBytes hasAlpha (s.arg 1) (s.arg 2)).getD k 0#8
  else
    let x := grayColumn (s.arg 1) (k - 12)
    let y := grayRow (s.arg 1) (k - 12)
    withOpacity (pixelGray s (s.arg 0) (s.arg 1) x y) (hasAlpha && pixelMaskBit s (s.arg 0) (s.arg 1) x y)

theorem encodes_gb7Enc (s : State) (fm : Bool) :
    Encodes (.gb7Enc fm) s fm (planeStreamLength (s.arg 1) (s.arg 2)) (planeStreamByte s) := ⟨rfl, rfl⟩

theorem encodes_gb7EncInline (s : State) (fm : Bool) :
    Encodes (.gb7EncInline fm) s fm (fun _ => 12 + s.arg 1 * s.arg 2) (inlineStreamByte s) := ⟨rfl, rfl⟩

section
variable {s t : State} {i : Instr} {fm hasAlpha : Bool} {length : Bool → Nat} {byte : Bool → Nat → Byte}

/-! ## The errors in order (R336) -/

/-- The link of the alpha scan: without FM, the byte that it meets and that does not respond (R153, R335). -/
theorem errorsAs_encoderHasAlpha {S W H : Nat} {f : Bool → Except CmdError Effect} {rest : Prop} (ho : s.orderly)
    (ha : streamHasAlpha s.mem fm S W H hasAlpha) (h : errorsAs s t (encoderHasAlpha s fm S W H >>= f))
    (hr : errorsAs s t (f hasAlpha) → rest) :
    whenElse (fm = false ∧ ∃ q, alphaScanFailsAt s S (W * H) q)
      (∃ q, alphaScanFailsAt s S (W * H) q ∧ rejectedWith s t 0x09#8 (BitVec.ofNat 32 (S + 4 * q + 3))) rest := by
  obtain ⟨q, hfm, hq, hscan⟩ | ⟨hnone, hscan⟩ := encoderHasAlpha_cases ho ha
  · rw [hscan] at h
    exact whenElse_yes ⟨hfm, q, hq⟩ ⟨q, hq, h.1 _ rfl⟩
  · rw [hscan, ok_bind] at h
    refine whenElse_no ?_ (hr h)
    rintro ⟨rfl, q, hq⟩
    exact hnone.elim Bool.noConfusion fun hnone => hnone q hq

/-- R153, R336: the chain of errors of an encoder, by the length of its stream. -/
theorem exec_encoder_errors (ho : s.orderly) (he : Encodes i s fm length byte)
    (ha : streamHasAlpha s.mem fm (s.arg 0) (s.arg 1) (s.arg 2) hasAlpha) :
    ∃ t, exec i s = .next t ∧ (
      whenElse (65535 < s.arg 1 ∨ 65535 < s.arg 2) (rejectedWith s t 0x03#8 0#32) <|
      whenElse (¬ inDataSpace (s.arg 0) (4 * s.arg 1 * s.arg 2)) (rejectedWith s t 0x04#8 0#32) <|
      whenElse (¬ inDataSpace (s.arg 3) (s.arg 4)) (rejectedWith s t 0x04#8 1#32) <|
      whenElse (¬ disjointRegions (s.arg 0) (4 * s.arg 1 * s.arg 2) (s.arg 3) (s.arg 4))
        (rejectedWith s t 0x05#8 0#32) <|
      whenElse (fm = false ∧ ∃ q, alphaScanFailsAt s (s.arg 0) (s.arg 1 * s.arg 2) q)
        (∃ q, alphaScanFailsAt s (s.arg 0) (s.arg 1 * s.arg 2) q ∧
          rejectedWith s t 0x09#8 (BitVec.ofNat 32 (s.arg 0 + 4 * q + 3))) <|
      whenElse (s.arg 4 < length hasAlpha)
        (rejectedWith s t 0x08#8 (BitVec.ofNat 32 (min (length hasAlpha) 0xFFFFFFFF)))
        (t.err = true → t.errcode = 0x09#8)) := by
  obtain ⟨t, hx, h⟩ := exec_errorsAs i ho
  rw [Command.outcome, he.args, he.body, gb7EncodeArgs, bind_assoc] at h
  refine ⟨t, hx, errorsAs_raiseIf (by simp) h fun _ h => ?_⟩
  rw [bind_assoc] at h
  refine errorsAs_checkRange h fun _ h => ?_
  rw [bind_assoc] at h
  exact errorsAs_checkRange h fun _ h => errorsAs_checkOverlap h fun _ h => errorsAs_encoderHasAlpha ho ha h fun h =>
    errorsAs_raiseIf decide_eq_true_iff h fun _ h => h.2 _ rfl

/-! ## The data phase -/

/-- Past its register checks an encoder ends as the rest of its rule says (R153). -/
theorem encoder_outcome (he : Encodes i s fm length byte) (hW : s.arg 1 ≤ 65535) (hH : s.arg 2 ≤ 65535)
    (hbuf : checkedBuffers (s.arg 0) (4 * s.arg 1 * s.arg 2) (s.arg 3) (s.arg 4)) :
    (commandOf i s).outcome = encoderBody s fm length byte := by
  rw [Command.outcome, he.args, gb7EncodeArgs_passes hW hH hbuf, ok_bind, he.body]

/-- Past the alpha scan only the capacity is left to check: where it holds the stream, the data phase follows (R153). -/
theorem encoderBody_fits (ha : encoderHasAlpha s fm (s.arg 0) (s.arg 1) (s.arg 2) = .ok hasAlpha)
    (hcap : length hasAlpha ≤ s.arg 4) :
    encoderBody s fm length byte = .ok (encoderEffect (s.arg 3) (length hasAlpha) hasAlpha (byte hasAlpha)
      (encoderReads (s.arg 0) (s.arg 1) (s.arg 2) hasAlpha)) := by
  rw [encoderBody, ha, ok_bind, decide_eq_false (by omega), raiseIf_false, ok_bind]

/-- A capacity below the stream length is DST_SMALL with that length (R153, R335). -/
theorem encoderBody_small (ha : encoderHasAlpha s fm (s.arg 0) (s.arg 1) (s.arg 2) = .ok hasAlpha)
    (hcap : s.arg 4 < length hasAlpha) :
    encoderBody s fm length byte = .error (.dstSmall (length hasAlpha)) := by
  rw [encoderBody, ha, ok_bind, decide_eq_true hcap, raiseIf_true, error_bind]

/-- On success an encoder fills the destination with its stream, and changes nothing else (R153, R154). -/
theorem exec_encoder (ho : s.orderly) (he : Encodes i s fm length byte) (hW : s.arg 1 ≤ 65535) (hH : s.arg 2 ≤ 65535)
    (ha : streamHasAlpha s.mem fm (s.arg 0) (s.arg 1) (s.arg 2) hasAlpha)
    (hbuf : checkedBuffers (s.arg 0) (4 * s.arg 1 * s.arg 2) (s.arg 3) (s.arg 4)) (hcap : length hasAlpha ≤ s.arg 4)
    (hsrc : s.respondsOn (s.arg 0) (4 * s.arg 1 * s.arg 2)) (hdst : s.respondsOn (s.arg 3) (length hasAlpha)) :
    ∃ t, exec i s = .next t ∧
      bufferCompleted s t (BitVec.ofNat 32 (length hasAlpha)) (if hasAlpha then 1#32 else 0#32) (s.arg 3)
        (length hasAlpha) ∧
      t.mem = s.mem.fill (s.arg 3) (length hasAlpha) (byte hasAlpha) :=
  exec_buffer ho ((encoder_outcome he hW hH hbuf).trans
    (encoderBody_fits (encoderHasAlpha_ok ho (.inr (not_alphaScanFailsAt hsrc)) ha) hcap))
    (responds_encoderReads hsrc) hdst rfl rfl

end

/-- Settles O43: both encoders run the same chain of checks, each with the length of its stream. -/
theorem encodeErrorsInOrder : Obligations.EncodeErrorsInOrder := by
  unfold Obligations.EncodeErrorsInOrder
  intro s fm hasAlpha ho ha plane p hp
  obtain rfl | rfl := List.mem_pair.mp hp
  · exact exec_encoder_errors ho (encodes_gb7Enc s fm) ha
  · exact exec_encoder_errors ho (encodes_gb7EncInline s fm) ha

/-! ## The alpha scan (R153) -/

section
variable {s : State} {S n p : Nat}

/-- The alpha scan fails at most at one pixel. -/
theorem alphaScanFailsAt_unique {q : Nat} (hp : alphaScanFailsAt s S n p) (hq : alphaScanFailsAt s S n q) : p = q := by
  obtain ⟨-, hpr, hpb⟩ := hp
  obtain ⟨-, hqr, hqb⟩ := hq
  obtain h | h | h := Nat.lt_trichotomy p q
  · rw [(hqb p h).1] at hpr
    cases hpr
  · exact h
  · rw [(hpb q h).1] at hqr
    cases hqr

/-- Past a responding alpha below 255 the scan reads nothing, so that it does not fail (R153). -/
theorem not_alphaScanFailsAt_of_transparent
    (hbefore : ∀ q, q < p → s.responds (S + 4 * q + 3) = true ∧ s.mem.read (S + 4 * q + 3) = 255#8)
    (hr : s.responds (S + 4 * p + 3) = true) (hlow : (s.mem.read (S + 4 * p + 3)).toNat < 255) (q : Nat) :
    ¬ alphaScanFailsAt s S n q := by
  rintro ⟨-, hqr, hqb⟩
  obtain h | h | h := Nat.lt_trichotomy q p
  · rw [(hbefore q h).1] at hqr
    cases hqr
  · rw [h, hr] at hqr
    cases hqr
  · rw [(hqb p h).2] at hlow
    exact absurd hlow (by decide)

end

/-- The stream of a buffer with alpha below 255 at pixel `p` has alpha (R153). -/
theorem streamHasAlpha_of_transparent {m : Memory} {S W H p : Nat} (hp : p < W * H)
    (hlow : (m.read (S + 4 * p + 3)).toNat < 255) (fm : Bool) : streamHasAlpha m fm S W H true := by
  obtain ⟨x, y, hx, hy, rfl⟩ := exists_position hp
  exact iff_of_true rfl (.inr ⟨x, y, hx, hy, hlow⟩)

/-- With the mask written, an encoder reads every byte of its source (R153, R154). -/
theorem mem_encoderReads_mask {S W H a : Nat} : a ∈ encoderReads S W H true ↔ S ≤ a ∧ a < S + 4 * W * H := by
  have hchannel (c : Nat) : (c < 3 ∨ (c = 3 ∧ True)) ↔ c < 4 := by
    rw [and_true]
    omega
  simp only [mem_encoderReads, hchannel, within_pixelRegion]

section
variable {s : State} {i : Instr} {length : Bool → Nat} {byte : Bool → Nat → Byte} {p : Nat}

/-- A failing alpha byte that the scan meets is the error of the encoder (R335). -/
theorem exec_encoder_scan_fails (ho : s.orderly) (he : Encodes i s false length byte) (hW : s.arg 1 ≤ 65535)
    (hH : s.arg 2 ≤ 65535) (hbuf : checkedBuffers (s.arg 0) (4 * s.arg 1 * s.arg 2) (s.arg 3) (s.arg 4))
    (hp : alphaScanFailsAt s (s.arg 0) (s.arg 1 * s.arg 2) p) :
    ∃ t, exec i s = .next t ∧ rejectedWith s t 0x09#8 (BitVec.ofNat 32 (s.arg 0 + 4 * p + 3)) := by
  classical
  have ha : streamHasAlpha s.mem false (s.arg 0) (s.arg 1) (s.arg 2)
      (decide (false = true ∨ someTransparency s.mem (s.arg 0) (s.arg 1) (s.arg 2))) := decide_eq_true_iff
  obtain ⟨q, -, hq, hscan⟩ | ⟨hnone, -⟩ := encoderHasAlpha_cases ho ha
  · obtain rfl := alphaScanFailsAt_unique hp hq
    refine exec_rejects (e := .busError (s.arg 0 + 4 * p + 3)) ho ?_
    rw [encoder_outcome he hW hH hbuf, encoderBody, hscan, error_bind]
  · exact (hnone.elim Bool.noConfusion fun hnone => hnone p hp).elim

/-- Once the scan has found a transparent pixel, the capacity decides between DST_SMALL and the data phase, which reads
every source byte (R153, R333). -/
theorem exec_encoder_scan_stops (ho : s.orderly) (he : Encodes i s false length byte) (hW : s.arg 1 ≤ 65535)
    (hH : s.arg 2 ≤ 65535) (hbuf : checkedBuffers (s.arg 0) (4 * s.arg 1 * s.arg 2) (s.arg 3) (s.arg 4))
    (ha : encoderHasAlpha s false (s.arg 0) (s.arg 1) (s.arg 2) = .ok true) :
    ∃ t, exec i s = .next t ∧
      (s.arg 4 < length true → rejectedWith s t 0x08#8 (BitVec.ofNat 32 (min (length true) 0xFFFFFFFF))) ∧
      (length true ≤ s.arg 4 → endsAsAccessesRespond s t
        (fun a => (s.arg 0 ≤ a ∧ a < s.arg 0 + 4 * s.arg 1 * s.arg 2) ∨ (s.arg 3 ≤ a ∧ a < s.arg 3 + length true))
        (s.arg 3) (length true)) := by
  have hout := encoder_outcome he hW hH hbuf
  obtain hsmall | hfits := Nat.lt_or_ge (s.arg 4) (length true)
  · obtain ⟨t, hx, hrej⟩ := exec_rejects ho (hout.trans (encoderBody_small ha hsmall))
    exact ⟨t, hx, fun _ => hrej, fun h => absurd hsmall (Nat.not_lt.mpr h)⟩
  · obtain ⟨t, hx, hend⟩ := exec_accesses ho (hout.trans (encoderBody_fits ha hfits))
      (fun a ha => .inl (mem_encoderReads_mask.mp ha)) (fun a => mem_encoderReads_mask.mpr)
    exact ⟨t, hx, fun h => absurd hfits (Nat.not_le.mpr h), fun _ => hend⟩

/-- Both ways that the scan can end at pixel `p`, where every pixel before it has a responding alpha byte of 255. -/
theorem exec_encoder_scan (ho : s.orderly) (he : Encodes i s false length byte) (hW : s.arg 1 ≤ 65535)
    (hH : s.arg 2 ≤ 65535) (hbuf : checkedBuffers (s.arg 0) (4 * s.arg 1 * s.arg 2) (s.arg 3) (s.arg 4))
    (hp : p < s.arg 1 * s.arg 2)
    (hbefore : ∀ q, q < p → s.responds (s.arg 0 + 4 * q + 3) = true ∧ s.mem.read (s.arg 0 + 4 * q + 3) = 255#8) :
    ∃ t, exec i s = .next t ∧
      (s.responds (s.arg 0 + 4 * p + 3) = false →
        rejectedWith s t 0x09#8 (BitVec.ofNat 32 (s.arg 0 + 4 * p + 3))) ∧
      (s.responds (s.arg 0 + 4 * p + 3) = true → (s.mem.read (s.arg 0 + 4 * p + 3)).toNat < 255 →
        (s.arg 4 < length true → rejectedWith s t 0x08#8 (BitVec.ofNat 32 (min (length true) 0xFFFFFFFF))) ∧
        (length true ≤ s.arg 4 → endsAsAccessesRespond s t
          (fun a => (s.arg 0 ≤ a ∧ a < s.arg 0 + 4 * s.arg 1 * s.arg 2) ∨ (s.arg 3 ≤ a ∧ a < s.arg 3 + length true))
          (s.arg 3) (length true))) := by
  cases hr : s.responds (s.arg 0 + 4 * p + 3) with
  | false =>
    obtain ⟨t, hx, hrej⟩ := exec_encoder_scan_fails ho he hW hH hbuf ⟨hp, hr, hbefore⟩
    exact ⟨t, hx, fun _ => hrej, fun h => nomatch h⟩
  | true =>
    by_cases hlow : (s.mem.read (s.arg 0 + 4 * p + 3)).toNat < 255
    · have hscan := encoderHasAlpha_ok ho (.inr (not_alphaScanFailsAt_of_transparent hbefore hr hlow))
        (streamHasAlpha_of_transparent hp hlow false)
      obtain ⟨t, hx, hend⟩ := exec_encoder_scan_stops ho he hW hH hbuf hscan
      exact ⟨t, hx, fun h => (nomatch h), fun _ _ => hend⟩
    · exact ⟨_, exec_eq i s, fun h => (nomatch h), fun _ h => absurd h hlow⟩

end

/-- Settles O44: the scan of both encoders (`exec_encoder_scan`), with the length of a stream with a mask. -/
theorem alphaScanReportsFirstFailingByte : Obligations.AlphaScanReportsFirstFailingByte := by
  unfold Obligations.AlphaScanReportsFirstFailingByte
  intro s p ho hW hH hbuf hp hbefore e he
  obtain rfl | rfl := List.mem_pair.mp he
  · exact exec_encoder_scan ho (encodes_gb7Enc s false) hW hH hbuf hp hbefore
  · exact exec_encoder_scan ho (encodes_gb7EncInline s false) hW hH hbuf hp hbefore

/-! ## The streams written (R147 to R150) -/

/-- The gray value of a pixel, from the bytes in memory. -/
theorem pixelGray_of_orderly {s : State} (ho : s.orderly) (S W x y : Nat) : pixelGray s S W x y =
    gray7 (s.mem.read (pixelAddress S W x y 0)) (s.mem.read (pixelAddress S W x y 1))
      (s.mem.read (pixelAddress S W x y 2)) := by
  simp only [pixelGray, State.px, byteAt_of_not_raced ho]

/-- The mask bit of a pixel, from its alpha byte and the low byte of ARG5 (R106, R150). -/
theorem pixelMaskBit_of_orderly {s : State} (ho : s.orderly) (S W x y : Nat) : pixelMaskBit s S W x y =
    decide ((s.args[5]).toNat % 256 ≤ (s.mem.read (pixelAddress S W x y 3)).toNat) := by
  rw [pixelMaskBit, maskBit, threshold_eq_mod, State.px, byteAt_of_not_raced ho]

theorem graySample_mod (b : Byte) : (graySample b).toNat % 128 = b.toNat % 128 := by
  rw [graySample_toNat, Nat.mod_mod]

/-- A gray sample has no opacity flag. -/
theorem graySample_flag (b : Byte) : (graySample b).getLsbD 7 = false := by
  rw [graySample, BitVec.getLsbD_and]
  exact Bool.and_false _

/-- A 7-bit value is its own gray sample (R81). -/
theorem graySample_of_lt {b : Byte} (h : b.toNat < 128) : graySample b = b :=
  BitVec.eq_of_toNat_eq (by rw [graySample_toNat, Nat.mod_eq_of_lt h])

/-- A 7-bit value under an opacity flag stays in bits 6:0. -/
theorem withOpacity_toNat_mod {b : Byte} (h : b.toNat < 128) (o : Bool) :
    (withOpacity b o).toNat % 128 = b.toNat := by
  have hbits := congrArg BitVec.toNat (withOpacity_sample b o)
  rw [graySample_of_lt h, BitVec.extractLsb'_toNat, BitVec.extractLsb'_toNat] at hbits
  exact hbits.trans (Nat.mod_eq_of_lt h)

/-- The flag stands in bit 7. -/
theorem withOpacity_flag_of_lt {b : Byte} (h : b.toNat < 128) (o : Bool) : (withOpacity b o).getLsbD 7 = o := by
  rw [← graySample_of_lt h, withOpacity_flag]

section
variable {s : State} {m : Memory} {hasAlpha : Bool} {x y : Nat}

theorem planeStreamByte_header {k : Nat} (h : k < 12) :
    planeStreamByte s hasAlpha k = (gb7HeaderBytes hasAlpha (s.arg 1) (s.arg 2)).getD k 0#8 := if_pos h

theorem inlineStreamByte_header {k : Nat} (h : k < 12) :
    inlineStreamByte s hasAlpha k = (gb7HeaderBytes hasAlpha (s.arg 1) (s.arg 2)).getD k 0#8 := if_pos h

theorem planeStreamByte_gray (hx : x < s.arg 1) (hy : y < s.arg 2) :
    planeStreamByte s hasAlpha (12 + (y * s.arg 1 + x)) = pixelGray s (s.arg 0) (s.arg 1) x y := by
  obtain ⟨hcol, hrow⟩ := gray_index (y := y) hx
  have hlt := gray_offset_lt hx hy
  rw [planeStreamByte, if_neg (by omega), if_pos (by omega), Nat.add_sub_cancel_left, hcol, hrow]

theorem inlineStreamByte_pixel (hx : x < s.arg 1) :
    inlineStreamByte s hasAlpha (12 + (y * s.arg 1 + x)) =
      withOpacity (pixelGray s (s.arg 0) (s.arg 1) x y) (hasAlpha && pixelMaskBit s (s.arg 0) (s.arg 1) x y) := by
  obtain ⟨hcol, hrow⟩ := gray_index (y := y) hx
  rw [inlineStreamByte, if_neg (by omega), Nat.add_sub_cancel_left, hcol, hrow]

theorem planeStreamByte_mask {j : Nat} (hj : j < maskRowBytes (s.arg 1)) :
    planeStreamByte s hasAlpha (12 + s.arg 1 * s.arg 2 + (y * maskRowBytes (s.arg 1) + j)) =
      maskPlaneByte s (s.arg 0) (s.arg 1) y j := by
  obtain ⟨hcol, hrow⟩ := gray_index (y := y) hj
  rw [planeStreamByte, if_neg (by omega), if_neg (by omega), Nat.sub_sub, Nat.add_sub_cancel_left]
  exact congrArg₂ (maskPlaneByte s (s.arg 0) (s.arg 1)) hrow hcol

/-- R148: column `x` of a row of the mask plane is bit `7 - x % 8` of its byte `x / 8`, and padding is 0. -/
theorem maskPlaneByte_bit (S W : Nat) :
    (maskPlaneByte s S W y (x / 8)).getLsbD (7 - x % 8) = (decide (x < W) && pixelMaskBit s S W x y) := by
  have hbit := getLsbD_maskByte (fun k => decide (8 * (x / 8) + k < W))
    (fun k => pixelMaskBit s S W (8 * (x / 8) + k) y) (x % 8) (Nat.mod_lt _ (by decide))
  simp only [decide_eq_true_eq, Nat.div_add_mod] at hbit
  exact hbit

/-- The stream of GB7_ENC_INLINE in memory (R154). -/
theorem inlineStream_written (ho : s.orderly) (hW : s.arg 1 ≤ 65535) (hH : s.arg 2 ≤ 65535)
    (hm : m = s.mem.fill (s.arg 3) (12 + s.arg 1 * s.arg 2) (inlineStreamByte s hasAlpha)) :
    Gb7HeaderAt m (s.arg 3) 0x01#8 (if hasAlpha then 1#8 else 0#8) (s.arg 1) (s.arg 2) ∧
    ∀ x y, x < s.arg 1 → y < s.arg 2 →
      (m.read (s.arg 3 + 12 + y * s.arg 1 + x)).toNat % 128 =
        (gray7 (s.mem.read (pixelAddress (s.arg 0) (s.arg 1) x y 0))
          (s.mem.read (pixelAddress (s.arg 0) (s.arg 1) x y 1))
          (s.mem.read (pixelAddress (s.arg 0) (s.arg 1) x y 2))).toNat ∧
      (m.read (s.arg 3 + 12 + y * s.arg 1 + x)).getLsbD 7 =
        (hasAlpha &&
          decide ((s.args[5]).toNat % 256 ≤ (s.mem.read (pixelAddress (s.arg 0) (s.arg 1) x y 3)).toNat)) := by
  refine ⟨gb7HeaderAt_fill hW hH (Nat.le_add_right _ _) hm fun k => inlineStreamByte_header, fun x y hx hy => ?_⟩
  have hread : m.read (s.arg 3 + 12 + y * s.arg 1 + x) =
      withOpacity (pixelGray s (s.arg 0) (s.arg 1) x y) (hasAlpha && pixelMaskBit s (s.arg 0) (s.arg 1) x y) := by
    rw [show s.arg 3 + 12 + y * s.arg 1 + x = s.arg 3 + (12 + (y * s.arg 1 + x)) by omega, hm,
      read_fill_inside (Nat.add_lt_add_left (gray_offset_lt hx hy) _), inlineStreamByte_pixel hx]
  rw [hread, pixelGray_of_orderly ho, pixelMaskBit_of_orderly ho]
  exact ⟨withOpacity_toNat_mod (gray7_lt _ _ _) _, withOpacity_flag_of_lt (gray7_lt _ _ _) _⟩

end

/-- Settles O38: on success the destination holds the stream of `inlineStream_written`. -/
theorem inlineEncodeWritesStream : Obligations.InlineEncodeWritesStream := by
  unfold Obligations.InlineEncodeWritesStream
  intro s fm hasAlpha ho hW hH W H ha hbuf hcap hsrc hdst
  obtain ⟨t, hx, hdone, hmem⟩ := exec_encoder ho (encodes_gb7EncInline s fm) hW hH ha hbuf hcap hsrc hdst
  exact ⟨t, hx, hdone, inlineStream_written ho hW hH hmem⟩

/-- Settles O37: on success the destination holds the header, the gray plane and the mask plane, byte by byte. -/
theorem encodeWritesStreamWithMaskPlane : Obligations.EncodeWritesStreamWithMaskPlane := by
  unfold Obligations.EncodeWritesStreamWithMaskPlane
  intro s fm hasAlpha ho hW hH W H total ha hbuf hcap hsrc hdst
  obtain ⟨t, hx, hdone, hmem⟩ := exec_encoder ho (encodes_gb7Enc s fm) hW hH ha hbuf hcap hsrc hdst
  have hread {k : Nat} (hk : k < total) : t.mem.read (s.arg 3 + k) = planeStreamByte s hasAlpha k := by
    rw [hmem]
    exact read_fill_inside hk
  refine ⟨t, hx, hdone, gb7HeaderAt_fill hW hH (by unfold planeStreamLength; omega) hmem fun k =>
    planeStreamByte_header, fun x y hxW hyH => ?_, ?_⟩
  · have hlt := gray_offset_lt hxW hyH
    rw [show s.arg 3 + 12 + y * W + x = s.arg 3 + (12 + (y * W + x)) by omega, hread (by omega),
      planeStreamByte_gray hxW hyH, pixelGray_of_orderly ho]
  · rintro rfl x y hxW hyH
    have hcol : x / 8 < maskRowBytes W := Nat.div_lt_of_lt_mul hxW
    have hlt : 12 + W * H + (y * maskRowBytes W + x / 8) < total :=
      Nat.add_lt_add_left (maskOffset_lt hcol hyH) _
    have haddr : s.arg 3 + 12 + W * H + y * ((W + 7) / 8) + x / 8 =
        s.arg 3 + (12 + W * H + (y * maskRowBytes W + x / 8)) := by
      unfold maskRowBytes
      omega
    rw [haddr, hread hlt, planeStreamByte_mask hcol, maskPlaneByte_bit, pixelMaskBit_of_orderly ho]

/-! ## Decoding what was encoded (R157) -/

/-- An encoder that ended with DONE passed its checks, and the destination, which responded, holds the stream. -/
theorem encoder_done {s t : State} {i : Instr} {fm : Bool} {length : Bool → Nat} {byte : Bool → Nat → Byte}
    (ho : s.orderly) (he : Encodes i s fm length byte) (hx : exec i s = .next t) (hd : t.done = true) :
    ∃ hasAlpha, s.arg 1 ≤ 65535 ∧ s.arg 2 ≤ 65535 ∧ length hasAlpha ≤ s.arg 4 ∧
      s.respondsOn (s.arg 3) (length hasAlpha) ∧ t.mem = s.mem.fill (s.arg 3) (length hasAlpha) (byte hasAlpha) ∧
      t.result0 = BitVec.ofNat 32 (length hasAlpha) ∧ t.result1 = if hasAlpha then 1#32 else 0#32 := by
  obtain ⟨e, hout, hfail, hmem, hresult0, hresult1⟩ := exec_done_fills ho hx hd
  obtain ⟨hargs, hbody⟩ := outcome_ok_iff.mp hout
  rw [he.args, gb7EncodeArgs, bind_ok_iff] at hargs
  obtain ⟨_, hdims, -⟩ := hargs
  rw [raiseIf_ok_iff, Bool.or_eq_false_iff, decide_eq_false_iff_not, decide_eq_false_iff_not] at hdims
  rw [he.body, encoderBody, bind_ok_iff] at hbody
  obtain ⟨hasAlpha, -, hbody⟩ := hbody
  rw [bind_ok_iff] at hbody
  obtain ⟨_, hcap, heffect⟩ := hbody
  rw [raiseIf_ok_iff, decide_eq_false_iff_not] at hcap
  cases heffect
  obtain ⟨-, hdst⟩ := failing_nil_iff.mp hfail
  exact ⟨hasAlpha, Nat.not_lt.mp hdims.1, Nat.not_lt.mp hdims.2, Nat.not_lt.mp hcap, hdst, hmem, hresult0, hresult1⟩

/-- A header is where its bytes are. -/
theorem gb7HeaderAt_of_reads {m n : Memory} {a : Nat} {version flags : Byte} {W H : Nat}
    (hreads : ∀ a, n.read a = m.read a) (h : Gb7HeaderAt m a version flags W H) :
    Gb7HeaderAt n a version flags W H := by
  obtain ⟨hmagic, hversion, hflags, hwidth, hheight, hreserved⟩ := h
  simp only [← hreads] at hmagic hversion hflags hwidth hheight hreserved
  exact ⟨hmagic, hversion, hflags, hwidth, hheight, hreserved⟩

/-- Settles O40: the stream that the encoder left (`encoder_done`, `inlineStream_written`) is well formed, so that GB7_DEC
decodes it (`inlineDecodeWritesGrayBuffer`). -/
theorem decodeReadsBackInlineEncode : Obligations.DecodeReadsBackInlineEncode := by
  unfold Obligations.DecodeReadsBackInlineEncode
  intro s t u fm ho hx hd hu hreads hplatform hsource hlength hbuf hcap hdst
  obtain ⟨hasAlpha, hW, hH, hfits, hresponds, hmem, hresult0, hresult1⟩ :=
    encoder_done ho (encodes_gb7EncInline s fm) hx hd
  obtain ⟨hheader, hpixels⟩ := inlineStream_written ho hW hH hmem
  have hlength : u.arg 1 = 12 + s.arg 1 * s.arg 2 := by
    have hword : s.arg 4 < 2 ^ 32 := (s.args[4]).isLt
    rw [hlength, hresult0, BitVec.toNat_ofNat, Nat.mod_eq_of_lt (by omega)]
  have hstream : u.respondsOn (u.arg 0) (12 + s.arg 1 * s.arg 2) := by
    intro k hk
    rw [State.responds, hplatform, hsource]
    exact hresponds k hk
  rw [← hsource] at hheader hpixels
  obtain ⟨v, hv, ⟨⟨hdone, -, -, -, hres, -⟩, -⟩, hpix⟩ := inlineDecodeWritesGrayBuffer u _ _ _ _ hu
    (gb7HeaderAt_of_reads hreads hheader) hbuf hlength.ge hcap hstream hdst
  refine ⟨v, hv, hdone, hres, fun x y hxW hyH => ?_⟩
  obtain ⟨hgray, hmask⟩ := hpixels x y hxW hyH
  have hbyte := hpix x y hxW hyH
  rw [hreads] at hbyte
  have hflag : (if hasAlpha then 1#8 else 0#8 : Byte).getLsbD 0 = hasAlpha := by cases hasAlpha <;> rfl
  have hbit : t.result1.getLsbD 0 = hasAlpha := by rw [hresult1]; cases hasAlpha <;> rfl
  rw [hflag] at hbyte
  rw [grayAddress, hbyte, hbit]
  cases hasAlpha with
  | true => exact ⟨hgray, hmask⟩
  | false => exact ⟨(graySample_mod _).trans hgray, graySample_flag _⟩

end Sys2Proof.Machine
end

section
/-! SUPPORT. The colour commands that convert between spaces (R184 to R195, R202 to R215) and those with 8-bit
channels (R181): the matrices and constants against their exact values, `sat8` of each kind of pattern, and the
commands by `exec_colorOut` and `exec_pixelOut`. The arithmetic of ℚ is irreducible, so a closed equation about `fl` is
decided `with_unfolding_all`. -/

namespace Sys2Proof.Machine

/-! ## Matrix-vector products (R184) -/

theorem mv_getElem (m : Matrix3) (x : Triple) (i : Fin 3) : (mv m x)[i] = rowProduct m[i] x :=
  match i with
  | 0 => rfl
  | 1 => rfl
  | 2 => rfl

/-- A colour command that writes a matrix-vector product. -/
theorem exec_colorOut_mv {i : Instr} {s : State} {m : Matrix3} {x : Triple} (ho : s.orderly)
    (hc : commandOf i s = colorOut (mv m x)) :
    ∃ t, exec i s = .next t ∧ colorCompleted s t ∧ ∀ j : Fin 3, t.fout[j] = rowProduct m[j] x := by
  obtain ⟨t, hx, hdone, hfout⟩ := exec_colorOut ho hc
  refine ⟨t, hx, hdone, fun j => ?_⟩
  rw [hfout, mv_getElem]

/-! ## The XYZ matrices (R185, R186) -/

/-- The cofactor of entry `(i, j)`, by the two rows and the two columns that follow it in cyclic order. -/
def cofactor3 (m : Fin 3 → Fin 3 → ℚ) (i j : Fin 3) : ℚ :=
  m (i + 1) (j + 1) * m (i + 2) (j + 2) - m (i + 1) (j + 2) * m (i + 2) (j + 1)

/-- The determinant of a 3×3 matrix, by its first row. -/
def determinant3 (m : Fin 3 → Fin 3 → ℚ) : ℚ :=
  m 0 0 * cofactor3 m 0 0 + m 0 1 * cofactor3 m 0 1 + m 0 2 * cofactor3 m 0 2

/-- The exact inverse of a 3×3 matrix, by Cramer's rule. -/
def inverse3 (m : Fin 3 → Fin 3 → ℚ) (i j : Fin 3) : ℚ := cofactor3 m j i / determinant3 m

/-- Row `i` times the cofactors of row `j`: the determinant on the diagonal, 0 off it. -/
theorem row_mul_cofactor3 (m : Fin 3 → Fin 3 → ℚ) (i j : Fin 3) :
    m i 0 * cofactor3 m j 0 + m i 1 * cofactor3 m j 1 + m i 2 * cofactor3 m j 2 =
      if i = j then determinant3 m else 0 := by
  fin_cases i <;> fin_cases j <;> simp [determinant3, cofactor3] <;> ring

theorem mul_inverse3 {m : Fin 3 → Fin 3 → ℚ} (h : determinant3 m ≠ 0) (i j : Fin 3) :
    m i 0 * inverse3 m 0 j + m i 1 * inverse3 m 1 j + m i 2 * inverse3 m 2 j = if i = j then 1 else 0 := by
  simp only [inverse3, mul_div_assoc', ← add_div, row_mul_cofactor3]
  split
  · exact div_self h
  · exact zero_div _

/-- R185, R186: every entry of the two matrices, the second from the exact inverse, which exists. -/
theorem xyzMatrices_eq_fl : determinant3 rationalXyz ≠ 0 ∧
    (∀ i j : Fin 3, mXyz[i][j] = fl (rationalXyz i j)) ∧
    ∀ i j : Fin 3, mXyzInv[i][j] = fl (inverse3 rationalXyz i j) := by
  with_unfolding_all decide

/-- Settles O29: the exact inverse is Cramer's (`mul_inverse3`), and both commands are `exec_colorOut_mv`. -/
theorem xyzMatrixCommands : Obligations.XyzMatrixCommands := by
  unfold Obligations.XyzMatrixCommands
  obtain ⟨hdet, hforward, hinverse⟩ := xyzMatrices_eq_fl
  exact ⟨hforward, ⟨inverse3 rationalXyz, mul_inverse3 hdet, hinverse⟩, fun s ho =>
     ⟨exec_colorOut_mv (m := mXyz) (x := s.fin) ho rfl, exec_colorOut_mv (m := mXyzInv) (x := s.fin) ho rfl⟩⟩

/-! ## Lab (R187 to R189) -/

/-- R187: the reference white and the constants of the two curves. -/
theorem lab_constants_eq_fl :
    (whiteX = fl (95047 / 100000) ∧ whiteY = fl 1 ∧ whiteZ = fl (108883 / 100000)) ∧
    labDelta = fl (6 / 29) ∧ labD3 = fl (216 / 24389) ∧ labC3 = fl (108 / 841) ∧ labC4 = fl (4 / 29) := by
  with_unfolding_all decide

/-- Settles O30: the constants are computed, and the written triples are `xyzToLab` and `labToXyz`, component by
component. -/
theorem labCommands : Obligations.LabCommands := by
  unfold Obligations.LabCommands
  obtain ⟨⟨hX, hY, hZ⟩, hdelta, hD3, hC3, hC4⟩ := lab_constants_eq_fl
  refine ⟨hX, hY, hZ, hdelta, hD3, hC3, hC4, fun s ho => ⟨?_, ?_⟩⟩
  · obtain ⟨t, hx, hdone, hfout⟩ := exec_colorOut (i := .ccXyzToLab) (v := xyzToLab s.fin) ho rfl
    exact ⟨t, hx, hdone, by rw [hfout]; rfl, by rw [hfout]; rfl, by rw [hfout]; rfl⟩
  · obtain ⟨t, hx, hdone, hfout⟩ := exec_colorOut (i := .ccLabToXyz) (v := labToXyz s.fin) ho rfl
    exact ⟨t, hx, hdone, by rw [hfout]; rfl, by rw [hfout]; rfl, by rw [hfout]; rfl⟩

/-! ## Polar form (R190, R191) -/

/-- R48: the value of a positive normal pattern. -/
theorem f64Value_of_positive {a : F64} (hs : f64Sign a = false) (he : f64Exponent a ≠ 0) :
    f64Value a = (1 + (f64Fraction a : ℚ) / 2 ^ 52) * (2 : ℚ) ^ ((f64Exponent a : Int) - 1023) := by
  rw [f64Value, signedRat, hs]
  exact f64Magnitude_normal he

theorem piF64_spec : f64IsFinite piF64 ∧ f64Sign piF64 = false ∧ f64Value piF64 = 884279719003555 / 2 ^ 48 := by
  have hs : f64Sign piF64 = false := by decide
  have he : f64Exponent piF64 = 1024 := by decide
  have hf : f64Fraction piF64 = 2570638124657944 := by decide
  refine ⟨he.trans_ne (by decide), hs, ?_⟩
  rw [f64Value_of_positive hs (he.trans_ne (by decide)), he, hf]
  norm_num

theorem fl_180_spec : f64IsFinite (fl 180) ∧ f64Sign (fl 180) = false ∧ f64Value (fl 180) = 180 := by
  have hfl : fl 180 = 0x4066800000000000#64 := by with_unfolding_all decide
  have hs : f64Sign (fl 180) = false := by rw [hfl]; decide
  have he : f64Exponent (fl 180) = 1030 := by rw [hfl]; decide
  have hf : f64Fraction (fl 180) = 1829587348619264 := by rw [hfl]; decide
  refine ⟨he.trans_ne (by decide), hs, ?_⟩
  rw [f64Value_of_positive hs (he.trans_ne (by decide)), he, hf]
  norm_num

/-- R190, R191: the patterns of `R2D` and `D2R`, as the rounded quotients of the exact values of their operands. -/
theorem polar_constants_eq : radToDeg = 0x404CA5DC1A63C1F8#64 ∧ degToRad = 0x3F91DF46A2529D39#64 := by
  obtain ⟨hpi, hpiSign, hpiValue⟩ := piF64_spec
  obtain ⟨h180, h180Sign, h180Value⟩ := fl_180_spec
  rw [radToDeg, degToRad, fdiv_finite h180 hpi (by norm_num [hpiValue]), fdiv_finite hpi h180 (by norm_num [h180Value]),
    hpiSign, h180Sign, hpiValue, h180Value]
  with_unfolding_all decide

/-- The two commands to polar form compute one function. -/
theorem commandOf_toPolar (s : State) :
    ∀ i ∈ [Instr.ccLabToLch, Instr.ccOklabToOklch], commandOf i s = colorOut (toPolar s.fin) := by
  simp only [List.forall_mem_cons]
  exact ⟨rfl, rfl, List.forall_mem_nil _⟩

/-- The two commands from polar form compute one function. -/
theorem commandOf_fromPolar (s : State) :
    ∀ i ∈ [Instr.ccLchToLab, Instr.ccOklchToOklab], commandOf i s = colorOut (fromPolar s.fin) := by
  simp only [List.forall_mem_cons]
  exact ⟨rfl, rfl, List.forall_mem_nil _⟩

/-- Settles O31: the commands of each direction write `toPolar` or `fromPolar`, read component by component. -/
theorem polarCommands : Obligations.PolarCommands := by
  unfold Obligations.PolarCommands
  obtain ⟨hR2D, hD2R⟩ := polar_constants_eq
  refine ⟨hR2D, hD2R, fun s ho => ⟨fun i hi => ?_, fun i hi => ?_⟩⟩
  · obtain ⟨t, hx, hdone, hfout⟩ := exec_colorOut ho (commandOf_toPolar s i hi)
    refine ⟨t, hx, hdone, ?_⟩
    rw [hfout, ← hR2D]
    exact ⟨rfl, rfl, rfl⟩
  · obtain ⟨t, hx, hdone, hfout⟩ := exec_colorOut ho (commandOf_fromPolar s i hi)
    refine ⟨t, hx, hdone, ?_⟩
    rw [hfout, ← hD2R]
    exact ⟨rfl, rfl, rfl⟩

/-! ## OKLab (R192 to R195) -/

theorem oklabDecimals_eq_fl :
    ∀ p ∈ oklabDecimals, ∀ i j : Fin 3, p.1[i][j] = fl (p.2[i][j] / 10000000000) := by with_unfolding_all decide

/-- Settles O32: both commands are matrix-vector products (`exec_colorOut_mv`) of the roots or cubes of a first one. -/
theorem oklabCommands : Obligations.OklabCommands := by
  unfold Obligations.OklabCommands
  exact ⟨oklabDecimals_eq_fl, fun s ho =>
    ⟨exec_colorOut_mv (i := .ccLinToOklab) (m := m2)
        (x := #v[Config.cbrt (mv m1 s.fin)[0], Config.cbrt (mv m1 s.fin)[1], Config.cbrt (mv m1 s.fin)[2]]) ho rfl,
      exec_colorOut_mv (i := .ccOklabToLin) (m := m1Inv)
        (x := #v[cube (mv m2Inv s.fin)[0], cube (mv m2Inv s.fin)[1], cube (mv m2Inv s.fin)[2]]) ho rfl⟩⟩

/-! ## 8-bit channels (R181, R204, R205, R212, R213) -/

/-- R11, R12: `u8` clamps the integer that the half-up rounding determines. -/
theorem u8_toNat_of_round {q : ℚ} {n : Int} (hlow : (n : ℚ) ≤ q + 1 / 2) (hhigh : q + 1 / 2 < n + 1) :
    ((u8 q).toNat : Int) = min 255 (max 0 n) := by
  have hround : roundHalfUp q = n := Int.floor_eq_iff.mpr ⟨hlow, hhigh⟩
  rw [u8, hround, clampInt, BitVec.toNat_ofInt]
  omega

/-- R181: `sat8` by the kind of its operand. -/
theorem sat8_by_kind (v : F64) : (f64IsNaN v = true → sat8 v = 0#8) ∧
    (f64IsInfinity v → sat8 v = if f64Sign v then 0#8 else 255#8) ∧ (f64IsFinite v → sat8 v = u8 (f64Value v)) := by
  unfold sat8
  exact ⟨fun h => by rw [binary64_of_nan h], fun h => by rw [binary64_of_infinity h],
    fun h => by rw [binary64_finite h, f64Value]⟩

theorem f64IsNaN_of_fields {v : F64} (he : f64Exponent v = 2047) (hf : f64Fraction v ≠ 0) : f64IsNaN v = true := by
  simp [f64IsNaN, he, hf]

/-- A colour command that writes a packed pixel writes the three saturated channels and A = 0xFF. -/
theorem exec_pixelOut_linear {i : Instr} {s : State} {v : Triple} (ho : s.orderly)
    (hc : commandOf i s = pixelOut (pixelOfLinear v)) :
    ∃ t, exec i s = .next t ∧ pixelCompleted s t ∧
      t.pixout.extractLsb' 0 8 = sat8 (fmul (linToSrgb v[0]) (fl 255)) ∧
      t.pixout.extractLsb' 8 8 = sat8 (fmul (linToSrgb v[1]) (fl 255)) ∧
      t.pixout.extractLsb' 16 8 = sat8 (fmul (linToSrgb v[2]) (fl 255)) ∧ t.pixout.extractLsb' 24 8 = 0xFF#8 := by
  obtain ⟨t, hx, hdone, hpix⟩ := exec_pixelOut ho hc
  refine ⟨t, hx, hdone, ?_⟩
  rw [hpix]
  exact packPixel_fields _ _ _

/-- Settles O33: `sat8` by the kind of its operand, and the commands by `exec_colorOut` and `exec_pixelOut_linear`. -/
theorem eightBitColourCommands : Obligations.EightBitColourCommands := by
  unfold Obligations.EightBitColourCommands
  refine ⟨fun v => ?_, fun s ho => ⟨exec_colorOut ho rfl, exec_colorOut ho rfl,
    exec_pixelOut_linear (v := mv mXyzInv s.fin) ho rfl, exec_pixelOut_linear (v := oklabToLin s.fin) ho rfl⟩⟩
  obtain ⟨hnan, hinfinity, hfinite⟩ := sat8_by_kind v
  refine ⟨fun he hf => hnan (f64IsNaN_of_fields he hf), fun he hf => hinfinity ⟨he, hf⟩, fun he n hlow hhigh => ?_⟩
  rw [hfinite he]
  exact u8_toNat_of_round hlow hhigh

end Sys2Proof.Machine
end

section
/-! SUPPORT. COMPOSITE (R230 to R240): the errors of its pre-pass in order, the pixels it leaves, and the algebra of one
layer's pixel. -/

namespace Sys2Proof.Machine

/-! ## The errors in order (R238, R336) -/

/-- The chain of checks of descriptor `i`, which stands at `b`, and past it `rest` (R238, R336). -/
def examinedThen (s t : State) (b width height dest i : Nat) (rest : Prop) : Prop :=
  let field := fun (k : Nat) => s.mem.littleEndian (b + k) 4
  let n := 4 * width * height
  readsThen s t b [0, 4, 5, 6, 7] <|
  whenElse ((s.mem.read b).getLsbD 0 = false ∨ effectiveOpacity (BitVec.ofNat 32 (field 4)) = 0) rest <|
  readsThen s t b [1] <|
  whenElse (3 < (s.mem.read (b + 1)).toNat) (rejectedWith s t 0x07#8 (BitVec.ofNat 32 i)) <|
  whenElse ((s.mem.read b).getLsbD 2 = true) rest <|
  readsThen s t b [8, 9, 10, 11] <|
  whenElse (field 8 ≠ width) rest <|
  readsThen s t b [12, 13, 14, 15] <|
  whenElse (field 12 ≠ height) rest <|
  readsThen s t b [16, 17, 18, 19] <|
  whenElse (¬ inDataSpace (field 16) n) (layerRejected s t 0x04#8 i) <|
  whenElse (¬ disjointRegions (field 16) n dest n) (layerRejected s t 0x05#8 i) rest

theorem whenElse_imp_yes {c a a' b : Prop} (h : whenElse c a b) (ha : a → a') : whenElse c a' b :=
  ⟨fun hc => ha (h.1 hc), h.2⟩

/-- R335: the LAYER code in bits 7:0, and in bits 31:8 an index that fits there. -/
theorem layerRejected_of_word {s t : State} {code : Byte} {i : Nat} {free : Word}
    (h : rejectedWith s t code ((RegionCode.layer i).word free)) : layerRejected s t code i := by
  refine ⟨_, h, ?_, fun hi => by rw [RegionCode.word, if_pos hi, Nat.mul_comm]⟩
  by_cases hi : i < 2 ^ 24
  · rw [RegionCode.word, if_pos hi]
    apply BitVec.eq_of_toNat_eq
    simp only [BitVec.extractLsb'_toNat, BitVec.toNat_ofNat, Nat.shiftRight_zero]
    omega
  · rw [RegionCode.word, if_neg hi]
    apply BitVec.eq_of_getLsbD_eq
    intro k hk
    interval_cases k <;> simp

section
variable {s t : State}

/-- The link of a test that decides how the validation goes on. -/
theorem errorsAs_ite {α : Type} {c c' yes no : Prop} [Decidable c'] {x y : Except CmdError α}
    {f : α → Except CmdError Effect} (hc : c' ↔ c) (h : errorsAs s t ((if c' then x else y) >>= f))
    (hyes : errorsAs s t (x >>= f) → yes) (hno : errorsAs s t (y >>= f) → no) : whenElse c yes no := by
  by_cases k : c'
  · rw [if_pos k] at h
    exact whenElse_yes (hc.mp k) (hyes h)
  · rw [if_neg k] at h
    exact whenElse_no (mt hc.mpr k) (hno h)

/-- R231: the link of the BLEND byte. -/
theorem errorsAs_blendOf {α : Type} {mode : Byte} {e : CmdError} {x : Blend → Except CmdError α}
    {f : α → Except CmdError Effect} {rest : Prop}
    (h : errorsAs s t ((match blendOf mode with | none => .error e | some blend => x blend) >>= f))
    (hr : ∀ blend, errorsAs s t (x blend >>= f) → rest) :
    whenElse (3 < mode.toNat) (rejectedWith s t e.code (e.info (Config.freeWord s.draws 2))) rest := by
  cases hb : blendOf mode with
  | none =>
    rw [hb] at h
    exact whenElse_yes (blendOf_eq_none_iff.mp hb) (h.1 _ rfl)
  | some blend =>
    rw [hb] at h
    refine whenElse_no (fun hmode => ?_) (hr blend h)
    rw [blendOf_eq_none_iff.mpr hmode] at hb
    cases hb

/-- R238: the links of the pre-pass of one descriptor. -/
theorem errorsAs_examineLayer {T W H D i : Nat} {f : Option Layer → Except CmdError Effect} {rest : Prop}
    (ho : s.orderly) (h : errorsAs s t (examineLayer s T W H (pixelRegion D W H) i >>= f))
    (hr : ∀ l, errorsAs s t (f l) → rest) : examinedThen s t (T + 32 * i) W H D i rest := by
  rw [examineLayer, bind_assoc] at h
  refine errorsAs_checkedByte (k := 0) (rest := readsThen s t _ [4, 5, 6, 7] _) ho h fun h => ?_
  rw [bind_assoc] at h
  refine errorsAs_checkedRead (n := 4) ho h fun h => errorsAs_ite (by simp) h (hr none) fun h => ?_
  rw [bind_assoc] at h
  refine errorsAs_checkedByte ho h fun h => errorsAs_blendOf h fun blend h =>
    errorsAs_ite Iff.rfl h (hr _) fun h => ?_
  rw [bind_assoc] at h
  refine errorsAs_checkedRead (n := 4) ho h fun h => errorsAs_ite Iff.rfl h (hr none) fun h => ?_
  rw [bind_assoc] at h
  refine errorsAs_checkedRead (n := 4) ho h fun h => errorsAs_ite Iff.rfl h (hr none) fun h => ?_
  rw [bind_assoc] at h
  refine errorsAs_checkedRead (n := 4) ho h fun h => ?_
  rw [bind_assoc] at h
  refine whenElse_imp_yes (errorsAs_checkRange h fun _ h => ?_) layerRejected_of_word
  rw [bind_assoc] at h
  exact whenElse_imp_yes (errorsAs_checkOverlap h fun _ h => hr _ h) layerRejected_of_word

/-- R238: the links of the pre-pass, descriptor by descriptor. -/
theorem errorsAs_prepass {T W H D n i : Nat} {f : List Layer → Except CmdError Effect} {rest : Prop} (ho : s.orderly)
    (h : errorsAs s t (prepass s T W H (pixelRegion D W H) i n >>= f)) (hr : ∀ ls, errorsAs s t (f ls) → rest) :
    (List.range' i n).foldr (fun j => examinedThen s t (T + 32 * j) W H D j) rest := by
  induction n generalizing i f with
  | zero => exact hr _ h
  | succ n ih =>
    rw [prepass, bind_assoc] at h
    refine errorsAs_examineLayer ho h fun l h => ?_
    rw [bind_assoc] at h
    exact ih h fun ls h => hr _ h

end

/-- Settles O57: the register checks, then `errorsAs_prepass`. -/
theorem compositeErrorsInOrder : Obligations.CompositeErrorsInOrder := by
  unfold Obligations.CompositeErrorsInOrder
  intro s ho T N W H n D
  obtain ⟨t, hx, h⟩ := exec_errorsAs .composite ho
  rw [Command.outcome, show commandOf .composite s = cmdComposite s from rfl, cmdComposite, bind_assoc] at h
  refine ⟨t, hx, errorsAs_checkRange h fun _ h => ?_⟩
  rw [bind_assoc] at h
  refine errorsAs_checkRange h fun _ h => errorsAs_checkOverlap h fun _ h => ?_
  rw [List.range_eq_range']
  exact errorsAs_prepass ho h fun ls h => h.2 _ rfl

/-! ## The pixels of a valid table (R239) -/

section
variable {s : State}

/-- The bytes that a valid descriptor's layer shows respond (R234). -/
theorem descriptorValid.responds_address {b W H D : Nat} {l : Layer} (hv : descriptorValid s b W H D)
    (hl : contributingLayer s.mem b W H = some l) {x y c : Nat} (hx : x < W) (hy : y < H) (hc : c < 4) :
    s.responds (l.source.address W x y c) = true := by
  obtain ⟨-, -, hpix⟩ := hv
  cases hs : l.source with
  | image base => exact responds_pixelAddress ((hpix l base hl).1 hs) hx hy hc
  | color base => exact (hpix l base hl).2 hs c hc

/-- R239: the effect of COMPOSITE with the contributing layers `layers`. -/
def compositeEffect (s : State) (layers : List Layer) : Effect :=
  { writePixels (s.arg 4) (s.arg 2) (s.arg 3) (fun x y c => (compositePixel s layers (s.arg 2) x y).channel c)
      (layers.flatMap (fun l => (rasterPositions (s.arg 2) (s.arg 3)).flatMap (fun (x, y) =>
        [0, 1, 2, 3].map (fun c => l.source.address (s.arg 2) x y c)))) with
    result0 := BitVec.ofNat 32 layers.length }

/-- R239: the data-phase reads of COMPOSITE are the bytes of its layers' pixels. -/
theorem mem_compositeEffect_reads {layers : List Layer} {a : Nat} : a ∈ (compositeEffect s layers).reads ↔
    ∃ l ∈ layers, ∃ x y c, x < s.arg 2 ∧ y < s.arg 3 ∧ c < 4 ∧ a = l.source.address (s.arg 2) x y c := by
  simp only [compositeEffect, writePixels, List.mem_flatMap, Prod.exists, mem_rasterPositions, List.mem_map,
    List.mem_cons, List.not_mem_nil, or_false]
  refine exists_congr fun l => and_congr_right fun _ => ⟨?_, ?_⟩
  · rintro ⟨x, y, ⟨hx, hy⟩, c, hc, rfl⟩
    exact ⟨x, y, c, hx, hy, by omega, rfl⟩
  · rintro ⟨x, y, c, hx, hy, hc, rfl⟩
    exact ⟨x, y, ⟨hx, hy⟩, c, by omega, rfl⟩

/-- R239: where COMPOSITE has written, every pixel is what its layers leave. -/
theorem read_compositeEffect {layers : List Layer} {x y c : Nat} (hx : x < s.arg 2) (hy : y < s.arg 3) (hc : c < 4) :
    let e := compositeEffect s layers
    (s.mem.fill e.written.base e.written.len e.value).read (pixelAddress (s.arg 4) (s.arg 2) x y c) =
      (compositePixel s layers (s.arg 2) x y).channel c :=
  read_writePixels (f := fun x y c => (compositePixel s layers (s.arg 2) x y).channel c)
    (reads := (compositeEffect s layers).reads) hx hy hc

/-- R238, R239: COMPOSITE of a table that passes validation has the effect of its contributing layers. -/
theorem composite_outcome (ho : s.orderly)
    (hbuf : checkedBuffers (s.arg 0) (32 * s.arg 1) (s.arg 4) (4 * s.arg 2 * s.arg 3))
    (hv : ∀ i, i < s.arg 1 → descriptorValid s (s.arg 0 + 32 * i) (s.arg 2) (s.arg 3) (s.arg 4)) :
    (commandOf .composite s).outcome =
      .ok (compositeEffect s (contributingLayers s.mem (s.arg 0) (s.arg 1) (s.arg 2) (s.arg 3))) := by
  have hpre := prepass_ok (T := s.arg 0) (W := s.arg 2) (H := s.arg 3) (D := s.arg 4) (n := s.arg 1) ho 0
    (fun j _ hj => (hv j (by omega)).1) (fun j _ hj => (hv j (by omega)).2.1)
  rw [← List.range_eq_range'] at hpre
  refine outcome_ok_iff.mpr ⟨bufferChecks_ok hbuf, ?_⟩
  show (prepass s _ _ _ _ _ _ >>= _) = _
  rw [hpre]
  rfl

end

/-- Settles O56: the effect of `composite_outcome`, all of whose accessed bytes respond, read pixel by pixel. -/
theorem compositeFlattensContributingLayers : Obligations.CompositeFlattensContributingLayers := by
  unfold Obligations.CompositeFlattensContributingLayers
  intro s ho T N W H layers hbuf hv hdest
  have hreads : ∀ a ∈ (compositeEffect s layers).reads, s.responds a = true := by
    intro a ha
    obtain ⟨l, hl, x, y, c, hx, hy, hc, rfl⟩ := mem_compositeEffect_reads.mp ha
    obtain ⟨i, hi, hli⟩ := List.mem_filterMap.mp hl
    exact (hv i (List.mem_range.mp hi)).responds_address hli hx hy hc
  obtain ⟨t, hexec, hdone, hmem⟩ := exec_buffer ho (composite_outcome ho hbuf hv) hreads hdest rfl rfl
  refine ⟨t, hexec, hdone, fun x y hx hy => ?_⟩
  have hpixel : ∀ c, c < 4 →
      t.mem.read (pixelAddress (s.arg 4) W x y c) = (compositePixel s layers W x y).channel c := fun c hc => by
    rw [hmem]
    exact read_compositeEffect hx hy hc
  unfold compositePixel Layer.pixel Layer.channel at hpixel
  simp only [byteAt_of_not_raced ho] at hpixel
  exact ⟨hpixel 0 (by decide), hpixel 1 (by decide), hpixel 2 (by decide), hpixel 3 (by decide)⟩

/-! ## The algebra of one layer's pixel (R235 to R237) -/

theorem byteRat_bounds (b : Byte) : 0 ≤ byteRat b ∧ byteRat b ≤ 255 := byte_toNat_bounds b

/-- R235: `sA` is in [0, 1] for an opacity in [0, 1]. -/
theorem sourceAlpha_bounds {l : Layer} (alpha : Byte) (h0 : 0 ≤ l.opacity) (h1 : l.opacity ≤ 1) :
    0 ≤ sourceAlpha l alpha ∧ sourceAlpha l alpha ≤ 1 := by
  have hcover : 0 ≤ (if l.hideAlpha then 255 else byteRat alpha) / 255 ∧
      (if l.hideAlpha then 255 else byteRat alpha) / 255 ≤ 1 := by
    obtain ⟨hlow, hhigh⟩ := byteRat_bounds alpha
    cases l.hideAlpha with
    | true => norm_num
    | false => exact ⟨by positivity, (div_le_one (by norm_num)).mpr hhigh⟩
  exact ⟨mul_nonneg hcover.1 h0, mul_le_one₀ hcover.2 h0 h1⟩

theorem destAlpha_bounds (d : Byte) : 0 ≤ byteRat d / 255 ∧ byteRat d / 255 ≤ 1 := by
  obtain ⟨hlow, hhigh⟩ := byteRat_bounds d
  exact ⟨by positivity, (div_le_one (by norm_num)).mpr hhigh⟩

/-- R235: `outA` of alphas in [0, 1] is in [0, 1]. -/
theorem outputAlpha_bounds {sA dA : ℚ} (hs : 0 ≤ sA ∧ sA ≤ 1) (hd : 0 ≤ dA ∧ dA ≤ 1) :
    0 ≤ outputAlpha sA dA ∧ outputAlpha sA dA ≤ 1 := by
  have hrest : 0 ≤ 1 - sA := by linarith
  have hlow : 0 ≤ dA * (1 - sA) := mul_nonneg hd.1 hrest
  have hhigh : dA * (1 - sA) ≤ 1 - sA := mul_le_of_le_one_left hrest hd.2
  unfold outputAlpha
  constructor <;> linarith

/-- R237: a colour value is a mean, with nonnegative weights of sum `outA`, of two values in [0, 255]. -/
theorem colorValue_bounds {sA dA B v : ℚ} (hs : 0 ≤ sA ∧ sA ≤ 1) (hd : 0 ≤ dA) (hB : 0 ≤ B ∧ B ≤ 255)
    (hv : 0 ≤ v ∧ v ≤ 255) (hpos : 0 < outputAlpha sA dA) :
    0 ≤ (B * sA + v * dA * (1 - sA)) / outputAlpha sA dA ∧
      (B * sA + v * dA * (1 - sA)) / outputAlpha sA dA ≤ 255 := by
  have hweight : 0 ≤ dA * (1 - sA) := mul_nonneg hd (by linarith)
  have hsource : B * sA ≤ 255 * sA := mul_le_mul_of_nonneg_right hB.2 hs.1
  have hdest : v * (dA * (1 - sA)) ≤ 255 * (dA * (1 - sA)) := mul_le_mul_of_nonneg_right hv.2 hweight
  have hlow : 0 ≤ B * sA + v * (dA * (1 - sA)) := add_nonneg (mul_nonneg hB.1 hs.1) (mul_nonneg hv.1 hweight)
  rw [mul_assoc, div_le_iff₀ hpos]
  refine ⟨div_nonneg hlow hpos.le, ?_⟩
  unfold outputAlpha
  linarith

/-- Settles O58: the equation is the model's, mode by mode; the bounds are those of `outA` and of a weighted mean. -/
theorem blendFollowsPixelAlgebra : Obligations.BlendFollowsPixelAlgebra := by
  unfold Obligations.BlendFollowsPixelAlgebra
  rintro ⟨hideAlpha, mode, opacity, source⟩ p d
  have hB := blendValue_bounds mode
  refine ⟨by cases mode <;> rfl, fun h0 h1 => ?_⟩
  have hs := sourceAlpha_bounds (l := ⟨hideAlpha, mode, opacity, source⟩) p.a h0 h1
  have hd := destAlpha_bounds d.a
  obtain ⟨hlow, hhigh⟩ := outputAlpha_bounds hs hd
  refine ⟨hlow, hhigh, fun sv dv hpos => ?_⟩
  have hvalue := colorValue_bounds hs hd.1 (hB sv dv) (byteRat_bounds dv) hpos
  cases mode <;> exact hvalue

/-! ## The properties of R240 -/

@[simp] theorem byteRat_zero : byteRat 0#8 = 0 := Nat.cast_zero

/-- R12: a byte's alpha, taken as a fraction of 255, comes back as itself. -/
theorem u8_alpha (b : Byte) : u8 (byteRat b / 255 * 255) = b := by
  rw [div_mul_cancel₀ _ (by norm_num), u8_byteRat]

/-- R235, R237: a source with `sA = 0` leaves a colour channel as it is. -/
theorem outputColor_zero_source (mode : Blend) {dA : ℚ} (sv dv : Byte) : outputColor mode 0 dA sv dv = dv := by
  unfold outputColor outputAlpha
  split
  · rename_i hpos
    have hdA : dA ≠ 0 := by rintro rfl; norm_num at hpos
    rw [show (blendValue mode sv dv * 0 + byteRat dv * dA * (1 - 0)) / (0 + dA * (1 - 0)) = byteRat dv by
      field_simp; ring, u8_byteRat]
  · rfl

/-- R236, R237: a normal source hides a destination that it covers, or that is transparent. -/
theorem outputColor_normal_covers {sA dA : ℚ} (hs : 0 < sA) (h : dA * (1 - sA) = 0) (sv dv : Byte) :
    outputColor .normal sA dA sv dv = sv := by
  rw [outputColor, outputAlpha, h, add_zero, if_pos hs, mul_assoc, h, mul_zero, add_zero,
    mul_div_cancel_right₀ _ hs.ne']
  exact u8_byteRat sv

theorem sourceAlpha_shown {l : Layer} {alpha : Byte} (h : l.hideAlpha = false) :
    sourceAlpha l alpha = byteRat alpha / 255 * l.opacity := by
  simp [sourceAlpha, h]

/-- R240: a pixel with alpha 0 changes nothing. -/
theorem blendOver_transparent {l : Layer} {p d : Pixel} (hl : l.hideAlpha = false) (hp : p.a = 0#8) :
    blendOver l p d = d := by
  have hs : sourceAlpha l p.a = 0 := by rw [sourceAlpha_shown hl, hp]; simp
  have ha : outputAlpha 0 (byteRat d.a / 255) = byteRat d.a / 255 := by unfold outputAlpha; ring
  simp only [blendOver, hs, outputColor_zero_source, ha, u8_alpha]

/-- R240: a normal layer that covers gives its colour with alpha 255. -/
theorem blendOver_covers {l : Layer} {p : Pixel} (d : Pixel) (hl : l.blend = .normal) (hs : sourceAlpha l p.a = 1) :
    blendOver l p d = ⟨p.r, p.g, p.b, 0xFF#8⟩ := by
  have hcolor := outputColor_normal_covers (sA := 1) (dA := byteRat d.a / 255) one_pos (by ring)
  have ha : outputAlpha 1 (byteRat d.a / 255) * 255 = byteRat 0xFF#8 := by norm_num [outputAlpha, byteRat]
  simp only [blendOver, hl, hs, hcolor, ha, u8_byteRat]

/-- R240: a single normal layer copies a pixel that is not transparent. -/
theorem blendOver_single {l : Layer} {p : Pixel} (hl : l.blend = .normal) (hh : l.hideAlpha = false)
    (ho : l.opacity = 1) (hp : p.a ≠ 0#8) : blendOver l p transparentBlack = p := by
  have hs : sourceAlpha l p.a = byteRat p.a / 255 := by rw [sourceAlpha_shown hh, ho, mul_one]
  have hpos : 0 < byteRat p.a / 255 := by
    have : p.a.toNat ≠ 0 := fun h => hp (BitVec.eq_of_toNat_eq h)
    unfold byteRat
    positivity
  have hcolor := outputColor_normal_covers (dA := 0) hpos (zero_mul _)
  have ha : outputAlpha (byteRat p.a / 255) 0 = byteRat p.a / 255 := by unfold outputAlpha; ring
  simp only [blendOver, transparentBlack, byteRat_zero, zero_div, hl, hs, hcolor, ha, u8_alpha]

/-! ## Effective opacity (R15, R232) -/

theorem binary32Exponent_eq_255_iff {w : Word} : binary32Exponent w = 255 ↔ w.extractLsb' 23 8 = 0xFF#8 := by
  rw [← binary32NonFinite_iff, binary32NonFinite, beq_iff_eq]

theorem binary32Fraction_eq_zero_iff {w : Word} : binary32Fraction w = 0 ↔ w.extractLsb' 0 23 = 0#23 :=
  BitVec.toNat_inj (y := 0#23)

theorem binary32_nan {w : Word} (he : w.extractLsb' 23 8 = 0xFF#8) (hf : w.extractLsb' 0 23 ≠ 0#23) :
    binary32 w = .nan := by
  rw [binary32, if_pos (binary32Exponent_eq_255_iff.mpr he), if_neg (mt binary32Fraction_eq_zero_iff.mp hf)]

theorem binary32_infinity {w : Word} (he : w.extractLsb' 23 8 = 0xFF#8) (hf : w.extractLsb' 0 23 = 0#23) :
    binary32 w = .infinity (w.getLsbD 31) := by
  rw [binary32, if_pos (binary32Exponent_eq_255_iff.mpr he), if_pos (binary32Fraction_eq_zero_iff.mpr hf), binary32Sign]

/-- R15: the magnitude of a normal word by its significand and the exponent's bias of 127. -/
theorem binary32Magnitude_normal {w : Word} (h : binary32Exponent w ≠ 0) : binary32Magnitude w =
    (1 + (binary32Fraction w : ℚ) / 2 ^ 23) * (2 : ℚ) ^ ((binary32Exponent w : Int) - 127) := by
  rw [binary32Magnitude, if_neg h, zpow_sub₀ two_ne_zero, zpow_natCast]
  push_cast
  norm_num
  ring

theorem binary32_finite {w : Word} (he : w.extractLsb' 23 8 ≠ 0xFF#8) : binary32 w = .finite
    ((if w.getLsbD 31 then -1 else 1) *
      if binary32Exponent w = 0 then (binary32Fraction w : ℚ) / 2 ^ 149
      else (1 + (binary32Fraction w : ℚ) / 2 ^ 23) * (2 : ℚ) ^ ((binary32Exponent w : Int) - 127)) := by
  have hmag : binary32Magnitude w = if binary32Exponent w = 0 then (binary32Fraction w : ℚ) / 2 ^ 149
      else (1 + (binary32Fraction w : ℚ) / 2 ^ 23) * (2 : ℚ) ^ ((binary32Exponent w : Int) - 127) := by
    split
    · exact if_pos ‹_›
    · exact binary32Magnitude_normal ‹_›
  rw [binary32, if_neg (mt binary32Exponent_eq_255_iff.mp he), ← hmag, binary32Sign]
  cases w.getLsbD 31 <;> simp

/-- R232: the effective opacity of every word is in [0, 1]. -/
theorem effectiveOpacity_bounds (w : Word) : 0 ≤ effectiveOpacity w ∧ effectiveOpacity w ≤ 1 := by
  unfold effectiveOpacity
  cases binary32 w with
  | nan => norm_num
  | infinity negative => cases negative <;> norm_num
  | finite q => exact clampRat_bounds q

/-! ## Layers that take no part (R233, R238) -/

/-- Of a descriptor that is not active the pre-pass reads FLAGS and OPACITY alone. -/
theorem descriptorReadable_of_inactive {s : State} {b W H : Nat}
    (hr : ∀ k ∈ [0, 4, 5, 6, 7], s.responds (b + k) = true) (h : ¬ descriptorActive s.mem b) :
    descriptorReadable s b W H := by
  have hoff : (s.mem.read b).getLsbD 0 = false ∨
      effectiveOpacity (BitVec.ofNat 32 (s.mem.littleEndian (b + 4) 4)) = 0 := by
    simpa [descriptorActive, imp_iff_not_or] using h
  intro a ha
  rw [prepassReads, if_pos hoff, List.append_nil] at ha
  obtain ⟨k, hk, rfl⟩ := List.mem_map.mp (show a ∈ [0, 4, 5, 6, 7].map (b + ·) from ha)
  exact hr k hk

theorem examineLayer_of_inactive {s : State} {T W H i : Nat} {dest : Region} (ho : s.orderly)
    (hr : ∀ k ∈ [0, 4, 5, 6, 7], s.responds (T + 32 * i + k) = true) (h : ¬ descriptorActive s.mem (T + 32 * i)) :
    examineLayer s T W H dest i = .ok none := by
  obtain ⟨hinactive, -⟩ := examineLayer_cases (dest := dest) ho (descriptorReadable_of_inactive hr h)
  exact (hinactive h).2

theorem prepass_succ_of_none {s : State} {T W H i : Nat} {dest : Region}
    (h : examineLayer s T W H dest i = .ok none) (count : Nat) :
    prepass s T W H dest i (count + 1) = prepass s T W H dest (i + 1) count := by
  rw [prepass, h, ok_bind]
  cases prepass s T W H dest (i + 1) count <;> rfl

/-- Settles O59, from the three lemmas on `blendOver`, the kinds of OPACITY word, and `examineLayer_of_inactive`. -/
theorem layerProperties : Obligations.LayerProperties := by
  unfold Obligations.LayerProperties
  refine ⟨fun l p hl hh ho => ?_, fun l p d => blendOver_covers d, fun l p d => blendOver_transparent, fun w => ?_,
    fun s T W H i dest ho hr hoff => ?_⟩
  · split
    · exact blendOver_transparent hh ‹_›
    · exact blendOver_single hl hh ho ‹_›
  · obtain ⟨hlow, hhigh⟩ := effectiveOpacity_bounds w
    refine ⟨hlow, hhigh, fun he hf => ?_, fun he hf => ?_, fun he => ?_⟩
    · rw [effectiveOpacity, binary32_nan he hf]
    · rw [effectiveOpacity, binary32_infinity he hf]
    · rw [effectiveOpacity, binary32_finite he]
      rfl
  · have hnone := examineLayer_of_inactive (W := W) (H := H) (dest := dest) ho hr hoff
    exact ⟨hnone, prepass_succ_of_none hnone⟩

end Sys2Proof.Machine
end

section
/-! SUPPORT. The four resampling commands (R250 to R258): the bytes they read lie in the source, so that a command on
checked, responding buffers fills its destination (`exec_pixels`, `exec_grays`); and at equal sizes the coordinate maps are
the identity, so that each pixel is its own sample (R259). -/

namespace Sys2Proof.Machine

/-! ## The bytes a resampling command reads (R252, R255 to R258) -/

section
variable {s : State} {b sw sh : Nat} {u v : ℚ}

/-- The four neighbours of a coordinate within the source are positions of the source (R252). -/
theorem neighbours_lt (hu : 0 ≤ u ∧ u ≤ (sw : ℚ) - 1) (hv : 0 ≤ v ∧ v ≤ (sh : ℚ) - 1) (hw : 0 < sw) (hh : 0 < sh)
    {i j : Nat} (h : (i, j) ∈ neighbours sw sh u v) : i < sw ∧ j < sh := by
  have xlo := lowIndex_lt hu.1 hu.2
  have ylo := lowIndex_lt hv.1 hv.2
  have xhi := highIndex_lt hu.1 hw
  have yhi := highIndex_lt hv.1 hh
  simp only [neighbours, List.mem_cons, Prod.mk.injEq, List.not_mem_nil, or_false] at h
  omega

theorem responds_pixelAddresses (hr : s.respondsOn b (4 * sw * sh)) {x y : Nat} (hx : x < sw) (hy : y < sh) :
    ∀ a ∈ pixelAddresses b sw x y, s.responds a = true := by
  intro a ha
  obtain ⟨c, hc, rfl⟩ := mem_pixelAddresses.mp ha
  exact responds_pixelAddress hr hx hy hc

/-- R256: the four neighbours' bytes of one channel respond where the source does. -/
theorem responds_neighbourChannels (hr : s.respondsOn b (4 * sw * sh)) {c : Nat} (hc : c < 4)
    (h : ∀ i j, (i, j) ∈ neighbours sw sh u v → i < sw ∧ j < sh) :
    ∀ a ∈ (neighbours sw sh u v).map (fun (i, j) => pixelAddress b sw i j c), s.responds a = true := by
  refine List.forall_mem_map.mpr fun (i, j) hij => ?_
  obtain ⟨hi, hj⟩ := h i j hij
  exact responds_pixelAddress hr hi hj hc

/-- R258: the four neighbours' bytes respond where the source does. -/
theorem responds_neighbourGrays (hr : s.respondsOn b (sw * sh))
    (h : ∀ i j, (i, j) ∈ neighbours sw sh u v → i < sw ∧ j < sh) :
    ∀ a ∈ (neighbours sw sh u v).map (fun (i, j) => grayAddress b sw i j), s.responds a = true := by
  refine List.forall_mem_map.mpr fun (i, j) hij => ?_
  obtain ⟨hi, hj⟩ := h i j hij
  exact responds_grayAddress hr hi hj

end

/-! ## The bilinear blend in natural indices (R252) -/

theorem fraction_eq {u : ℚ} (h : 0 ≤ u) : fraction u = u - (u.floor.toNat : ℚ) := by
  rw [fraction, floor_toNat h]

/-- R252: the blend with the neighbours and the weights written over natural numbers. -/
theorem bilinearAt_eq {q : Nat → Nat → ℚ} {sw sh : Nat} {u v : ℚ} (hu : 0 ≤ u) (hv : 0 ≤ v) (hw : 0 < sw)
    (hh : 0 < sh) : bilinearAt q sw sh u v =
      bilinear (q u.floor.toNat v.floor.toNat) (q (min (u.floor.toNat + 1) (sw - 1)) v.floor.toNat)
        (q u.floor.toNat (min (v.floor.toNat + 1) (sh - 1)))
        (q (min (u.floor.toNat + 1) (sw - 1)) (min (v.floor.toNat + 1) (sh - 1)))
        (u - (u.floor.toNat : ℚ)) (v - (v.floor.toNat : ℚ)) := by
  rw [bilinearAt, highIndex_eq hu hw, highIndex_eq hv hh, fraction_eq hu, fraction_eq hv]
  rfl

/-! ## The RGBA path on success (R255, R256) -/

/-- Settles O45: both commands fill the destination (`exec_pixels`), reading only positions of the source. -/
theorem rgbaResampleWritesPixels : Obligations.RgbaResampleWritesPixels := by
  unfold Obligations.RgbaResampleWritesPixels
  intro s ho SW SH DW DH hSW hSH hDW hDH hbuf hsrc hdst hmap px
  have hargs := resampleArgs_passes hSW hSH hDW hDH hbuf
  have hpx : s.px (s.arg 0) SW = px := by
    funext x y c
    exact byteAt_of_not_raced ho _
  constructor
  · obtain ⟨t, hx, hdone, hpix⟩ := exec_pixels (i := .rsRgbaNearest) ho 
      (outcome_of_reads_ok hargs rfl (List.forall_mem_singleton.mpr
        (responds_pixelAddress hsrc (rgbaNearestMap_lt hSW) (rgbaNearestMap_lt hSH) (by decide))))
      (List.forall_mem_flatMap.mpr fun _ _ =>
        responds_pixelAddresses hsrc (rgbaNearestMap_lt hSW) (rgbaNearestMap_lt hSH)) hdst
    refine ⟨t, hx, hdone, fun x y c hxW hyH hc => ?_⟩
    rw [hpix x y c hxW hyH hc, hpx]
    rfl
  · have hnear : ∀ x y i j, (i, j) ∈ neighbours SW SH (halfPixelMap x SW DW) (halfPixelMap y SH DH) →
        i < SW ∧ j < SH := fun x y i j =>
      neighbours_lt (halfPixelMap_bounds hSW) (halfPixelMap_bounds hSH) hSW hSH
    obtain ⟨t, hx, hdone, hpix⟩ := exec_pixels (i := .rsRgbaBilinear) ho
      (outcome_of_reads_ok hargs rfl (responds_neighbourChannels hsrc (by decide) (hnear 0 0)))
      (List.forall_mem_flatMap.mpr fun (x, y) _ => List.forall_mem_flatMap.mpr fun (i, j) hij =>
        have ⟨hi, hj⟩ := hnear x y i j hij
        responds_pixelAddresses hsrc hi hj) hdst
    refine ⟨t, hx, hdone, fun x y c hxW hyH hc => ?_⟩
    rw [hpix x y c hxW hyH hc, hpx,
      bilinearAt_eq (halfPixelMap_bounds hSW).1 (halfPixelMap_bounds hSH).1 hSW hSH]
    rfl

/-! ## The gray path on success (R254, R257, R258) -/

theorem u7_lt (q : ℚ) : (u7 q).toNat < 128 := by
  unfold u7 clampInt
  generalize roundHalfUp _ = z
  rw [BitVec.toNat_ofInt]
  omega

/-- The flag is no part of the sample (R254). -/
theorem graySample_withOpacity {b : Byte} (h : b.toNat < 128) (o : Bool) : graySample (withOpacity b o) = b :=
  BitVec.eq_of_toNat_eq (by rw [graySample_toNat, withOpacity_toNat_mod h])

theorem grayBilinearByte_sample (d8 : Bool) (q : Nat → Nat → Byte) (sw sh : Nat) (u v : ℚ) :
    graySample (grayBilinearByte d8 q sw sh u v) = u7 (bilinearAt (fun i j => byteRat (graySample (q i j))) sw sh u v) :=
  graySample_withOpacity (u7_lt _) _

theorem grayBilinearByte_flag (d8 : Bool) (q : Nat → Nat → Byte) (sw sh : Nat) (u v : ℚ) :
    (grayBilinearByte d8 q sw sh u v).getLsbD 7 = true ↔
      d8 = true ∧ 1 / 2 ≤ bilinearAt (fun i j => maskRat (q i j)) sw sh u v := by
  rw [grayBilinearByte, withOpacity_flag_of_lt (u7_lt _), Bool.and_eq_true, decide_eq_true_iff]

/-- Settles O46: both commands fill the destination (`exec_grays`); a bilinear byte by its sample and its flag. -/
theorem grayResampleWritesSamples : Obligations.GrayResampleWritesSamples := by
  unfold Obligations.GrayResampleWritesSamples
  intro s d8 ho SW SH DW DH hSW hSH hDW hDH hbuf hsrc hdst q gnear glin
  have hargs := resampleArgs_passes hSW hSH hDW hDH hbuf
  have hgx : s.gx (s.arg 0) SW = q := by
    funext x y
    exact byteAt_of_not_raced ho _
  constructor
  · obtain ⟨t, hx, hdone, hpix⟩ := exec_grays (i := .rsGrayNearest d8) ho 
      (outcome_of_reads_ok hargs rfl (List.forall_mem_singleton.mpr
        (responds_grayAddress hsrc (grayNearestMap_lt hSW) (grayNearestMap_lt hSH))))
      (List.forall_mem_map.mpr fun _ _ =>
        responds_grayAddress hsrc (grayNearestMap_lt hSW) (grayNearestMap_lt hSH)) hdst
    refine ⟨t, hx, hdone, fun x y hxW hyH => ?_⟩
    rw [hpix x y hxW hyH, hgx, grayNearestMap_eq hSW, grayNearestMap_eq hSH]
    rfl
  · have hnear : ∀ x y, x < DW → y < DH → ∀ i j,
        (i, j) ∈ neighbours SW SH (grayLinearMap x SW DW) (grayLinearMap y SH DH) → i < SW ∧ j < SH :=
      fun x y hxW hyH i j => neighbours_lt (grayLinearMap_bounds hSW hxW) (grayLinearMap_bounds hSH hyH) hSW hSH
    obtain ⟨t, hx, hdone, hpix⟩ := exec_grays (i := .rsGrayBilinear d8) ho
      (outcome_of_reads_ok hargs rfl (responds_neighbourGrays hsrc (hnear 0 0 hDW hDH)))
      (List.forall_mem_flatMap.mpr fun (x, y) hxy =>
        have ⟨hxW, hyH⟩ := mem_rasterPositions.mp hxy
        responds_neighbourGrays hsrc (hnear x y hxW hyH)) hdst
    refine ⟨t, hx, hdone, fun x y hxW hyH => ?_⟩
    obtain ⟨hu, -⟩ := grayLinearMap_bounds hSW hxW
    obtain ⟨hv, -⟩ := grayLinearMap_bounds hSH hyH
    have hsample := grayBilinearByte_sample d8 q SW SH (grayLinearMap x SW DW) (grayLinearMap y SH DH)
    have hflag := grayBilinearByte_flag d8 q SW SH (grayLinearMap x SW DW) (grayLinearMap y SH DH)
    rw [bilinearAt_eq hu hv hSW hSH] at hsample hflag
    rw [hpix x y hxW hyH, hgx]
    exact ⟨hsample, hflag⟩

/-! ## Equal sizes (R259) -/

section
variable {i n : Nat}

/-- R251, R259: at equal sizes the half-pixel-centre map is the identity. -/
theorem halfPixelMap_self (h : i < n) : halfPixelMap i n n = i := by
  have hn : (n : ℚ) ≠ 0 := Nat.cast_ne_zero.mpr (by omega)
  have hle : (i : ℚ) ≤ (n : ℚ) - 1 := le_sub_iff_add_le.mpr (by exact_mod_cast h)
  rw [halfPixelMap, mul_div_cancel_right₀ _ hn, add_sub_cancel_right, clampRat, max_eq_right (Nat.cast_nonneg i),
    min_eq_right hle]

/-- R11: a natural number is its own rounding. -/
theorem roundHalfUp_natCast (k : Nat) : roundHalfUp (k : ℚ) = k := by
  have hlow : (((k : Int) : ℚ)) ≤ (k : ℚ) + 1 / 2 := by push_cast; linarith
  have hhigh : (k : ℚ) + 1 / 2 < ((k : Int) : ℚ) + 1 := by push_cast; linarith
  exact Int.floor_eq_iff.mpr ⟨hlow, hhigh⟩

theorem rgbaNearestMap_self (h : i < n) : rgbaNearestMap i n n = i := by
  rw [rgbaNearestMap, halfPixelMap_self h, roundHalfUp_natCast, Int.toNat_natCast]

theorem grayNearestMap_self (h : i < n) : grayNearestMap i n n = i := by
  have hn : (n : ℚ) ≠ 0 := Nat.cast_ne_zero.mpr (by omega)
  rw [grayNearestMap, mul_div_cancel_right₀ _ hn, roundHalfUp_natCast, clampInt]
  omega

/-- R253, R259: at equal sizes the ratio is 1, or the one index is 0. -/
theorem grayLinearMap_self (h : i < n) : grayLinearMap i n n = i := by
  obtain rfl | hn : n = 1 ∨ 1 < n := by omega
  · obtain rfl : i = 0 := by omega
    simp [grayLinearMap]
  · have hratio : ((max 1 (n - 1) : Nat) : ℚ) = (n : ℚ) - 1 := by
      rw [max_eq_right (by omega), Nat.cast_sub hn.le, Nat.cast_one]
    have hpos : (n : ℚ) - 1 ≠ 0 := sub_ne_zero.mpr (by exact_mod_cast hn.ne')
    rw [grayLinearMap, hratio, mul_div_cancel_right₀ _ hpos]

end

/-- R252, R259: at integer coordinates the fractions are 0 and the blend is the one sample. -/
theorem bilinearAt_natCast (q : Nat → Nat → ℚ) (sw sh i j : Nat) : bilinearAt q sw sh i j = q i j := by
  have hfloor (k : Nat) : (k : ℚ).floor = k := Int.floor_natCast (R := ℚ) k
  simp [bilinearAt, lowIndex, fraction, hfloor, bilinear]

/-- R12: a 7-bit sample is its own `u7`. -/
theorem u7_graySample (b : Byte) : u7 (byteRat (graySample b)) = graySample b := by
  have hlt : (graySample b).toNat < 128 := by
    rw [graySample_toNat]
    omega
  rw [byteRat, u7, roundHalfUp_natCast, clampInt,
    show min 127 (max 0 ((graySample b).toNat : Int)) = ((graySample b).toNat : Int) by omega, BitVec.ofInt_natCast,
    BitVec.ofNat_toNat, BitVec.setWidth_eq]

/-- A mask bit is at least 1/2 exactly when it is set (R254). -/
theorem half_le_maskRat_iff {b : Byte} : 1 / 2 ≤ maskRat b ↔ b.getLsbD 7 = true := by
  unfold maskRat
  cases b.getLsbD 7 <;> norm_num

/-- A byte of depth 8 is its sample with its flag, one of depth 7 its sample (R81, R254). -/
theorem withOpacity_graySample (d8 : Bool) (b : Byte) :
    withOpacity (graySample b) (d8 && b.getLsbD 7) = if d8 then b else graySample b := by
  revert d8 b
  decide

theorem grayBilinearByte_natCast (d8 : Bool) (q : Nat → Nat → Byte) (sw sh i j : Nat) :
    grayBilinearByte d8 q sw sh i j = if d8 then q i j else graySample (q i j) := by
  simp only [grayBilinearByte, bilinearAt_natCast, u7_graySample, half_le_maskRat_iff, Bool.decide_eq_true,
    withOpacity_graySample]

section
variable {s t : State} {i : Instr} {first reads : List Nat}

/-- A command that ended with DONE had the effect its validation phase ends in, past its first reads (R312, R333). -/
theorem exec_done_mem {e : Effect} (ho : s.orderly)
    (hb : (commandOf i s).body = (s.checkedReads first >>= fun _ => .ok e))
    (hx : exec i s = .next t) (hd : t.done = true) :
    t.mem = s.mem.fill e.written.base e.written.len e.value := by
  obtain ⟨d, hout, -, hmem, -, -⟩ := exec_done_fills ho hx hd
  obtain ⟨-, hbody⟩ := outcome_ok_iff.mp hout
  rw [hb, bind_ok_iff] at hbody
  obtain ⟨_, -, heffect⟩ := hbody
  cases heffect
  exact hmem

theorem exec_done_pixels {base w h : Nat} {f : Nat → Nat → Nat → Byte} (ho : s.orderly)
    (hb : (commandOf i s).body = (s.checkedReads first >>= fun _ => .ok (writePixels base w h f reads)))
    (hx : exec i s = .next t) (hd : t.done = true) {x y c : Nat} (hxW : x < w) (hyH : y < h) (hc : c < 4) :
    t.mem.read (pixelAddress base w x y c) = f x y c := by
  rw [exec_done_mem ho hb hx hd]
  exact read_writePixels hxW hyH hc

theorem exec_done_grays {base w h : Nat} {f : Nat → Nat → Byte} (ho : s.orderly)
    (hb : (commandOf i s).body = (s.checkedReads first >>= fun _ => .ok (writeGray base w h f reads)))
    (hx : exec i s = .next t) (hd : t.done = true) {x y : Nat} (hxW : x < w) (hyH : y < h) :
    t.mem.read (grayAddress base w x y) = f x y := by
  rw [exec_done_mem ho hb hx hd]
  exact read_writeGray hxW hyH

end

/-- Settles O47: every coordinate map is the identity, and a blend at integer coordinates is its one sample. -/
theorem equalSizeResampleCopies : Obligations.EqualSizeResampleCopies := by
  unfold Obligations.EqualSizeResampleCopies
  intro s d8 ho hw hh _ _
  refine ⟨fun i hi t hx hd x y c hxW hyH hc => ?_, fun i hi t hx hd x y hxW hyH => ?_⟩
  · have hpx : s.px (s.arg 0) (s.arg 1) x y c = s.mem.read (pixelAddress (s.arg 0) (s.arg 1) x y c) :=
      byteAt_of_not_raced ho _
    have hxD := hw.symm ▸ hxW
    have hyD := hh.symm ▸ hyH
    rcases List.mem_pair.mp hi with rfl | rfl
    · have hpix := exec_done_pixels ho rfl hx hd hxD hyD hc
      rwa [hw, hh, rgbaNearestMap_self hxW, rgbaNearestMap_self hyH, hpx] at hpix
    · have hpix := exec_done_pixels ho rfl hx hd hxD hyD hc
      rwa [hw, hh, halfPixelMap_self hxW, halfPixelMap_self hyH, bilinearAt_natCast, u8_byteRat, hpx] at hpix
  · have hgx : s.gx (s.arg 0) (s.arg 1) x y = s.mem.read (grayAddress (s.arg 0) (s.arg 1) x y) :=
      byteAt_of_not_raced ho _
    have hxD := hw.symm ▸ hxW
    have hyD := hh.symm ▸ hyH
    rcases List.mem_pair.mp hi with rfl | rfl
    · have hgray := exec_done_grays ho rfl hx hd hxD hyD
      rwa [hw, hh, grayNearestMap_self hxW, grayNearestMap_self hyH, hgx] at hgray
    · have hgray := exec_done_grays ho rfl hx hd hxD hyD
      rwa [hw, hh, grayLinearMap_self hxW, grayLinearMap_self hyH, grayBilinearByte_natCast, hgx] at hgray

end Sys2Proof.Machine
end

section
/-! SUPPORT. The tone curves on identity points and at the ends of a ramp (R271, R272, R276), and LUT_APPLY (R275):
which channels it maps, the bytes it reads, what a channel becomes, and the order of its errors. -/

namespace Sys2Proof.Machine

/-! ## Curves (R271, R272, R276) -/

/-- R12: an integer of [0, 255] is its own `u8`. -/
theorem u8_natCast {x : Nat} (h : x < 256) : u8 (x : ℚ) = BitVec.ofNat 8 x := by
  have hvalue : byteRat (BitVec.ofNat 8 x) = (x : ℚ) := by
    rw [byteRat, BitVec.toNat_ofNat, Nat.mod_eq_of_lt h]
  rw [← hvalue, u8_byteRat]

/-- The line through (0, 0) and (255, 255) is the identity. -/
theorem curveBetween_identity (x : Nat) : curveBetween ⟨0, 0⟩ ⟨255, 255⟩ x = (x : ℚ) := by
  norm_num [curveBetween]

/-- R271: every ramp starts at 0. -/
theorem ramp_zero (p1 p2 : CurvePoint) : ramp p1 p2 0 = 0#8 := by
  rw [ramp, if_pos (Nat.zero_le _), Nat.cast_zero, mul_zero]
  exact u8_natCast (x := 0) (by decide)

/-- R271: past the second point the ramp rises to 255. -/
theorem ramp_255 {p1 p2 : CurvePoint} (h1 : p1.input < 255) (h2 : p2.input < 255) : ramp p1 p2 255 = 255#8 := by
  have hden : ((max 1 (255 - p2.input) : Nat) : ℚ) = ((255 : Nat) : ℚ) - p2.input := by
    rw [max_eq_right (by omega), Nat.cast_sub h2.le]
  have hpos : ((255 : Nat) : ℚ) - p2.input ≠ 0 := sub_ne_zero.mpr (by exact_mod_cast h2.ne')
  rw [ramp, if_neg (by omega), if_pos h2.le, hden, mul_div_cancel_left₀ _ hpos, add_sub_cancel]
  exact u8_natCast (x := 255) (by decide)

theorem ramp_identity {x : Nat} (h : x < 256) : ramp ⟨0, 0⟩ ⟨255, 255⟩ x = BitVec.ofNat 8 x := by
  obtain rfl | rfl | ⟨hlow, hhigh⟩ : x = 0 ∨ x = 255 ∨ 0 < x ∧ x < 255 := by omega
  · exact ramp_zero _ _
  · rw [ramp, if_neg (by decide), if_pos (le_refl 255), sub_self, zero_mul, zero_div, add_zero]
    exact u8_natCast h
  · rw [ramp, if_neg (Nat.not_le.mpr hlow), if_neg (Nat.not_le.mpr hhigh), curveBetween_identity, u8_natCast h]

theorem flat_identity {x : Nat} (h : x < 256) : flat ⟨0, 0⟩ ⟨255, 255⟩ x = BitVec.ofNat 8 x := by
  rw [flat, if_neg (Nat.not_lt_zero x), if_neg (show ¬ 255 < x by omega), if_neg (show ¬ 0 = 255 by decide),
    curveBetween_identity, u8_natCast h]

/-- A LUT build that ended with DONE wrote byte `x` of its curve at every `x` (R273, R274). -/
theorem exec_done_lutBuild {i : Instr} {s t : State} {curve : CurvePoint → CurvePoint → Nat → Byte} (ho : s.orderly)
    (hc : commandOf i s = lutBuild s curve) (hx : exec i s = .next t) (hd : t.done = true) {x : Nat} (h : x < 256) :
    t.mem.read (s.arg 0 + x) = curve (curvePoint s.args[1]) (curvePoint s.args[2]) x := by
  have hbody : (commandOf i s).body = (s.checkedReads [] >>= fun _ => (lutBuild s curve).body) := by rw [hc]; rfl
  rw [exec_done_mem ho hbody hx hd]
  exact read_fill_inside h

/-! ## The channels that LUT_APPLY maps (R275) -/

section
variable {ta hr hg hb ha : Bool} {s : State}

/-- R275: channel `c` goes through its LUT: HR, HG and HB with target rgb, HA with target alpha. -/
def lutUsed (ta hr hg hb ha : Bool) (c : Fin 4) : Bool :=
  [!ta && hr, !ta && hg, !ta && hb, ta && ha].getD c.val false

/-- R275: where the LUT of channel `c` stands, ARG4 to ARG7. -/
def lutBase (s : State) (c : Fin 4) : Nat := s.arg (Fin.ofNat 8 (4 + c.val))

theorem lutOf_of_used {c : Fin 4} (h : lutUsed ta hr hg hb ha c = true) :
    lutOf ta hr hg hb ha s c.val = some (lutBase s c) := by
  rw [lutOf_eq]
  exact if_pos h

theorem lutOf_of_unused {c : Fin 4} (h : lutUsed ta hr hg hb ha c = false) : lutOf ta hr hg hb ha s c.val = none := by
  rw [lutOf_eq]
  exact if_neg (Bool.eq_false_iff.mp h)

theorem lutOf_eq_some_iff {c : Fin 4} {base : Nat} :
    lutOf ta hr hg hb ha s c.val = some base ↔ lutUsed ta hr hg hb ha c = true ∧ lutBase s c = base := by
  cases h : lutUsed ta hr hg hb ha c with
  | true => simp [lutOf_of_used h]
  | false => simp [lutOf_of_unused h]

theorem mem_usedLuts_iff {l : UsedLut} :
    l ∈ usedLuts ta hr hg hb ha s ↔ lutUsed ta hr hg hb ha l.channel = true ∧ lutBase s l.channel = l.base :=
  (mem_usedLuts ta hr hg hb ha s l).trans lutOf_eq_some_iff

theorem usedLuts_pairwise_channel :
    (usedLuts ta hr hg hb ha s).Pairwise (fun u v => u.channel < v.channel) := by
  have hchannel : ∀ {c : Fin 4} {u : UsedLut},
      u ∈ (lutOf ta hr hg hb ha s c.val).map (fun base => (⟨c, base⟩ : UsedLut)) → u.channel = c := by
    intro c u hu
    obtain ⟨base, -, rfl⟩ := Option.map_eq_some_iff.mp hu
    rfl
  have hsorted : ([0, 1, 2, 3] : List (Fin 4)).Pairwise (· < ·) := by decide
  refine hsorted.filterMap _ fun c d hcd u hu v hv => ?_
  rwa [hchannel hu, hchannel hv]

/-- R275: a channel after LUT_APPLY. -/
theorem mapThroughLut_channel (ho : s.orderly) (c : Fin 4) (v : Byte) :
    mapThroughLut s (lutOf ta hr hg hb ha s c.val) v =
      if lutUsed ta hr hg hb ha c then s.mem.read (lutBase s c + v.toNat) else v := by
  cases h : lutUsed ta hr hg hb ha c with
  | true =>
    rw [lutOf_of_used h]
    exact byteAt_of_not_raced ho _
  | false =>
    rw [lutOf_of_unused h]
    rfl

/-- R276: a channel whose LUT, if it has one, is the identity stays as it is. -/
theorem mapThroughLut_identity (ho : s.orderly) {c : Fin 4}
    (h : lutUsed ta hr hg hb ha c = true → ∀ x, x < 256 → s.mem.read (lutBase s c + x) = BitVec.ofNat 8 x) (v : Byte) :
    mapThroughLut s (lutOf ta hr hg hb ha s c.val) v = v := by
  rw [mapThroughLut_channel ho]
  split
  · next hused => rw [h hused _ v.isLt, BitVec.ofNat_toNat, BitVec.setWidth_eq]
  · rfl

/-! ## The bytes that LUT_APPLY reads (R275) -/

section
variable {b w h : Nat} (hsrc : s.respondsOn b (4 * w * h))
  (hlut : ∀ c, lutUsed ta hr hg hb ha c = true → s.respondsOn (lutBase s c) 256)
include hsrc hlut

theorem responds_lutPixelReads {x y c : Nat} (hx : x < w) (hy : y < h) (hc : c < 4) :
    ∀ a ∈ lutPixelReads s (lutOf ta hr hg hb ha s) b w x y c, s.responds a = true := by
  have hbyte := responds_pixelAddress hsrc hx hy hc
  refine List.forall_mem_cons.mpr ⟨hbyte, ?_⟩
  cases hl : lutOf ta hr hg hb ha s c with
  | none => exact List.forall_mem_nil _
  | some base =>
    obtain ⟨hused, hbase⟩ := lutOf_eq_some_iff (c := ⟨c, hc⟩).mp hl
    rw [lutEntryRead, if_pos hbyte, ← hbase]
    exact List.forall_mem_singleton.mpr (hlut _ hused _ (BitVec.isLt _))

/-- The reads of the first pixel, if there is one (R333). -/
theorem responds_firstLutReads : ∀ a ∈ beforeFirstWrite (w * h) (lutPixelReads s (lutOf ta hr hg hb ha s) b w 0 0 0),
    s.responds a = true := by
  intro a ha
  obtain ⟨hpos, hmem⟩ := mem_beforeFirstWrite.mp ha
  obtain ⟨hw, hh⟩ := CanonicallyOrderedAdd.mul_pos.mp hpos
  exact responds_lutPixelReads hsrc hlut hw hh (by decide) a hmem

theorem responds_lutReads : ∀ a ∈ (rasterPositions w h).flatMap (fun (x, y) =>
    [0, 1, 2, 3].flatMap (fun c => lutPixelReads s (lutOf ta hr hg hb ha s) b w x y c)), s.responds a = true := by
  refine List.forall_mem_flatMap.mpr fun (x, y) hxy => List.forall_mem_flatMap.mpr fun c hc => ?_
  obtain ⟨hx, hy⟩ := mem_rasterPositions.mp hxy
  have hc : c < 4 := List.mem_range.mp (show c ∈ List.range 4 from hc)
  exact responds_lutPixelReads hsrc hlut hx hy hc

end

/-! ## The errors of the LUTs in channel order (R275, R336) -/

/-- Channel `c` is mapped through a LUT that a check `P` of its address refuses. -/
def lutRefused (ta hr hg hb ha : Bool) (s : State) (P : Nat → Prop) (c : Fin 4) : Prop :=
  lutUsed ta hr hg hb ha c = true ∧ ¬ P (lutBase s c)

/-- The first LUT in use that a check refuses belongs to the lowest channel it refuses. -/
theorem lutRefused_first {P : Nat → Prop} {p q : List UsedLut} {u : UsedLut}
    (hsplit : usedLuts ta hr hg hb ha s = p ++ u :: q) (hu : ¬ P u.base) (hp : ∀ v ∈ p, P v.base) :
    lutRefused ta hr hg hb ha s P u.channel ∧ ∀ d, d < u.channel → ¬ lutRefused ta hr hg hb ha s P d := by
  obtain ⟨hused, hbase⟩ := mem_usedLuts_iff.mp (hsplit ▸ List.mem_append_cons_self)
  refine ⟨⟨hused, hbase ▸ hu⟩, fun d hd ⟨hdused, hdP⟩ => ?_⟩
  have hmem : (⟨d, lutBase s d⟩ : UsedLut) ∈ p ++ u :: q := hsplit ▸ mem_usedLuts_iff.mpr ⟨hdused, rfl⟩
  obtain ⟨-, hsorted, -⟩ := List.pairwise_append.mp (hsplit ▸ usedLuts_pairwise_channel)
  have hlater : ∀ v ∈ q, u.channel < v.channel := fun _ => List.rel_of_pairwise_cons hsorted
  rcases List.mem_append.mp hmem with hin | hin
  · exact hdP (hp _ hin)
  · rcases List.mem_cons.mp hin with heq | hin
    · exact hd.ne (congrArg UsedLut.channel heq)
    · exact lt_asymm hd (hlater _ hin)

/-- The link of a check of every LUT in use, which names the first that it refuses. -/
theorem errorsAs_lutCheck {t : State} {P : Nat → Prop} {x : Except CmdError Unit} {e : Fin 4 → CmdError}
    {f : Unit → Except CmdError Effect} {rest : Prop}
    (hx : (x = .ok () ∧ ∀ u ∈ usedLuts ta hr hg hb ha s, P u.base) ∨
      ∃ p u q, usedLuts ta hr hg hb ha s = p ++ u :: q ∧ ¬ P u.base ∧ (∀ v ∈ p, P v.base) ∧ x = .error (e u.channel))
    (h : errorsAs s t (x >>= f)) (hrest : errorsAs s t (f ()) → rest) :
    whenElse (∃ c, lutRefused ta hr hg hb ha s P c)
      (∃ c, lutRefused ta hr hg hb ha s P c ∧ (∀ d, d < c → ¬ lutRefused ta hr hg hb ha s P d) ∧
        rejectedWith s t (e c).code ((e c).info (Config.freeWord s.draws 2))) rest := by
  obtain ⟨rfl, hall⟩ | ⟨p, u, q, hsplit, hu, hp, rfl⟩ := hx
  · refine whenElse_no ?_ (hrest h)
    rintro ⟨c, hused, hc⟩
    exact hc (hall ⟨c, lutBase s c⟩ (mem_usedLuts_iff.mpr ⟨hused, rfl⟩))
  · obtain ⟨hrefused, hfirst⟩ := lutRefused_first hsplit hu hp
    exact whenElse_yes ⟨_, hrefused⟩ ⟨_, hrefused, hfirst, h.1 _ rfl⟩

end

/-! ## The statements -/

/-- Settles O50: a build by its curve at the points (0, 0) and (255, 255) and at 0 and 255; LUT_APPLY
channel by channel. -/
theorem identityLutsLeaveChannels : Obligations.IdentityLutsLeaveChannels := by
  unfold Obligations.IdentityLutsLeaveChannels
  refine ⟨fun s ho h1 h2 i hi t hx hd x h => ?_, fun s ta hr hg hb ha ho hlut t hx hd x y c hxW hyH hc => ?_,
    fun s t ho hx hd => ⟨?_, fun h1 h2 => ?_⟩⟩
  · have hp1 : curvePoint s.args[1] = ⟨0, 0⟩ := by rw [h1]; decide
    have hp2 : curvePoint s.args[2] = ⟨255, 255⟩ := by rw [h2]; decide
    rcases List.mem_pair.mp hi with rfl | rfl
    · rw [exec_done_lutBuild (curve := ramp) ho rfl hx hd h, hp1, hp2, ramp_identity h]
    · rw [exec_done_lutBuild (curve := flat) ho rfl hx hd h, hp1, hp2, flat_identity h]
  · rw [exec_done_pixels ho rfl hx hd hxW hyH hc, mapThroughLut_identity (c := ⟨c, hc⟩) ho (hlut ⟨c, hc⟩)]
    exact byteAt_of_not_raced ho _
  · exact (exec_done_lutBuild (curve := ramp) ho rfl hx hd (x := 0) (by decide)).trans (ramp_zero _ _)
  · rw [← curvePoint_input] at h1 h2
    exact (exec_done_lutBuild (curve := ramp) ho rfl hx hd (by decide)).trans (ramp_255 h1 h2)

/-- Settles O51: the checks pass, every byte read is in the source or in a LUT in use, and a channel becomes what
`mapThroughLut_channel` says. -/
theorem lutApplyMapsChannels : Obligations.LutApplyMapsChannels := by
  unfold Obligations.LutApplyMapsChannels
  intro s ta hr hg hb ha ho W H used lut hbuf hluts hsrc hdst
  have hchecked : ∀ u ∈ usedLuts ta hr hg hb ha s, checkedBuffers u.base 256 (s.arg 3) (4 * W * H) := fun u hu => by
    obtain ⟨hused, hbase⟩ := mem_usedLuts_iff.mp hu
    exact hbase ▸ (hluts _ hused).1
  have hlut : ∀ c, lutUsed ta hr hg hb ha c = true → s.respondsOn (lutBase s c) 256 := fun c hc => (hluts c hc).2
  obtain ⟨t, hx, hdone, hpix⟩ := exec_pixels (i := .lutApply ta hr hg hb ha) ho
    (outcome_of_reads_ok (lutApply_checks_ok hbuf hchecked) rfl (responds_firstLutReads hsrc hlut))
    (responds_lutReads hsrc hlut) hdst
  refine ⟨t, hx, hdone, fun x y c hxW hyH => ?_⟩
  have hbyte : s.px (s.arg 0) W x y c.val = s.mem.read (pixelAddress (s.arg 0) W x y c.val) :=
    byteAt_of_not_raced ho _
  rw [hpix x y c hxW hyH c.isLt, hbyte, mapThroughLut_channel ho]
  rfl

/-- Settles O52: one link per check in the order of the pseudocode, the checks of the LUTs by `errorsAs_lutCheck`. -/
theorem lutApplyErrorsInOrder : Obligations.LutApplyErrorsInOrder := by
  unfold Obligations.LutApplyErrorsInOrder
  intro s ta hr hg hb ha ho n used lut bad laid
  obtain ⟨t, hx, h⟩ := exec_errorsAs (.lutApply ta hr hg hb ha) ho
  refine ⟨t, hx, ?_⟩
  simp only [Command.outcome, commandOf, cmdLutApply, bind_assoc] at h
  refine errorsAs_checkRange h fun _ h => errorsAs_checkRange h fun _ h => ?_
  refine errorsAs_lutCheck (P := fun a => inDataSpace a 256) (e := fun c => .addrRange (.lut c))
    (checkLutRanges_cases (usedLuts ta hr hg hb ha s)) h fun h => ?_
  refine errorsAs_checkOverlap h fun _ h => ?_
  exact errorsAs_lutCheck (P := fun a => disjointRegions a 256 (s.arg 3) n) (e := fun c => .overlap (.lut c))
    (checkLutOverlaps_cases _ _ (usedLuts ta hr hg hb ha s)) h fun h => errorsAs_checkedReads h

end Sys2Proof.Machine
end

section
/-! SUPPORT. CONV3X3 (R290 to R296): the value of a weight, which neighbour a weight weighs, the sum over a kernel with
one weight and over a scaled kernel, the bytes read, and the check of the weights. -/

namespace Sys2Proof.Machine

/-! ## Weights (R15, R107, R292) -/

/-- R15: the value of a word that is no infinity and no NaN, by its sign, exponent and fraction. -/
theorem binary32Value_finite {w : Word} (he : w.extractLsb' 23 8 ≠ 0xFF#8) : binary32Value w =
    (if w.getLsbD 31 then -1 else 1) *
      if binary32Exponent w = 0 then (binary32Fraction w : ℚ) / 2 ^ 149
      else (1 + (binary32Fraction w : ℚ) / 2 ^ 23) * (2 : ℚ) ^ ((binary32Exponent w : Int) - 127) := by
  rw [binary32Value, binary32_finite he]

theorem binary32Value_zero : binary32Value 0x00000000#32 = 0 := by
  rw [binary32Value_finite (by decide), if_pos (show binary32Exponent 0x00000000#32 = 0 by decide),
    show binary32Fraction 0x00000000#32 = 0 by decide, Nat.cast_zero, zero_div, mul_zero]

theorem binary32Value_one : binary32Value 0x3F800000#32 = 1 := by
  rw [binary32Value_finite (by decide), if_neg (by decide), if_neg (by decide),
    show binary32Fraction 0x3F800000#32 = 0 by decide, show binary32Exponent 0x3F800000#32 = 127 by decide]
  norm_num

theorem weightIndices_eq_finRange : weightIndices = List.finRange 9 := rfl

/-- A sum over the nine weights as a finite sum (R292, R295). -/
theorem sum_map_weightIndices (f : Fin 9 → ℚ) : (weightIndices.map f).sum = ∑ k, f k := by
  rw [weightIndices_eq_finRange, Fin.sum_univ_def]

/-- R292: the weight in use, by any statement that says where NORM normalises. -/
theorem effectiveWeight_eq {norm : ConvNorm} {p : Prop} [Decidable p] (h : norm ≠ .off ↔ p) (s : State) (k : Fin 9) :
    effectiveWeight norm s k = if p ∧ weightSum s ≠ 0 then s.weight k / weightSum s else s.weight k :=
  if_congr (and_congr_left' h) rfl rfl

/-! ## Neighbours (R290, R291) -/

section
variable {s : State} {b w h x y c : Nat}

/-- R290, R291: weight `3 j + i` weighs the neighbour at `(x + i - 1, y + j - 1)`, clamped to the edge. -/
theorem sample_eq_px (hx : x < w) (hy : y < h) (k : Fin 9) : sample s b w h x y c k =
    s.px b w (min (w - 1) (x + k.val % 3 - 1)) (min (h - 1) (y + k.val / 3 - 1)) c := by
  rw [sample, weightDx, weightDy, edgeClamp_eq (Nat.zero_lt_of_lt hx) hx, edgeClamp_eq (Nat.zero_lt_of_lt hy) hy]

/-- The middle column or row of the neighbourhood is the pixel's own. -/
theorem clamped_middle (hx : x < w) : min (w - 1) (x + 1 - 1) = x := by omega

theorem responds_convolutionReads {target : ConvTarget} {apass : Bool} (hr : s.respondsOn b (4 * w * h)) (hx : x < w)
    (hy : y < h) (hc : c < 4) : ∀ a ∈ convolutionReads target apass b w h x y c, s.responds a = true := by
  unfold convolutionReads
  split
  · exact List.forall_mem_map.mpr fun k _ => responds_pixelAddress hr (edgeClamp_lt (Nat.zero_lt_of_lt hx))
      (edgeClamp_lt (Nat.zero_lt_of_lt hy)) hc
  · exact List.forall_mem_singleton.mpr (responds_pixelAddress hr hx hy hc)

end

/-! ## On success (R290 to R293) -/

/-- The register checks of CONV3X3 pass (R295). -/
theorem convolveCommand_args_ok {target : ConvTarget} {norm : ConvNorm} {apass : Bool} {s : State}
    (hw : 0 < s.arg 1) (hh : 0 < s.arg 2) (hweights : checkWeights s = .ok ())
    (hbuf : checkedBuffers (s.arg 0) (4 * s.arg 1 * s.arg 2) (s.arg 3) (4 * s.arg 1 * s.arg 2)) :
    (convolveCommand target norm apass s).args = .ok () := by
  have hzero : (s.arg 1 == 0 || s.arg 2 == 0) = false := by simp [hw.ne', hh.ne']
  show (raiseIf (s.arg 1 == 0 || s.arg 2 == 0) .zeroArea >>= fun _ => checkWeights s >>= fun _ => _) = _
  rw [hzero, raiseIf_false, ok_bind, hweights, ok_bind]
  exact bufferChecks_ok hbuf

/-- Settles O53: the value of a weight; and a command that writes a PixelBuffer (`exec_pixels`), whose sums are written
out weight by weight. -/
theorem convolutionWritesPixels : Obligations.ConvolutionWritesPixels := by
  unfold Obligations.ConvolutionWritesPixels
  refine ⟨fun word hfinite => binary32Value_finite hfinite, ?_⟩
  intro s tgt norm apass ho htgt hnorm W H hW hH hfinite hbuf hsrc hdst w total w'
  obtain ⟨T, N, hcmd, hN, hconv⟩ := conv3x3_eq_convolveCommand htgt hnorm apass s
  have hargs : (convolveCommand T N apass s).args = .ok () :=
    convolveCommand_args_ok hW hH (checkWeights_ok hfinite) hbuf
  obtain ⟨t, hx, hdone, hpix⟩ := exec_pixels (i := .conv3x3 tgt norm apass) ho
    (hcmd ▸ outcome_of_reads_ok hargs rfl (responds_convolutionReads hsrc hW hH (by decide)))
    (List.forall_mem_flatMap.mpr fun (x, y) hxy => List.forall_mem_flatMap.mpr fun c hc =>
      have ⟨hxW, hyH⟩ := mem_rasterPositions.mp hxy
      responds_convolutionReads hsrc hxW hyH (List.mem_range.mp (show c ∈ List.range 4 from hc))) hdst
  refine ⟨t, hx, hdone, fun x y c hxW hyH hc => ?_⟩
  intro p term
  have htotal : weightSum s = total := sum_weightIndices _
  have hweight (k : Fin 9) : effectiveWeight N s k =
      if norm ≠ 0b01#2 ∧ total ≠ 0 then s.weight k / total else s.weight k := by
    rw [effectiveWeight_eq hN, htotal]
  have hsample (k : Fin 9) : sample s (s.arg 0) W H x y c k =
      p (min (W - 1) (x + k.val % 3 - 1)) (min (H - 1) (y + k.val / 3 - 1)) := by
    rw [sample_eq_px hxW hyH]
    exact byteAt_of_not_raced ho _
  have hsum : convolutionSum N s (s.arg 0) W H x y c =
      term 0 0 + term 0 1 + term 0 2 + term 1 0 + term 1 1 + term 1 2 + term 2 0 + term 2 1 + term 2 2 := by
    simp only [convolutionSum, sum_weightIndices, hweight, hsample]
    rfl
  rw [hpix x y c hxW hyH hc, hsum]
  exact if_congr (hconv c hc) rfl (byteAt_of_not_raced ho _)

/-! ## The errors in order (R294, R336) -/

/-- The weight check passes, or names the lowest weight that is an infinity or a NaN (R294). -/
theorem checkWeights_cases (s : State) :
    (checkWeights s = .ok () ∧ ∀ k : Fin 9, s.kernel[k].extractLsb' 23 8 ≠ 0xFF#8) ∨
    ∃ k : Fin 9, s.kernel[k].extractLsb' 23 8 = 0xFF#8 ∧
      (∀ j : Fin 9, j < k → s.kernel[j].extractLsb' 23 8 ≠ 0xFF#8) ∧ checkWeights s = .error (.badNum k.val) := by
  have hfind := Fin.find?_eq_find?_finRange (p := fun k : Fin 9 => binary32NonFinite s.kernel[k])
  rw [checkWeights, weightIndices_eq_finRange, ← hfind]
  cases hk : Fin.find? (fun k : Fin 9 => binary32NonFinite s.kernel[k]) with
  | none =>
    refine .inl ⟨rfl, fun k => mt (binary32NonFinite_iff _).mpr ?_⟩
    exact Bool.eq_false_iff.mp (Fin.find?_eq_none_iff.mp hk k)
  | some k =>
    obtain ⟨hbad, hlow⟩ := Fin.find?_eq_some_iff.mp hk
    refine .inr ⟨k, (binary32NonFinite_iff _).mp hbad, fun j hj => mt (binary32NonFinite_iff _).mpr ?_, rfl⟩
    exact Bool.eq_false_iff.mp (hlow j hj)

/-- The link of the weight check. -/
theorem errorsAs_checkWeights {s t : State} {f : Unit → Except CmdError Effect} {rest : Prop}
    (h : errorsAs s t (checkWeights s >>= f)) (hrest : errorsAs s t (f ()) → rest) :
    whenElse (∃ k : Fin 9, s.kernel[k].extractLsb' 23 8 = 0xFF#8)
      (∃ k : Fin 9, s.kernel[k].extractLsb' 23 8 = 0xFF#8 ∧
        (∀ j : Fin 9, j < k → ¬ s.kernel[j].extractLsb' 23 8 = 0xFF#8) ∧
        rejectedWith s t 0x06#8 (BitVec.ofNat 32 k.val)) rest := by
  obtain ⟨hok, hfinite⟩ | ⟨k, hbad, hlow, herror⟩ := checkWeights_cases s
  · rw [hok, ok_bind] at h
    exact whenElse_no (not_exists.mpr hfinite) (hrest h)
  · rw [herror] at h
    exact whenElse_yes ⟨k, hbad⟩ ⟨k, hbad, hlow, h.1 _ rfl⟩

/-- Settles O54: one link per check, in the order of the pseudocode. -/
theorem convolutionErrorsInOrder : Obligations.ConvolutionErrorsInOrder := by
  unfold Obligations.ConvolutionErrorsInOrder
  intro s tgt norm apass ho htgt hnorm n bad
  obtain ⟨T, N, hcmd, -, -⟩ := conv3x3_eq_convolveCommand htgt hnorm apass s
  obtain ⟨t, hx, h⟩ := exec_errorsAs (.conv3x3 tgt norm apass) ho
  refine ⟨t, hx, ?_⟩
  rw [hcmd] at h
  simp only [Command.outcome, convolveCommand, bind_assoc] at h
  exact errorsAs_raiseIf (by simp) h fun _ h => errorsAs_checkWeights h fun h => errorsAs_checkRange h fun _ h =>
    errorsAs_checkRange h fun _ h => errorsAs_checkOverlap h fun _ h => errorsAs_checkedReads h

/-! ## A CONV3X3 that ended with DONE -/

section
variable {s t : State} {tgt norm : BitVec 2} {apass : Bool} {T : ConvTarget} {N : ConvNorm}

theorem commandOf_conv3x3 (hT : convTarget tgt = some T) (hN : convNorm norm = some N) :
    commandOf (.conv3x3 tgt norm apass) s = convolveCommand T N apass s := by
  show cmdConv3x3 tgt norm apass s = _
  rw [cmdConv3x3, hT, hN]

/-- A reserved field is BAD_CMD (R102, R109). -/
theorem commandOf_conv3x3_reserved (h : convTarget tgt = none ∨ convNorm norm = none) :
    commandOf (.conv3x3 tgt norm apass) s = badCommand s.cmd := by
  show cmdConv3x3 tgt norm apass s = _
  unfold cmdConv3x3
  split
  · next hT hN => simp [hT, hN] at h
  · rfl

/-- A CONV3X3 that ended with DONE had neither field reserved, and finite weights (R109, R294). -/
theorem conv3x3_fields_of_done (ho : s.orderly) (hx : exec (.conv3x3 tgt norm apass) s = .next t)
    (hd : t.done = true) :
    ∃ T N, convTarget tgt = some T ∧ convNorm norm = some N ∧ checkWeights s = .ok () := by
  obtain ⟨e, hout, -⟩ := exec_done_fills ho hx hd
  obtain ⟨hargs, -⟩ := outcome_ok_iff.mp hout
  by_cases hreserved : convTarget tgt = none ∨ convNorm norm = none
  · rw [commandOf_conv3x3_reserved hreserved] at hargs
    cases hargs
  · obtain ⟨hT, hN⟩ := not_or.mp hreserved
    obtain ⟨T, hT⟩ := Option.ne_none_iff_exists'.mp hT
    obtain ⟨N, hN⟩ := Option.ne_none_iff_exists'.mp hN
    rw [commandOf_conv3x3 hT hN] at hargs
    simp only [convolveCommand, bind_ok_iff] at hargs
    obtain ⟨_, -, _, hweights, -⟩ := hargs
    exact ⟨T, N, hT, hN, hweights⟩

theorem exec_done_conv3x3 (ho : s.orderly) (hT : convTarget tgt = some T) (hN : convNorm norm = some N)
    (hx : exec (.conv3x3 tgt norm apass) s = .next t) (hd : t.done = true) {x y c : Nat} (hxW : x < s.arg 1)
    (hyH : y < s.arg 2) (hc : c < 4) :
    t.mem.read (pixelAddress (s.arg 3) (s.arg 1) x y c) =
      if convolved T apass c then u8 (convolutionSum N s (s.arg 0) (s.arg 1) (s.arg 2) x y c)
      else s.mem.read (pixelAddress (s.arg 0) (s.arg 1) x y c) := by
  have hpix := exec_done_pixels ho (congrArg Command.body (commandOf_conv3x3 hT hN)) hx hd hxW hyH hc
  rwa [show s.px (s.arg 0) (s.arg 1) x y c = _ from byteAt_of_not_raced ho _] at hpix

/-! ## Kernels with one weight (R296) -/

/-- R293: target rgba without APASS convolves every channel. -/
theorem convolved_rgba (c : Nat) : convolved .rgba false c = true := Bool.or_true _

/-- Weight `j` is 1 and the others are 0. -/
def State.unitKernelAt (s : State) (j : Fin 9) : Prop :=
  ∀ k : Fin 9, s.kernel[k] = if k = j then 0x3F800000#32 else 0#32

theorem weight_of_unitKernelAt {j : Fin 9} (h : s.unitKernelAt j) (k : Fin 9) :
    s.weight k = if k = j then 1 else 0 := by
  rw [State.weight, h k, apply_ite binary32Value, binary32Value_one, binary32Value_zero]

/-- The weights sum to 1, so that NORM does not matter. -/
theorem effectiveWeight_of_unitKernelAt {j : Fin 9} (h : s.unitKernelAt j) (k : Fin 9) :
    effectiveWeight N s k = if k = j then 1 else 0 := by
  have hsum : weightSum s = 1 := by
    rw [weightSum, sum_map_weightIndices, funext (weight_of_unitKernelAt h),
      Finset.sum_ite_eq', if_pos (Finset.mem_univ j)]
  rw [effectiveWeight, hsum, div_one, ite_self, weight_of_unitKernelAt h]

/-- The convolution is the one neighbour that the weight weighs. -/
theorem convolutionSum_of_unitKernelAt {j : Fin 9} (h : s.unitKernelAt j) (b width height x y c : Nat) :
    convolutionSum N s b width height x y c = byteRat (sample s b width height x y c j) := by
  simp only [convolutionSum, sum_map_weightIndices, effectiveWeight_of_unitKernelAt h, ite_mul, one_mul, zero_mul,
    Finset.sum_ite_eq', Finset.mem_univ, if_true]

/-- A channel after a convolution with one weight: the neighbour that it weighs, or the channel itself. -/
theorem exec_done_unitKernel {j : Fin 9} (ho : s.orderly) (hj : s.unitKernelAt j) (hT : convTarget tgt = some T)
    (hN : convNorm norm = some N) (hx : exec (.conv3x3 tgt norm apass) s = .next t) (hd : t.done = true)
    {x y c : Nat} (hxW : x < s.arg 1) (hyH : y < s.arg 2) (hc : c < 4) :
    t.mem.read (pixelAddress (s.arg 3) (s.arg 1) x y c) =
      if convolved T apass c then
        s.mem.read (pixelAddress (s.arg 0) (s.arg 1) (min (s.arg 1 - 1) (x + j.val % 3 - 1))
          (min (s.arg 2 - 1) (y + j.val / 3 - 1)) c)
      else s.mem.read (pixelAddress (s.arg 0) (s.arg 1) x y c) := by
  rw [exec_done_conv3x3 ho hT hN hx hd hxW hyH hc, convolutionSum_of_unitKernelAt hj, u8_byteRat,
    sample_eq_px hxW hyH, State.px, byteAt_of_not_raced ho]

/-- An rgba convolution without APASS takes every channel from the neighbour (R293). -/
theorem exec_done_unitKernel_rgba {j : Fin 9} (ho : s.orderly) (hj : s.unitKernelAt j)
    (hx : exec (.conv3x3 0b10#2 norm false) s = .next t) (hd : t.done = true)
    {x y c : Nat} (hxW : x < s.arg 1) (hyH : y < s.arg 2) (hc : c < 4) :
    t.mem.read (pixelAddress (s.arg 3) (s.arg 1) x y c) =
      s.mem.read (pixelAddress (s.arg 0) (s.arg 1) (min (s.arg 1 - 1) (x + j.val % 3 - 1))
        (min (s.arg 2 - 1) (y + j.val / 3 - 1)) c) := by
  obtain ⟨T, N, hT, hN, -⟩ := conv3x3_fields_of_done ho hx hd
  obtain rfl : ConvTarget.rgba = T := Option.some.inj hT
  rw [exec_done_unitKernel ho hj hT hN hx hd hxW hyH hc, if_pos (convolved_rgba c)]

/-! ## Scaled kernels (R296) -/

theorem norm_of_convNorm_off : convNorm norm = some .off → norm = 0b01#2 := by
  revert norm
  decide

/-- The state with its kernel replaced. -/
def State.withKernel (s : State) (kernel : Vector Word 9) : State := { s with kernel := kernel }

theorem weightSum_scaled {u : State} {scale : ℚ} (h : ∀ k, u.weight k = scale * s.weight k) :
    weightSum u = scale * weightSum s := by
  rw [weightSum, weightSum, sum_map_weightIndices, sum_map_weightIndices, Finset.mul_sum]
  exact Finset.sum_congr rfl fun k _ => h k

/-- R296: a factor of every weight cancels where the weights are divided by their sum. -/
theorem effectiveWeight_scaled {u : State} {scale : ℚ} (hN : N ≠ .off) (hscale : scale ≠ 0)
    (h : ∀ k, u.weight k = scale * s.weight k) (hsum : weightSum s ≠ 0) (k : Fin 9) :
    effectiveWeight N u k = effectiveWeight N s k := by
  have husum : weightSum u ≠ 0 := weightSum_scaled h ▸ mul_ne_zero hscale hsum
  rw [effectiveWeight, effectiveWeight, if_pos ⟨hN, husum⟩, if_pos ⟨hN, hsum⟩, weightSum_scaled h, h k,
    mul_div_mul_left _ _ hscale]

/-- CONV3X3 depends on the kernel only through the check of the weights and the weights in use (R292, R294). -/
theorem convolveCommand_withKernel {kernel : Vector Word 9}
    (hcheck : checkWeights (s.withKernel kernel) = checkWeights s)
    (hweight : ∀ k, effectiveWeight N (s.withKernel kernel) k = effectiveWeight N s k) :
    convolveCommand T N apass (s.withKernel kernel) = convolveCommand T N apass s := by
  have hsum : convolutionSum N (s.withKernel kernel) = convolutionSum N s := by
    funext b width height x y c
    simp only [convolutionSum, hweight]
    rfl
  simp only [convolveCommand, hcheck, hsum]
  rfl

/-- The same command, ended with DONE, leaves the same memory whatever the kernel is (R91). -/
theorem exec_done_mem_withKernel {i : Instr} {kernel : Vector Word 9} {v : State} (ho : s.orderly)
    (hcmd : commandOf i (s.withKernel kernel) = commandOf i s) (hx : exec i s = .next t) (hd : t.done = true)
    (hxu : exec i (s.withKernel kernel) = .next v) : v.mem = t.mem := by
  obtain ⟨e, hout, hresp, hmem, -⟩ := exec_done_fills ho hx hd
  rw [exec_succeed (s := s.withKernel kernel) ho (hcmd ▸ hout) hresp] at hxu
  cases hxu
  exact hmem.symm

end

/-- Settles O55: the one neighbour of a kernel with one weight (`exec_done_unitKernel`), which for the middle weight is the
pixel itself; and the weights in use of a scaled kernel (`effectiveWeight_scaled`). -/
theorem convolutionProperties : Obligations.ConvolutionProperties := by
  unfold Obligations.ConvolutionProperties
  refine ⟨fun s t tgt norm apass ho hk hx hd x y c hxW hyH hc => ?_, fun s t norm ho hk hx hd x y c hxW hyH hc => ?_,
    fun s t norm ho hk hx hd x y c hxW hyH hc => ?_, ?_⟩
  · obtain ⟨T, N, hT, hN, -⟩ := conv3x3_fields_of_done ho hx hd
    have hcol : min (s.arg 1 - 1) (x + (4 : Fin 9).val % 3 - 1) = x := clamped_middle hxW
    have hrow : min (s.arg 2 - 1) (y + (4 : Fin 9).val / 3 - 1) = y := clamped_middle hyH
    rw [exec_done_unitKernel (j := 4) ho hk hT hN hx hd hxW hyH hc, hcol, hrow, ite_self]
  · have hcol : min (s.arg 1 - 1) (x + (5 : Fin 9).val % 3 - 1) = min (x + 1) (s.arg 1 - 1) := min_comm _ _
    have hrow : min (s.arg 2 - 1) (y + (5 : Fin 9).val / 3 - 1) = y := clamped_middle hyH
    rw [exec_done_unitKernel_rgba (j := 5) ho hk hx hd hxW hyH hc, hcol, hrow]
  · have hcol : min (s.arg 1 - 1) (x + (7 : Fin 9).val % 3 - 1) = x := clamped_middle hxW
    have hrow : min (s.arg 2 - 1) (y + (7 : Fin 9).val / 3 - 1) = min (y + 1) (s.arg 2 - 1) := min_comm _ _
    rw [exec_done_unitKernel_rgba (j := 7) ho hk hx hd hxW hyH hc, hcol, hrow]
  · intro s u t v tgt norm apass scale ho hnorm hscale hu hfinite hvalue hsum hx hd hxu
    obtain ⟨kernel, rfl⟩ : ∃ kernel, u = s.withKernel kernel := ⟨_, hu⟩
    obtain ⟨T, N, hT, hN, hcheck⟩ := conv3x3_fields_of_done ho hx hd
    have hoff : N ≠ .off := fun h => hnorm (norm_of_convNorm_off (h ▸ hN))
    have hcheckU : checkWeights (s.withKernel kernel) = .ok () :=
      checkWeights_ok fun k => mt (binary32NonFinite_iff _).mpr (Bool.eq_false_iff.mp (hfinite k))
    have htotal : weightSum s ≠ 0 := by
      rw [weightSum, sum_weightIndices]
      exact hsum
    have hweight := effectiveWeight_scaled hoff hscale hvalue htotal
    have hcmd : commandOf (.conv3x3 tgt norm apass) (s.withKernel kernel) =
        commandOf (.conv3x3 tgt norm apass) s := by
      rw [commandOf_conv3x3 hT hN, commandOf_conv3x3 hT hN]
      exact convolveCommand_withKernel (hcheckU.trans hcheck.symm) hweight
    exact exec_done_mem_withKernel ho hcmd hx hd hxu

end Sys2Proof.Machine
end

section
/-! SUPPORT. Completion and control (R310 to R318, R380): the decoded command in the engine's turn, what a CMD write and
NOP do, the shape of every completion, which bytes a transition can change, and how a run with a command in flight ends;
with the statements that rest on them (O4, O6, O18, O19, O20, O27). -/

namespace Sys2Proof.Machine

/-! ## The engine's turn (R311, R318) -/

/-- R311: the engine's turn on a word that decodes is exec of what it decodes to. -/
theorem engineTurn_of_decode {s : State} {i : Instr} (hb : s.busy = true) (hd : decode s.cmd = .ok i) :
    engineTurn s = exec i s := by
  rw [engineTurn_eq, if_pos hb, inFlight_of_decode hd, exec_eq]

theorem step_of_no_event {s : State} (h : s.events = []) : step s = engineTurn s := by
  rw [step, nextTransition, h]

theorem step_of_event {s : State} {e : Event} {rest : List Event} (h : s.events = e :: rest) :
    step s = runEvent e { s with events := rest } := by
  rw [step, nextTransition, h]

/-- R100: every 32-bit word is the command word of its own bits. -/
theorem tableCommandWord_toNat (w : Word) : tableCommandWord 32 w.toNat = some w := by
  have hmod : w.toNat % 2 ^ 32 = w.toNat := Nat.mod_eq_of_lt w.isLt
  rw [tableCommandWord, hmod, if_pos w.isLt, BitVec.ofNat_toNat, BitVec.setWidth_eq]

theorem withFetchWord_toNat (s : State) (w : Word) : s.withFetchWord 32 w.toNat = s.placeCommand w := by
  rw [State.withFetchWord, tableCommandWord_toNat]

/-- R53, R310: after a placed command the engine's turn comes first, on the issued state. -/
theorem step_placeCommand (s : State) (w : Word) : step (s.placeCommand w) = engineTurn (s.issue w) :=
  step_of_event (s := s.placeCommand w) (e := .engine) (rest := s.events) rfl

/-- Settles O4: each of the three steps is the engine's turn on a state whose CMD holds the word. -/
theorem stepRunsDecodedCommand : Obligations.StepRunsDecodedCommand := by
  unfold Obligations.StepRunsDecodedCommand
  refine ⟨fun s i rest hb hd => ⟨fun hnone => ?_, fun hengine => ?_⟩, fun s w i hd => ?_⟩
  · rw [step_of_no_event hnone, engineTurn_of_decode hb hd]
  · rw [step_of_event hengine]
    exact engineTurn_of_decode (s := { s with events := rest }) hb hd
  · rw [withFetchWord_toNat, step_placeCommand]
    exact engineTurn_of_decode (issue_busy s w) hd

/-! ## A CMD write (R310) -/

/-- R33, R310: issue lowers the interrupt line, because it clears DONE and ERR. -/
theorem issue_irq (s : State) (w : Word) : (s.issue w).irq = false := by
  rw [State.irq, issue_done, issue_err, Bool.or_false, Bool.and_false]

/-- Settles O6: issue by `busWrite_cmd_idle`, the overrun by `busWrite_cmd_busy`. -/
theorem cmdWriteIssuesWhenIdle : Obligations.CmdWriteIssuesWhenIdle := by
  unfold Obligations.CmdWriteIssuesWhenIdle
  intro s w hr
  refine ⟨fun hb => ⟨s.issue w, busWrite_cmd_idle hr w hb, ?_⟩, busWrite_cmd_busy hr w⟩
  exact ⟨rfl, rfl, rfl, rfl, rfl, rfl, rfl, issue_irq s w, rfl, rfl, rfl, ⟨rfl, rfl⟩, rfl, rfl, rfl, rfl, rfl, rfl,
    hr⟩

/-! ## NOP (R313) -/

/-- R103: with OP 0 only the zero word decodes, because NOP has no OPT field. -/
theorem eq_zero_of_decode_opcode_zero {w : Word} {i : Instr} (hop : opField w = 0x00#8) (h : decode w = .ok i) :
    w = 0x00000000#32 := by
  obtain ⟨hres, hdecode⟩ := decode_ok_iff.mp h
  rw [hop] at hdecode
  obtain ⟨hopt, -⟩ := withoutOption_ok_iff.mp hdecode
  exact word_eq_of_fields hres hopt hop

/-- R35, R312: what STATUS reads after a success where OVR is 0. -/
theorem statusWord_of_completedWith {s t : State} {result0 result1 : Word} (h : completedWith s t result0 result1)
    (ho : s.ovr = false) : t.statusWord = 0x00000002#32 := by
  obtain ⟨hdone, herr, hcode, -, -, -, hphase, -, -, -, -, -, hovr, -⟩ := h
  rw [State.statusWord, busy_of_phase_idle hphase, hdone, herr, hcode, hovr, ho]
  decide

/-- Settles O27: the zero word alone by `eq_zero_of_decode_opcode_zero`, the completion as that of any command on
registers alone (`exec_register`). -/
theorem nopOnlyCompletes : Obligations.NopOnlyCompletes := by
  unfold Obligations.NopOnlyCompletes
  refine ⟨rfl, fun w hop hne => ?_, fun s ho => ?_⟩
  · cases hd : decode w with
    | ok i => exact absurd (eq_zero_of_decode_opcode_zero hop hd) hne
    | error e => exact ⟨e, rfl⟩
  · obtain ⟨t, hx, hdone, hmem, hpixout, hfout⟩ := exec_register (i := .nop) (e := Effect.none) ho rfl rfl rfl
    exact ⟨t, hx, hdone, ⟨hpixout, hfout⟩, hmem, statusWord_of_completedWith hdone⟩

/-! ## The shape of every completion (R311, R312, R330) -/

/-- R44 to R46, R48: no completion changes an operand, CMD, IE or OVR. -/
theorem sameOperands_complete (c : Command) (s : State) : sameOperands s (s.complete c) :=
  ⟨complete_args c s, complete_kernel c s, complete_pixin c s, complete_fin c s, complete_ie c s, complete_ovr c s,
    complete_cmd c s, complete_inReset c s, complete_platform c s, complete_events c s, complete_readData c s⟩

/-- Settles O19: exec is the completion of the instruction's command (`exec_eq`), and completions have this shape. -/
theorem everyCommandCompletes : Obligations.EveryCommandCompletes := by
  unfold Obligations.EveryCommandCompletes
  intro i s
  exact ⟨_, exec_eq i s, sameOperands_complete _ s, complete_phase _ s, complete_code _ s, completes_shape _ s⟩

/-! ## Which bytes a transition can change (R87, R90, R318, R372) -/

/-- R71: a write changes one byte. -/
theorem eq_of_read_write_ne {m : Memory} {a d : Nat} {b : Byte} (h : (m.write d b).read a ≠ m.read a) : a = d :=
  by_contra fun hne => h (read_write_other hne)

/-- R78, R90: the command in flight writes only its destination, and none of its sources. -/
theorem sound_inFlight (s : State) : s.inFlight.Sound := sound_word s.cmd s

/-- R90: a completion leaves every byte outside the destination of a sound command, also once R89 is broken. -/
theorem destination_of_complete_mem_ne {c : Command} (hc : c.Sound) {s : State} {a : Nat}
    (h : (s.complete c).mem.read a ≠ s.mem.read a) : c.destination.contains a = true := by
  obtain heq | ⟨r, f, heq, hr⟩ := complete_mem_cases c s
  · exact absurd (by rw [heq]) h
  · by_contra hout
    have hra : r.contains a = false := Bool.eq_false_iff.mpr fun ha => hout (region_in_dest hc hr ha)
    exact h (by rw [heq, read_fill_of_not_contains hra])

/-- R372: a soft reset changes only destination bytes of the command that it abandons. -/
theorem destination_of_softReset_mem_ne {s : State} {a : Nat} (h : s.softReset.mem.read a ≠ s.mem.read a) :
    s.busy = true ∧ s.inFlight.destination.contains a = true := by
  obtain heq | ⟨hb, heq⟩ := softReset_mem s
  · exact absurd (by rw [heq]) h
  · refine ⟨hb, abandoned_in_dest (sound_inFlight s) (s := s) ?_⟩
    by_contra hout
    exact h (by rw [heq, read_scatter_outside (mt contains_iff.mpr hout)])

/-- CTRL.IE is nothing that the command in flight can see. -/
theorem inFlight_setIE (s : State) (v : Word) : (s.setIE v).inFlight = s.inFlight := by
  rw [State.inFlight, State.inFlight, setIE_cmd, commandOfWord, commandOfWord]
  cases decode s.cmd with
  | ok i => exact commandOf_congr (s := s.setIE v) (u := s) rfl
  | error _ => rfl

@[simp] theorem softReset_platform (s : State) : s.softReset.platform = s.platform := by
  rw [State.softReset, resetRegisters_platform, State.abandonInFlight]
  split <;> rfl

@[simp] theorem softReset_events (s : State) : s.softReset.events = s.events := by
  rw [State.softReset, resetRegisters_events, State.abandonInFlight]
  split <;> rfl

section
variable {s t : State} {e : Event}

/-- R7, R373: no transition changes a platform parameter. -/
theorem Transition.platform_kept (h : Transition s e t) : t.platform = s.platform := by
  cases h with
  | completion hb => exact complete_platform _ s
  | softReset v hv => exact softReset_platform (s.setIE v)
  | resetAssert => exact softReset_platform s
  | _ => rfl

/-- No transition changes the queue that its event was taken off. -/
theorem Transition.events_kept (h : Transition s e t) : t.events = s.events := by
  cases h with
  | completion hb => exact complete_events _ s
  | softReset v hv => exact softReset_events (s.setIE v)
  | resetAssert => exact softReset_events s
  | _ => rfl

/-- R87, R90, R318: the two host writes, the completion and the two resets are the transitions that reach memory. -/
theorem Transition.mem_changes (h : Transition s e t) {a : Nat} (hne : t.mem.read a ≠ s.mem.read a) :
    (e = .engine ∧ s.busy = true ∧ s.inFlight.destination.contains a = true) ∨
    (∃ b, e = .memWrite a b) ∨
    (s.busy = true ∧ s.inFlight.destination.contains a = true ∧
      (e = .resetAssert ∨ ∃ v, e = .busWrite (s.platform.base + 0x04) 32 v ∧ v.getLsbD 31 = true)) := by
  cases h with
  | completion hb => exact .inl ⟨rfl, hb, destination_of_complete_mem_ne (sound_inFlight s) hne⟩
  | memWrite d b hd => exact .inr (.inl ⟨b, by rw [eq_of_read_write_ne hne]⟩)
  | firstRace d b hd hp => exact .inr (.inl ⟨b, by rw [eq_of_read_write_ne hne]⟩)
  | softReset v hv =>
    obtain ⟨hb, hdest⟩ := destination_of_softReset_mem_ne (s := s.setIE v) hne
    rw [inFlight_setIE] at hdest
    exact .inr (.inr ⟨hb, hdest, .inr ⟨v, rfl, hv⟩⟩)
  | resetAssert =>
    obtain ⟨hb, hdest⟩ := destination_of_softReset_mem_ne hne
    exact .inr (.inr ⟨hb, hdest, .inl rfl⟩)
  | _ => exact absurd rfl hne

end

/-- Settles O18: both halves are read off the cases of `Transition`. -/
theorem memoryChangesOnlyByHostOrCompletion : Obligations.MemoryChangesOnlyByHostOrCompletion := by
  unfold Obligations.MemoryChangesOnlyByHostOrCompletion
  intro s e t h
  have ht := runEvent_transition h
  exact ⟨ht.platform_kept, fun a => ht.mem_changes⟩

/-! ## Which event stops a run (R52; log entry 14) -/

/-- The event is a host access to a data address at or above 2^32, and the fault names the address. -/
def Fault.RaisedBy (f : Fault) (e : Event) : Prop :=
  ∃ a, f = .noDataByte a ∧ dataSpace ≤ a ∧ (e = .memRead a ∨ ∃ b, e = .memWrite a b)

/-- An access to which R52 gives no meaning, or one outside the window at `base`, with the refusal that names it. -/
def Refusal.RaisedByAccess (r : Refusal) (base address width : Nat) : Prop :=
  (r = .outsideWindow address ∧ ¬ (base ≤ address ∧ address < base + 0x100)) ∨
    (r = .portAccess address width ∧ base ≤ address ∧ address < base + 0x100 ∧
      (width ≠ 32 ∨ (address - base) % 4 ≠ 0))

/-- The event is such an access. -/
def Refusal.RaisedBy (r : Refusal) (base : Nat) (e : Event) : Prop :=
  ∃ address width, (e = .busRead address width ∨ ∃ v, e = .busWrite address width v) ∧
    r.RaisedByAccess base address width

theorem inWindow_iff {s : State} {address : Nat} :
    s.inWindow address = true ↔ s.platform.base ≤ address ∧ address < s.platform.base + 0x100 := by
  simp [State.inWindow]

theorem wordAccess_iff {s : State} {address width : Nat} :
    s.wordAccess address width = true ↔ width = 32 ∧ (address - s.platform.base) % 4 = 0 := by
  simp [State.wordAccess]

/-- An access outside the window is refused as such. -/
theorem raisedByAccess_outsideWindow {s : State} {address width : Nat} (h : (!s.inWindow address) = true) :
    Refusal.RaisedByAccess (.outsideWindow address) s.platform.base address width :=
  .inl ⟨rfl, fun hw => by rw [inWindow_iff.mpr hw] at h; exact Bool.false_ne_true h⟩

/-- An access in the window that is not 32 bits wide or not word-aligned is refused as such. -/
theorem raisedByAccess_portAccess {s : State} {address width : Nat} (hw : ¬ (!s.inWindow address) = true)
    (h : (!s.wordAccess address width) = true) :
    Refusal.RaisedByAccess (.portAccess address width) s.platform.base address width := by
  rw [Bool.not_eq_true, Bool.not_eq_false'] at hw
  rw [Bool.not_eq_true', ← Bool.not_eq_true, wordAccess_iff, not_and_or] at h
  obtain ⟨hlo, hhi⟩ := inWindow_iff.mp hw
  exact .inr ⟨rfl, hlo, hhi, h⟩

/-- A register read is answered, or refused by its address or its width. -/
theorem busRead_cases (s : State) (address width : Nat) : (∃ t, busRead address width s = .next t) ∨
    ∃ r, busRead address width s = .refused r ∧ r.RaisedByAccess s.platform.base address width := by
  unfold busRead
  split
  · next hw => exact .inr ⟨_, rfl, raisedByAccess_outsideWindow hw⟩
  · next hw =>
    split
    · next ha => exact .inr ⟨_, rfl, raisedByAccess_portAccess hw ha⟩
    · exact .inl ⟨_, rfl⟩

/-- So is a register write. -/
theorem busWrite_cases (s : State) (address width : Nat) (v : Word) : (∃ t, busWrite address width v s = .next t) ∨
    ∃ r, busWrite address width v s = .refused r ∧ r.RaisedByAccess s.platform.base address width := by
  unfold busWrite
  split
  · next hw => exact .inr ⟨_, rfl, raisedByAccess_outsideWindow hw⟩
  · next hw =>
    split
    · next ha => exact .inr ⟨_, rfl, raisedByAccess_portAccess hw ha⟩
    · split <;> exact .inl ⟨_, rfl⟩

theorem hostMemRead_next {s : State} {a : Nat} (ha : a < dataSpace) : ∃ t, hostMemRead a s = .next t := by
  cases h : s.hidden a
  · exact ⟨_, hostMemRead_plain ha h⟩
  · exact ⟨_, hostMemRead_hidden ha h⟩

theorem hostMemWrite_next {s : State} {a : Nat} (ha : a < dataSpace) (b : Byte) :
    ∃ t, hostMemWrite a b s = .next t := by
  rw [hostMemWrite, if_neg (Nat.not_le_of_lt ha)]
  exact ⟨_, rfl⟩

/-- R318: every event is answered, but for the host accesses that stop the run. -/
theorem runEvent_cases (e : Event) (s : State) : (∃ t, runEvent e s = .next t) ∨
    (∃ f, runEvent e s = .fault f ∧ f.RaisedBy e) ∨
    ∃ r, runEvent e s = .refused r ∧ r.RaisedBy s.platform.base e := by
  cases e with
  | engine =>
    rw [runEvent, engineTurn_eq]
    split <;> exact .inl ⟨_, rfl⟩
  | busWrite address width v =>
    obtain hnext | ⟨r, hx, hr⟩ := busWrite_cases s address width v
    · exact .inl hnext
    · exact .inr (.inr ⟨r, hx, address, width, .inr ⟨v, rfl⟩, hr⟩)
  | busRead address width =>
    obtain hnext | ⟨r, hx, hr⟩ := busRead_cases s address width
    · exact .inl hnext
    · exact .inr (.inr ⟨r, hx, address, width, .inl rfl, hr⟩)
  | memWrite a b =>
    obtain ha | ha := Nat.lt_or_ge a dataSpace
    · exact .inl (hostMemWrite_next ha b)
    · exact .inr (.inl ⟨_, hostMemWrite_fault ha b, a, rfl, ha, .inr ⟨b, rfl⟩⟩)
  | memRead a =>
    obtain ha | ha := Nat.lt_or_ge a dataSpace
    · exact .inl (hostMemRead_next ha)
    · exact .inr (.inl ⟨_, hostMemRead_fault ha, a, rfl, ha, .inl rfl⟩)
  | resetAssert => exact .inl ⟨_, rfl⟩
  | resetRelease => exact .inl ⟨_, rfl⟩

/-! ## How a run with a command in flight ends (R311, R380) -/

/-- What a run from `s` may end with: an idle engine, or the stop that one of the waiting events raises. -/
inductive State.RunEnds (s : State) : Host.Outcome State Fault Refusal → Prop
  | idle (t : State) (h : t.busy = false) : s.RunEnds (.next t)
  | fault (e : Event) (f : Fault) (he : e ∈ s.events) (hf : f.RaisedBy e) : s.RunEnds (.fault f)
  | refused (e : Event) (r : Refusal) (he : e ∈ s.events) (hr : r.RaisedBy s.platform.base e) : s.RunEnds (.refused r)

/-- A run that goes on after one event ends as the rest of it does. -/
theorem State.RunEnds.of_next {s t : State} {o : Host.Outcome State Fault Refusal} (h : t.RunEnds o)
    (hevents : ∀ e ∈ t.events, e ∈ s.events) (hplatform : t.platform = s.platform) : s.RunEnds o := by
  cases h with
  | idle u hu => exact .idle u hu
  | fault e f he hf => exact .fault e f (hevents e he) hf
  | refused e r he hr => exact .refused e r (hevents e he) (hplatform ▸ hr)

theorem run_succ_of_next {M : Host.Core} {s t : M.State} (h : M.step s = .next t) (n : Nat) :
    M.run (n + 1) s = M.run n t := by
  rw [Host.Core.run, h]

theorem run_one (M : Host.Core) (s : M.State) : M.run 1 s = M.step s := by
  rw [Host.Core.run]
  cases M.step s <;> rfl

/-- By induction on the waiting events: each of them stops the run, ends the command, or leaves it in flight with one
event fewer; where none waits the engine completes it. -/
theorem runEnds_of_busy {waiting : List Event} : ∀ {s : State}, s.events = waiting → s.busy = true →
    ∃ n, n ≤ waiting.length + 1 ∧ s.RunEnds (Sys2Proof.core.run n s) := by
  induction waiting with
  | nil =>
    intro s hs hb
    refine ⟨1, Nat.le_refl _, ?_⟩
    have hrun : Sys2Proof.core.run 1 s = engineTurn s := (run_one Sys2Proof.core s).trans (step_of_no_event hs)
    rw [hrun, engineTurn_eq, if_pos hb]
    exact .idle _ (complete_busy _ s)
  | cons e rest ih =>
    intro s hs hb
    have he : e ∈ s.events := hs ▸ List.mem_cons_self
    have hone : 1 ≤ (e :: rest).length + 1 := Nat.le_add_left 1 _
    have hrun : Sys2Proof.core.run 1 s = runEvent e { s with events := rest } :=
      (run_one Sys2Proof.core s).trans (step_of_event hs)
    obtain ⟨t, ht⟩ | ⟨f, hx, hf⟩ | ⟨r, hx, hr⟩ := runEvent_cases e { s with events := rest }
    · cases hbt : t.busy
      · exact ⟨1, hone, by rw [hrun, ht]; exact .idle t hbt⟩
      · have htrans := runEvent_transition ht
        obtain ⟨n, hn, hend⟩ := ih htrans.events_kept hbt
        refine ⟨n + 1, Nat.succ_le_succ hn, ?_⟩
        have hfirst : step s = .next t := (step_of_event hs).trans ht
        rw [run_succ_of_next (M := Sys2Proof.core) hfirst]
        refine hend.of_next (fun d hd => ?_) htrans.platform_kept
        rw [htrans.events_kept] at hd
        exact hs ▸ List.mem_cons_of_mem e hd
    · exact ⟨1, hone, by rw [hrun, hx]; exact .fault e f he hf⟩
    · exact ⟨1, hone, by rw [hrun, hx]; exact .refused e r he hr⟩

/-- Settles O20: `runEnds_of_busy`, with the stops written out. -/
theorem commandInFlightEnds : Obligations.CommandInFlightEnds := by
  unfold Obligations.CommandInFlightEnds
  intro s hb
  obtain ⟨n, hn, hend⟩ := runEnds_of_busy rfl hb
  refine ⟨n, hn, ?_⟩
  generalize Sys2Proof.core.run n s = o at hend
  cases hend with
  | idle t ht => exact ht
  | fault e f he hf =>
    obtain ⟨a, hfa, ha, rfl | ⟨b, rfl⟩⟩ := hf
    · exact ⟨a, hfa, ha, .inl he⟩
    · exact ⟨a, hfa, ha, .inr ⟨b, he⟩⟩
  | refused e r he hr =>
    obtain ⟨a, width, rfl | ⟨v, rfl⟩, hra⟩ := hr
    · exact ⟨a, width, .inl he, hra⟩
    · exact ⟨a, width, .inr ⟨v, he⟩, hra⟩

end Sys2Proof.Machine
end

section
/-! SUPPORT. Errors and resets: how a completion with an error ends (R332 to R335, R337), and what a soft reset and the
reset input leave of memory and of the command in flight (R370 to R372); with the statements that rest on them (O5, O14,
O15, O22, O23). -/

namespace Sys2Proof.Machine

/-! ## Completions with an error (R332 to R335, R337) -/

/-- A completion whose validation ends in an error is rejected with that error (R332, R333). -/
theorem complete_rejected {c : Command} {s : State} {e : CmdError} (ho : s.orderly) (h : c.outcome = .error e) :
    rejectedWith s (s.complete c) e.code (e.info (Config.freeWord s.draws 2)) := by
  have hops := sameOperands_complete c s
  rw [complete_raise ho h] at hops ⊢
  exact ⟨⟨rfl, rfl, rfl, rfl, rfl, rfl, rfl, hops, rfl, rfl⟩, fun _ => rfl⟩

theorem inFlight_of_not_decode {s : State} (h : ∀ i, decode s.cmd ≠ .ok i) : s.inFlight = badCommand s.cmd := by
  rw [State.inFlight, commandOfWord]
  cases hd : decode s.cmd with
  | ok i => exact absurd hd (h i)
  | error _ => rfl

/-- Settles O5: the write issues the word (`busWrite_cmd_idle`), and the command in flight is then BAD_CMD's. -/
theorem undecodableWordEndsWithBadCmd : Obligations.UndecodableWordEndsWithBadCmd := by
  unfold Obligations.UndecodableWordEndsWithBadCmd
  intro s w hr hb hd
  refine ⟨busWrite_cmd_idle hr w hb, _, ?_, complete_rejected (c := badCommand w) (e := .badCmd w) rfl rfl⟩
  rw [engineTurn_eq, if_pos (issue_busy s w), inFlight_of_not_decode (s := s.issue w) hd, issue_cmd]

/-- R333, R334: a completion that changes memory ends with DONE or with BUS_ERROR. -/
theorem sameMemory_of_complete_err {c : Command} {s : State} (ho : s.orderly) (herr : (s.complete c).err = true)
    (hcode : (s.complete c).errcode ≠ 0x09#8) : sameMemory s (s.complete c) := by
  obtain ⟨e, hc, -⟩ | ⟨e, hc, hf, -⟩ | ⟨e, hc, hf, -⟩ := settle_cases c s
  · exact (complete_rejected ho hc).2
  · rw [complete_succeed ho hc hf] at herr
    cases herr
  · rw [complete_dataBusError ho hc hf] at hcode
    exact absurd rfl hcode

/-- Settles O22: the first half is `complete_rejected`, the second `sameMemory_of_complete_err`. -/
theorem upFrontErrorsChangeNoMemory : Obligations.UpFrontErrorsChangeNoMemory := by
  unfold Obligations.UpFrontErrorsChangeNoMemory
  intro i s ho
  refine ⟨fun e he => ⟨_, exec_eq i s, complete_rejected ho he⟩, fun t hx herr hcode => ?_⟩
  rw [exec_eq] at hx
  cases hx
  exact sameMemory_of_complete_err ho herr hcode

/-- Settles O23: some accessed byte fails, so the completion is `complete_dataBusError`, which names a failing byte and
scatters the named ones. -/
theorem dataPhaseBusErrorLeavesNamedBytesOpen : Obligations.DataPhaseBusErrorLeavesNamedBytesOpen := by
  unfold Obligations.DataPhaseBusErrorLeavesNamedBytesOpen
  intro i s e bad ho hc hbad hresp
  have hf : s.failing e ≠ [] := List.ne_nil_of_mem (mem_failing_iff.mpr ⟨hbad, hresp⟩)
  obtain ⟨haccess, hfails⟩ := mem_failing_iff.mp (drawAddress_mem (draw := s.draws) hf)
  have hops := sameOperands_complete (commandOf i s) s
  rw [complete_dataBusError ho hc hf] at hops
  exact ⟨_, _, exec_dataBusError ho hc hf, haccess, hfails,
    ⟨rfl, rfl, rfl, rfl, rfl, rfl, rfl, hops, rfl, rfl⟩, fun d hd => read_scatter_inside hd,
    fun d hd => read_fill_of_not_contains hd⟩

/-! ## Resets (R58, R370 to R372) -/

/-- R78, R90: a sound command names no byte of its sources. -/
theorem Command.Sound.namedBytes_not_contains {c : Command} (hc : c.Sound) {r : Region} (hr : r ∈ c.sources) {a : Nat}
    (ha : r.contains a = true) : c.namedBytes.contains a = false := by
  refine Bool.eq_false_iff.mpr fun hn => ?_
  obtain ⟨e, he, hw⟩ := outcome_of_namedBytes hn
  exact Bool.eq_false_iff.mp (hc.apart e he r hr a ha) hw

theorem softReset_mem_of_idle {s : State} (hb : s.busy = false) : s.softReset.mem = s.mem := by
  rw [State.softReset, State.abandonInFlight, if_neg (Bool.eq_false_iff.mp hb), resetRegisters_mem]

/-- R372: where R89 was kept, an abandoned command leaves its named bytes open. -/
theorem abandoned_of_orderly {s : State} (ho : s.orderly) (c : Command) : s.abandoned c = c.namedBytes :=
  (if_neg (Bool.eq_false_iff.mp ho)).trans rfl

theorem softReset_mem_of_busy {s : State} (hb : s.busy = true) (ho : s.orderly) :
    s.softReset.mem = s.mem.scatter s.draws s.inFlight.namedBytes := by
  rw [State.softReset, State.abandonInFlight, if_pos hb, resetRegisters_mem, abandon_mem, abandoned_of_orderly ho]

/-- R372: what the memory `m` is after the command in flight at `s` has been abandoned. -/
structure AbandonedMemory (s : State) (m : Memory) : Prop where
  idle : s.busy = false → m = s.mem
  named : s.busy = true → s.orderly → ∀ a, s.inFlight.namedBytes.contains a = true →
    m.read a = Config.freeByte s.draws a
  unnamed : s.busy = true → s.orderly → ∀ a, s.inFlight.namedBytes.contains a = false → m.read a = s.mem.read a
  sources : s.busy = true → s.orderly → ∀ r ∈ s.inFlight.sources, ∀ a, r.contains a = true → m.read a = s.mem.read a
  outside : s.busy = true → ∀ a, s.inFlight.destination.contains a = false → m.read a = s.mem.read a

theorem softReset_abandonedMemory (s : State) : AbandonedMemory s s.softReset.mem where
  idle := softReset_mem_of_idle
  named hb ho a ha := by rw [softReset_mem_of_busy hb ho, read_scatter_inside ha]
  unnamed hb ho a ha := by
    rw [softReset_mem_of_busy hb ho]
    exact read_fill_of_not_contains ha
  sources hb ho r hr a ha := by
    rw [softReset_mem_of_busy hb ho]
    exact read_fill_of_not_contains ((sound_inFlight s).namedBytes_not_contains hr ha)
  outside _ a ha := by_contra fun hne => Bool.eq_false_iff.mp ha (destination_of_softReset_mem_ne hne).2

/-- CTRL.IE bears on nothing that is abandoned. -/
theorem softReset_setIE_abandonedMemory (s : State) (v : Word) : AbandonedMemory s (s.setIE v).softReset.mem := by
  have h := softReset_abandonedMemory (s.setIE v)
  have hf := inFlight_setIE s v
  exact ⟨h.idle, hf ▸ h.named, hf ▸ h.unnamed, hf ▸ h.sources, hf ▸ h.outside⟩

/-- Settles O14: the write is `busWrite_ctrl`, and memory is as `AbandonedMemory` says. -/
theorem softResetAbandonsCommand : Obligations.SoftResetAbandonsCommand := by
  unfold Obligations.SoftResetAbandonsCommand
  intro s v hr hv
  have hm := softReset_setIE_abandonedMemory s v
  refine ⟨(s.setIE v).softReset, ?_, rfl, rfl, rfl, rfl, rfl, rfl, rfl, hm.idle,
    fun hb ho => ⟨hm.named hb ho, hm.unnamed hb ho⟩, hm.outside, hm.sources⟩
  rw [busWrite_ctrl hr, writeCtrl_of_bit31_set hv]

/-- ID has one offset (R30, R31). -/
theorem regAt_eq_id_iff {off : Nat} (h4 : off % 4 = 0) : regAt off = .id ↔ off = 0 := by
  refine ⟨fun hid => by_contra fun hne => ?_, by rintro rfl; rfl⟩
  unfold regAt at hid
  split at hid
  · split at hid
    · omega
    all_goals cases hid
  · split_ifs at hid

/-- R371: while the reset input is asserted a read returns the reset value. -/
theorem busRead_of_resetRegisters {s : State} (h : s.resetRegisters = s) {off : Nat} (hw : off < 0x100)
    (h4 : off % 4 = 0) : busRead (s.platform.base + off) 32 s =
      .next { s with readData := if off = 0 then 0x52494331#32 else 0#32 } := by
  have hread := readReg_resetRegisters s (regAt off)
  rw [h] at hread
  rw [busRead_at hw h4, hread]
  simp only [regAt_eq_id_iff h4]

/-- Settles O15: asserting is a soft reset with the input held, releasing drops the input alone. -/
theorem hardwareResetHoldsRegisters : Obligations.HardwareResetHoldsRegisters := by
  unfold Obligations.HardwareResetHoldsRegisters
  refine ⟨fun s => ?_, fun s hin hreset => ⟨fun off v hw h4 => ⟨?_, busRead_of_resetRegisters hreset hw h4⟩, ?_⟩⟩
  · have hm := softReset_abandonedMemory s
    refine ⟨assertReset s, rfl, rfl, assertReset_resetRegisters s, hm.idle,
      fun hb ho => ⟨hm.named hb ho, hm.unnamed hb ho, hm.sources hb ho⟩, fun a ha => ?_⟩
    cases hb : s.busy with
    | false => rw [assertReset_mem, hm.idle hb]
    | true => exact hm.outside hb a (ha.resolve_left (by rw [hb]; decide))
  · rw [busWrite_at hw h4, if_pos hin]
  · refine ⟨releaseReset s, rfl, rfl, releaseReset_resetRegisters hreset, rfl, ?_⟩
    rw [← releaseReset_resetRegisters hreset]
    rfl

end Sys2Proof.Machine
end

section
/-! SUPPORT. The register window read after a write (R30, R31, R41 to R50, R378): which register each offset names, what a
write to it makes of the state, and what a read then returns; with the statement that rests on them (O12). -/

namespace Sys2Proof.Machine

/-! ## The offsets of the operand and output registers (R30) -/

theorem regAt_argOffset : ∀ k : Fin 8, regAt (0x20 + 4 * k.val) = .arg k := by decide

theorem regAt_kernelOffset : ∀ k : Fin 9, regAt (0x40 + 4 * k.val) = .kernel k := by decide

theorem regAt_finLow : ∀ j : Fin 3, regAt (0x88 + 8 * j.val) = .fin j false := by decide

theorem regAt_finHigh : ∀ j : Fin 3, regAt (0x8C + 8 * j.val) = .fin j true := by decide

theorem regAt_foutLow : ∀ j : Fin 3, regAt (0xA0 + 8 * j.val) = .fout j false := by decide

theorem regAt_foutHigh : ∀ j : Fin 3, regAt (0xA4 + 8 * j.val) = .fout j true := by decide

/-- R42, R44 to R46, R48: CMD and the operand registers hold what the host writes to them. -/
def Reg.holdsWrites (r : Reg) : Prop := r = .cmd ∨ r.isOperand = true

theorem regAt_holdsWrites {off : Nat}
    (h : off = 0x10 ∨ (0x20 ≤ off ∧ off < 0x64) ∨ off = 0x80 ∨ (0x88 ≤ off ∧ off < 0xA0)) :
    (regAt off).holdsWrites := by
  obtain rfl | ⟨hlo, hhi⟩ | rfl | ⟨hlo, hhi⟩ := h
  · exact .inl rfl
  · obtain harg | hkernel := Nat.lt_or_ge off 0x40
    · obtain ⟨k, hk⟩ := regAt_arg hlo harg
      exact .inr (by rw [hk]; rfl)
    · obtain ⟨k, hk⟩ := regAt_kernel hkernel hhi
      exact .inr (by rw [hk]; rfl)
  · exact .inr rfl
  · obtain ⟨j, high, hj⟩ := regAt_fin hlo hhi
    exact .inr (by rw [hj]; rfl)

/-- R31, R41, R43, R47, R49: the read-only offsets name registers that ignore writes. -/
theorem readOnlyOffset : ∀ off ∈ [0x00, 0x0C, 0x14, 0x18, 0x84, 0xA0, 0xA4, 0xA8, 0xAC, 0xB0, 0xB4],
    off < 0x100 ∧ off % 4 = 0 ∧ regAt off ≠ .cmd ∧ regAt off ≠ .ctrl ∧ regAt off ≠ .status ∧
      (regAt off).isOperand = false := by decide

/-! ## The halves of a colour register (R48) -/

theorem half_withHalf_same (x : F64) (high : Bool) (w : Word) : half (withHalf x high w) high = w := by
  cases high
  · exact BitVec.extractLsb'_append_eq_right
  · exact BitVec.extractLsb'_append_eq_left

/-- R48: a colour register is its HI half above its LO half. -/
theorem append_halves (x : F64) : half x true ++ half x false = x :=
  (BitVec.extractLsb'_append_extractLsb'_eq_extractLsb' rfl).trans BitVec.extractLsb'_eq_self

/-! ## Reading back (R378) -/

section
variable {s : State} (hb : s.busy = false) (v : Word)
include hb

theorem writeReg_arg_idle (k : Fin 8) : s.writeReg (.arg k) v = { s with args := s.args.set k v } := by
  rw [State.writeReg, whenIdle_idle hb]

theorem writeReg_kernel_idle (k : Fin 9) : s.writeReg (.kernel k) v = { s with kernel := s.kernel.set k v } := by
  rw [State.writeReg, whenIdle_idle hb]

theorem writeReg_pixin_idle : s.writeReg .pixin v = { s with pixin := v } := by
  rw [State.writeReg, whenIdle_idle hb]

theorem writeReg_fin_idle (j : Fin 3) (high : Bool) :
    s.writeReg (.fin j high) v = { s with fin := s.fin.set j (withHalf s.fin[j] high v) } := by
  rw [State.writeReg, whenIdle_idle hb]

/-- R42, R44 to R46, R48: CMD and the operand registers read back what was written. -/
theorem readReg_writeReg_same {r : Reg} (h : r.holdsWrites) : (s.writeReg r v).readReg r = v := by
  obtain rfl | h := h
  · rw [State.writeReg, writeCmd_idle hb]
    rfl
  · cases r with
    | arg k =>
      rw [writeReg_arg_idle hb]
      exact Vector.getElem_set_self k.isLt
    | kernel k =>
      rw [writeReg_kernel_idle hb]
      exact Vector.getElem_set_self k.isLt
    | pixin =>
      rw [writeReg_pixin_idle hb]
      rfl
    | fin j high =>
      rw [writeReg_fin_idle hb]
      have hset : (s.fin.set j (withHalf s.fin[j] high v))[j] = withHalf s.fin[j] high v :=
        Vector.getElem_set_self j.isLt
      exact (congrArg (half · high) hset).trans (half_withHalf_same _ _ _)
    | _ => cases h

end

/-- R32, R34: CTRL reads back IE, or 0 after a soft reset. -/
theorem readReg_writeReg_ctrl (s : State) (v : Word) :
    (s.writeReg .ctrl v).readReg .ctrl = if v.getLsbD 31 then 0#32 else v &&& 1#32 := by
  rw [State.writeReg]
  split
  · next h => rw [writeCtrl_of_bit31_set h, ← softReset_resetRegisters, readReg_resetRegisters]; rfl
  · next h =>
    rw [writeCtrl_of_bit31_clear (Bool.eq_false_iff.mpr h), BitVec.and_one_eq_setWidth_ofBool_getLsbD]
    show flagBit (v.getLsbD 0) 0 = _
    cases v.getLsbD 0 <;> rfl

/-- R52, R378: on the bus, a read of such a register after a write to it returns the written word. -/
theorem busRead_after_busWrite {s : State} {off : Nat} (v : Word) (hr : s.inReset = false) (hb : s.busy = false)
    (hw : off < 0x100) (h4 : off % 4 = 0) (h : (regAt off).holdsWrites) :
    ∃ t, busWrite (s.platform.base + off) 32 v s = .next t ∧
      busRead (t.platform.base + off) 32 t = .next { t with readData := v } :=
  ⟨_, busWrite_on hw h4 hr, by rw [busRead_at hw h4, readReg_writeReg_same hb v h]⟩

/-- A read on the bus of the register that an offset names (R30, R52). -/
theorem busRead_of_regAt {s : State} {off : Nat} {r : Reg} (h : regAt off = r) (hw : off < 0x100) (h4 : off % 4 = 0) :
    busRead (s.platform.base + off) 32 s = .next { s with readData := s.readReg r } := by
  rw [busRead_at hw h4, h]

/-- A write on the bus to the register that an offset names (R44 to R48, R52). -/
theorem busWrite_of_regAt {s t : State} {off : Nat} {r : Reg} {v : Word} (hr : s.inReset = false) (h : regAt off = r)
    (hw : off < 0x100) (h4 : off % 4 = 0) (ht : s.writeReg r v = t) :
    busWrite (s.platform.base + off) 32 v s = .next t := by
  rw [busWrite_on hw h4 hr, h, ht]

/-- Settles O12: reading back by `readReg_writeReg_same`, the offsets by the lemmas on `regAt`. -/
theorem readAfterWriteReturnsWhatAccessRulesGive : Obligations.ReadAfterWriteReturnsWhatAccessRulesGive := by
  unfold Obligations.ReadAfterWriteReturnsWhatAccessRulesGive
  refine ⟨fun s v hb => ⟨fun r hr => ?_, fun r hr => ?_, readReg_writeReg_ctrl s v, fun j high => ⟨?_, ?_⟩⟩,
    fun s => ?_, fun s v hr hb => ?_⟩
  · refine readReg_writeReg_same hb v ?_
    obtain rfl | rfl | ⟨k, rfl⟩ | ⟨k, rfl⟩ | ⟨j, high, rfl⟩ := hr
    · exact .inl rfl
    all_goals exact .inr rfl
  · obtain rfl | rfl | rfl | rfl | rfl | rfl | ⟨j, high, rfl⟩ := hr <;> rfl
  · exact readReg_writeReg_operand rfl (by simp) v
  · exact (append_halves _).symm
  · refine ⟨busRead_of_regAt rfl (by decide) rfl, busRead_of_regAt rfl (by decide) rfl,
      busRead_of_regAt rfl (by decide) rfl, busRead_of_regAt rfl (by decide) rfl, busRead_of_regAt rfl (by decide) rfl,
      fun k => busRead_of_regAt (regAt_argOffset k) (by omega) (by omega),
      fun k => busRead_of_regAt (regAt_kernelOffset k) (by omega) (by omega),
      busRead_of_regAt rfl (by decide) rfl, busRead_of_regAt rfl (by decide) rfl,
      fun j => ⟨busRead_of_regAt (regAt_finLow j) (by omega) (by omega),
        busRead_of_regAt (regAt_finHigh j) (by omega) (by omega),
        busRead_of_regAt (regAt_foutLow j) (by omega) (by omega),
        busRead_of_regAt (regAt_foutHigh j) (by omega) (by omega)⟩⟩
  · refine ⟨fun k => busWrite_of_regAt hr (regAt_argOffset k) (by omega) (by omega) (writeReg_arg_idle hb v k),
      fun k => busWrite_of_regAt hr (regAt_kernelOffset k) (by omega) (by omega) (writeReg_kernel_idle hb v k),
      busWrite_of_regAt hr rfl (by decide) rfl (writeReg_pixin_idle hb v),
      fun j => ⟨busWrite_of_regAt hr (regAt_finLow j) (by omega) (by omega) (writeReg_fin_idle hb v j false),
        busWrite_of_regAt hr (regAt_finHigh j) (by omega) (by omega) (writeReg_fin_idle hb v j true)⟩,
      fun off hoff => ?_, fun off h4 hoff => ?_⟩
    · obtain ⟨hw, h4, hcmd, hctrl, hstatus, hoperand⟩ := readOnlyOffset off hoff
      exact busWrite_ignored hw h4 (writeReg_readOnly hcmd hctrl hstatus hoperand v)
    · exact busRead_after_busWrite v hr hb (by omega) h4 (regAt_holdsWrites hoff)

end Sys2Proof.Machine
end

section
/-! SUPPORT. Which bytes each command accesses past its tests, and which of them before its first write (R333 to R335; log
entries 10 and 23): the reads of each family, as positions of its buffers; with AccessedBytesDecideBusError (O60), which
puts the families together. -/

namespace Sys2Proof.Machine

/-! ## How a command ends by the bytes it accesses (R333 to R335) -/

/-- The instruction ends by the bytes it accesses: `first` before its first write, `read` in all, and the bytes that it
writes. -/
def State.EndsBy (s : State) (i : Instr) (first : List Nat) (read : Nat → Prop) (base len : Nat) : Prop :=
  ∃ t, exec i s = .next t ∧ endsByAccesses s t first (fun a => read a ∨ (base ≤ a ∧ a < base + len)) base len

section
variable {s : State} {i : Instr} {first : List Nat} {e : Effect} {read : Nat → Prop}

/-- Past its tests a command ends by its reads before the first write and by its data-phase reads. -/
theorem endsBy_of_reads (ho : s.orderly) (hc : (commandOf i s).outcome = (s.checkedReads first >>= fun _ => .ok e))
    (hread : ∀ a, a ∈ e.reads ↔ read a) : s.EndsBy i first read e.written.base e.written.len :=
  exec_endsByAccesses ho hc (fun a ha => .inl ((hread a).mp ha)) fun a ha => (hread a).mpr ha

/-- A command whose first data access is a write reads nothing before it. -/
theorem endsBy_of_ok (ho : s.orderly) (hc : (commandOf i s).outcome = .ok e) (hread : ∀ a, a ∈ e.reads ↔ read a) :
    s.EndsBy i [] read e.written.base e.written.len :=
  endsBy_of_reads ho hc hread

/-- Of the reads before the first write only the first that does not respond matters (R335). -/
theorem endsBy_of_find?_eq {first' : List Nat} {base len : Nat} (h : s.EndsBy i first read base len)
    (hfind : first'.find? (fun a => !s.responds a) = first.find? (fun a => !s.responds a)) :
    s.EndsBy i first' read base len := by
  obtain ⟨t, hx, hends⟩ := h
  refine ⟨t, hx, ?_⟩
  rw [endsByAccesses, hfind]
  exact hends

end

/-! ## The reads of a loop over a buffer (R79) -/

theorem grayAddress_origin (b w : Nat) : grayAddress b w 0 0 = b := by simp [grayAddress]

theorem pixelAddress_origin (b w : Nat) : pixelAddress b w 0 0 0 = b := by simp [pixelAddress]

section
variable {w h a : Nat}

theorem mem_map_raster {f : Nat × Nat → Nat} :
    a ∈ (rasterPositions w h).map f ↔ ∃ x y, x < w ∧ y < h ∧ a = f (x, y) := by
  simp only [List.mem_map, Prod.exists, mem_rasterPositions, and_assoc, eq_comm]

theorem mem_flatMap_raster {f : Nat × Nat → List Nat} {p : Nat → Nat → Prop}
    (hf : ∀ x y, x < w → y < h → (a ∈ f (x, y) ↔ p x y)) :
    a ∈ (rasterPositions w h).flatMap f ↔ ∃ x y, x < w ∧ y < h ∧ p x y := by
  simp only [List.mem_flatMap, Prod.exists, mem_rasterPositions, and_assoc]
  exact exists_congr fun x => exists_congr fun y => and_congr_right fun hx => and_congr_right fun hy => hf x y hx hy

/-- The same where a pixel's reads are said channel by channel. -/
theorem mem_flatMap_raster_channels {γ : Type} {f : Nat × Nat → List Nat} {p : Nat → Nat → γ → Prop}
    (hf : ∀ x y, x < w → y < h → (a ∈ f (x, y) ↔ ∃ c, p x y c)) :
    a ∈ (rasterPositions w h).flatMap f ↔ ∃ x y c, x < w ∧ y < h ∧ p x y c :=
  (mem_flatMap_raster hf).trans <| by simp only [exists_and_left]

theorem mem_flatMap_channels {f : Nat → List Nat} : a ∈ [0, 1, 2, 3].flatMap f ↔ ∃ c : Fin 4, a ∈ f c.val := by
  simp [Fin.exists_fin_succ]

end

/-! ## The decoders (R151, R152) -/

section
variable {s : State} {i : Instr} {need : Gb7Header → Nat} {firstReads reads : Gb7Header → List Nat}
  {pixel : Gb7Header → Nat → Nat → Byte}

/-- Past its tests a decoder is left with the reads of pixel 0 (R333). -/
theorem decoder_outcome {h : Gb7Header} (hd : Decodes i s need firstReads reads pixel)
    (hbuf : checkedBuffers (s.arg 0) (s.arg 1) (s.arg 2) (s.arg 3))
    (hheader : readGb7Header s (s.arg 0) (s.arg 1) = .ok h) (hneed : need h ≤ s.arg 1)
    (hcap : h.width * h.height ≤ s.arg 3) :
    (commandOf i s).outcome = (s.checkedReads (beforeFirstWrite (h.width * h.height) (firstReads h)) >>= fun _ =>
      .ok { writeGray (s.arg 2) h.width h.height (pixel h) (reads h) with
        result0 := h.result0, result1 := h.result1 }) := by
  rw [Command.outcome, hd.args, hd.body, gb7DecodeArgs, bufferChecks_ok hbuf, ok_bind, decoderBody, hheader, ok_bind,
    decide_eq_false (by omega), raiseIf_false, ok_bind, decide_eq_false (by omega), raiseIf_false, ok_bind]

end

/-- The bytes of the mask plane are those that its pixels name (R148). -/
theorem within_maskPlane {S W H a : Nat} :
    (S + 12 + W * H ≤ a ∧ a < S + 12 + W * H + H * maskRowBytes W) ↔
      ∃ x y, x < W ∧ y < H ∧ a = maskAddress S W H x y := by
  rw [Nat.mul_comm H, within_grayRegion]
  constructor
  · rintro ⟨j, y, hj, hy, rfl⟩
    have hcol : 8 * j < W := by
      unfold maskRowBytes at hj
      omega
    exact ⟨8 * j, y, hcol, hy, by rw [maskAddress, grayAddress, Nat.mul_div_cancel_left j (by decide)]⟩
  · rintro ⟨x, y, hx, hy, rfl⟩
    exact ⟨x / 8, y, maskByte_lt hx, hy, rfl⟩

theorem mem_planePixelReads {S x y a : Nat} {h : Gb7Header} : a ∈ planePixelReads S h x y ↔
    a = grayAddress (S + 12) h.width x y ∨ (h.hasMask = true ∧ a = maskAddress S h.width h.height x y) := by
  rw [planePixelReads, List.mem_cons]
  cases h.hasMask <;> simp

/-- GB7_DEC_PLANE reads its gray plane and, where there is one, its mask plane (R152). -/
theorem mem_planeReads {S a : Nat} {h : Gb7Header} :
    a ∈ (rasterPositions h.width h.height).flatMap (fun (x, y) => planePixelReads S h x y) ↔
      S + 12 ≤ a ∧ a < S + 12 + (h.width * h.height + h.planeBytes) := by
  have hgray := within_grayRegion (base := S + 12) (w := h.width) (h := h.height) (a := a)
  have hmask := within_maskPlane (S := S) (W := h.width) (H := h.height) (a := a)
  rw [mem_flatMap_raster fun x y _ _ => mem_planePixelReads]
  simp only [and_or_left, exists_or, ← hgray]
  cases hm : h.hasMask with
  | true =>
    simp only [true_and, ← hmask, Gb7Header.planeBytes, hm, if_true]
    omega
  | false =>
    simp [Gb7Header.planeBytes, hm]

section
variable {s : State} {version flags : Byte} {W H : Nat} (ho : s.orderly)
  (hheader : Gb7HeaderAt s.mem (s.arg 0) version flags W H) (hresp : s.respondsOn (s.arg 0) 12)
  (hbuf : checkedBuffers (s.arg 0) (s.arg 1) (s.arg 2) (s.arg 3)) (hcap : W * H ≤ s.arg 3)
include ho hheader hresp hbuf hcap

theorem gb7Dec_endsBy (hlen : 12 + W * H ≤ s.arg 1) :
    s.EndsBy .gb7Dec (beforeFirstWrite (W * H) [s.arg 0 + 12])
      (fun a => s.arg 0 + 12 ≤ a ∧ a < s.arg 0 + 12 + W * H) (s.arg 2) (W * H) := by
  have hc := decoder_outcome (decodes_gb7Dec s) hbuf (readGb7Header_ok ho hheader (by omega) le_rfl hresp) hlen hcap
  rw [grayAddress_origin] at hc
  exact endsBy_of_reads ho hc fun a => mem_map_raster.trans within_grayRegion.symm

theorem gb7DecPlane_endsBy (hlen : 12 + W * H + (if flags.getLsbD 0 then H * ((W + 7) / 8) else 0) ≤ s.arg 1) :
    s.EndsBy .gb7DecPlane
      (beforeFirstWrite (W * H)
        (if flags.getLsbD 0 then [s.arg 0 + 12, s.arg 0 + 12 + W * H] else [s.arg 0 + 12]))
      (fun a => s.arg 0 + 12 ≤ a ∧
        a < s.arg 0 + 12 + (W * H + if flags.getLsbD 0 then H * ((W + 7) / 8) else 0)) (s.arg 2) (W * H) := by
  have hc := decoder_outcome (decodes_gb7DecPlane s) hbuf (readGb7Header_ok ho hheader (by omega) le_rfl hresp) hlen
    hcap
  have hfirst : planePixelReads (s.arg 0) ⟨version, flags, W, H⟩ 0 0 =
      if flags.getLsbD 0 then [s.arg 0 + 12, s.arg 0 + 12 + W * H] else [s.arg 0 + 12] := by
    rw [planePixelReads, grayAddress_origin, Gb7Header.hasMask]
    cases flags.getLsbD 0 <;> simp [maskAddress]
  rw [hfirst] at hc
  exact endsBy_of_reads ho hc fun a => mem_planeReads

end

/-! ## The encoders (R153, R154) -/

theorem encoder_endsBy {s : State} {i : Instr} {fm hasAlpha : Bool} {length : Bool → Nat} {byte : Bool → Nat → Byte}
    (ho : s.orderly) (he : Encodes i s fm length byte) (hW : s.arg 1 ≤ 65535) (hH : s.arg 2 ≤ 65535)
    (hbuf : checkedBuffers (s.arg 0) (4 * s.arg 1 * s.arg 2) (s.arg 3) (s.arg 4))
    (ha : streamHasAlpha s.mem fm (s.arg 0) (s.arg 1) (s.arg 2) hasAlpha)
    (hscan : fm = true ∨ ∀ q, ¬ alphaScanFailsAt s (s.arg 0) (s.arg 1 * s.arg 2) q) (hcap : length hasAlpha ≤ s.arg 4) :
    s.EndsBy i [] (fun a => ∃ x y c, x < s.arg 1 ∧ y < s.arg 2 ∧ (c < 3 ∨ (c = 3 ∧ hasAlpha = true)) ∧
      a = pixelAddress (s.arg 0) (s.arg 1) x y c) (s.arg 3) (length hasAlpha) :=
  endsBy_of_ok ho ((encoder_outcome he hW hH hbuf).trans (encoderBody_fits (encoderHasAlpha_ok ho hscan ha) hcap))
    fun _ => mem_encoderReads

/-! ## GB7_RENDER (R156) -/

theorem gb7Render_endsBy {s : State} (d8 : Bool) (ho : s.orderly)
    (hbuf : checkedBuffers (s.arg 0) (s.arg 1 * s.arg 2) (s.arg 3) (4 * s.arg 1 * s.arg 2)) :
    s.EndsBy (.gb7Render d8) (beforeFirstWrite (s.arg 1 * s.arg 2) [s.arg 0])
      (fun a => s.arg 0 ≤ a ∧ a < s.arg 0 + s.arg 1 * s.arg 2) (s.arg 3) (4 * s.arg 1 * s.arg 2) := by
  have hc := outcome_of_reads (c := commandOf (.gb7Render d8) s) (bufferChecks_ok hbuf) rfl
  rw [grayAddress_origin] at hc
  exact endsBy_of_reads ho hc fun a => mem_map_raster.trans within_grayRegion.symm

/-! ## COMPOSITE (R234, R239) -/

/-- The bytes that a layer shows: its whole buffer, or, where there is a pixel, its colour (R234). -/
theorem exists_layerAddress_iff {src : LayerSource} {W H a : Nat} :
    (∃ x y c, x < W ∧ y < H ∧ c < 4 ∧ a = src.address W x y c) ↔ ∃ base,
      (src = .image base ∧ base ≤ a ∧ a < base + 4 * W * H) ∨
      (src = .color base ∧ 0 < W * H ∧ base ≤ a ∧ a < base + 4) := by
  cases src with
  | image b =>
    simp only [LayerSource.image.injEq, reduceCtorEq, false_and, or_false, exists_eq_left', within_pixelRegion]
    rfl
  | color b =>
    simp only [LayerSource.color.injEq, reduceCtorEq, false_and, false_or, exists_eq_left']
    constructor
    · rintro ⟨x, y, c, hx, hy, hc, rfl⟩
      exact ⟨Nat.mul_pos (Nat.zero_lt_of_lt hx) (Nat.zero_lt_of_lt hy), Nat.le_add_right b c, Nat.add_lt_add_left hc b⟩
    · rintro ⟨hpos, hlo, hhi⟩
      obtain ⟨hW, hH⟩ := CanonicallyOrderedAdd.mul_pos.mp hpos
      exact ⟨0, 0, a - b, hW, hH, by omega, (Nat.add_sub_cancel' hlo).symm⟩

theorem composite_endsBy {s : State} (ho : s.orderly)
    (hbuf : checkedBuffers (s.arg 0) (32 * s.arg 1) (s.arg 4) (4 * s.arg 2 * s.arg 3))
    (hv : ∀ i, i < s.arg 1 → descriptorReadable s (s.arg 0 + 32 * i) (s.arg 2) (s.arg 3) ∧
      descriptorPasses s.mem (s.arg 0 + 32 * i) (s.arg 2) (s.arg 3) (s.arg 4)) :
    s.EndsBy .composite []
      (fun a => ∃ l ∈ contributingLayers s.mem (s.arg 0) (s.arg 1) (s.arg 2) (s.arg 3), ∃ base,
        (l.source = .image base ∧ base ≤ a ∧ a < base + 4 * s.arg 2 * s.arg 3) ∨
        (l.source = .color base ∧ 0 < s.arg 2 * s.arg 3 ∧ base ≤ a ∧ a < base + 4))
      (s.arg 4) (4 * s.arg 2 * s.arg 3) := by
  have hpre := prepass_ok (T := s.arg 0) (W := s.arg 2) (H := s.arg 3) (D := s.arg 4) (n := s.arg 1) ho 0
    (fun j _ hj => (hv j (by omega)).1) (fun j _ hj => (hv j (by omega)).2)
  rw [← List.range_eq_range'] at hpre
  have hc : (commandOf .composite s).outcome =
      .ok (compositeEffect s (contributingLayers s.mem (s.arg 0) (s.arg 1) (s.arg 2) (s.arg 3))) := by
    refine outcome_ok_iff.mpr ⟨bufferChecks_ok hbuf, ?_⟩
    show (prepass s _ _ _ _ _ _ >>= _) = _
    rw [hpre]
    rfl
  exact endsBy_of_ok ho hc fun a =>
    mem_compositeEffect_reads.trans (exists_congr fun l => and_congr_right fun _ => exists_layerAddress_iff)

/-! ## The resampling commands (R250 to R258) -/

/-- R252: the four neighbours of a coordinate, over natural numbers, in the order in which the pseudocode writes them. -/
def neighbourGrid (sw sh : Nat) (u v : ℚ) : List (Nat × Nat) :=
  [(u.floor.toNat, v.floor.toNat), (min (u.floor.toNat + 1) (sw - 1), v.floor.toNat),
    (u.floor.toNat, min (v.floor.toNat + 1) (sh - 1)),
    (min (u.floor.toNat + 1) (sw - 1), min (v.floor.toNat + 1) (sh - 1))]

theorem neighbours_eq_grid {sw sh : Nat} {u v : ℚ} (hu : 0 ≤ u) (hv : 0 ≤ v) (hw : 0 < sw) (hh : 0 < sh) :
    neighbours sw sh u v = neighbourGrid sw sh u v := neighbours_eq hu hv hw hh

section
variable {s : State} (ho : s.orderly) (hSW : 0 < s.arg 1) (hSH : 0 < s.arg 2) (hDW : 0 < s.arg 4) (hDH : 0 < s.arg 5)
include ho hSW hSH hDW hDH

section
variable (hbuf : checkedBuffers (s.arg 0) (4 * s.arg 1 * s.arg 2) (s.arg 3) (4 * s.arg 4 * s.arg 5))
include hbuf

theorem rsRgbaNearest_endsBy : s.EndsBy .rsRgbaNearest
    [pixelAddress (s.arg 0) (s.arg 1) (rgbaNearestMap 0 (s.arg 1) (s.arg 4)) (rgbaNearestMap 0 (s.arg 2) (s.arg 5)) 0]
    (fun a => ∃ x y c, x < s.arg 4 ∧ y < s.arg 5 ∧ c < 4 ∧ a = pixelAddress (s.arg 0) (s.arg 1)
      (rgbaNearestMap x (s.arg 1) (s.arg 4)) (rgbaNearestMap y (s.arg 2) (s.arg 5)) c)
    (s.arg 3) (4 * s.arg 4 * s.arg 5) := by
  have hc := outcome_of_reads (c := commandOf .rsRgbaNearest s) (resampleArgs_passes hSW hSH hDW hDH hbuf) rfl
  exact endsBy_of_reads ho hc fun a => mem_flatMap_raster_channels fun x y _ _ => mem_pixelAddresses

theorem rsRgbaBilinear_endsBy : s.EndsBy .rsRgbaBilinear
    ((neighbourGrid (s.arg 1) (s.arg 2) (halfPixelMap 0 (s.arg 1) (s.arg 4)) (halfPixelMap 0 (s.arg 2) (s.arg 5))).map
      fun p => pixelAddress (s.arg 0) (s.arg 1) p.1 p.2 0)
    (fun a => ∃ x y c, x < s.arg 4 ∧ y < s.arg 5 ∧ c < 4 ∧
      ∃ p ∈ neighbourGrid (s.arg 1) (s.arg 2) (halfPixelMap x (s.arg 1) (s.arg 4)) (halfPixelMap y (s.arg 2) (s.arg 5)),
        a = pixelAddress (s.arg 0) (s.arg 1) p.1 p.2 c)
    (s.arg 3) (4 * s.arg 4 * s.arg 5) := by
  have hgrid (x y : Nat) := neighbours_eq_grid (halfPixelMap_bounds (i := x) (dd := s.arg 4) hSW).1
    (halfPixelMap_bounds (i := y) (dd := s.arg 5) hSH).1 hSW hSH
  have hc := outcome_of_reads (c := commandOf .rsRgbaBilinear s) (resampleArgs_passes hSW hSH hDW hDH hbuf) rfl
  rw [hgrid] at hc
  refine endsBy_of_reads ho hc fun a => mem_flatMap_raster_channels fun x y _ _ => ?_
  simp only [hgrid, List.mem_flatMap, mem_pixelAddresses]
  constructor
  · rintro ⟨p, hp, c, hc, rfl⟩
    exact ⟨c, hc, p, hp, rfl⟩
  · rintro ⟨c, hc, p, hp, rfl⟩
    exact ⟨p, hp, c, hc, rfl⟩

end

section
variable (hbuf : checkedBuffers (s.arg 0) (s.arg 1 * s.arg 2) (s.arg 3) (s.arg 4 * s.arg 5)) (d8 : Bool)
include hbuf

theorem rsGrayNearest_endsBy : s.EndsBy (.rsGrayNearest d8)
    [grayAddress (s.arg 0) (s.arg 1) (grayNearestMap 0 (s.arg 1) (s.arg 4)) (grayNearestMap 0 (s.arg 2) (s.arg 5))]
    (fun a => ∃ x y, x < s.arg 4 ∧ y < s.arg 5 ∧ a = grayAddress (s.arg 0) (s.arg 1)
      (grayNearestMap x (s.arg 1) (s.arg 4)) (grayNearestMap y (s.arg 2) (s.arg 5)))
    (s.arg 3) (s.arg 4 * s.arg 5) := by
  have hc := outcome_of_reads (c := commandOf (.rsGrayNearest d8) s) (resampleArgs_passes hSW hSH hDW hDH hbuf) rfl
  exact endsBy_of_reads ho hc fun a => mem_map_raster

theorem rsGrayBilinear_endsBy : s.EndsBy (.rsGrayBilinear d8)
    ((neighbourGrid (s.arg 1) (s.arg 2) (grayLinearMap 0 (s.arg 1) (s.arg 4)) (grayLinearMap 0 (s.arg 2) (s.arg 5))).map
      fun p => grayAddress (s.arg 0) (s.arg 1) p.1 p.2)
    (fun a => ∃ x y, x < s.arg 4 ∧ y < s.arg 5 ∧
      ∃ p ∈ neighbourGrid (s.arg 1) (s.arg 2) (grayLinearMap x (s.arg 1) (s.arg 4)) (grayLinearMap y (s.arg 2) (s.arg 5)),
        a = grayAddress (s.arg 0) (s.arg 1) p.1 p.2)
    (s.arg 3) (s.arg 4 * s.arg 5) := by
  have hgrid {x y : Nat} (hx : x < s.arg 4) (hy : y < s.arg 5) := neighbours_eq_grid (grayLinearMap_bounds hSW hx).1
    (grayLinearMap_bounds hSH hy).1 hSW hSH
  have hc := outcome_of_reads (c := commandOf (.rsGrayBilinear d8) s) (resampleArgs_passes hSW hSH hDW hDH hbuf) rfl
  rw [hgrid hDW hDH] at hc
  refine endsBy_of_reads ho hc fun a => mem_flatMap_raster fun x y hx hy => ?_
  rw [← hgrid hx hy]
  exact List.mem_map.trans (exists_congr fun p => and_congr_right fun _ => eq_comm)

end

end

/-! ## The tone curves (R273 to R275) -/

theorem lutBuild_endsBy {s : State} {i : Instr} {curve : CurvePoint → CurvePoint → Nat → Byte} (ho : s.orderly)
    (hcmd : commandOf i s = lutBuild s curve) (hd : inDataSpace (s.arg 0) 256) :
    s.EndsBy i [] (fun _ => False) (s.arg 0) 256 := by
  have hc : (commandOf i s).outcome = (lutBuild s curve).body := by
    rw [hcmd]
    exact outcome_ok_iff.mpr ⟨checkRange_ok hd, rfl⟩
  exact endsBy_of_ok ho hc fun a => List.mem_nil_iff a

section
variable {ta hr hg hb ha : Bool} {s : State}

/-- R275: the source byte, and the entry that it selects where it responds and its channel is mapped. -/
theorem mem_lutPixelReads (ho : s.orderly) {b w x y a : Nat} (c : Fin 4) :
    a ∈ lutPixelReads s (lutOf ta hr hg hb ha s) b w x y c.val ↔
      a = pixelAddress b w x y c.val ∨ (lutUsed ta hr hg hb ha c = true ∧ s.responds (pixelAddress b w x y c.val) = true ∧
        a = lutBase s c + (s.mem.read (pixelAddress b w x y c.val)).toNat) := by
  rw [lutPixelReads, List.mem_cons, ← byteAt_of_not_raced ho]
  cases hused : lutUsed ta hr hg hb ha c with
  | false => simp [lutOf_of_unused hused, lutEntryRead]
  | true => cases hresp : s.responds (pixelAddress b w x y c.val) <;> simp [lutOf_of_used hused, lutEntryRead, hresp]

/-- Which byte fails first does not change when the entry is listed for a byte that does not respond (log entry 10). -/
theorem find?_firstLutReads (ho : s.orderly) (b w : Nat) :
    (b :: if lutUsed ta hr hg hb ha 0 = true then [lutBase s 0 + (s.mem.read b).toNat] else []).find?
        (fun a => !s.responds a) =
      (lutPixelReads s (lutOf ta hr hg hb ha s) b w 0 0 0).find? (fun a => !s.responds a) := by
  rw [lutPixelReads, pixelAddress_origin, ← byteAt_of_not_raced ho]
  cases hresp : s.responds b with
  | false => simp [hresp]
  | true =>
    cases hused : lutUsed ta hr hg hb ha 0 with
    | false =>
      have hlut : lutOf ta hr hg hb ha s 0 = none := lutOf_of_unused (c := 0) hused
      simp [hlut, lutEntryRead]
    | true =>
      have hlut : lutOf ta hr hg hb ha s 0 = some (lutBase s 0) := lutOf_of_used (c := 0) hused
      simp [hlut, lutEntryRead, hresp]

theorem lutApply_endsBy (ho : s.orderly)
    (hbuf : checkedBuffers (s.arg 0) (4 * s.arg 1 * s.arg 2) (s.arg 3) (4 * s.arg 1 * s.arg 2))
    (hlut : ∀ c, lutUsed ta hr hg hb ha c = true →
      checkedBuffers (lutBase s c) 256 (s.arg 3) (4 * s.arg 1 * s.arg 2)) :
    s.EndsBy (.lutApply ta hr hg hb ha)
      (beforeFirstWrite (s.arg 1 * s.arg 2) (s.arg 0 ::
        if lutUsed ta hr hg hb ha 0 = true then [lutBase s 0 + (s.mem.read (s.arg 0)).toNat] else []))
      (fun a => ∃ (x y : Nat) (c : Fin 4), x < s.arg 1 ∧ y < s.arg 2 ∧
        (a = pixelAddress (s.arg 0) (s.arg 1) x y c.val ∨ (lutUsed ta hr hg hb ha c = true ∧
          s.responds (pixelAddress (s.arg 0) (s.arg 1) x y c.val) = true ∧
          a = lutBase s c + (s.mem.read (pixelAddress (s.arg 0) (s.arg 1) x y c.val)).toNat)))
      (s.arg 3) (4 * s.arg 1 * s.arg 2) := by
  have hchecked : ∀ u ∈ usedLuts ta hr hg hb ha s, checkedBuffers u.base 256 (s.arg 3) (4 * s.arg 1 * s.arg 2) :=
    fun u hu => by
      obtain ⟨hused, hbase⟩ := mem_usedLuts_iff.mp hu
      exact hbase ▸ hlut _ hused
  have hc := outcome_of_reads (c := commandOf (.lutApply ta hr hg hb ha) s) (lutApply_checks_ok hbuf hchecked) rfl
  refine endsBy_of_find?_eq (endsBy_of_reads ho hc fun a => mem_flatMap_raster_channels fun x y _ _ =>
    mem_flatMap_channels.trans (exists_congr fun c => mem_lutPixelReads ho c)) ?_
  unfold beforeFirstWrite
  split
  · rfl
  · exact find?_firstLutReads ho _ _

end

/-! ## CONV3X3 (R290 to R295) -/

section
variable {target : ConvTarget} {apass : Bool} {b w h : Nat}

/-- R290: every read of a convolution is a byte of the source, and each byte is read for its own pixel. -/
theorem mem_convolutionReads {a : Nat} : a ∈ (rasterPositions w h).flatMap (fun (x, y) =>
    [0, 1, 2, 3].flatMap (fun c => convolutionReads target apass b w h x y c)) ↔ b ≤ a ∧ a < b + 4 * w * h := by
  rw [within_pixelRegion, mem_flatMap_raster fun x y _ _ => mem_flatMap_channels]
  constructor
  · rintro ⟨x, y, hx, hy, c, ha⟩
    unfold convolutionReads at ha
    split at ha
    · obtain ⟨k, -, rfl⟩ := List.mem_map.mp ha
      exact ⟨_, _, c, edgeClamp_lt (Nat.zero_lt_of_lt hx), edgeClamp_lt (Nat.zero_lt_of_lt hy), c.isLt, rfl⟩
    · obtain rfl := List.mem_singleton.mp ha
      exact ⟨x, y, c, hx, hy, c.isLt, rfl⟩
  · rintro ⟨x, y, c, hx, hy, hc, rfl⟩
    refine ⟨x, y, hx, hy, ⟨c, hc⟩, ?_⟩
    unfold convolutionReads
    split
    · refine List.mem_map.mpr ⟨4, by decide, ?_⟩
      have hcolumn : edgeClamp x (weightDx 4) w = x :=
        (edgeClamp_eq (k := 1) (Nat.zero_lt_of_lt hx) hx).trans (clamped_middle hx)
      have hrow : edgeClamp y (weightDy 4) h = y :=
        (edgeClamp_eq (k := 1) (Nat.zero_lt_of_lt hy) hy).trans (clamped_middle hy)
      rw [hcolumn, hrow]
    · exact List.mem_singleton_self _

/-- R291, R295: the nine samples of channel 0 of pixel 0, row by row, those beyond the edge clamped to it. -/
theorem convolutionReads_origin_convolved (hw : 0 < w) (hh : 0 < h) (hc : convolved target apass 0 = true) :
    convolutionReads target apass b w h 0 0 0 =
      [pixelAddress b w 0 0 0, pixelAddress b w 0 0 0, pixelAddress b w (min 1 (w - 1)) 0 0,
        pixelAddress b w 0 0 0, pixelAddress b w 0 0 0, pixelAddress b w (min 1 (w - 1)) 0 0,
        pixelAddress b w 0 (min 1 (h - 1)) 0, pixelAddress b w 0 (min 1 (h - 1)) 0,
        pixelAddress b w (min 1 (w - 1)) (min 1 (h - 1)) 0] := by
  simp only [convolutionReads, hc, if_true, weightDx, weightDy, edgeClamp_eq hw hw, edgeClamp_eq hh hh]
  simp [weightIndices, Nat.min_comm]

theorem convolutionReads_origin_copied (hc : convolved target apass 0 = false) :
    convolutionReads target apass b w h 0 0 0 = [b] := by
  simp [convolutionReads, hc, pixelAddress_origin]

end

theorem conv3x3_endsBy {s : State} {tgt norm : BitVec 2} (apass : Bool) (ho : s.orderly) (htgt : tgt ≠ 0b11#2)
    (hnorm : norm ≠ 0b11#2) (hW : 0 < s.arg 1) (hH : 0 < s.arg 2)
    (hfinite : ∀ k : Fin 9, (s.kernel[k].extractLsb' 23 8) ≠ 0xFF#8)
    (hbuf : checkedBuffers (s.arg 0) (4 * s.arg 1 * s.arg 2) (s.arg 3) (4 * s.arg 1 * s.arg 2)) :
    let left := pixelAddress (s.arg 0) (s.arg 1) 0
    let right := pixelAddress (s.arg 0) (s.arg 1) (min 1 (s.arg 1 - 1))
    let below := min 1 (s.arg 2 - 1)
    s.EndsBy (.conv3x3 tgt norm apass)
      (if tgt = 0b01#2 then [s.arg 0]
       else [left 0 0, left 0 0, right 0 0, left 0 0, left 0 0, right 0 0, left below 0, left below 0, right below 0])
      (fun a => s.arg 0 ≤ a ∧ a < s.arg 0 + 4 * s.arg 1 * s.arg 2) (s.arg 3) (4 * s.arg 1 * s.arg 2) := by
  intro left right below
  obtain ⟨T, N, hcmd, -, hconv⟩ := conv3x3_eq_convolveCommand htgt hnorm apass s
  have hc := outcome_of_reads (c := convolveCommand T N apass s)
    (convolveCommand_args_ok hW hH (checkWeights_ok hfinite) hbuf) rfl
  have hfirst : convolutionReads T apass (s.arg 0) (s.arg 1) (s.arg 2) 0 0 0 = if tgt = 0b01#2 then [s.arg 0]
      else [left 0 0, left 0 0, right 0 0, left 0 0, left 0 0, right 0 0, left below 0, left below 0, right below 0] := by
    have hzero := hconv 0 (by decide)
    split
    · next h => exact convolutionReads_origin_copied (Bool.eq_false_iff.mpr (by simp [hzero, h]))
    · next h =>
      obtain rfl | rfl | rfl := field_cases htgt
      · exact convolutionReads_origin_convolved hW hH (hzero.mpr (by simp))
      · exact absurd rfl h
      · exact convolutionReads_origin_convolved hW hH (hzero.mpr (by simp))
  rw [hfirst, ← hcmd] at hc
  exact endsBy_of_reads ho hc fun a => mem_convolutionReads

/-! ## The statement -/

/-- Settles O60: one lemma per family; the gray path's nearest map by `grayNearestMap_eq`. -/
theorem accessedBytesDecideBusError : Obligations.AccessedBytesDecideBusError := by
  unfold Obligations.AccessedBytesDecideBusError
  intro s ho within ends ifAny
  refine ⟨fun version flags W H hheader hresp hbuf hcap => ?_, fun fm hasAlpha hW hH hbuf ha hscan => ?_,
    fun d8 hbuf => gb7Render_endsBy d8 ho hbuf, composite_endsBy ho, fun hSW hSH hDW hDH => ?_,
    fun hd i hi => ?_, fun ta hr hg hb ha hbuf hlut => lutApply_endsBy ho hbuf hlut,
    fun tgt norm apass htgt hnorm hW hH hfinite hbuf => conv3x3_endsBy apass ho htgt hnorm hW hH hfinite hbuf⟩
  · exact ⟨gb7Dec_endsBy ho hheader hresp hbuf hcap, gb7DecPlane_endsBy ho hheader hresp hbuf hcap⟩
  · exact ⟨encoder_endsBy ho (encodes_gb7Enc s fm) hW hH hbuf ha hscan,
      encoder_endsBy ho (encodes_gb7EncInline s fm) hW hH hbuf ha hscan⟩
  · refine ⟨fun hbuf => ⟨rsRgbaNearest_endsBy ho hSW hSH hDW hDH hbuf, rsRgbaBilinear_endsBy ho hSW hSH hDW hDH hbuf⟩,
      fun hbuf d8 => ⟨?_, rsGrayBilinear_endsBy ho hSW hSH hDW hDH hbuf d8⟩⟩
    have h := rsGrayNearest_endsBy ho hSW hSH hDW hDH hbuf d8
    simp only [grayNearestMap_eq hSW, grayNearestMap_eq hSH] at h
    exact h
  · obtain rfl | rfl := List.mem_pair.mp hi
    · exact lutBuild_endsBy (curve := ramp) ho rfl hd
    · exact lutBuild_endsBy (curve := flat) ho rfl hd

end Sys2Proof.Machine
end
